-- ==== Sys2Proof/Word.lean ====
section
/-! DEFINITION. The words of the Zhevolo Z6: register widths of R12 and R47, and the sparse tables the state is written in.
A table is a list of key and value pairs; what an unlisted key stands for is said where the table is used. -/

namespace Sys2Proof

/-- A scalar register's content (R64, R86). -/
abbrev Word := BitVec 64
/-- One byte (R5). -/
abbrev Byte := BitVec 8
/-- A vector register's content (R103). -/
abbrev Vec := BitVec 512
/-- A register number of a five-bit field (R47): x0 to x31, or v0 to v31. -/
abbrev Reg := BitVec 5
/-- A mask register number, m0 to m7 (R47). -/
abbrev MReg := BitVec 3
/-- A task id (R11, R24): partition in [31:28], sequence number in [27:0]. -/
abbrev TaskId := BitVec 32

/-- Sparse data by key. -/
abbrev Table (α : Type) := List (Nat × α)

/-- The value a table lists for a key. -/
def Table.get? {α : Type} : Table α → Nat → Option α
  | [], _ => none
  | (k, v) :: r, j => if k = j then some v else Table.get? r j

/-- Lists `v` for key `k`, in the place of any earlier value, keeping the keys rising. -/
def Table.set {α : Type} : Table α → Nat → α → Table α
  | [], k, v => [(k, v)]
  | (k', v') :: r, k, v =>
    if k = k' then (k, v) :: r
    else if k < k' then (k, v) :: (k', v') :: r
    else (k', v') :: Table.set r k v

/-- Drops a key from the table. -/
def Table.erase {α : Type} (t : Table α) (k : Nat) : Table α := t.filter (fun e => e.1 ≠ k)

/-- The value listed for a key, or `d` where the table lists none. -/
def Table.getD {α : Type} (t : Table α) (k : Nat) (d : α) : α := (Table.get? t k).getD d

end Sys2Proof
end

