-- ==== Sys2Proof/Syntax.lean ====
section
/-! DEFINITION. The syntax of the Zhevolo Z6: the operand kinds of R47 to R56 and one constructor of `Instr` for each row of
spec/opcode_table.json. The rows that have an encoding carry their encoding's length and switch mark in `k`; the rows that are
device events carry as plain data what the event is about. -/

namespace Sys2Proof

/-- The length code of R41. -/
inductive Len where
  | l64 | l96 | l128
  deriving DecidableEq, Repr

/-- L of R44, in bytes. -/
def Len.bytes : Len → Nat
  | .l64 => 8
  | .l96 => 12
  | .l128 => 16

/-- What every encoding carries besides its operands: the length code and the switch mark (R45, R46). -/
structure Enc where
  len  : Len
  mark : Bool
  deriving DecidableEq, Repr

/-- The sixteen element types of R52. -/
inductive Elem where
  | s8 | s16 | s32 | s64 | z8 | z16 | z32 | z64 | f16 | bf16 | f32 | f64 | e4m3 | e5m2 | t8 | t6
  deriving DecidableEq, Repr

/-- The placement modes of R53. -/
inductive Space where
  | l | n | i | g
  deriving DecidableEq, Repr

/-- The ordering codes of R54. -/
inductive Ordering where
  | none | acq | rel | un
  deriving DecidableEq, Repr

/-- The scope codes of R55; a rectangle names the scalar register that holds it (R51). -/
inductive Scope where
  | unwritten | thread | core | cluster | package | fabric
  | rect (r : Reg)
  deriving DecidableEq, Repr

/-- The condition codes of R56. -/
inductive Cond where
  | eq | ne | lt | ge | ltu | geu | le | gt | leu | gtu
  deriving DecidableEq, Repr

/-- The rounding suffixes of R68. -/
inductive Rnd where
  | rne | rtz | rdn | rup
  deriving DecidableEq, Repr

/-- Where a bit-buffer instruction takes its width from (R98). -/
inductive BitCount where
  | imm (n : BitVec 8)
  | reg (b : Reg)
  deriving DecidableEq, Repr

/-- The b operand of a vector instruction with the immediate form (R107). -/
inductive VSrc where
  | reg (b : Reg)
  | imm (w : Word)
  deriving DecidableEq, Repr

/-- Where a slide, extract or insert takes its count or index from (R115). -/
inductive LaneSrc where
  | imm (n : BitVec 8)
  | reg (b : Reg)
  deriving DecidableEq, Repr

/-- The scale modes of VCVT (R111). -/
inductive ScaleMode where
  | none | mul | div
  deriving DecidableEq, Repr

/-- The timeout operand of MEET (R267). -/
inductive Timeout where
  | imm (n : BitVec 24)
  | reg (b : Reg)
  deriving DecidableEq, Repr

/-- The memory operand of form M (R50, R144): base register, sign-extended byte offset, placement. -/
structure MemOp where
  base : Reg
  off  : Word
  pl   : Space
  deriving DecidableEq, Repr

/-- The fields of a job descriptor that every enqueuing instruction shares (R216). `breg` 0 names no barrier word. -/
structure JobDesc where
  sc   : Scope
  breg : Reg
  bpl  : Space
  deriving DecidableEq, Repr

/-- The control registers of R292. -/
inductive CtlReg where
  | task | mult | mstat | group | fgroup | stealdom | fstat | tidbase | adoptmax | savebase | deqbase | asid | priv | slot | part
  deriving DecidableEq, Repr

/-- The fault classes of R281. -/
inductive FaultClass where
  | illegal | fetchBoundary | misalign | translation | permission | overRead | underRead | mult | scale | redundant | ecc
  | partitionKey | barrierAbandon | brk | step | svc | job
  deriving DecidableEq, Repr

/-- The class codes of R281. -/
def FaultClass.code : FaultClass → BitVec 8
  | .illegal => 0x01 | .fetchBoundary => 0x02 | .misalign => 0x03 | .translation => 0x04 | .permission => 0x05
  | .overRead => 0x06 | .underRead => 0x07 | .mult => 0x08 | .scale => 0x09 | .redundant => 0x0A | .ecc => 0x0B
  | .partitionKey => 0x0C | .barrierAbandon => 0x0D | .brk => 0x0E | .step => 0x0F | .svc => 0x10 | .job => 0x11

/-- A task record (R25), its reserved bits left out. -/
structure TaskRecord where
  lreq   : BitVec 16
  group  : BitVec 16
  det    : Bool
  pin    : Bool
  dom    : BitVec 2
  fplace : BitVec 2
  future : BitVec 56
  mult   : BitVec 32
  owner  : TaskId
  taskid : TaskId
  arg3   : Word
  arg2   : Word
  arg1   : Word
  arg0   : Word
  entry  : Word
  deriving DecidableEq, Repr

/-- Who sent a message (R33): a core of this package, a host function, or a core of another package. -/
inductive Sender where
  | core (c : Nat)
  | host (fn : Nat)
  | package (pkg core : Nat)
  deriving DecidableEq, Repr

/-- An active message or a FORK.AT delivery on its way to a core (R32, R237). `hasId` says the task id was given by FORK.AT;
`colour` is the sender's colour and `counted` whether the message is one R289 counts. -/
structure Message where
  target  : Nat
  part    : Nat
  record  : TaskRecord
  hasId   : Bool
  colour  : Bool
  counted : Bool
  source  : Sender
  deriving DecidableEq, Repr

/-- The atomic operations another package may ask of a home slice (R173, R178). -/
inductive FabricOp where
  | add | and | or | xor | min | max | swap | cas (new : Word) | fadd
  deriving DecidableEq, Repr

/-- What a fabric packet asks of this package (R173, R317): a message for a core from a core of another package, or a load, a store (the
write-back of a line's dirty bytes among them) or an atomic of multiplicity `mult` at a home slice. -/
inductive FabricPacket where
  | message (pkg core : Nat) (m : Message)
  | store (pa : Nat) (n : Nat) (val : BitVec 1024)
  | load (pa : Nat) (n : Nat)
  | atomic (op : FabricOp) (t : Elem) (pa : Nat) (mult : BitVec 32) (arg : Word)
  deriving DecidableEq, Repr

/-- How a host request reaches a function (R320, R321, R323): its memory through CXL.mem, its memory through CXL.io or PCIe, or its launch
window, where the address is the offset in the window. -/
inductive HostPath where
  | mem | io | window
  deriving DecidableEq, Repr

/-- What a host asks of memory (R320, R321): the path it takes, and whether it writes. -/
structure HostReq where
  path  : HostPath
  write : Bool
  deriving DecidableEq, Repr

/-- The instructions and device events of spec/opcode_table.json, one constructor per row. -/
inductive Instr where
  /-- NOP (R59): Does nothing except advance to pc + L, and parks the slot when it carries the switch mark. -/
  | nop (k : Enc)
  /-- EXIT (R27): Retires the top task of the chain: releases its stores, fulfils its future, lowers its group count and marks it done. -/
  | exit (k : Enc)
  /-- J (R95): Jumps PC-relative. -/
  | j (k : Enc) (imm : Word)
  /-- JR (R95): Jumps to a register plus a byte offset. -/
  | jr (k : Enc) (a : Reg) (off : Word)
  /-- CALL (R95): Writes the link to x1 and jumps PC-relative. -/
  | call (k : Enc) (imm : Word)
  /-- CALLR (R95): Writes the link to x1 and jumps to a register plus an offset. -/
  | callr (k : Enc) (a : Reg) (off : Word)
  /-- RET (R95): Jumps to the address in x1. -/
  | ret (k : Enc)
  /-- BR (R95): Compares two registers under a condition code and branches PC-relative when the condition holds. -/
  | br (k : Enc) (cc : Cond) (a : Reg) (b : Reg) (imm : Word)
  /-- BBLD (R98): Appends w bits of a register to the bit buffer, or refuses the append when the bits do not fit. -/
  | bbld (k : Enc) (d : Reg) (a : Reg) (w : BitVec 8)
  /-- BBGET (R98): Takes w bits off the bottom of the bit buffer. -/
  | bbget (k : Enc) (d : Reg) (w : BitCount)
  /-- BBGET_SX (R98): Takes w bits off the bit buffer and sign-extends them. -/
  | bbgetSx (k : Enc) (d : Reg) (w : BitCount)
  /-- BBPEEK (R98): Reads w bits from the bit buffer without removing them. -/
  | bbpeek (k : Enc) (d : Reg) (w : BitCount)
  /-- BBPEEK_SX (R98): Reads w bits from the bit buffer, sign-extended, without removing them. -/
  | bbpeekSx (k : Enc) (d : Reg) (w : BitCount)
  /-- BBSKIP (R98): Discards w bits of the bit buffer and returns VALID. -/
  | bbskip (k : Enc) (d : Reg) (w : BitCount)
  /-- BBPOS (R98): Returns VALID of the bit buffer. -/
  | bbpos (k : Enc) (d : Reg)
  /-- BBPOS_CLR (R98): Returns VALID of the bit buffer and then clears the buffer. -/
  | bbposClr (k : Enc) (d : Reg)
  /-- LOOPINIT (R100): Initialises a cluster iteration counter, or refuses when the counter is held or the share is used up. -/
  | loopinit (k : Enc) (d : Reg) (a : Reg) (b : Reg) (ctr : BitVec 4) (p : BitVec 8) (mc : BitVec 12)
  /-- CHUNK (R101): Hands out the next range of a cluster iteration counter. -/
  | chunk (k : Enc) (d : Reg) (ctr : BitVec 4)
  /-- ADD (R87): Adds two registers modulo 2^64. -/
  | add (k : Enc) (d : Reg) (a : Reg) (b : Reg)
  /-- SUB (R87): Subtracts two registers modulo 2^64. -/
  | sub (k : Enc) (d : Reg) (a : Reg) (b : Reg)
  /-- MUL (R87): Writes the low 64 bits of the product. -/
  | mul (k : Enc) (d : Reg) (a : Reg) (b : Reg)
  /-- MULH (R87): Writes the high 64 bits of the signed product. -/
  | mulh (k : Enc) (d : Reg) (a : Reg) (b : Reg)
  /-- MULH_U (R87): Writes the high 64 bits of the unsigned product. -/
  | mulhU (k : Enc) (d : Reg) (a : Reg) (b : Reg)
  /-- MULH_SU (R87): Writes the high 64 bits of the signed-by-unsigned product. -/
  | mulhSu (k : Enc) (d : Reg) (a : Reg) (b : Reg)
  /-- DIV (R88): Writes the signed quotient, truncated towards zero. -/
  | div (k : Enc) (d : Reg) (a : Reg) (b : Reg)
  /-- DIV_U (R88): Writes the unsigned quotient. -/
  | divU (k : Enc) (d : Reg) (a : Reg) (b : Reg)
  /-- REM (R88): Writes the signed remainder. -/
  | rem (k : Enc) (d : Reg) (a : Reg) (b : Reg)
  /-- REM_U (R88): Writes the unsigned remainder. -/
  | remU (k : Enc) (d : Reg) (a : Reg) (b : Reg)
  /-- AND (R87): Writes the bitwise AND of two registers. -/
  | and (k : Enc) (d : Reg) (a : Reg) (b : Reg)
  /-- OR (R87): Writes the bitwise OR of two registers. -/
  | or (k : Enc) (d : Reg) (a : Reg) (b : Reg)
  /-- XOR (R87): Writes the bitwise XOR of two registers. -/
  | xor (k : Enc) (d : Reg) (a : Reg) (b : Reg)
  /-- SLL (R87): Shifts left logically by a register count. -/
  | sll (k : Enc) (d : Reg) (a : Reg) (b : Reg)
  /-- SRL (R87): Shifts right logically by a register count. -/
  | srl (k : Enc) (d : Reg) (a : Reg) (b : Reg)
  /-- SRA (R87): Shifts right arithmetically, with the count capped at 63. -/
  | sra (k : Enc) (d : Reg) (a : Reg) (b : Reg)
  /-- ROT (R87): Rotates left by the count modulo 64. -/
  | rot (k : Enc) (d : Reg) (a : Reg) (b : Reg)
  /-- MIN (R87): Writes the signed minimum. -/
  | min (k : Enc) (d : Reg) (a : Reg) (b : Reg)
  /-- MIN_U (R87): Writes the unsigned minimum. -/
  | minU (k : Enc) (d : Reg) (a : Reg) (b : Reg)
  /-- MAX (R87): Writes the signed maximum. -/
  | max (k : Enc) (d : Reg) (a : Reg) (b : Reg)
  /-- MAX_U (R87): Writes the unsigned maximum. -/
  | maxU (k : Enc) (d : Reg) (a : Reg) (b : Reg)
  /-- SETC (R87): Writes 1 when the condition holds between two registers, and 0 otherwise. -/
  | setc (k : Enc) (cc : Cond) (d : Reg) (a : Reg) (b : Reg)
  /-- ADDI (R89): Adds a signed immediate. -/
  | addi (k : Enc) (d : Reg) (a : Reg) (imm : Word)
  /-- MULI (R89): Multiplies by a signed immediate. -/
  | muli (k : Enc) (d : Reg) (a : Reg) (imm : Word)
  /-- ANDI (R89): ANDs with an immediate. -/
  | andi (k : Enc) (d : Reg) (a : Reg) (imm : Word)
  /-- ORI (R89): ORs with an immediate. -/
  | ori (k : Enc) (d : Reg) (a : Reg) (imm : Word)
  /-- XORI (R89): XORs with an immediate. -/
  | xori (k : Enc) (d : Reg) (a : Reg) (imm : Word)
  /-- SLLI (R89): Shifts left by an immediate count. -/
  | slli (k : Enc) (d : Reg) (a : Reg) (n : BitVec 6)
  /-- SRLI (R89): Shifts right logically by an immediate count. -/
  | srli (k : Enc) (d : Reg) (a : Reg) (n : BitVec 6)
  /-- SRAI (R89): Shifts right arithmetically by an immediate count. -/
  | srai (k : Enc) (d : Reg) (a : Reg) (n : BitVec 6)
  /-- ROTI (R89): Rotates left by an immediate count. -/
  | roti (k : Enc) (d : Reg) (a : Reg) (n : BitVec 6)
  /-- SETCI (R89): Writes 1 when the condition holds between a register and an immediate, and 0 otherwise. -/
  | setci (k : Enc) (cc : Cond) (d : Reg) (a : Reg) (imm : Word)
  /-- CLZ (R87): Counts the leading zero bits. -/
  | clz (k : Enc) (d : Reg) (a : Reg)
  /-- CTZ (R87): Counts the trailing zero bits. -/
  | ctz (k : Enc) (d : Reg) (a : Reg)
  /-- POPC (R87): Counts the one bits. -/
  | popc (k : Enc) (d : Reg) (a : Reg)
  /-- SEL (R87): Selects a or b according to whether c is nonzero. -/
  | sel (k : Enc) (d : Reg) (a : Reg) (b : Reg) (c : Reg)
  /-- MOV (R89): Copies a register. -/
  | mov (k : Enc) (d : Reg) (a : Reg)
  /-- LI (R89): Loads an immediate. -/
  | li (k : Enc) (d : Reg) (imm : Word)
  /-- LA (R89): Writes pc plus a signed byte offset. -/
  | la (k : Enc) (d : Reg) (imm : Word)
  /-- BFX (R90): Extracts a bit field, zero-extended. -/
  | bfx (k : Enc) (d : Reg) (a : Reg) (p : BitVec 6) (w : BitVec 6)
  /-- BFX_SX (R90): Extracts a bit field, sign-extended. -/
  | bfxSx (k : Enc) (d : Reg) (a : Reg) (p : BitVec 6) (w : BitVec 6)
  /-- BFI (R90): Inserts a bit field into d. -/
  | bfi (k : Enc) (d : Reg) (a : Reg) (p : BitVec 6) (w : BitVec 6)
  /-- SEXT (R87): Extends the low bits of a register by an element type. -/
  | sext (k : Enc) (t : Elem) (d : Reg) (a : Reg)
  /-- FADD (R92): Adds two floating values with one rounding. -/
  | fadd (k : Enc) (t : Elem) (rm : Rnd) (d : Reg) (a : Reg) (b : Reg)
  /-- FSUB (R92): Subtracts two floating values. -/
  | fsub (k : Enc) (t : Elem) (rm : Rnd) (d : Reg) (a : Reg) (b : Reg)
  /-- FMUL (R92): Multiplies two floating values. -/
  | fmul (k : Enc) (t : Elem) (rm : Rnd) (d : Reg) (a : Reg) (b : Reg)
  /-- FMA (R92): Performs a fused multiply-add with one rounding. -/
  | fma (k : Enc) (t : Elem) (rm : Rnd) (d : Reg) (a : Reg) (b : Reg) (c : Reg)
  /-- FDIV (R92): Divides two floating values. -/
  | fdiv (k : Enc) (t : Elem) (rm : Rnd) (d : Reg) (a : Reg) (b : Reg)
  /-- FSQRT (R92): Takes a floating square root. -/
  | fsqrt (k : Enc) (t : Elem) (rm : Rnd) (d : Reg) (a : Reg)
  /-- FMIN (R92): Writes the floating minimum by R71. -/
  | fmin (k : Enc) (t : Elem) (d : Reg) (a : Reg) (b : Reg)
  /-- FMAX (R92): Writes the floating maximum by R71. -/
  | fmax (k : Enc) (t : Elem) (d : Reg) (a : Reg) (b : Reg)
  /-- FEQ (R92): Compares two floating values for equality. -/
  | feq (k : Enc) (t : Elem) (d : Reg) (a : Reg) (b : Reg)
  /-- FLT (R92): Compares two floating values for less than. -/
  | flt (k : Enc) (t : Elem) (d : Reg) (a : Reg) (b : Reg)
  /-- FLE (R92): Compares two floating values for less or equal. -/
  | fle (k : Enc) (t : Elem) (d : Reg) (a : Reg) (b : Reg)
  /-- FCVT (R93): Converts one value between formats. -/
  | fcvt (k : Enc) (dst : Elem) (src : Elem) (rm : Rnd) (d : Reg) (a : Reg)
  /-- FCLASS (R94): Writes the class word of a value. -/
  | fclass (k : Enc) (t : Elem) (d : Reg) (a : Reg)
  /-- FSGN (R92): Copies the sign bit of b onto a. -/
  | fsgn (k : Enc) (t : Elem) (d : Reg) (a : Reg) (b : Reg)
  /-- FSGN_N (R92): Gives a the inverse of b's sign bit. -/
  | fsgnN (k : Enc) (t : Elem) (d : Reg) (a : Reg) (b : Reg)
  /-- FSGN_X (R92): XORs a's sign bit with b's sign bit. -/
  | fsgnX (k : Enc) (t : Elem) (d : Reg) (a : Reg) (b : Reg)
  /-- VADD (R108): Adds active lanes. -/
  | vadd (k : Enc) (t : Elem) (sub : BitVec 2) (m : MReg) (d : Reg) (a : Reg) (b : VSrc)
  /-- VSUB (R108): Subtracts active lanes. -/
  | vsub (k : Enc) (t : Elem) (sub : BitVec 2) (m : MReg) (d : Reg) (a : Reg) (b : VSrc)
  /-- VMUL (R108): Multiplies active lanes. -/
  | vmul (k : Enc) (t : Elem) (sub : BitVec 2) (m : MReg) (d : Reg) (a : Reg) (b : VSrc)
  /-- VFMA (R108): Performs a fused multiply-add on active lanes. -/
  | vfma (k : Enc) (t : Elem) (sub : BitVec 2) (m : MReg) (d : Reg) (a : Reg) (b : VSrc) (c : Reg)
  /-- VDIV (R108): Divides active floating lanes. -/
  | vdiv (k : Enc) (t : Elem) (sub : BitVec 2) (m : MReg) (d : Reg) (a : Reg) (b : VSrc)
  /-- VSQRT (R108): Takes the square root of active floating lanes. -/
  | vsqrt (k : Enc) (t : Elem) (sub : BitVec 2) (m : MReg) (d : Reg) (a : Reg)
  /-- VMIN (R108): Writes the lane-wise minimum. -/
  | vmin (k : Enc) (t : Elem) (m : MReg) (d : Reg) (a : Reg) (b : VSrc)
  /-- VMAX (R108): Writes the lane-wise maximum. -/
  | vmax (k : Enc) (t : Elem) (m : MReg) (d : Reg) (a : Reg) (b : VSrc)
  /-- VAND (R108): ANDs lanes. -/
  | vand (k : Enc) (t : Elem) (m : MReg) (d : Reg) (a : Reg) (b : VSrc)
  /-- VOR (R108): ORs lanes. -/
  | vor (k : Enc) (t : Elem) (m : MReg) (d : Reg) (a : Reg) (b : VSrc)
  /-- VXOR (R108): XORs lanes. -/
  | vxor (k : Enc) (t : Elem) (m : MReg) (d : Reg) (a : Reg) (b : VSrc)
  /-- VSLL (R108): Shifts lanes left. -/
  | vsll (k : Enc) (t : Elem) (m : MReg) (d : Reg) (a : Reg) (b : VSrc)
  /-- VSRL (R108): Shifts lanes right logically. -/
  | vsrl (k : Enc) (t : Elem) (m : MReg) (d : Reg) (a : Reg) (b : VSrc)
  /-- VSRA (R108): Shifts lanes right arithmetically. -/
  | vsra (k : Enc) (t : Elem) (m : MReg) (d : Reg) (a : Reg) (b : VSrc)
  /-- VABS (R108): Writes the absolute value of each lane. -/
  | vabs (k : Enc) (t : Elem) (sub : BitVec 2) (m : MReg) (d : Reg) (a : Reg)
  /-- VNEG (R108): Negates each lane. -/
  | vneg (k : Enc) (t : Elem) (sub : BitVec 2) (m : MReg) (d : Reg) (a : Reg)
  /-- VCMP (R109): Compares lanes and writes a mask. -/
  | vcmp (k : Enc) (cc : Cond) (t : Elem) (m : MReg) (d : MReg) (a : Reg) (b : VSrc)
  /-- VSEL (R110): Selects each lane from a or b under the mask. -/
  | vsel (k : Enc) (t : Elem) (m : MReg) (d : Reg) (a : Reg) (b : Reg)
  /-- VCVT (R111): Converts lanes between formats, optionally applying a block scale. -/
  | vcvt (k : Enc) (dst : Elem) (src : Elem) (mode : ScaleMode) (rm : Rnd) (p : BitVec 4) (m : MReg) (d : Reg) (a : Reg) (b : Reg)
  /-- VDOT (R112): Sums groups of products into 32-bit accumulator lanes. -/
  | vdot (k : Enc) (t : Elem) (sub : BitVec 2) (m : MReg) (d : Reg) (a : Reg) (b : Reg) (c : Reg)
  /-- VREDSUM (R113): Sums active lanes in the fixed tree of R81. -/
  | vredsum (k : Enc) (t : Elem) (sub : BitVec 2) (m : MReg) (d : Reg) (a : Reg)
  /-- VREDMAX (R113): Takes the maximum of active lanes in the fixed tree. -/
  | vredmax (k : Enc) (t : Elem) (m : MReg) (d : Reg) (a : Reg)
  /-- VREDMIN (R113): Takes the minimum of active lanes in the fixed tree. -/
  | vredmin (k : Enc) (t : Elem) (m : MReg) (d : Reg) (a : Reg)
  /-- VARGMAX (R114): Returns the index of the largest active lane. -/
  | vargmax (k : Enc) (t : Elem) (m : MReg) (d : Reg) (a : Reg)
  /-- VPERM (R115): Permutes lanes by index. -/
  | vperm (k : Enc) (t : Elem) (m : MReg) (d : Reg) (a : Reg) (b : Reg)
  /-- VSLIDEUP (R115): Slides lanes up. -/
  | vslideup (k : Enc) (t : Elem) (m : MReg) (d : Reg) (a : Reg) (n : LaneSrc)
  /-- VSLIDEDN (R115): Slides lanes down. -/
  | vslidedn (k : Enc) (t : Elem) (m : MReg) (d : Reg) (a : Reg) (n : LaneSrc)
  /-- VCOMPRESS (R116): Packs the active lanes to the bottom of d. -/
  | vcompress (k : Enc) (t : Elem) (m : MReg) (d : Reg) (a : Reg)
  /-- VEXPAND (R116): Spreads packed lanes into the active lanes. -/
  | vexpand (k : Enc) (t : Elem) (m : MReg) (d : Reg) (a : Reg)
  /-- VBCAST (R110): Broadcasts a scalar to the active lanes. -/
  | vbcast (k : Enc) (t : Elem) (m : MReg) (d : Reg) (a : Reg)
  /-- VEXT (R115): Extracts one lane to a scalar register. -/
  | vext (k : Enc) (t : Elem) (d : Reg) (a : Reg) (n : LaneSrc)
  /-- VINS (R115): Inserts a scalar into one lane. -/
  | vins (k : Enc) (t : Elem) (d : Reg) (a : Reg) (n : LaneSrc)
  /-- MAND (R117): ANDs two masks. -/
  | mand (k : Enc) (d : MReg) (a : MReg) (b : MReg)
  /-- MOR (R117): ORs two masks. -/
  | mor (k : Enc) (d : MReg) (a : MReg) (b : MReg)
  /-- MXOR (R117): XORs two masks. -/
  | mxor (k : Enc) (d : MReg) (a : MReg) (b : MReg)
  /-- MNOT (R117): Complements a mask. -/
  | mnot (k : Enc) (d : MReg) (a : MReg)
  /-- MPOPC (R117): Counts the one bits of a mask. -/
  | mpopc (k : Enc) (d : Reg) (a : MReg)
  /-- MFIRST (R117): Returns the index of the lowest set mask bit. -/
  | mfirst (k : Enc) (d : Reg) (a : MReg)
  /-- MSET (R117): Writes a mask from a scalar register. -/
  | mset (k : Enc) (d : MReg) (a : Reg)
  /-- MGET (R117): Reads a mask into a scalar register. -/
  | mget (k : Enc) (d : Reg) (a : MReg)
  /-- VIOTA (R116): Writes to each active lane the number of active lanes below it. -/
  | viota (k : Enc) (t : Elem) (m : MReg) (d : Reg)
  /-- VMOV (R110): Copies the active lanes. -/
  | vmov (k : Enc) (t : Elem) (m : MReg) (d : Reg) (a : Reg)
  /-- LD (R145): Loads one element. -/
  | ld (k : Enc) (t : Elem) (o : MemOp) (d : Reg)
  /-- LD_C (R145): Loads one element, consuming its counted units by multiplicity m. -/
  | ldC (k : Enc) (t : Elem) (o : MemOp) (d : Reg)
  /-- ST (R145): Stores one element. -/
  | st (k : Enc) (t : Elem) (o : MemOp) (d : Reg)
  /-- VLD (R146): Loads 64 bytes into a vector register. -/
  | vld (k : Enc) (t : Elem) (o : MemOp) (m : MReg) (d : Reg)
  /-- VLD_C (R146): Loads 64 bytes, consuming every unit they touch. -/
  | vldC (k : Enc) (t : Elem) (o : MemOp) (m : MReg) (d : Reg)
  /-- VST (R146): Stores the active lanes of a vector register. -/
  | vst (k : Enc) (t : Elem) (o : MemOp) (m : MReg) (d : Reg)
  /-- VGATHER (R147): Loads each active lane from its own address. -/
  | vgather (k : Enc) (t : Elem) (o : MemOp) (m : MReg) (d : Reg) (b : Reg)
  /-- VSCATTER (R147): Stores each active lane to its own address, lanes in ascending order. -/
  | vscatter (k : Enc) (t : Elem) (o : MemOp) (m : MReg) (d : Reg) (b : Reg)
  /-- ARM (R148): Counts a range at the cluster or local level with a reader count. -/
  | arm (k : Enc) (o : MemOp) (d : Reg) (b : Reg) (c : Reg)
  /-- ARM_H (R148): Counts a global range at the home level. -/
  | armH (k : Enc) (o : MemOp) (d : Reg) (b : Reg) (c : Reg)
  /-- RETIRE (R149): Checks that a region holds no counted unit, and raises UNDER-READ if one remains. -/
  | retire (k : Enc) (o : MemOp) (d : Reg) (b : Reg)
  /-- RETIRE_FORCE (R149): Sheds every counted unit of a region and returns the sum of their counts. -/
  | retireForce (k : Enc) (o : MemOp) (d : Reg) (b : Reg)
  /-- CINV (R150): Writes back and invalidates the lines of a range in the issuing cluster's cache, by scope. -/
  | cinv (k : Enc) (sc : Scope) (o : MemOp) (b : Reg)
  /-- CWB (R150): Writes back the dirty lines of a range, by scope. -/
  | cwb (k : Enc) (sc : Scope) (o : MemOp) (b : Reg)
  /-- PREF (R151): Prefetches a range into the cluster cache. -/
  | pref (k : Enc) (o : MemOp) (b : Reg)
  /-- LDQ (R145): Loads 16 bytes into a register pair. -/
  | ldq (k : Enc) (o : MemOp) (d : Reg)
  /-- STQ (R145): Stores a register pair as 16 bytes. -/
  | stq (k : Enc) (o : MemOp) (d : Reg)
  /-- VLDS (R146): Loads lanes from addresses a stride apart. -/
  | vlds (k : Enc) (t : Elem) (o : MemOp) (m : MReg) (d : Reg) (b : Reg)
  /-- VSTS (R146): Stores lanes to addresses a stride apart. -/
  | vsts (k : Enc) (t : Elem) (o : MemOp) (m : MReg) (d : Reg) (b : Reg)
  /-- AMOADD (R179): Adds m times the operand atomically and returns the old value. -/
  | amoadd (k : Enc) (t : Elem) (ord : Ordering) (sc : Scope) (o : MemOp) (d : Reg) (b : Reg)
  /-- AMOAND (R179): ANDs atomically. -/
  | amoand (k : Enc) (t : Elem) (ord : Ordering) (sc : Scope) (o : MemOp) (d : Reg) (b : Reg)
  /-- AMOOR (R179): ORs atomically. -/
  | amoor (k : Enc) (t : Elem) (ord : Ordering) (sc : Scope) (o : MemOp) (d : Reg) (b : Reg)
  /-- AMOXOR (R179): XORs atomically. -/
  | amoxor (k : Enc) (t : Elem) (ord : Ordering) (sc : Scope) (o : MemOp) (d : Reg) (b : Reg)
  /-- AMOMIN (R179): Takes the minimum atomically. -/
  | amomin (k : Enc) (t : Elem) (ord : Ordering) (sc : Scope) (o : MemOp) (d : Reg) (b : Reg)
  /-- AMOMAX (R179): Takes the maximum atomically. -/
  | amomax (k : Enc) (t : Elem) (ord : Ordering) (sc : Scope) (o : MemOp) (d : Reg) (b : Reg)
  /-- AMOSWAP (R179): Swaps atomically; freezes with MULT when m > 1. -/
  | amoswap (k : Enc) (t : Elem) (ord : Ordering) (sc : Scope) (o : MemOp) (d : Reg) (b : Reg)
  /-- AMOSWAP_ONCE (R179): Swaps atomically once, whatever the multiplicity. -/
  | amoswapOnce (k : Enc) (t : Elem) (ord : Ordering) (sc : Scope) (o : MemOp) (d : Reg) (b : Reg)
  /-- AMOCAS (R179): Compares and swaps atomically; freezes with MULT when m > 1. -/
  | amocas (k : Enc) (t : Elem) (ord : Ordering) (sc : Scope) (o : MemOp) (d : Reg) (b : Reg)
  /-- AMOCAS_ONCE (R179): Compares and swaps once, whatever the multiplicity. -/
  | amocasOnce (k : Enc) (t : Elem) (ord : Ordering) (sc : Scope) (o : MemOp) (d : Reg) (b : Reg)
  /-- AMOFADD (R179): Adds the exact m·v in FP32 atomically, with one rounding. -/
  | amofadd (k : Enc) (t : Elem) (ord : Ordering) (sc : Scope) (o : MemOp) (d : Reg) (b : Reg)
  /-- RED_ADD (R178): Performs an atomic add and returns nothing. -/
  | redAdd (k : Enc) (t : Elem) (ord : Ordering) (sc : Scope) (o : MemOp) (b : Reg)
  /-- RED_AND (R178): Performs an atomic AND and returns nothing. -/
  | redAnd (k : Enc) (t : Elem) (ord : Ordering) (sc : Scope) (o : MemOp) (b : Reg)
  /-- RED_OR (R178): Performs an atomic OR and returns nothing. -/
  | redOr (k : Enc) (t : Elem) (ord : Ordering) (sc : Scope) (o : MemOp) (b : Reg)
  /-- RED_XOR (R178): Performs an atomic XOR and returns nothing. -/
  | redXor (k : Enc) (t : Elem) (ord : Ordering) (sc : Scope) (o : MemOp) (b : Reg)
  /-- RED_MIN (R178): Performs an atomic minimum and returns nothing. -/
  | redMin (k : Enc) (t : Elem) (ord : Ordering) (sc : Scope) (o : MemOp) (b : Reg)
  /-- RED_MAX (R178): Performs an atomic maximum and returns nothing. -/
  | redMax (k : Enc) (t : Elem) (ord : Ordering) (sc : Scope) (o : MemOp) (b : Reg)
  /-- RED_FADD (R178): Performs an atomic FP32 add and returns nothing. -/
  | redFadd (k : Enc) (t : Elem) (ord : Ordering) (sc : Scope) (o : MemOp) (b : Reg)
  /-- LRW (R182): Joins a word's reservation queue and returns the element once the task heads the queue. -/
  | lrw (k : Enc) (t : Elem) (ord : Ordering) (sc : Scope) (o : MemOp) (d : Reg)
  /-- SCH (R183): Stores when the reservation is unbroken, then passes the reservation on. -/
  | sch (k : Enc) (t : Elem) (ord : Ordering) (sc : Scope) (o : MemOp) (d : Reg) (b : Reg)
  /-- SCH_DROP (R183): Passes the reservation on without storing. -/
  | schDrop (k : Enc) (t : Elem) (ord : Ordering) (sc : Scope) (o : MemOp) (d : Reg) (b : Reg)
  /-- FENCE (R189): Acts as a release followed by an acquire at its instance. -/
  | fence (k : Enc) (ord : Ordering) (sc : Scope)
  /-- LDA (R189): Loads with acquire. -/
  | lda (k : Enc) (t : Elem) (sc : Scope) (o : MemOp) (d : Reg)
  /-- STL (R189): Stores with release. -/
  | stl (k : Enc) (t : Elem) (ord : Ordering) (sc : Scope) (o : MemOp) (d : Reg)
  /-- BARINIT (R185): Initialises a barrier word and wakes its sleepers. -/
  | barinit (k : Enc) (ord : Ordering) (sc : Scope) (o : MemOp) (b : Reg) (c : Reg)
  /-- BARARV (R185): Adds m thread arrivals and m times the bytes, returns the ticket and checks completion. -/
  | bararv (k : Enc) (ord : Ordering) (sc : Scope) (o : MemOp) (d : Reg) (b : Reg)
  /-- BARARV_B (R185): Adds bytes only, with no thread arrival, and checks completion. -/
  | bararvB (k : Enc) (ord : Ordering) (sc : Scope) (o : MemOp) (d : Reg) (b : Reg)
  /-- BARWT (R185): Sleeps until GEN differs from the ticket's GEN. -/
  | barwt (k : Enc) (ord : Ordering) (sc : Scope) (o : MemOp) (d : Reg) (b : Reg)
  /-- BARTST (R185): Tests whether the phase has changed, without sleeping. -/
  | bartst (k : Enc) (ord : Ordering) (sc : Scope) (o : MemOp) (d : Reg) (b : Reg)
  /-- BARWTT (R185): Waits as BARWT does, for at most a timeout. -/
  | barwtt (k : Enc) (ord : Ordering) (sc : Scope) (o : MemOp) (d : Reg) (b : Reg) (c : Reg)
  /-- BAREXIT (R185): Lowers EXPT by m, removes the attachment and checks completion. -/
  | barexit (k : Enc) (ord : Ordering) (sc : Scope) (o : MemOp)
  /-- LKACQ (R190): Takes a lock, takes it from a dead owner, or waits by helping. -/
  | lkacq (k : Enc) (sc : Scope) (o : MemOp) (d : Reg)
  /-- LKREL (R190): Releases a lock or hands it to the longest-sleeping waiter. -/
  | lkrel (k : Enc) (ord : Ordering) (sc : Scope) (o : MemOp) (d : Reg)
  /-- MXQ (R219): Enqueues a dense matrix product job. -/
  | mxq (k : Enc) (jd : JobDesc) (dup : Bool) (d : Reg) (a : Reg) (b : Reg) (c : Reg)
  /-- MXQS (R219): Enqueues a matrix product job with compressed sparse B. -/
  | mxqs (k : Enc) (jd : JobDesc) (dup : Bool) (d : Reg) (a : Reg) (b : Reg) (c : Reg)
  /-- MXG (R207): Joins a gang; the last partner's issue enqueues one ganged matrix job. -/
  | mxg (k : Enc) (jd : JobDesc) (dup : Bool) (g : Reg) (d : Reg) (a : Reg) (b : Reg) (c : Reg)
  /-- MXLB (R219): Enqueues a job that loads the B panel without computing. -/
  | mxlb (k : Enc) (jd : JobDesc) (d : Reg) (a : Reg)
  /-- CPQ (R219): Enqueues a copy job with conversion. -/
  | cpq (k : Enc) (jd : JobDesc) (d : Reg) (a : Reg) (b : Reg)
  /-- CPF (R219): Enqueues a counted fill copy job. -/
  | cpf (k : Enc) (jd : JobDesc) (d : Reg) (a : Reg) (b : Reg)
  /-- TIDFENCE (R226): Waits for earlier stores, then removes one tensor id from the cluster's record cache. -/
  | tidfence (k : Enc) (a : Reg)
  /-- TIDFENCE_ALL (R226): Removes every record-cache entry of the partition. -/
  | tidfenceAll (k : Enc)
  /-- JTEST (R224): Returns a job's status word without sleeping. -/
  | jtest (k : Enc) (d : Reg) (a : Reg)
  /-- JWAIT (R224): Sleeps until a job is done or cancelled and returns its status. -/
  | jwait (k : Enc) (d : Reg) (a : Reg)
  /-- JCANCEL (R224): Cancels a job by its state and returns its status. -/
  | jcancel (k : Enc) (d : Reg) (a : Reg)
  /-- STEST (R227): Runs the matrix engine's macro self-test and returns the result. -/
  | stest (k : Enc) (d : Reg)
  /-- FORK (R237): Creates an attached task, writes its future and pushes the tadpole, or calls the child inline. -/
  | fork (k : Enc) (pl : Space) (imm : Word) (lreq : BitVec 16) (a : Reg) (b : Reg) (c : Reg)
  /-- FORK_D (R237): Creates a detached task, optionally in a group, and pushes it. -/
  | forkD (k : Enc) (imm : Word) (lreq : BitVec 16) (b : Reg) (c : Reg)
  /-- FORK_AT (R237): Creates a pinned attached task and delivers it to a target core. -/
  | forkAt (k : Enc) (pl : Space) (imm : Word) (lreq : BitVec 16) (kr : Reg) (a : Reg) (b : Reg) (c : Reg)
  /-- JOIN (R239): Reads a future, waiting on its owner by the helping rules, and returns its value and status. -/
  | join (k : Enc) (pl : Space) (d : Reg) (a : Reg) (b : Reg)
  /-- YIELD (R248): Saves the task to an area, parks it and pushes a resume record. -/
  | yield (k : Enc) (d : Reg) (a : Reg)
  /-- STEAL (R247): Takes and adopts the top live record of a target core's deque. -/
  | steal (k : Enc) (d : Reg) (a : Reg)
  /-- POPB (R247): Takes and adopts the bottom live record of the own core's deque. -/
  | popb (k : Enc) (d : Reg)
  /-- GNEW (R249): Allocates a group and sets ctl.FGROUP. -/
  | gnew (k : Enc) (d : Reg)
  /-- GJOIN (R249): Helps with or sleeps on a group until its count is zero. -/
  | gjoin (k : Enc) (a : Reg)
  /-- GFREE (R249): Frees a group whose count is zero. -/
  | gfree (k : Enc) (d : Reg) (a : Reg)
  /-- QENQ (R251): Reserves and fills a work-queue entry in one step. -/
  | qenq (k : Enc) (d : Reg) (a : Reg) (c : Reg)
  /-- QDEQ (R251): Claims the head entry of a work queue, waiting for it to be filled. -/
  | qdeq (k : Enc) (d : Reg) (a : Reg) (b : Reg)
  /-- QRES (R251): Reserves a work-queue entry. -/
  | qres (k : Enc) (d : Reg) (a : Reg)
  /-- QFIL (R251): Fills a reserved work-queue entry. -/
  | qfil (k : Enc) (d : Reg) (a : Reg) (b : Reg) (c : Reg)
  /-- AMSG (R237): Sends an active message to a target core. -/
  | amsg (k : Enc) (imm : Word) (kr : Reg) (b : Reg) (c : Reg)
  /-- MEET (R271): Merges into, opens, parks at or passes a meet entry keyed on declared registers. -/
  | meet (k : Enc) (a : Reg) (tmo : Timeout) (decl : BitVec 32)
  /-- MCLOSE (R276): Releases every open meet entry of a group. -/
  | mclose (k : Enc) (d : Reg) (a : Reg)
  /-- SVC (R294): Stops the slot with class SVC for the supervisor. -/
  | svc (k : Enc) (code : BitVec 24)
  /-- BRK (R294): Stops the slot with class BREAK. -/
  | brk (k : Enc) (code : BitVec 24)
  /-- CTLR (R293): Reads a control register. -/
  | ctlr (k : Enc) (d : Reg) (r : CtlReg)
  /-- CTLW (R293): Writes a control register. -/
  | ctlw (k : Enc) (a : Reg) (r : CtlReg)
  /-- FREEZE (R299): Stops a named slot of the partition. -/
  | freeze (k : Enc) (d : Reg) (a : Reg)
  /-- RESUME_S_RESUME (R299): Resumes or steps a frozen slot (command 0x01). -/
  | resumeSResume (k : Enc) (d : Reg) (a : Reg) (b : Reg)
  /-- RESUME_S_FAIL (R299): Fails the task at a given depth and every task above it (command 0x02). -/
  | resumeSFail (k : Enc) (d : Reg) (a : Reg) (b : Reg)
  /-- RESUME_S_KILL (R283): Kills a frozen slot, failing its chain top down (command 0x03). -/
  | resumeSKill (k : Enc) (d : Reg) (a : Reg) (b : Reg)
  /-- RESUME_J_REPLAY (R205): Replays a frozen job from QUEUED. -/
  | resumeJReplay (k : Enc) (d : Reg) (a : Reg) (b : Reg)
  /-- RESUME_H_RELEASE (R299): Releases a frozen host function. -/
  | resumeHRelease (k : Enc) (d : Reg) (a : Reg) (b : Reg)
  /-- RESUME_P_RELEASE (R299): Releases a frozen fabric port. -/
  | resumePRelease (k : Enc) (d : Reg) (a : Reg) (b : Reg)
  /-- VACATE (R286): Removes the cores of a rectangle from a partition's core set, saving and moving their work. -/
  | vacate (k : Enc) (d : Reg) (a : Reg) (b : Reg)
  /-- STOPCUT (R301): Runs a consistent cut over a rectangle and sleeps until it closes. -/
  | stopcut (k : Enc) (d : Reg) (a : Reg) (b : Reg)
  /-- TLBINV_ASID (R302): Removes every TLB entry of an ASID. -/
  | tlbinvAsid (k : Enc) (d : Reg) (a : Reg) (b : Reg)
  /-- TLBINV_PAGE (R302): Removes the TLB entries of one page. -/
  | tlbinvPage (k : Enc) (d : Reg) (a : Reg) (b : Reg)
  /-- TLBINV_PART (R302): Removes every TLB entry of the partition. -/
  | tlbinvPart (k : Enc) (d : Reg) (a : Reg) (b : Reg)
  /-- WAITEV (R304): Sleeps until the fault inbox is non-empty or a time is reached. -/
  | waitev (k : Enc) (d : Reg) (a : Reg) (b : Reg)
  /-- TIME (R305): Returns the cycles since cold reset. -/
  | time (k : Enc) (d : Reg)
  /-- BBOX (R306): Writes a software record to the die's black box. -/
  | bbox (k : Enc) (d : Reg) (a : Reg) (b : Reg)
  /-- ACTIVE_MESSAGE_ARRIVAL (R32): An active message reaches a core and either starts in an idle slot, enters the inbox or is refused. -/
  | activeMessageArrival (msg : Message)
  /-- DISPATCH (R256): A core's dispatcher starts at most one task per cycle from the deque or the inbox. -/
  | dispatch (core : Nat)
  /-- THEFT_ATTEMPT (R257): An idle slot visits victims every 64 cycles and claims a stealable top record. -/
  | theftAttempt (slot : Nat)
  /-- MEMORY_RESULT_RETURN (R21): A requested memory result returns to its register, and a parked slot becomes ready once all its results have returned. -/
  | memoryResultReturn (slot : Nat) (idx : Nat)
  /-- WAKE (R36): A sleeping slot is woken once its awaited condition is met, and re-reads the condition. -/
  | wake (slot : Nat)
  /-- INBOX_ROOM (R33): An inbox entry frees, and a sender stalled on a full share delivers its message. -/
  | inboxRoom (slot : Nat)
  /-- JOB_ENTRY_HANDOFF (R260): A freed job-queue entry is given to a waiting enqueuer in rotating core order. -/
  | jobEntryHandoff (cluster : Nat) (part : Nat)
  /-- DIRECTORY_ROOM (R237): The task directory gains room, and a FORK.AT or waiting message proceeds. -/
  | directoryRoom (slot : Nat)
  /-- CACHE_EVICTION (R172): An uncounted cluster-cache line is evicted, at the latest 4,096 cycles after its fill, and its dirty bytes are written back. -/
  | cacheEviction (cluster : Nat) (idx : Nat)
  /-- BARWTT_TIMEOUT (R185): A BARWTT's timeout expires, and it returns 1 with no acquire. -/
  | barwttTimeout (slot : Nat)
  /-- MEET_DEADLINE (R273): An entry's DEADLINE is reached, and the entry is released with OUTCOME 0b001. -/
  | meetDeadline (cluster : Nat) (idx : Nat)
  /-- SURVIVOR_READY (R274): A released survivor becomes ready at pc + 12 with its summed multiplicity and an acquire. -/
  | survivorReady (slot : Nat)
  /-- JOB_START (R261): A free engine chooses an eligible job by weighted credits and starts it or sends it for leave. -/
  | jobStart (cluster : Nat) (matrix : Bool)
  /-- LEAVE_GRANT (R326): The die power controller grants leave to a waiting job first in first out. -/
  | leaveGrant (die : Nat)
  /-- JOB_COMPLETE (R221): A job completes: claims commit, counts attach, the state becomes DONE and the barrier arrival is made. -/
  | jobComplete (cluster : Nat) (entry : Nat)
  /-- JOB_FREEZE (R205): A running job faults: it stops, the shadow is restored, claims are released and a packet is sent. -/
  | jobFreeze (cluster : Nat) (entry : Nat)
  /-- COPY_BYTE_ARRIVAL (R209): A copy job raises a 4,096-byte arrival on its barrier word. -/
  | copyByteArrival (cluster : Nat) (entry : Nat)
  /-- MACRO_SELF_TEST (R204): The engine sequencer tests the macros after an ECC or REDUNDANT freeze and fences failing rows. -/
  | macroSelfTest (cluster : Nat)
  /-- SLICE_END (R262): A slice ends at cycle T, and the outgoing partition's slots stop issuing. -/
  | sliceEnd (core : Nat) (ring : Nat)
  /-- SLOT_HANDOVER (R262): An outgoing slot saves its context to the switch area and passes to the incoming partition. -/
  | slotHandover (slot : Nat)
  /-- CONTEXT_RESTORE (R262): The incoming context is read, and the slot takes its saved state. -/
  | contextRestore (slot : Nat)
  /-- CUT_CLOSE (R290): The cut closes once SENT and RECV agree and no job runs, and the supervisor is told. -/
  | cutClose (part : Nat)
  /-- PENDING_PACKET_DELIVERY (R282): A packet waiting in its master's holder enters the fault inbox once an entry frees. -/
  | pendingPacketDelivery (part : Nat)
  /-- HOST_ACCESS (R321): A host access to device memory is translated by the partition's host ASID and performed at the home slice. -/
  | hostAccess (fn : Nat) (req : HostReq) (va : Word) (n : Nat) (val : Word)
  /-- HOST_LINK_TRAINING (R320): The host port trains at the first protocol that both ends support. -/
  | hostLinkTraining (far : Nat) (width : Nat)
  /-- GO (R323): A host write to GO sends ENTRY, ARG0 and ARG1 as an active message and sets LSTAT. -/
  | go (fn : Nat) (val : Word)
  /-- QGO (R323): A host write to QGO enqueues ITEM as QENQ does and sets LSTAT. -/
  | qgo (fn : Nat) (val : Word)
  /-- COMMIT (R311): A write of 1 to COMMIT checks a partition descriptor and applies all of it or none. -/
  | commit (part : Nat)
  /-- REGISTER_WRITE (R7): A write to a register or window field with no row of its own takes effect by its access code. -/
  | registerWrite (pa : Nat) (val : Word)
  /-- DEBUG_COMMAND_RESUME (R299): Command 0x01 written to a debug window's COMMAND resumes or steps the frozen slot. -/
  | debugCommandResume (slot : Nat)
  /-- DEBUG_COMMAND_FAIL (R299): Command 0x02 written to COMMAND fails a task of the frozen slot's chain. -/
  | debugCommandFail (slot : Nat) (depth : Nat)
  /-- DEBUG_COMMAND_KILL (R299): Command 0x03 written to COMMAND kills the frozen slot. -/
  | debugCommandKill (slot : Nat)
  /-- FABRIC_PACKET_ARRIVAL (R317): A whole fabric packet arrives, its key is checked, and it is delivered or discarded. -/
  | fabricPacketArrival (link : Nat) (key : Word) (pkt : FabricPacket)
  /-- LINK_CRC_ERROR (R317): A link-level CRC error is retried by the link and recorded in the black box. -/
  | linkCrcError (link : Nat) (retries : Nat)
  /-- THERMAL_STATE_CHANGE (R326): A die's thermal state changes, which changes its grant limit, and the change is recorded. -/
  | thermalStateChange (die : Nat) (state : BitVec 2)
  /-- THERMAL_ALARM (R326): State 3 lasting 10 ms raises the management port's thermal alarm. -/
  | thermalAlarm (die : Nat)
  /-- POWER_ON_RESET (R332): Module power is applied: everything is cleared and start-up runs. -/
  | powerOnReset
  /-- COLD_RESET (R332): A cold reset keeps the black box and HBM4 contents and runs start-up. -/
  | coldReset
  /-- WARM_RESET (R332): A warm reset also keeps fenced rows and PKGNUM, and skips phases 0x03 and 0x05. -/
  | warmReset
  /-- BBHEAD (R334): The management operation returns a die's black-box HEAD. -/
  | bbhead (die : Nat)
  /-- BBREAD (R334): The management operation returns up to 64 black-box records. -/
  | bbread (die : Nat) (seq : Nat) (n : Nat)
  /-- ATTEST (R331): The management operation returns a signed attestation report. -/
  | attest (nonce : BitVec 256) (part : Nat)
  /-- PHASE (R334): The management operation returns the last start-up phase and its result. -/
  | phase
  /-- THERMAL (R334): The management operation returns THERM. -/
  | thermal
  /-- RESET (R334): The management operation requests a cold or warm reset. -/
  | reset (cold : Bool)
  /-- ILLEGAL_ENCODING (R60): A slot's turn reaches a pc whose fetch or decode fails before any instruction is identified (pc bits [63:56] or [1:0] nonzero, fetch translation, length code 0b11, block crossing, or an unassigned opcode), and the slot freezes precisely. -/
  | illegalEncoding (cls : FaultClass) (cause : BitVec 8) (addr : Word) (info : BitVec 32)
  /-- FABRIC_LINK_TRAINING (R314): An enabled Slocia fabric link trains and comes up, while a link that the manifest disables never trains. -/
  | fabricLinkTraining (link : Nat)
  deriving DecidableEq, Repr

end Sys2Proof
end

