-- ==== Sys2Proof/WellFormed.lean ====
section
/-! DEFINITION. Which terms of `Instr` are instructions of the Zhevolo Z6: the lengths, element types, placements, orderings and operand
ranges each description accepts (R41 to R56 and the encoding tables), and the ranges of the numbers a device event names. -/

namespace Sys2Proof

/-- The integer types S8 to Z64 (R52). -/
def Elem.isInt : Elem → Bool
  | .s8 | .s16 | .s32 | .s64 | .z8 | .z16 | .z32 | .z64 => true
  | _ => false

/-- The signed integer types. -/
def Elem.isSigned : Elem → Bool
  | .s8 | .s16 | .s32 | .s64 => true
  | _ => false

/-- The element width in bits (R52). -/
def Elem.width : Elem → Nat
  | .s8 | .z8 | .e4m3 | .e5m2 | .t8 => 8
  | .s16 | .z16 | .f16 | .bf16 => 16
  | .s32 | .z32 | .f32 => 32
  | .s64 | .z64 | .f64 => 64
  | .t6 => 6

/-- The lanes of a vector register (R103). -/
def Elem.lanes (t : Elem) : Nat := 512 / t.width

/-- F16, BF16, F32, F64: the types of scalar arithmetic (R92). -/
def Elem.isFloat : Elem → Bool
  | .f16 | .bf16 | .f32 | .f64 => true
  | _ => false

/-- F16, BF16, F32: the floating types of lane arithmetic (R108). -/
def Elem.isLaneFloat (t : Elem) : Bool := t.isFloat && t != .f64

/-- The types of lane arithmetic: F16, BF16, F32 and the integers (R108). -/
def Elem.isArith (t : Elem) : Bool := t.isInt || t.isLaneFloat

/-- Every type of R103. -/
def Elem.isLane (t : Elem) : Bool := t != .f64

/-- Every 8- to 64-bit type of R103. -/
def Elem.isByteLane (t : Elem) : Bool := t != .f64 && t != .t6

/-- S32, Z32, S64, Z64: the integer types of atomics (R178). -/
def Elem.isAtomic (t : Elem) : Bool := t.isInt && t.width ≥ 32

/-- The types of VGATHER and VSCATTER (R147). -/
def Elem.isGather (t : Elem) : Bool := t.isAtomic || t == .f32

/-- The types of SEXT (R87). -/
def Elem.isSext (t : Elem) : Bool := t.isInt && t.width ≤ 32

/-- The types of VABS and VNEG (R108). -/
def Elem.isAbs (t : Elem) : Bool := t.isLaneFloat || t.isSigned

/-- The types of VCMP (R109). -/
def Elem.isCmp (t : Elem) : Bool := t.isLane && t != .t6

/-- The types of VDOT (R112). -/
def Elem.isDot : Elem → Bool
  | .f16 | .bf16 | .e4m3 | .e5m2 | .t8 | .s16 | .z16 | .s8 | .z8 => true
  | _ => false

/-- The conditions VCMP takes on floating lanes (R109). -/
def Cond.isSignedOrEq : Cond → Bool
  | .ltu | .geu | .leu | .gtu => false
  | _ => true

/-- The immediate of forms I, B and V at a length (R51). -/
def immFits (l : Len) (w : Word) : Bool :=
  match l with
  | .l64 => (w.extractLsb' 0 24).signExtend 64 == w
  | .l96 => (w.extractLsb' 0 56).signExtend 64 == w
  | .l128 => true

/-- The signed byte offset of form M (R51). -/
def offFits (l : Len) (rect : Bool) (w : Word) : Bool :=
  if l == .l96 && !rect then (w.extractLsb' 0 51).signExtend 64 == w else (w.extractLsb' 0 19).signExtend 64 == w

/-- Only the 64-bit length. -/
def Enc.only64 (k : Enc) : Bool := k.len == .l64
/-- Only the 96-bit length. -/
def Enc.only96 (k : Enc) : Bool := k.len == .l96
/-- The 64- and 96-bit lengths. -/
def Enc.upto96 (k : Enc) : Bool := k.len != .l128

/-- An operand of form M at a length, for an instruction that takes no scope (R144). -/
def MemOp.fits (o : MemOp) (k : Enc) : Bool := k.upto96 && offFits k.len false o.off

/-- A scope named with the rectangle's register (R51). -/
def Scope.isRect : Scope → Bool
  | .rect _ => true
  | _ => false

/-- The operand and scope of form M (R51): a rectangle takes the 96-bit length. -/
def MemOp.fitsScoped (o : MemOp) (k : Enc) (sc : Scope) : Bool :=
  k.upto96 && (!sc.isRect || k.only96) && offFits k.len sc.isRect o.off

/-- Placements .L, .N and .G (R145, R185, R236). -/
def Space.lng (s : Space) : Bool := s != .i

/-- The rule of R55 for atomics, RED forms, LRW and SCH: no scope without an ordering. -/
def atomicScope (ord : Ordering) (sc : Scope) : Bool := sc == .unwritten || ord != .none

/-- Ordering codes 0b00 and 0b11 (R185, R189, R190). -/
def Ordering.noneOrUn (o : Ordering) : Bool := o == .none || o == .un

/-- An even register number of a pair (R49). -/
def evenReg (r : Reg) : Bool := r.extractLsb' 0 1 == 0

/-- The b operand of the immediate form at a length (R107). -/
def VSrc.fits (b : VSrc) (l : Len) : Bool :=
  match b with
  | .reg _ => l == .l64
  | .imm w => l != .l64 && immFits l w

/-- .T6 takes no mask (R104, R146). -/
def maskOk (t : Elem) (m : MReg) : Bool := t != .t6 || m == 0

/-- The sub-operation of a lane instruction: a rounding for floating types, below `n` for integer types (R108, R112). -/
def subOk (t : Elem) (sub : BitVec 2) (n : Nat) : Bool := !t.isInt || sub.toNat < n

/-- The sub-operation of VABS and VNEG: 0 for floating types (R108). -/
def absSubOk (t : Elem) (sub : BitVec 2) : Bool := if t.isInt then sub.toNat < 2 else sub == 0

/-- The width of a bit-buffer instruction (R98). -/
def BitCount.fits (w : BitCount) (top : Nat) : Bool :=
  match w with
  | .imm n => decide (1 ≤ n.toNat) && decide (n.toNat ≤ top)
  | .reg _ => true

/-- The parts of VCVT (R111): p is at most ceiling(Lmax ÷ n) − 1. -/
def cvtPartOk (dst src : Elem) (p : BitVec 4) : Bool :=
  let n := Nat.min dst.lanes src.lanes
  decide (p.toNat < (Nat.max dst.lanes src.lanes + n - 1) / n)

/-- The types and scale mode of VCVT (R111). -/
def cvtTypesOk (dst src : Elem) (mode : ScaleMode) : Bool :=
  dst.isLane && src.isLane && !(dst.isInt && src.isInt) && !(dst == .t6 && src == .t6) &&
  (mode == .none || !(dst.isInt || src.isInt))

/-- A job descriptor (R216): a barrier placement only with a barrier register, and never .I. -/
def JobDesc.fits (jd : JobDesc) : Bool := jd.bpl != .i && (jd.breg != 0 || jd.bpl == .l)

/-- The declared registers of MEET (R267): not x0, and at most eight. -/
def declOk (decl : BitVec 32) : Bool :=
  decl.extractLsb' 0 1 == 0 && decide (((List.range 32).filter fun i => decl.getLsbD i).length ≤ 8)

/-- Control registers a CTLW may name (R292). -/
def CtlReg.writable : CtlReg → Bool
  | .task | .priv | .slot | .part => false
  | _ => true

/-- A linear slot number (R11). -/
def slotOk (n : Nat) : Bool := decide (n < 18432)
/-- A linear cluster number (R10). -/
def clusterOk (n : Nat) : Bool := decide (n < 144)
/-- A linear core number (R9). -/
def coreOk (n : Nat) : Bool := decide (n < 1152)
/-- A partition or host function number (R254, R320). -/
def partOk (n : Nat) : Bool := decide (n < 16)

/-- The conditions an instruction or event meets to be one of the Z6's. -/
def Instr.wf : Instr → Bool
  | .nop _ => true
  | .exit k | .ret k => k.only64
  | .j k imm | .call k imm => k.upto96 && immFits k.len imm
  | .jr k _ off | .callr k _ off => k.only64 && immFits k.len off
  | .br k _ _ _ imm => k.upto96 && immFits k.len imm
  | .bbld k _ _ w => k.only64 && (BitCount.imm w).fits 64
  | .bbget k _ w | .bbgetSx k _ w | .bbpeek k _ w | .bbpeekSx k _ w => k.only64 && w.fits 64
  | .bbskip k _ w => k.only64 && w.fits 128
  | .bbpos k _ | .bbposClr k _ => k.only64
  | .loopinit k .. => k.only64
  | .chunk k d _ => k.only64 && evenReg d
  | .add k .. | .sub k .. | .mul k .. | .mulh k .. | .mulhU k .. | .mulhSu k .. | .div k .. | .divU k .. | .rem k .. | .remU k ..
  | .and k .. | .or k .. | .xor k .. | .sll k .. | .srl k .. | .sra k .. | .rot k .. | .min k .. | .minU k .. | .max k .. | .maxU k ..
  | .setc k .. => k.only64
  | .addi k _ _ imm | .muli k _ _ imm | .andi k _ _ imm | .ori k _ _ imm | .xori k _ _ imm | .setci k _ _ _ imm => immFits k.len imm
  | .slli k .. | .srli k .. | .srai k .. | .roti k .. => k.only64
  | .clz k .. | .ctz k .. | .popc k .. | .sel k .. | .mov k .. => k.only64
  | .li k _ imm => immFits k.len imm
  | .la k _ imm => k.upto96 && immFits k.len imm
  | .bfx k .. | .bfxSx k .. | .bfi k .. => k.only64
  | .sext k t _ _ => k.only64 && t.isSext
  | .fadd k t .. | .fsub k t .. | .fmul k t .. | .fma k t .. | .fdiv k t .. | .fsqrt k t .. | .fmin k t .. | .fmax k t .. | .feq k t ..
  | .flt k t .. | .fle k t .. | .fsgn k t .. | .fsgnN k t .. | .fsgnX k t .. => k.only64 && t.isFloat
  | .fcvt k dst src .. => k.only64 && !(dst.isInt && src.isInt)
  | .fclass k t .. => k.only64 && !t.isInt
  | .vadd k t sb m _ _ b | .vsub k t sb m _ _ b | .vmul k t sb m _ _ b => t.isArith && subOk t sb 2 && maskOk t m && b.fits k.len
  | .vfma k t sb m _ _ b _ => t.isArith && subOk t sb 1 && maskOk t m && b.fits k.len
  | .vdiv k t _ m _ _ b => t.isLaneFloat && maskOk t m && b.fits k.len
  | .vsqrt k t _ m _ _ => k.only64 && t.isLaneFloat && maskOk t m
  | .vmin k t m _ _ b | .vmax k t m _ _ b => t.isArith && maskOk t m && b.fits k.len
  | .vand k t m _ _ b | .vor k t m _ _ b | .vxor k t m _ _ b => t.isByteLane && maskOk t m && b.fits k.len
  | .vsll k t m _ _ b | .vsrl k t m _ _ b | .vsra k t m _ _ b => t.isInt && maskOk t m && b.fits k.len
  | .vabs k t sb m _ _ | .vneg k t sb m _ _ => k.only64 && t.isAbs && absSubOk t sb && maskOk t m
  | .vcmp k cc t m _ _ b => t.isCmp && (t.isInt || cc.isSignedOrEq) && maskOk t m && b.fits k.len
  | .vsel k t m .. | .vperm k t m .. | .vcompress k t m .. | .vexpand k t m .. | .vbcast k t m .. | .vmov k t m ..
  | .vslideup k t m .. | .vslidedn k t m .. => k.only64 && t.isByteLane && maskOk t m
  | .vcvt k dst src mode _ p _ _ _ b => k.only64 && cvtTypesOk dst src mode && cvtPartOk dst src p && (mode != .none || b == 0)
  | .vdot k t sb m .. => k.only64 && t.isDot && subOk t sb 2 && maskOk t m
  | .vredsum k t sb m .. => k.only64 && t.isLane && subOk t sb 1 && maskOk t m
  | .vredmax k t m .. | .vredmin k t m .. | .vargmax k t m .. => k.only64 && t.isLane && maskOk t m
  | .vext k t .. | .vins k t .. => k.only64 && t.isByteLane
  | .mand k .. | .mor k .. | .mxor k .. | .mnot k .. | .mpopc k .. | .mfirst k .. | .mset k .. | .mget k .. => k.only64
  | .viota k t m _ => k.only64 && t.isInt && maskOk t m
  | .ld k t o _ | .st k t o _ => t != .t6 && o.fits k
  | .ldC k t o _ => t != .t6 && o.pl.lng && o.fits k
  | .vld k t o m _ | .vst k t o m _ => t.isLane && maskOk t m && o.fits k
  | .vldC k t o m _ => t.isLane && o.pl.lng && maskOk t m && o.fits k
  | .vgather k t o m _ _ | .vscatter k t o m _ _ => t.isGather && maskOk t m && o.fits k
  | .arm k o .. | .retire k o .. | .retireForce k o .. => o.pl.lng && o.fits k
  | .armH k o .. => o.pl == .g && o.fits k
  | .cinv k sc o _ | .cwb k sc o _ => o.pl == .g && o.fitsScoped k sc
  | .pref k o _ => o.pl == .g && o.fits k
  | .ldq k o d | .stq k o d => evenReg d && o.fits k
  | .vlds k t o m _ _ | .vsts k t o m _ _ => t.isByteLane && maskOk t m && o.fits k
  | .amoadd k t ord sc o .. | .amoand k t ord sc o .. | .amoor k t ord sc o .. | .amoxor k t ord sc o .. | .amomin k t ord sc o ..
  | .amomax k t ord sc o .. | .amoswap k t ord sc o .. | .amoswapOnce k t ord sc o .. | .redAdd k t ord sc o .. | .redAnd k t ord sc o ..
  | .redOr k t ord sc o .. | .redXor k t ord sc o .. | .redMin k t ord sc o .. | .redMax k t ord sc o .. | .lrw k t ord sc o ..
  | .sch k t ord sc o .. | .schDrop k t ord sc o .. => t.isAtomic && atomicScope ord sc && o.fitsScoped k sc
  | .amocas k t ord sc o _ b | .amocasOnce k t ord sc o _ b => t.isAtomic && atomicScope ord sc && evenReg b && o.fitsScoped k sc
  | .amofadd k t ord sc o .. | .redFadd k t ord sc o .. => t == .f32 && atomicScope ord sc && o.fitsScoped k sc
  | .fence k ord sc => ord.noneOrUn && k.upto96 && (!sc.isRect || k.only96)
  | .lda k t sc o _ => t != .t6 && o.fitsScoped k sc
  | .stl k t ord sc o _ => t != .t6 && (ord == .rel || ord == .un) && o.fitsScoped k sc
  | .barinit k ord sc o .. | .bararv k ord sc o .. | .bararvB k ord sc o .. | .barwt k ord sc o .. | .bartst k ord sc o ..
  | .barwtt k ord sc o .. | .barexit k ord sc o => o.pl.lng && ord.noneOrUn && o.fitsScoped k sc
  | .lkacq k sc o _ => o.fitsScoped k sc
  | .lkrel k ord sc o _ => ord.noneOrUn && o.fitsScoped k sc
  | .mxq k jd .. | .mxqs k jd .. | .mxlb k jd .. | .cpq k jd .. | .cpf k jd .. => k.only96 && jd.fits
  | .mxg k jd _ g .. => k.only96 && jd.fits && g != 0
  | .tidfence k .. | .tidfenceAll k | .jtest k .. | .jwait k .. | .jcancel k .. | .stest k .. => k.only64
  | .fork k pl imm .. | .forkAt k pl imm .. => k.only96 && pl.lng && immFits .l64 imm
  | .forkD k imm .. | .amsg k imm .. => k.only96 && immFits .l64 imm
  | .join k pl .. => k.only64 && pl.lng
  | .yield k .. | .steal k .. | .popb k .. | .gnew k .. | .gjoin k .. | .gfree k .. | .qenq k .. | .qdeq k .. | .qres k ..
  | .qfil k .. | .mclose k .. => k.only64
  | .meet k _ _ decl => k.only96 && declOk decl
  | .svc k .. | .brk k .. | .ctlr k .. | .freeze k .. | .resumeSResume k .. | .resumeSFail k .. | .resumeSKill k .. | .resumeJReplay k ..
  | .resumeHRelease k .. | .resumePRelease k .. | .vacate k .. | .stopcut k .. | .tlbinvAsid k .. | .tlbinvPage k .. | .tlbinvPart k ..
  | .waitev k .. | .time k .. | .bbox k .. => k.only64
  | .ctlw k _ r => k.only64 && r.writable
  | .activeMessageArrival m => coreOk m.target && partOk m.part
  | .dispatch core => coreOk core
  | .theftAttempt slot | .memoryResultReturn slot _ | .wake slot | .inboxRoom slot | .directoryRoom slot | .barwttTimeout slot
  | .survivorReady slot | .slotHandover slot | .contextRestore slot | .debugCommandResume slot | .debugCommandFail slot _
  | .debugCommandKill slot => slotOk slot
  | .jobEntryHandoff cl p => clusterOk cl && partOk p
  | .cacheEviction cl _ | .meetDeadline cl _ | .jobStart cl _ | .macroSelfTest cl => clusterOk cl
  | .leaveGrant die | .thermalStateChange die _ | .thermalAlarm die | .bbhead die | .bbread die _ _ => decide (die < 6)
  | .jobComplete cl e | .jobFreeze cl e | .copyByteArrival cl e => clusterOk cl && decide (e < 64)
  | .sliceEnd core ring => coreOk core && decide (ring < 4)
  | .cutClose p | .pendingPacketDelivery p | .commit p | .attest _ p => partOk p
  | .hostAccess fn req _ n _ => partOk fn && (n == 1 || n == 2 || n == 4 || n == 8 || req.path == .window)
  | .hostLinkTraining far width => decide (far < 16) && decide (width ≤ 16)
  | .go fn _ | .qgo fn _ => partOk fn
  | .registerWrite .. | .powerOnReset | .coldReset | .warmReset | .phase | .thermal | .reset _ | .illegalEncoding .. => true
  | .fabricPacketArrival link .. | .linkCrcError link _ | .fabricLinkTraining link => decide (link < 24)

/-- The rows of the opcode table that have no encoding: device events. -/
def Instr.isEvent : Instr → Bool
  | .activeMessageArrival _ | .dispatch _ | .theftAttempt _ | .memoryResultReturn .. | .wake _ | .inboxRoom _ | .jobEntryHandoff ..
  | .directoryRoom _ | .cacheEviction .. | .barwttTimeout _ | .meetDeadline .. | .survivorReady _ | .jobStart .. | .leaveGrant _
  | .jobComplete .. | .jobFreeze .. | .copyByteArrival .. | .macroSelfTest _ | .sliceEnd .. | .slotHandover _ | .contextRestore _
  | .cutClose _ | .pendingPacketDelivery _ | .hostAccess .. | .hostLinkTraining .. | .go .. | .qgo .. | .commit _ | .registerWrite ..
  | .debugCommandResume _ | .debugCommandFail .. | .debugCommandKill _ | .fabricPacketArrival .. | .linkCrcError .. | .thermalStateChange ..
  | .thermalAlarm _ | .powerOnReset | .coldReset | .warmReset | .bbhead _ | .bbread .. | .attest .. | .phase | .thermal | .reset _
  | .illegalEncoding .. | .fabricLinkTraining _ => true
  | _ => false

end Sys2Proof
end

