-- ==== Sys2Proof/Decode.lean ====
section
/-! DEFINITION. Decoding and encoding (R41 to R63). Bytes are read into the fields of R45 and the extension word; the fields are read
into an instruction, or refused with the cause that R60's order reaches first. The encoder goes the same way back. The conditions a
decoder states are those of the instruction's encoding table; privilege (cause 0x7) is checked by the instruction's meaning. -/

namespace Sys2Proof

/-- Why bytes are no instruction: the causes 0x1 to 0x6 of R60, and bytes that end before the instruction does. -/
inductive DecErr where
  | tooShort | lengthCode | unassigned | length | code | field | register
  deriving DecidableEq, Repr

/-- The ILLEGAL cause of R60. Bytes that end early have none of their own. -/
def DecErr.cause : DecErr → BitVec 8
  | .tooShort => 0 | .lengthCode => 1 | .unassigned => 2 | .length => 3 | .code => 4 | .field => 5 | .register => 6

/-- The fields of R45, and the extension word of R41 (zero where the length has none). -/
structure Fields where
  len   : Len
  mark  : Bool
  op    : BitVec 8
  d     : Reg
  a     : Reg
  b     : Reg
  c     : Reg
  mask  : MReg
  fn    : BitVec 6
  imm24 : BitVec 24
  ext   : BitVec 64
  deriving DecidableEq, Repr

/-- Little-endian bytes as a number (R5). -/
def leNat : List Byte → Nat
  | [] => 0
  | b :: r => b.toNat + 256 * leNat r

/-- The low `n` bytes of a number, little-endian (R5). -/
def leBytes : Nat → Nat → List Byte
  | 0, _ => []
  | n + 1, w => BitVec.ofNat 8 w :: leBytes n (w / 256)

/-- The length code of R41. -/
def Len.ofCode : BitVec 2 → Option Len
  | 0 => some .l64
  | 1 => some .l96
  | 2 => some .l128
  | _ => none

/-- The length code of R41. -/
def Len.code : Len → BitVec 2
  | .l64 => 0 | .l96 => 1 | .l128 => 2

/-- The element types in the order of R52. -/
def Elem.all : List Elem :=
  [.s8, .s16, .s32, .s64, .z8, .z16, .z32, .z64, .f16, .bf16, .f32, .f64, .e4m3, .e5m2, .t8, .t6]

/-- The element type of a code (R52). -/
def Elem.ofCode (c : BitVec 4) : Elem := Elem.all.getD c.toNat .s8

/-- The code of an element type (R52). -/
def Elem.code : Elem → BitVec 4
  | .s8 => 0 | .s16 => 1 | .s32 => 2 | .s64 => 3 | .z8 => 4 | .z16 => 5 | .z32 => 6 | .z64 => 7
  | .f16 => 8 | .bf16 => 9 | .f32 => 10 | .f64 => 11 | .e4m3 => 12 | .e5m2 => 13 | .t8 => 14 | .t6 => 15

/-- The placement of a code (R53). -/
def Space.ofCode : BitVec 2 → Space
  | 0 => .l | 1 => .n | 2 => .i | 3 => .g

/-- The code of a placement (R53). -/
def Space.code : Space → BitVec 2
  | .l => 0 | .n => 1 | .i => 2 | .g => 3

/-- The ordering of a code (R54). -/
def Ordering.ofCode : BitVec 2 → Ordering
  | 0 => .none | 1 => .acq | 2 => .rel | 3 => .un

/-- The code of an ordering (R54). -/
def Ordering.code : Ordering → BitVec 2
  | .none => 0 | .acq => 1 | .rel => 2 | .un => 3

/-- The scope of a code, with the register of a rectangle (R55). The reserved code is refused before it is read here. -/
def Scope.ofCode (c : BitVec 3) (r : Reg) : Scope :=
  match c with
  | 1 => .thread | 2 => .core | 3 => .cluster | 4 => .package | 5 => .fabric | 6 => .rect r | _ => .unwritten

/-- The code of a scope (R55). -/
def Scope.code : Scope → BitVec 3
  | .unwritten => 0 | .thread => 1 | .core => 2 | .cluster => 3 | .package => 4 | .fabric => 5 | .rect _ => 6

/-- The register a scope names, or 0. -/
def Scope.reg : Scope → Reg
  | .rect r => r
  | _ => 0

/-- The rounding of a code (R68). -/
def Rnd.ofCode : BitVec 2 → Rnd
  | 0 => .rne | 1 => .rtz | 2 => .rdn | 3 => .rup

/-- The code of a rounding (R68). -/
def Rnd.code : Rnd → BitVec 2
  | .rne => 0 | .rtz => 1 | .rdn => 2 | .rup => 3

/-- The conditions in the order of R56. -/
def Cond.all : List Cond := [.eq, .ne, .lt, .ge, .ltu, .geu, .le, .gt, .leu, .gtu]

/-- The condition of a code; codes 0xA to 0xF are refused before it is read here (R56). -/
def Cond.ofCode (c : BitVec 4) : Cond := Cond.all.getD c.toNat .eq

/-- The code of a condition (R56). -/
def Cond.code : Cond → BitVec 4
  | .eq => 0 | .ne => 1 | .lt => 2 | .ge => 3 | .ltu => 4 | .geu => 5 | .le => 6 | .gt => 7 | .leu => 8 | .gtu => 9

/-- The scale mode of VCVT (R111). -/
def ScaleMode.ofCode : BitVec 2 → ScaleMode
  | 1 => .mul | 2 => .div | _ => .none

/-- The code of a scale mode (R111). -/
def ScaleMode.code : ScaleMode → BitVec 2
  | .none => 0 | .mul => 1 | .div => 2

/-- The control register of a number (R292). -/
def CtlReg.ofCode (c : BitVec 12) : Option CtlReg :=
  match c.toNat with
  | 0x000 => some .task | 0x001 => some .mult | 0x002 => some .mstat | 0x003 => some .group | 0x004 => some .fgroup
  | 0x005 => some .stealdom | 0x006 => some .fstat | 0x008 => some .tidbase | 0x010 => some .adoptmax | 0x011 => some .savebase
  | 0x012 => some .deqbase | 0x013 => some .asid | 0x018 => some .priv | 0x019 => some .slot | 0x01A => some .part
  | _ => none

/-- The number of a control register (R292). -/
def CtlReg.code : CtlReg → BitVec 12
  | .task => 0x000 | .mult => 0x001 | .mstat => 0x002 | .group => 0x003 | .fgroup => 0x004 | .stealdom => 0x005 | .fstat => 0x006
  | .tidbase => 0x008 | .adoptmax => 0x010 | .savebase => 0x011 | .deqbase => 0x012 | .asid => 0x013 | .priv => 0x018
  | .slot => 0x019 | .part => 0x01A

/-- The first word of an encoding (R45). -/
def Fields.word (f : Fields) : BitVec 64 :=
  f.imm24 ++ f.fn ++ f.mask ++ f.c ++ f.b ++ f.a ++ f.d ++ f.op ++ BitVec.ofBool f.mark ++ f.len.code

/-- The fields of a first word and an extension word (R45). -/
def Fields.ofWord (l : Len) (w ext : BitVec 64) : Fields :=
  { len := l, mark := w.getLsbD 2, op := w.extractLsb' 3 8, d := w.extractLsb' 11 5, a := w.extractLsb' 16 5, b := w.extractLsb' 21 5,
    c := w.extractLsb' 26 5, mask := w.extractLsb' 31 3, fn := w.extractLsb' 34 6, imm24 := w.extractLsb' 40 24, ext := ext }

/-- The bytes of an encoding, lowest address first (R41, R5). -/
def Fields.bytes (f : Fields) : List Byte := leBytes 8 f.word.toNat ++ leBytes (f.len.bytes - 8) f.ext.toNat

/-- Reads an encoding's fields from bytes (R41). -/
def unpack (bs : List Byte) : Except DecErr Fields :=
  let w := BitVec.ofNat 64 (leNat (bs.take 8))
  match Len.ofCode (w.extractLsb' 0 2) with
  | none => if bs.isEmpty then .error .tooShort else .error .lengthCode
  | some l =>
    if bs.length < l.bytes then .error .tooShort
    else .ok (Fields.ofWord l w (BitVec.ofNat 64 (leNat ((bs.drop 8).take (l.bytes - 8)))))

/-- The checks of R60 in its order: length, codes, fields, registers. -/
def finish (lenOk codeOk fieldOk regOk : Bool) (i : Instr) : Except DecErr Instr :=
  if !lenOk then .error .length
  else if !codeOk then .error .code
  else if !fieldOk then .error .field
  else if !regOk then .error .register
  else .ok i

/-- What every encoding carries (R45, R46). -/
def Fields.k (f : Fields) : Enc := { len := f.len, mark := f.mark }
/-- Function [39:36] as an element type (R50). -/
def Fields.elem (f : Fields) : Elem := Elem.ofCode (f.fn.extractLsb' 2 4)
/-- Function [39:36] as a number. -/
def Fields.hi (f : Fields) : BitVec 4 := f.fn.extractLsb' 2 4
/-- Function [35:34] (R50). -/
def Fields.sub (f : Fields) : BitVec 2 := f.fn.extractLsb' 0 2
/-- Function [35:34] as a rounding (R68). -/
def Fields.rnd (f : Fields) : Rnd := Rnd.ofCode f.sub
/-- Function [35:34] as a placement (R53). -/
def Fields.pl (f : Fields) : Space := Space.ofCode f.sub
/-- Function [37:34] as a condition (R56). -/
def Fields.cc (f : Fields) : Cond := Cond.ofCode (f.fn.extractLsb' 0 4)
/-- The condition code is assigned and [39:38] is zero (R56). -/
def Fields.ccOk (f : Fields) : Bool := decide (f.fn.toNat < 10)
/-- Imm24 [63:61] as a scope code (R50). -/
def Fields.scopeCode (f : Fields) : BitVec 3 := f.imm24.extractLsb' 21 3
/-- Imm24 [60:59] as an ordering code (R50). -/
def Fields.ordCode (f : Fields) : BitVec 2 := f.imm24.extractLsb' 19 2
/-- The ordering of form M. -/
def Fields.ord (f : Fields) : Ordering := Ordering.ofCode f.ordCode
/-- The scope of form M, with the register of a rectangle (R51). -/
def Fields.scope (f : Fields) : Scope := Scope.ofCode f.scopeCode (f.ext.setWidth 5)
/-- The byte offset of form M (R51). -/
def Fields.off (f : Fields) : Word :=
  if f.len == .l96 && f.scopeCode != 6 then ((f.ext.extractLsb' 0 32) ++ (f.imm24.extractLsb' 0 19)).signExtend 64
  else (f.imm24.extractLsb' 0 19).signExtend 64
/-- The memory operand of form M. -/
def Fields.mem (f : Fields) : MemOp := { base := f.a, off := f.off, pl := f.pl }
/-- The signed immediate of forms I, B and V (R51). -/
def Fields.imm (f : Fields) : Word :=
  match f.len with
  | .l64 => f.imm24.signExtend 64
  | .l96 => ((f.ext.extractLsb' 0 32) ++ f.imm24).signExtend 64
  | .l128 => f.ext
/-- Imm24 is zero in the 128-bit length (R51). -/
def Fields.immZero (f : Fields) : Bool := f.len != .l128 || f.imm24 == 0
/-- Register field d as a mask register (R47). -/
def Fields.md (f : Fields) : MReg := f.d.setWidth 3
/-- Register field a as a mask register (R47). -/
def Fields.ma (f : Fields) : MReg := f.a.setWidth 3
/-- Register field b as a mask register (R47). -/
def Fields.mb (f : Fields) : MReg := f.b.setWidth 3
/-- A register field holds a mask register's number (R47). -/
def isMask (r : Reg) : Bool := decide (r.toNat < 8)
/-- The 64-bit length only. -/
def Fields.l64 (f : Fields) : Bool := f.len == .l64
/-- The 96-bit length only. -/
def Fields.l96 (f : Fields) : Bool := f.len == .l96
/-- The 64- and 96-bit lengths. -/
def Fields.l6496 (f : Fields) : Bool := f.len != .l128

/-- Form G or I with registers d, a, b (R87). -/
def decRRR (f : Fields) (fnOk : Bool) (mk : Enc → Reg → Reg → Reg → Instr) : Except DecErr Instr :=
  finish f.l64 fnOk (f.c == 0 && f.mask == 0 && f.imm24 == 0) true (mk f.k f.d f.a f.b)

/-- Form G or I with registers d, a (R87, R224). -/
def decRR (f : Fields) (fnOk : Bool) (mk : Enc → Reg → Reg → Instr) : Except DecErr Instr :=
  finish f.l64 fnOk (f.b == 0 && f.c == 0 && f.mask == 0 && f.imm24 == 0) true (mk f.k f.d f.a)

/-- A signed immediate in any length (R89). -/
def decRRI (f : Fields) (mk : Enc → Reg → Reg → Word → Instr) : Except DecErr Instr :=
  finish true (f.fn == 0) (f.b == 0 && f.c == 0 && f.mask == 0 && f.immZero) true (mk f.k f.d f.a f.imm)

/-- A shift count in imm24[5:0] (R89). -/
def decShift (f : Fields) (mk : Enc → Reg → Reg → BitVec 6 → Instr) : Except DecErr Instr :=
  finish f.l64 (f.fn == 0) (f.b == 0 && f.c == 0 && f.mask == 0 && f.imm24.extractLsb' 6 18 == 0) true
    (mk f.k f.d f.a (f.imm24.setWidth 6))

/-- A bit field of R90; `fnOk` says which functions are accepted. -/
def decField (f : Fields) (fnOk : Bool) (mk : Enc → Reg → Reg → BitVec 6 → BitVec 6 → Instr) : Except DecErr Instr :=
  finish f.l64 fnOk (f.b == 0 && f.c == 0 && f.mask == 0 && f.imm24.extractLsb' 12 12 == 0) true
    (mk f.k f.d f.a (f.imm24.extractLsb' 0 6) (f.imm24.extractLsb' 6 6))

/-- A bit-buffer width (R98): function [35] chooses the immediate or the register. -/
def decBits (f : Fields) (fnOk : Bool) (top : Nat) (mk : Enc → Reg → BitCount → Instr) : Except DecErr Instr :=
  if f.fn.getLsbD 1 then
    finish f.l64 fnOk (f.a == 0 && f.c == 0 && f.mask == 0 && f.imm24 == 0) true (mk f.k f.d (.reg f.b))
  else
    finish f.l64 fnOk
      (f.a == 0 && f.b == 0 && f.c == 0 && f.mask == 0 && f.imm24.extractLsb' 8 16 == 0 &&
        (BitCount.imm (f.imm24.setWidth 8)).fits top)
      true (mk f.k f.d (.imm (f.imm24.setWidth 8)))

/-- A floating instruction of R92 on d, a, b. -/
def decFloat3 (f : Fields) (codeOk : Bool) (mk : Enc → Elem → Reg → Reg → Reg → Instr) : Except DecErr Instr :=
  finish f.l64 codeOk (f.c == 0 && f.mask == 0 && f.imm24 == 0) true (mk f.k f.elem f.d f.a f.b)

/-- A lane instruction on d, a and the b of R107. -/
def decLane (f : Fields) (codeOk : Bool) (mk : Enc → VSrc → Instr) (cOk : Bool) : Except DecErr Instr :=
  if f.l64 then
    finish true codeOk (cOk && f.imm24 == 0 && maskOk f.elem f.mask) true (mk f.k (.reg f.b))
  else
    finish true codeOk (cOk && f.b == 0 && f.immZero && maskOk f.elem f.mask) true (mk f.k (.imm f.imm))

/-- A 64-bit lane instruction with the fields of its table (R106). -/
def decLane64 (f : Fields) (codeOk fieldOk : Bool) (i : Instr) : Except DecErr Instr :=
  finish f.l64 codeOk (fieldOk && f.imm24 == 0 && maskOk f.elem f.mask) true i

/-- A slide, extract or insert (R115): [35:34] chooses the immediate or the register. -/
def decSlide (f : Fields) (masked : Bool) (mk : LaneSrc → Instr) : Except DecErr Instr :=
  let m := if masked then maskOk f.elem f.mask else f.mask == 0
  if f.sub == 1 then
    finish f.l64 f.elem.isByteLane (m && f.c == 0 && f.imm24 == 0) true (mk (.reg f.b))
  else
    finish f.l64 (f.elem.isByteLane && f.sub == 0) (m && f.b == 0 && f.c == 0 && f.imm24.extractLsb' 8 16 == 0) true
      (mk (.imm (f.imm24.setWidth 8)))

/-- Form M without scope or ordering (R144). -/
def decMem (f : Fields) (codeOk fieldOk regOk : Bool) (i : Instr) : Except DecErr Instr :=
  finish f.l6496 (codeOk && f.scopeCode == 0 && f.ordCode == 0) fieldOk regOk i

/-- Form M with a scope (R51, R55). `free` says that the scope is read with ordering code 0b00 too. -/
def decScoped (f : Fields) (codeOk free fieldOk regOk : Bool) (i : Instr) : Except DecErr Instr :=
  finish (f.l6496 && !(f.l64 && f.scopeCode == 6)) (codeOk && f.scopeCode != 7 && (free || atomicScope f.ord f.scope))
    (fieldOk && (f.scopeCode != 6 || f.ext.extractLsb' 5 59 == 0)) regOk i

/-- The ordering code is 0b00 or 0b11 (R185). -/
def Fields.noneOrUn (f : Fields) : Bool := f.ord.noneOrUn

/-- A barrier instruction (R185). -/
def decBar (f : Fields) (fieldOk : Bool) (hiOk : Bool) (i : Instr) : Except DecErr Instr :=
  decScoped f (hiOk && f.pl.lng && f.noneOrUn) true (fieldOk && f.mask == 0) true i

/-- An atomic of R178. -/
def decAmo (f : Fields) (tyOk fieldOk regOk : Bool) (i : Instr) : Except DecErr Instr :=
  decScoped f tyOk false (fieldOk && f.mask == 0) regOk i

/-- The descriptor's scope code (R216). -/
def Fields.jsc (f : Fields) : BitVec 3 := f.ext.extractLsb' 29 3
/-- The descriptor's rectangle register (R216). -/
def Fields.jrr (f : Fields) : Reg := f.ext.extractLsb' 24 5
/-- The descriptor's barrier register (R216). -/
def Fields.jbr (f : Fields) : Reg := f.ext.extractLsb' 19 5
/-- The descriptor's barrier placement code (R216). -/
def Fields.jbp (f : Fields) : BitVec 2 := f.ext.extractLsb' 17 2
/-- The descriptor's DUP (R216). -/
def Fields.jdup (f : Fields) : Bool := f.ext.getLsbD 16
/-- The descriptor's gang register (R216). -/
def Fields.jgr (f : Fields) : Reg := f.ext.extractLsb' 11 5
/-- The descriptor's shared fields (R216). -/
def Fields.jd (f : Fields) : JobDesc := { sc := Scope.ofCode f.jsc f.jrr, breg := f.jbr, bpl := Space.ofCode f.jbp }

/-- An enqueuing instruction (R216). -/
def decJob (f : Fields) (dupOk gang fieldOk : Bool) (i : Instr) : Except DecErr Instr :=
  finish f.l96 (f.fn == 0 && f.jsc != 7 && f.jbp != 2 && (dupOk || !f.jdup))
    (fieldOk && f.mask == 0 && f.imm24 == 0 && (f.jsc == 6 || f.jrr == 0) && (f.jbr != 0 || f.jbp == 0) &&
      (if gang then f.jgr != 0 else f.jgr == 0) && f.ext.extractLsb' 0 11 == 0)
    true i

/-- LREQ of a fork (R236). -/
def Fields.lreq (f : Fields) : BitVec 16 := f.ext.extractLsb' 16 16
/-- KREG of a fork (R236). -/
def Fields.kreg (f : Fields) : Reg := f.ext.extractLsb' 0 5

/-- A fork or message (R236). Function [39:36] is a function value; [35:34] of FORK.D and AMSG stands in R236's table. -/
def decFork (f : Fields) (codeOk fieldOk : Bool) (i : Instr) : Except DecErr Instr :=
  finish f.l96 (f.hi == 0 && codeOk) (fieldOk && f.d == 0 && f.mask == 0 && f.ext.extractLsb' 5 11 == 0) true i

/-- A system instruction (R291): a field its table does not name is cause 0x5, the function field included. -/
def decSys (f : Fields) (codeOk fieldOk : Bool) (i : Instr) : Except DecErr Instr :=
  finish f.l64 codeOk (fieldOk && f.c == 0 && f.mask == 0) true i

/-- A mask instruction (R117). -/
def decMaskOp (f : Fields) (fieldOk regOk : Bool) (i : Instr) : Except DecErr Instr :=
  finish f.l64 (f.fn == 0) (fieldOk && f.c == 0 && f.mask == 0 && f.imm24 == 0) regOk i

/-- Control and bit-buffer instructions, opcode row 0x0 (R95, R98, R100, R101). -/
def decRow0 : List (Nat × (Fields → Except DecErr Instr)) :=
  [ (0x01, fun f => finish true true
      (f.fn == 0 && f.d == 0 && f.a == 0 && f.b == 0 && f.c == 0 && f.mask == 0 && f.imm24 == 0 && f.ext == 0) true (.nop f.k)),
    (0x02, fun f => finish f.l64 (f.fn == 0) (f.d == 0 && f.a == 0 && f.b == 0 && f.c == 0 && f.mask == 0 && f.imm24 == 0) true (.exit f.k)),
    (0x03, fun f => finish f.l6496 (f.fn == 0) (f.d == 0 && f.a == 0 && f.b == 0 && f.c == 0 && f.mask == 0) true (.j f.k f.imm)),
    (0x04, fun f => finish f.l64 (f.fn == 0) (f.d == 0 && f.b == 0 && f.c == 0 && f.mask == 0) true (.jr f.k f.a f.imm)),
    (0x05, fun f => finish f.l6496 (f.fn == 0) (f.d == 0 && f.a == 0 && f.b == 0 && f.c == 0 && f.mask == 0) true (.call f.k f.imm)),
    (0x06, fun f => finish f.l64 (f.fn == 0) (f.d == 0 && f.b == 0 && f.c == 0 && f.mask == 0) true (.callr f.k f.a f.imm)),
    (0x07, fun f => finish f.l64 (f.fn == 0) (f.d == 0 && f.a == 0 && f.b == 0 && f.c == 0 && f.mask == 0 && f.imm24 == 0) true (.ret f.k)),
    (0x08, fun f => finish f.l6496 f.ccOk (f.d == 0 && f.c == 0 && f.mask == 0) true (.br f.k f.cc f.a f.b f.imm)),
    (0x09, fun f => finish f.l64 (f.fn == 0)
      (f.b == 0 && f.c == 0 && f.mask == 0 && f.imm24.extractLsb' 8 16 == 0 && (BitCount.imm (f.imm24.setWidth 8)).fits 64) true
      (.bbld f.k f.d f.a (f.imm24.setWidth 8))),
    (0x0A, fun f => decBits f (f.fn.toNat < 4) 64 (if f.fn.getLsbD 0 then .bbgetSx else .bbget)),
    (0x0B, fun f => decBits f (f.fn.toNat < 4) 64 (if f.fn.getLsbD 0 then .bbpeekSx else .bbpeek)),
    (0x0C, fun f => decBits f (f.fn.toNat < 4 && !f.fn.getLsbD 0) 128 .bbskip),
    (0x0D, fun f => finish f.l64 (f.fn.toNat < 2) (f.a == 0 && f.b == 0 && f.c == 0 && f.mask == 0 && f.imm24 == 0) true
      (if f.fn == 1 then .bbposClr f.k f.d else .bbpos f.k f.d)),
    (0x0E, fun f => finish f.l64 (f.fn == 0) (f.c == 0 && f.mask == 0) true
      (.loopinit f.k f.d f.a f.b (f.imm24.extractLsb' 0 4) (f.imm24.extractLsb' 4 8) (f.imm24.extractLsb' 12 12))),
    (0x0F, fun f => finish f.l64 (f.fn == 0)
      (f.a == 0 && f.b == 0 && f.c == 0 && f.mask == 0 && f.imm24.extractLsb' 4 20 == 0) (evenReg f.d)
      (.chunk f.k f.d (f.imm24.setWidth 4))) ]

/-- Integer instructions on registers, opcode row 0x1 (R87). -/
def decRow1 : List (Nat × (Fields → Except DecErr Instr)) :=
  [ (0x10, fun f => decRRR f (f.fn == 0) .add),
    (0x11, fun f => decRRR f (f.fn == 0) .sub),
    (0x12, fun f => decRRR f (f.fn == 0) .mul),
    (0x13, fun f => decRRR f (f.fn.toNat < 3) (if f.fn == 1 then .mulhU else if f.fn == 2 then .mulhSu else .mulh)),
    (0x14, fun f => decRRR f (f.fn.toNat < 2) (if f.fn == 1 then .divU else .div)),
    (0x15, fun f => decRRR f (f.fn.toNat < 2) (if f.fn == 1 then .remU else .rem)),
    (0x16, fun f => decRRR f (f.fn == 0) .and),
    (0x17, fun f => decRRR f (f.fn == 0) .or),
    (0x18, fun f => decRRR f (f.fn == 0) .xor),
    (0x19, fun f => decRRR f (f.fn == 0) .sll),
    (0x1A, fun f => decRRR f (f.fn == 0) .srl),
    (0x1B, fun f => decRRR f (f.fn == 0) .sra),
    (0x1C, fun f => decRRR f (f.fn == 0) .rot),
    (0x1D, fun f => decRRR f (f.fn.toNat < 2) (if f.fn == 1 then .minU else .min)),
    (0x1E, fun f => decRRR f (f.fn.toNat < 2) (if f.fn == 1 then .maxU else .max)),
    (0x1F, fun f => decRRR f f.ccOk (fun k d a b => .setc k f.cc d a b)) ]

/-- Integer instructions with an immediate, opcode rows 0x2 and 0x3 (R87, R89, R90). -/
def decRow2 : List (Nat × (Fields → Except DecErr Instr)) :=
  [ (0x20, fun f => decRRI f .addi),
    (0x21, fun f => decRRI f .muli),
    (0x22, fun f => decRRI f .andi),
    (0x23, fun f => decRRI f .ori),
    (0x24, fun f => decRRI f .xori),
    (0x25, fun f => decShift f .slli),
    (0x26, fun f => decShift f .srli),
    (0x27, fun f => decShift f .srai),
    (0x28, fun f => decShift f .roti),
    (0x29, fun f => finish true f.ccOk (f.b == 0 && f.c == 0 && f.mask == 0 && f.immZero) true (.setci f.k f.cc f.d f.a f.imm)),
    (0x2A, fun f => decRR f (f.fn == 0) .clz),
    (0x2B, fun f => decRR f (f.fn == 0) .ctz),
    (0x2C, fun f => decRR f (f.fn == 0) .popc),
    (0x2D, fun f => finish f.l64 (f.fn == 0) (f.mask == 0 && f.imm24 == 0) true (.sel f.k f.d f.a f.b f.c)),
    (0x2E, fun f => decRR f (f.fn == 0) .mov),
    (0x2F, fun f => finish true (f.fn == 0) (f.a == 0 && f.b == 0 && f.c == 0 && f.mask == 0 && f.immZero) true (.li f.k f.d f.imm)),
    (0x30, fun f => finish f.l6496 (f.fn == 0) (f.a == 0 && f.b == 0 && f.c == 0 && f.mask == 0) true (.la f.k f.d f.imm)),
    (0x31, fun f => decField f (f.fn.toNat < 2) (if f.fn == 1 then .bfxSx else .bfx)),
    (0x32, fun f => decField f (f.fn == 0) .bfi),
    (0x33, fun f => decRR f (f.elem.isSext && f.sub == 0) (fun k d a => .sext k f.elem d a)) ]

/-- Scalar floating instructions, opcode row 0x4 (R92 to R94). -/
def decRow4 : List (Nat × (Fields → Except DecErr Instr)) :=
  [ (0x40, fun f => decFloat3 f f.elem.isFloat (fun k t d a b => .fadd k t f.rnd d a b)),
    (0x41, fun f => decFloat3 f f.elem.isFloat (fun k t d a b => .fsub k t f.rnd d a b)),
    (0x42, fun f => decFloat3 f f.elem.isFloat (fun k t d a b => .fmul k t f.rnd d a b)),
    (0x43, fun f => finish f.l64 f.elem.isFloat (f.mask == 0 && f.imm24 == 0) true (.fma f.k f.elem f.rnd f.d f.a f.b f.c)),
    (0x44, fun f => decFloat3 f f.elem.isFloat (fun k t d a b => .fdiv k t f.rnd d a b)),
    (0x45, fun f => decRR f f.elem.isFloat (fun k d a => .fsqrt k f.elem f.rnd d a)),
    (0x46, fun f => decFloat3 f (f.elem.isFloat && f.sub == 0) .fmin),
    (0x47, fun f => decFloat3 f (f.elem.isFloat && f.sub == 0) .fmax),
    (0x48, fun f => decFloat3 f (f.elem.isFloat && f.sub == 0) .feq),
    (0x49, fun f => decFloat3 f (f.elem.isFloat && f.sub == 0) .flt),
    (0x4A, fun f => decFloat3 f (f.elem.isFloat && f.sub == 0) .fle),
    (0x4B, fun f => finish f.l64 (!(f.elem.isInt && (Elem.ofCode (f.b.setWidth 4)).isInt))
      (f.b.toNat < 16 && f.c == 0 && f.mask == 0 && f.imm24 == 0) true (.fcvt f.k f.elem (Elem.ofCode (f.b.setWidth 4)) f.rnd f.d f.a)),
    (0x4C, fun f => decRR f (!f.elem.isInt && f.sub == 0) (fun k d a => .fclass k f.elem d a)),
    (0x4D, fun f => decFloat3 f (f.elem.isFloat && f.sub != 3) (if f.sub == 1 then .fsgnN else if f.sub == 2 then .fsgnX else .fsgn)) ]

/-- Lane arithmetic and logic, opcode row 0x5 (R108). -/
def decRow5 : List (Nat × (Fields → Except DecErr Instr)) :=
  [ (0x50, fun f => decLane f (f.elem.isArith && subOk f.elem f.sub 2) (fun k b => .vadd k f.elem f.sub f.mask f.d f.a b) (f.c == 0)),
    (0x51, fun f => decLane f (f.elem.isArith && subOk f.elem f.sub 2) (fun k b => .vsub k f.elem f.sub f.mask f.d f.a b) (f.c == 0)),
    (0x52, fun f => decLane f (f.elem.isArith && subOk f.elem f.sub 2) (fun k b => .vmul k f.elem f.sub f.mask f.d f.a b) (f.c == 0)),
    (0x53, fun f => decLane f (f.elem.isArith && subOk f.elem f.sub 1) (fun k b => .vfma k f.elem f.sub f.mask f.d f.a b f.c) true),
    (0x54, fun f => decLane f f.elem.isLaneFloat (fun k b => .vdiv k f.elem f.sub f.mask f.d f.a b) (f.c == 0)),
    (0x55, fun f => decLane64 f f.elem.isLaneFloat (f.b == 0 && f.c == 0) (.vsqrt f.k f.elem f.sub f.mask f.d f.a)),
    (0x56, fun f => decLane f (f.elem.isArith && f.sub == 0) (fun k b => .vmin k f.elem f.mask f.d f.a b) (f.c == 0)),
    (0x57, fun f => decLane f (f.elem.isArith && f.sub == 0) (fun k b => .vmax k f.elem f.mask f.d f.a b) (f.c == 0)),
    (0x58, fun f => decLane f (f.elem.isByteLane && f.sub == 0) (fun k b => .vand k f.elem f.mask f.d f.a b) (f.c == 0)),
    (0x59, fun f => decLane f (f.elem.isByteLane && f.sub == 0) (fun k b => .vor k f.elem f.mask f.d f.a b) (f.c == 0)),
    (0x5A, fun f => decLane f (f.elem.isByteLane && f.sub == 0) (fun k b => .vxor k f.elem f.mask f.d f.a b) (f.c == 0)),
    (0x5B, fun f => decLane f (f.elem.isInt && f.sub == 0) (fun k b => .vsll k f.elem f.mask f.d f.a b) (f.c == 0)),
    (0x5C, fun f => decLane f (f.elem.isInt && f.sub == 0) (fun k b => .vsrl k f.elem f.mask f.d f.a b) (f.c == 0)),
    (0x5D, fun f => decLane f (f.elem.isInt && f.sub == 0) (fun k b => .vsra k f.elem f.mask f.d f.a b) (f.c == 0)),
    (0x5E, fun f => decLane64 f (f.elem.isAbs && absSubOk f.elem f.sub) (f.b == 0 && f.c == 0) (.vabs f.k f.elem f.sub f.mask f.d f.a)),
    (0x5F, fun f => decLane64 f (f.elem.isAbs && absSubOk f.elem f.sub) (f.b == 0 && f.c == 0) (.vneg f.k f.elem f.sub f.mask f.d f.a)) ]

/-- VCVT (R111). -/
def decVcvt (f : Fields) : Except DecErr Instr :=
  let src := Elem.ofCode (f.imm24.extractLsb' 0 4)
  let mode := ScaleMode.ofCode (f.imm24.extractLsb' 4 2)
  let p := f.imm24.extractLsb' 6 4
  finish f.l64 (f.imm24.extractLsb' 4 2 != 3 && cvtTypesOk f.elem src mode)
    (f.c == 0 && f.imm24.extractLsb' 10 14 == 0 && (mode != .none || f.b == 0) && cvtPartOk f.elem src p) true
    (.vcvt f.k f.elem src mode f.rnd p f.mask f.d f.a f.b)

/-- Compare, select, convert, reduce and permute, opcode row 0x6 (R109 to R116). -/
def decRow6 : List (Nat × (Fields → Except DecErr Instr)) :=
  [ (0x60, fun f =>
      let cc := Cond.ofCode (f.c.setWidth 4)
      let codeOk := f.elem.isCmp && f.sub == 0 && decide (f.c.toNat % 16 < 10) && (f.elem.isInt || cc.isSignedOrEq)
      if f.l64 then
        finish true codeOk (f.c.toNat < 16 && f.imm24 == 0 && maskOk f.elem f.mask) (isMask f.d)
          (.vcmp f.k cc f.elem f.mask f.md f.a (.reg f.b))
      else
        finish true codeOk (f.c.toNat < 16 && f.b == 0 && f.immZero && maskOk f.elem f.mask) (isMask f.d)
          (.vcmp f.k cc f.elem f.mask f.md f.a (.imm f.imm))),
    (0x61, fun f => decLane64 f (f.elem.isByteLane && f.sub == 0) (f.c == 0) (.vsel f.k f.elem f.mask f.d f.a f.b)),
    (0x62, decVcvt),
    (0x63, fun f => decLane64 f (f.elem.isDot && subOk f.elem f.sub 2) true (.vdot f.k f.elem f.sub f.mask f.d f.a f.b f.c)),
    (0x64, fun f => decLane64 f (f.elem.isLane && subOk f.elem f.sub 1) (f.b == 0 && f.c == 0) (.vredsum f.k f.elem f.sub f.mask f.d f.a)),
    (0x65, fun f => decLane64 f (f.elem.isLane && f.sub == 0) (f.b == 0 && f.c == 0) (.vredmax f.k f.elem f.mask f.d f.a)),
    (0x66, fun f => decLane64 f (f.elem.isLane && f.sub == 0) (f.b == 0 && f.c == 0) (.vredmin f.k f.elem f.mask f.d f.a)),
    (0x67, fun f => decLane64 f (f.elem.isLane && f.sub == 0) (f.b == 0 && f.c == 0) (.vargmax f.k f.elem f.mask f.d f.a)),
    (0x68, fun f => decLane64 f (f.elem.isByteLane && f.sub == 0) (f.c == 0) (.vperm f.k f.elem f.mask f.d f.a f.b)),
    (0x69, fun f => decSlide f true (fun n => .vslideup f.k f.elem f.mask f.d f.a n)),
    (0x6A, fun f => decSlide f true (fun n => .vslidedn f.k f.elem f.mask f.d f.a n)),
    (0x6B, fun f => decLane64 f (f.elem.isByteLane && f.sub == 0) (f.b == 0 && f.c == 0) (.vcompress f.k f.elem f.mask f.d f.a)),
    (0x6C, fun f => decLane64 f (f.elem.isByteLane && f.sub == 0) (f.b == 0 && f.c == 0) (.vexpand f.k f.elem f.mask f.d f.a)),
    (0x6D, fun f => decLane64 f (f.elem.isByteLane && f.sub == 0) (f.b == 0 && f.c == 0) (.vbcast f.k f.elem f.mask f.d f.a)),
    (0x6E, fun f => decSlide f false (fun n => .vext f.k f.elem f.d f.a n)),
    (0x6F, fun f => decSlide f false (fun n => .vins f.k f.elem f.d f.a n)) ]

/-- Mask instructions, VIOTA and VMOV, opcode row 0x7 (R110, R116, R117). -/
def decRow7 : List (Nat × (Fields → Except DecErr Instr)) :=
  [ (0x70, fun f => decMaskOp f true (isMask f.d && isMask f.a && isMask f.b) (.mand f.k f.md f.ma f.mb)),
    (0x71, fun f => decMaskOp f true (isMask f.d && isMask f.a && isMask f.b) (.mor f.k f.md f.ma f.mb)),
    (0x72, fun f => decMaskOp f true (isMask f.d && isMask f.a && isMask f.b) (.mxor f.k f.md f.ma f.mb)),
    (0x73, fun f => decMaskOp f (f.b == 0) (isMask f.d && isMask f.a) (.mnot f.k f.md f.ma)),
    (0x74, fun f => decMaskOp f (f.b == 0) (isMask f.a) (.mpopc f.k f.d f.ma)),
    (0x75, fun f => decMaskOp f (f.b == 0) (isMask f.a) (.mfirst f.k f.d f.ma)),
    (0x76, fun f => decMaskOp f (f.b == 0) (isMask f.d) (.mset f.k f.md f.a)),
    (0x77, fun f => decMaskOp f (f.b == 0) (isMask f.a) (.mget f.k f.d f.ma)),
    (0x78, fun f => decLane64 f (f.elem.isInt && f.sub == 0) (f.a == 0 && f.b == 0 && f.c == 0) (.viota f.k f.elem f.mask f.d)),
    (0x79, fun f => decLane64 f (f.elem.isByteLane && f.sub == 0) (f.b == 0 && f.c == 0) (.vmov f.k f.elem f.mask f.d f.a)) ]

/-- Memory instructions, opcode row 0x8 and opcode 0x90 (R144 to R151). -/
def decRow8 : List (Nat × (Fields → Except DecErr Instr)) :=
  [ (0x80, fun f => decMem f (f.elem != .t6) (f.b == 0 && f.c == 0 && f.mask == 0) true (.ld f.k f.elem f.mem f.d)),
    (0x81, fun f => decMem f (f.elem != .t6 && f.pl.lng) (f.b == 0 && f.c == 0 && f.mask == 0) true (.ldC f.k f.elem f.mem f.d)),
    (0x82, fun f => decMem f (f.elem != .t6) (f.b == 0 && f.c == 0 && f.mask == 0) true (.st f.k f.elem f.mem f.d)),
    (0x83, fun f => decMem f f.elem.isLane (f.b == 0 && f.c == 0 && maskOk f.elem f.mask) true (.vld f.k f.elem f.mem f.mask f.d)),
    (0x84, fun f => decMem f (f.elem.isLane && f.pl.lng) (f.b == 0 && f.c == 0 && maskOk f.elem f.mask) true
      (.vldC f.k f.elem f.mem f.mask f.d)),
    (0x85, fun f => decMem f f.elem.isLane (f.b == 0 && f.c == 0 && maskOk f.elem f.mask) true (.vst f.k f.elem f.mem f.mask f.d)),
    (0x86, fun f => decMem f f.elem.isGather (f.c == 0 && maskOk f.elem f.mask) true (.vgather f.k f.elem f.mem f.mask f.d f.b)),
    (0x87, fun f => decMem f f.elem.isGather (f.c == 0 && maskOk f.elem f.mask) true (.vscatter f.k f.elem f.mem f.mask f.d f.b)),
    (0x88, fun f => decMem f ((f.hi == 0 && f.pl.lng) || (f.hi == 1 && f.pl == .g)) (f.mask == 0) true
      (if f.hi == 1 then .armH f.k f.mem f.d f.b f.c else .arm f.k f.mem f.d f.b f.c)),
    (0x89, fun f => decMem f ((f.hi == 0 || f.hi == 1) && f.pl.lng) (f.c == 0 && f.mask == 0) true
      (if f.hi == 1 then .retireForce f.k f.mem f.d f.b else .retire f.k f.mem f.d f.b)),
    (0x8A, fun f => decScoped f (f.hi == 0 && f.pl == .g && f.ordCode == 0) true (f.d == 0 && f.c == 0 && f.mask == 0) true
      (.cinv f.k f.scope f.mem f.b)),
    (0x8B, fun f => decScoped f (f.hi == 0 && f.pl == .g && f.ordCode == 0) true (f.d == 0 && f.c == 0 && f.mask == 0) true
      (.cwb f.k f.scope f.mem f.b)),
    (0x8C, fun f => decMem f (f.hi == 0 && f.pl == .g) (f.d == 0 && f.c == 0 && f.mask == 0) true (.pref f.k f.mem f.b)),
    (0x8D, fun f => decMem f (f.hi == 0) (f.b == 0 && f.c == 0 && f.mask == 0) (evenReg f.d) (.ldq f.k f.mem f.d)),
    (0x8E, fun f => decMem f (f.hi == 0) (f.b == 0 && f.c == 0 && f.mask == 0) (evenReg f.d) (.stq f.k f.mem f.d)),
    (0x8F, fun f => decMem f f.elem.isByteLane (f.c == 0 && maskOk f.elem f.mask) true (.vlds f.k f.elem f.mem f.mask f.d f.b)),
    (0x90, fun f => decMem f f.elem.isByteLane (f.c == 0 && maskOk f.elem f.mask) true (.vsts f.k f.elem f.mem f.mask f.d f.b)) ]

/-- RED: the op code in c (R178). -/
def decRed (f : Fields) : Except DecErr Instr :=
  let i := match f.c.toNat with
    | 0 => .redAdd f.k f.elem f.ord f.scope f.mem f.b
    | 1 => .redAnd f.k f.elem f.ord f.scope f.mem f.b
    | 2 => .redOr f.k f.elem f.ord f.scope f.mem f.b
    | 3 => .redXor f.k f.elem f.ord f.scope f.mem f.b
    | 4 => .redMin f.k f.elem f.ord f.scope f.mem f.b
    | 5 => .redMax f.k f.elem f.ord f.scope f.mem f.b
    | _ => .redFadd f.k f.elem f.ord f.scope f.mem f.b
  decAmo f (f.c.toNat < 7 && (if f.c == 6 then f.elem == .f32 else f.elem.isAtomic)) (f.d == 0) true i

/-- Atomics, reservations and ordered accesses, the rest of opcode row 0x9 (R178 to R183, R189). -/
def decRow9 : List (Nat × (Fields → Except DecErr Instr)) :=
  [ (0x91, fun f => decAmo f f.elem.isAtomic (f.c == 0) true (.amoadd f.k f.elem f.ord f.scope f.mem f.d f.b)),
    (0x92, fun f => decAmo f f.elem.isAtomic (f.c == 0) true (.amoand f.k f.elem f.ord f.scope f.mem f.d f.b)),
    (0x93, fun f => decAmo f f.elem.isAtomic (f.c == 0) true (.amoor f.k f.elem f.ord f.scope f.mem f.d f.b)),
    (0x94, fun f => decAmo f f.elem.isAtomic (f.c == 0) true (.amoxor f.k f.elem f.ord f.scope f.mem f.d f.b)),
    (0x95, fun f => decAmo f f.elem.isAtomic (f.c == 0) true (.amomin f.k f.elem f.ord f.scope f.mem f.d f.b)),
    (0x96, fun f => decAmo f f.elem.isAtomic (f.c == 0) true (.amomax f.k f.elem f.ord f.scope f.mem f.d f.b)),
    (0x97, fun f => decAmo f f.elem.isAtomic (f.c.toNat < 2) true
      (if f.c == 1 then .amoswapOnce f.k f.elem f.ord f.scope f.mem f.d f.b else .amoswap f.k f.elem f.ord f.scope f.mem f.d f.b)),
    (0x98, fun f => decAmo f f.elem.isAtomic (f.c.toNat < 2) (evenReg f.b)
      (if f.c == 1 then .amocasOnce f.k f.elem f.ord f.scope f.mem f.d f.b else .amocas f.k f.elem f.ord f.scope f.mem f.d f.b)),
    (0x99, fun f => decAmo f (f.elem == .f32) (f.c == 0) true (.amofadd f.k f.elem f.ord f.scope f.mem f.d f.b)),
    (0x9A, decRed),
    (0x9B, fun f => decAmo f f.elem.isAtomic (f.b == 0 && f.c == 0) true (.lrw f.k f.elem f.ord f.scope f.mem f.d)),
    (0x9C, fun f => decAmo f f.elem.isAtomic (f.c.toNat < 2) true
      (if f.c == 1 then .schDrop f.k f.elem f.ord f.scope f.mem f.d f.b else .sch f.k f.elem f.ord f.scope f.mem f.d f.b)),
    (0x9D, fun f => decScoped f (f.fn == 0 && f.noneOrUn) true
      (f.d == 0 && f.a == 0 && f.b == 0 && f.c == 0 && f.mask == 0 && f.off == 0) true (.fence f.k f.ord f.scope)),
    (0x9E, fun f => decScoped f (f.elem != .t6 && f.ord == .acq) true (f.b == 0 && f.c == 0 && f.mask == 0) true
      (.lda f.k f.elem f.scope f.mem f.d)),
    (0x9F, fun f => decScoped f (f.elem != .t6 && (f.ord == .rel || f.ord == .un)) true (f.b == 0 && f.c == 0 && f.mask == 0) true
      (.stl f.k f.elem f.ord f.scope f.mem f.d)) ]

/-- Barrier words and locks, opcode row 0xA (R185, R190). -/
def decRowA : List (Nat × (Fields → Except DecErr Instr)) :=
  [ (0xA0, fun f => decBar f (f.d == 0) (f.hi == 0) (.barinit f.k f.ord f.scope f.mem f.b f.c)),
    (0xA1, fun f => decBar f (f.c == 0) (f.hi == 0 || f.hi == 1)
      (if f.hi == 1 then .bararvB f.k f.ord f.scope f.mem f.d f.b else .bararv f.k f.ord f.scope f.mem f.d f.b)),
    (0xA2, fun f => decBar f (f.c == 0) (f.hi == 0) (.barwt f.k f.ord f.scope f.mem f.d f.b)),
    (0xA3, fun f => decBar f (f.c == 0) (f.hi == 0) (.bartst f.k f.ord f.scope f.mem f.d f.b)),
    (0xA4, fun f => decBar f true (f.hi == 0) (.barwtt f.k f.ord f.scope f.mem f.d f.b f.c)),
    (0xA5, fun f => decBar f (f.d == 0 && f.b == 0 && f.c == 0) (f.hi == 0) (.barexit f.k f.ord f.scope f.mem)),
    (0xA6, fun f => decScoped f (f.hi == 0 && f.ordCode == 0) true (f.b == 0 && f.c == 0 && f.mask == 0) true
      (.lkacq f.k f.scope f.mem f.d)),
    (0xA7, fun f => decScoped f (f.hi == 0 && f.noneOrUn) true (f.b == 0 && f.c == 0 && f.mask == 0) true
      (.lkrel f.k f.ord f.scope f.mem f.d)) ]

/-- Engine instructions, opcode row 0xB (R216 to R227). -/
def decRowB : List (Nat × (Fields → Except DecErr Instr)) :=
  [ (0xB0, fun f => decJob f true false true (.mxq f.k f.jd f.jdup f.d f.a f.b f.c)),
    (0xB1, fun f => decJob f true false true (.mxqs f.k f.jd f.jdup f.d f.a f.b f.c)),
    (0xB2, fun f => decJob f true true true (.mxg f.k f.jd f.jdup f.jgr f.d f.a f.b f.c)),
    (0xB3, fun f => decJob f false false (f.b == 0 && f.c == 0) (.mxlb f.k f.jd f.d f.a)),
    (0xB4, fun f => decJob f false false (f.c == 0) (.cpq f.k f.jd f.d f.a f.b)),
    (0xB5, fun f => decJob f false false (f.c == 0) (.cpf f.k f.jd f.d f.a f.b)),
    (0xB6, fun f => finish f.l64 (f.fn.toNat < 2)
      ((f.fn == 0 || f.a == 0) && f.d == 0 && f.b == 0 && f.c == 0 && f.mask == 0 && f.imm24 == 0) true
      (if f.fn == 1 then .tidfenceAll f.k else .tidfence f.k f.a)),
    (0xB7, fun f => decRR f (f.fn == 0) .jtest),
    (0xB8, fun f => decRR f (f.fn == 0) .jwait),
    (0xB9, fun f => decRR f (f.fn == 0) .jcancel),
    (0xBA, fun f => finish f.l64 (f.fn == 0) (f.a == 0 && f.b == 0 && f.c == 0 && f.mask == 0 && f.imm24 == 0) true (.stest f.k f.d)) ]

/-- Task, group and queue instructions, opcode row 0xC (R236 to R251). -/
def decRowC : List (Nat × (Fields → Except DecErr Instr)) :=
  [ (0xC0, fun f => decFork f f.pl.lng (f.kreg == 0) (.fork f.k f.pl (f.imm24.signExtend 64) f.lreq f.a f.b f.c)),
    (0xC1, fun f => decFork f true (f.kreg == 0 && f.a == 0 && f.sub == 0) (.forkD f.k (f.imm24.signExtend 64) f.lreq f.b f.c)),
    (0xC2, fun f => decFork f f.pl.lng true (.forkAt f.k f.pl (f.imm24.signExtend 64) f.lreq f.kreg f.a f.b f.c)),
    (0xC3, fun f => finish f.l64 (f.hi == 0 && f.pl.lng) (f.c == 0 && f.mask == 0 && f.imm24 == 0) true (.join f.k f.pl f.d f.a f.b)),
    (0xC4, fun f => decRR f (f.fn == 0) .yield),
    (0xC5, fun f => decRR f (f.fn == 0) .steal),
    (0xC6, fun f => finish f.l64 (f.fn == 0) (f.a == 0 && f.b == 0 && f.c == 0 && f.mask == 0 && f.imm24 == 0) true (.popb f.k f.d)),
    (0xC7, fun f => finish f.l64 (f.fn == 0) (f.a == 0 && f.b == 0 && f.c == 0 && f.mask == 0 && f.imm24 == 0) true (.gnew f.k f.d)),
    (0xC8, fun f => finish f.l64 (f.fn == 0) (f.d == 0 && f.b == 0 && f.c == 0 && f.mask == 0 && f.imm24 == 0) true (.gjoin f.k f.a)),
    (0xC9, fun f => decRR f (f.fn == 0) .gfree),
    (0xCA, fun f => finish f.l64 (f.fn == 0) (f.b == 0 && f.mask == 0 && f.imm24 == 0) true (.qenq f.k f.d f.a f.c)),
    (0xCB, fun f => decRRR f (f.fn == 0) .qdeq),
    (0xCC, fun f => decRR f (f.fn == 0) .qres),
    (0xCD, fun f => finish f.l64 (f.fn == 0) (f.mask == 0 && f.imm24 == 0) true (.qfil f.k f.d f.a f.b f.c)),
    (0xCE, fun f => decFork f true (f.lreq == 0 && f.a == 0 && f.sub == 0) (.amsg f.k (f.imm24.signExtend 64) f.kreg f.b f.c)) ]

/-- Meets, opcode row 0xD (R267, R276). -/
def decRowD : List (Nat × (Fields → Except DecErr Instr)) :=
  [ (0xD0, fun f =>
      let fieldOk := f.d == 0 && f.c == 0 && f.mask == 0 && declOk (f.ext.setWidth 32)
      if f.fn == 2 then finish f.l96 true (fieldOk && f.imm24 == 0) true (.meet f.k f.a (.reg f.b) (f.ext.setWidth 32))
      else finish f.l96 (f.fn == 0) (fieldOk && f.b == 0) true (.meet f.k f.a (.imm f.imm24) (f.ext.setWidth 32))),
    (0xD1, fun f => decRR f (f.fn == 0) .mclose) ]

/-- A control register number that names one, and for CTLW one that it may name (R292). -/
def ctlOk (c : BitVec 12) (write : Bool) : Bool :=
  match CtlReg.ofCode c with
  | some r => !write || r.writable
  | none => false

/-- System instructions, opcode row 0xE (R291). -/
def decRowE : List (Nat × (Fields → Except DecErr Instr)) :=
  [ (0xE0, fun f => decSys f true (f.fn == 0 && f.d == 0 && f.a == 0 && f.b == 0) (.svc f.k f.imm24)),
    (0xE1, fun f => decSys f true (f.fn == 0 && f.d == 0 && f.a == 0 && f.b == 0) (.brk f.k f.imm24)),
    (0xE2, fun f => decSys f (ctlOk (f.imm24.setWidth 12) false) (f.fn == 0 && f.a == 0 && f.b == 0 && f.imm24.extractLsb' 12 12 == 0)
      (.ctlr f.k f.d ((CtlReg.ofCode (f.imm24.setWidth 12)).getD .task))),
    (0xE3, fun f => decSys f (ctlOk (f.imm24.setWidth 12) true) (f.fn == 0 && f.d == 0 && f.b == 0 && f.imm24.extractLsb' 12 12 == 0)
      (.ctlw f.k f.a ((CtlReg.ofCode (f.imm24.setWidth 12)).getD .task))),
    (0xE4, fun f => decSys f true (f.fn == 0 && f.b == 0 && f.imm24 == 0) (.freeze f.k f.d f.a)),
    (0xE5, fun f => decSys f true (f.hi == 0 && f.imm24 == 0)
      (match f.sub with
        | 0 => .resumeSResume f.k f.d f.a f.b
        | 1 => .resumeJReplay f.k f.d f.a f.b
        | 2 => .resumeHRelease f.k f.d f.a f.b
        | 3 => .resumePRelease f.k f.d f.a f.b)),
    (0xE6, fun f => decSys f true (f.fn == 0 && f.imm24 == 0) (.vacate f.k f.d f.a f.b)),
    (0xE7, fun f => decSys f true (f.fn == 0 && f.imm24 == 0) (.stopcut f.k f.d f.a f.b)),
    (0xE8, fun f => decSys f (f.sub != 3) (f.hi == 0 && f.imm24 == 0)
      (match f.sub with
        | 0 => .tlbinvAsid f.k f.d f.a f.b
        | 1 => .tlbinvPage f.k f.d f.a f.b
        | _ => .tlbinvPart f.k f.d f.a f.b)),
    (0xE9, fun f => decSys f true (f.fn == 0 && f.imm24 == 0) (.waitev f.k f.d f.a f.b)),
    (0xEA, fun f => decSys f true (f.fn == 0 && f.a == 0 && f.b == 0 && f.imm24 == 0) (.time f.k f.d)),
    (0xEB, fun f => decSys f true (f.fn == 0 && f.imm24 == 0) (.bbox f.k f.d f.a f.b)) ]

/-- The decoder an opcode lists in a row. -/
def findRow : List (Nat × (Fields → Except DecErr Instr)) → Nat → Option (Fields → Except DecErr Instr)
  | [], _ => none
  | (n, g) :: r, op => if n = op then some g else findRow r op

/-- The opcode map of R57, by opcode bits [10:7]; the rest of the map is unassigned. -/
def opcodeRow (op : Nat) : List (Nat × (Fields → Except DecErr Instr)) :=
  match op / 16 with
  | 0x0 => decRow0
  | 0x1 => decRow1
  | 0x2 => decRow2
  | 0x3 => decRow2
  | 0x4 => decRow4
  | 0x5 => decRow5
  | 0x6 => decRow6
  | 0x7 => decRow7
  | 0x8 => decRow8
  | 0x9 => decRow8 ++ decRow9
  | 0xA => decRowA
  | 0xB => decRowB
  | 0xC => decRowC
  | 0xD => decRowD
  | 0xE => decRowE
  | _ => []

/-- The instruction of an encoding's fields, or the cause that R60 reaches first. -/
def decodeFields (f : Fields) : Except DecErr Instr :=
  match findRow (opcodeRow f.op.toNat) f.op.toNat with
  | some g => g f
  | none => .error .unassigned

/-- Decodes the instruction at the head of some bytes (R60). Its length is that of the instruction's encoding. -/
def decode (bs : List Byte) : Except DecErr Instr :=
  match unpack bs with
  | .ok f => decodeFields f
  | .error e => .error e

/-- An encoding with every field zero. -/
def Enc.fields (k : Enc) (op : Nat) : Fields :=
  { len := k.len, mark := k.mark, op := BitVec.ofNat 8 op, d := 0, a := 0, b := 0, c := 0, mask := 0, fn := 0, imm24 := 0, ext := 0 }

/-- Function from an element type and a sub-operation (R50). -/
def fnOf (t : Elem) (sub : BitVec 2) : BitVec 6 := t.code ++ sub
/-- Function from a condition (R56). -/
def fnCc (cc : Cond) : BitVec 6 := (0 : BitVec 2) ++ cc.code
/-- Function from a number in [39:36] and a placement. -/
def fnPl (hi : BitVec 4) (pl : Space) : BitVec 6 := hi ++ pl.code

/-- The immediate fields of forms I, B and V (R51). -/
def Fields.withImm (f : Fields) (w : Word) : Fields :=
  match f.len with
  | .l64 => { f with imm24 := w.extractLsb' 0 24 }
  | .l96 => { f with imm24 := w.extractLsb' 0 24, ext := (w.extractLsb' 24 32).setWidth 64 }
  | .l128 => { f with ext := w }

/-- The operand, scope and ordering fields of form M (R50, R51). -/
def Fields.withMem (f : Fields) (hi : BitVec 4) (o : MemOp) (sc : Scope) (ord : Ordering) : Fields :=
  { f with
    a := o.base, fn := fnPl hi o.pl, imm24 := sc.code ++ ord.code ++ o.off.extractLsb' 0 19,
    ext := if sc.isRect then sc.reg.setWidth 64 else if f.len == .l96 then (o.off.extractLsb' 19 32).setWidth 64 else 0 }

/-- The bit-buffer width of R98, with `sx` for the sign-extending forms. -/
def Fields.withBits (f : Fields) (w : BitCount) (sx : Bool) : Fields :=
  match w with
  | .imm n => { f with fn := if sx then 1 else 0, imm24 := n.setWidth 24 }
  | .reg b => { f with fn := if sx then 3 else 2, b := b }

/-- The b operand of R107. -/
def Fields.withVSrc (f : Fields) (b : VSrc) : Fields :=
  match b with
  | .reg r => { f with b := r }
  | .imm w => f.withImm w

/-- The count or index of R115. -/
def Fields.withLane (f : Fields) (t : Elem) (n : LaneSrc) : Fields :=
  match n with
  | .imm n => { f with fn := fnOf t 0, imm24 := n.setWidth 24 }
  | .reg b => { f with fn := fnOf t 1, b := b }

/-- The job descriptor of R216. -/
def jobExt (jd : JobDesc) (dup : Bool) (g : Reg) : BitVec 64 :=
  (jd.sc.code ++ jd.sc.reg ++ jd.breg ++ jd.bpl.code ++ BitVec.ofBool dup ++ g ++ (0 : BitVec 11)).setWidth 64

/-- The extension word of R236. -/
def forkExt (lreq : BitVec 16) (kr : Reg) : BitVec 64 := (lreq ++ (0 : BitVec 11) ++ kr).setWidth 64

/-- An encoding with registers d, a, b. -/
def Enc.rrr (k : Enc) (op : Nat) (fn : BitVec 6) (d a b : Reg) : Fields := { k.fields op with fn := fn, d := d, a := a, b := b }

/-- An encoding with registers d, a. -/
def Enc.rr (k : Enc) (op : Nat) (fn : BitVec 6) (d a : Reg) : Fields := { k.fields op with fn := fn, d := d, a := a }

/-- An encoding with registers d, a, b and a mask. -/
def Enc.vec (k : Enc) (op : Nat) (t : Elem) (sub : BitVec 2) (m : MReg) (d a b : Reg) : Fields :=
  { k.fields op with fn := fnOf t sub, mask := m, d := d, a := a, b := b }

/-- A bit field of R90. -/
def Enc.bitField (k : Enc) (op : Nat) (fn : BitVec 6) (d a : Reg) (p w : BitVec 6) : Fields :=
  { k.fields op with fn := fn, d := d, a := a, imm24 := (w ++ p).setWidth 24 }

/-- A mask register's number in a register field (R47). -/
def MReg.field (m : MReg) : Reg := m.setWidth 5

/-- An atomic's encoding (R178). -/
def Enc.amo (k : Enc) (op : Nat) (t : Elem) (ord : Ordering) (sc : Scope) (o : MemOp) (d b c : Reg) : Fields :=
  { (k.fields op).withMem t.code o sc ord with d := d, b := b, c := c }

/-- The fields of an instruction (R45, R50 and the encoding tables), for the rows that have an encoding. -/
def Instr.fields? : Instr → Option Fields
  | .nop k => some (k.fields 0x01)
  | .exit k => some (k.fields 0x02)
  | .j k imm => some ((k.fields 0x03).withImm imm)
  | .jr k a off => some { (k.fields 0x04).withImm off with a := a }
  | .call k imm => some ((k.fields 0x05).withImm imm)
  | .callr k a off => some { (k.fields 0x06).withImm off with a := a }
  | .ret k => some (k.fields 0x07)
  | .br k cc a b imm => some { (k.fields 0x08).withImm imm with fn := fnCc cc, a := a, b := b }
  | .bbld k d a w => some { k.fields 0x09 with d := d, a := a, imm24 := w.setWidth 24 }
  | .bbget k d w => some { (k.fields 0x0A).withBits w false with d := d }
  | .bbgetSx k d w => some { (k.fields 0x0A).withBits w true with d := d }
  | .bbpeek k d w => some { (k.fields 0x0B).withBits w false with d := d }
  | .bbpeekSx k d w => some { (k.fields 0x0B).withBits w true with d := d }
  | .bbskip k d w => some { (k.fields 0x0C).withBits w false with d := d }
  | .bbpos k d => some { k.fields 0x0D with d := d }
  | .bbposClr k d => some { k.fields 0x0D with fn := 1, d := d }
  | .loopinit k d a b ctr p mc => some { k.fields 0x0E with d := d, a := a, b := b, imm24 := mc ++ p ++ ctr }
  | .chunk k d ctr => some { k.fields 0x0F with d := d, imm24 := ctr.setWidth 24 }
  | .add k d a b => some (k.rrr 0x10 0 d a b)
  | .sub k d a b => some (k.rrr 0x11 0 d a b)
  | .mul k d a b => some (k.rrr 0x12 0 d a b)
  | .mulh k d a b => some (k.rrr 0x13 0 d a b)
  | .mulhU k d a b => some (k.rrr 0x13 1 d a b)
  | .mulhSu k d a b => some (k.rrr 0x13 2 d a b)
  | .div k d a b => some (k.rrr 0x14 0 d a b)
  | .divU k d a b => some (k.rrr 0x14 1 d a b)
  | .rem k d a b => some (k.rrr 0x15 0 d a b)
  | .remU k d a b => some (k.rrr 0x15 1 d a b)
  | .and k d a b => some (k.rrr 0x16 0 d a b)
  | .or k d a b => some (k.rrr 0x17 0 d a b)
  | .xor k d a b => some (k.rrr 0x18 0 d a b)
  | .sll k d a b => some (k.rrr 0x19 0 d a b)
  | .srl k d a b => some (k.rrr 0x1A 0 d a b)
  | .sra k d a b => some (k.rrr 0x1B 0 d a b)
  | .rot k d a b => some (k.rrr 0x1C 0 d a b)
  | .min k d a b => some (k.rrr 0x1D 0 d a b)
  | .minU k d a b => some (k.rrr 0x1D 1 d a b)
  | .max k d a b => some (k.rrr 0x1E 0 d a b)
  | .maxU k d a b => some (k.rrr 0x1E 1 d a b)
  | .setc k cc d a b => some (k.rrr 0x1F (fnCc cc) d a b)
  | .addi k d a imm => some { (k.fields 0x20).withImm imm with d := d, a := a }
  | .muli k d a imm => some { (k.fields 0x21).withImm imm with d := d, a := a }
  | .andi k d a imm => some { (k.fields 0x22).withImm imm with d := d, a := a }
  | .ori k d a imm => some { (k.fields 0x23).withImm imm with d := d, a := a }
  | .xori k d a imm => some { (k.fields 0x24).withImm imm with d := d, a := a }
  | .slli k d a n => some { k.rr 0x25 0 d a with imm24 := n.setWidth 24 }
  | .srli k d a n => some { k.rr 0x26 0 d a with imm24 := n.setWidth 24 }
  | .srai k d a n => some { k.rr 0x27 0 d a with imm24 := n.setWidth 24 }
  | .roti k d a n => some { k.rr 0x28 0 d a with imm24 := n.setWidth 24 }
  | .setci k cc d a imm => some { (k.fields 0x29).withImm imm with fn := fnCc cc, d := d, a := a }
  | .clz k d a => some (k.rr 0x2A 0 d a)
  | .ctz k d a => some (k.rr 0x2B 0 d a)
  | .popc k d a => some (k.rr 0x2C 0 d a)
  | .sel k d a b c => some { k.rrr 0x2D 0 d a b with c := c }
  | .mov k d a => some (k.rr 0x2E 0 d a)
  | .li k d imm => some { (k.fields 0x2F).withImm imm with d := d }
  | .la k d imm => some { (k.fields 0x30).withImm imm with d := d }
  | .bfx k d a p w => some (k.bitField 0x31 0 d a p w)
  | .bfxSx k d a p w => some (k.bitField 0x31 1 d a p w)
  | .bfi k d a p w => some (k.bitField 0x32 0 d a p w)
  | .sext k t d a => some (k.rr 0x33 (fnOf t 0) d a)
  | .fadd k t rm d a b => some (k.rrr 0x40 (fnOf t rm.code) d a b)
  | .fsub k t rm d a b => some (k.rrr 0x41 (fnOf t rm.code) d a b)
  | .fmul k t rm d a b => some (k.rrr 0x42 (fnOf t rm.code) d a b)
  | .fma k t rm d a b c => some { k.rrr 0x43 (fnOf t rm.code) d a b with c := c }
  | .fdiv k t rm d a b => some (k.rrr 0x44 (fnOf t rm.code) d a b)
  | .fsqrt k t rm d a => some (k.rr 0x45 (fnOf t rm.code) d a)
  | .fmin k t d a b => some (k.rrr 0x46 (fnOf t 0) d a b)
  | .fmax k t d a b => some (k.rrr 0x47 (fnOf t 0) d a b)
  | .feq k t d a b => some (k.rrr 0x48 (fnOf t 0) d a b)
  | .flt k t d a b => some (k.rrr 0x49 (fnOf t 0) d a b)
  | .fle k t d a b => some (k.rrr 0x4A (fnOf t 0) d a b)
  | .fcvt k dst src rm d a => some (k.rrr 0x4B (fnOf dst rm.code) d a (src.code.setWidth 5))
  | .fclass k t d a => some (k.rr 0x4C (fnOf t 0) d a)
  | .fsgn k t d a b => some (k.rrr 0x4D (fnOf t 0) d a b)
  | .fsgnN k t d a b => some (k.rrr 0x4D (fnOf t 1) d a b)
  | .fsgnX k t d a b => some (k.rrr 0x4D (fnOf t 2) d a b)
  | .vadd k t sb m d a b => some ((k.vec 0x50 t sb m d a 0).withVSrc b)
  | .vsub k t sb m d a b => some ((k.vec 0x51 t sb m d a 0).withVSrc b)
  | .vmul k t sb m d a b => some ((k.vec 0x52 t sb m d a 0).withVSrc b)
  | .vfma k t sb m d a b c => some { (k.vec 0x53 t sb m d a 0).withVSrc b with c := c }
  | .vdiv k t sb m d a b => some ((k.vec 0x54 t sb m d a 0).withVSrc b)
  | .vsqrt k t sb m d a => some (k.vec 0x55 t sb m d a 0)
  | .vmin k t m d a b => some ((k.vec 0x56 t 0 m d a 0).withVSrc b)
  | .vmax k t m d a b => some ((k.vec 0x57 t 0 m d a 0).withVSrc b)
  | .vand k t m d a b => some ((k.vec 0x58 t 0 m d a 0).withVSrc b)
  | .vor k t m d a b => some ((k.vec 0x59 t 0 m d a 0).withVSrc b)
  | .vxor k t m d a b => some ((k.vec 0x5A t 0 m d a 0).withVSrc b)
  | .vsll k t m d a b => some ((k.vec 0x5B t 0 m d a 0).withVSrc b)
  | .vsrl k t m d a b => some ((k.vec 0x5C t 0 m d a 0).withVSrc b)
  | .vsra k t m d a b => some ((k.vec 0x5D t 0 m d a 0).withVSrc b)
  | .vabs k t sb m d a => some (k.vec 0x5E t sb m d a 0)
  | .vneg k t sb m d a => some (k.vec 0x5F t sb m d a 0)
  | .vcmp k cc t m d a b => some { (k.vec 0x60 t 0 m d.field a 0).withVSrc b with c := cc.code.setWidth 5 }
  | .vsel k t m d a b => some (k.vec 0x61 t 0 m d a b)
  | .vcvt k dst src mode rm p m d a b =>
    some { k.vec 0x62 dst rm.code m d a b with imm24 := (p ++ mode.code ++ src.code).setWidth 24 }
  | .vdot k t sb m d a b c => some { k.vec 0x63 t sb m d a b with c := c }
  | .vredsum k t sb m d a => some (k.vec 0x64 t sb m d a 0)
  | .vredmax k t m d a => some (k.vec 0x65 t 0 m d a 0)
  | .vredmin k t m d a => some (k.vec 0x66 t 0 m d a 0)
  | .vargmax k t m d a => some (k.vec 0x67 t 0 m d a 0)
  | .vperm k t m d a b => some (k.vec 0x68 t 0 m d a b)
  | .vslideup k t m d a n => some ((k.vec 0x69 t 0 m d a 0).withLane t n)
  | .vslidedn k t m d a n => some ((k.vec 0x6A t 0 m d a 0).withLane t n)
  | .vcompress k t m d a => some (k.vec 0x6B t 0 m d a 0)
  | .vexpand k t m d a => some (k.vec 0x6C t 0 m d a 0)
  | .vbcast k t m d a => some (k.vec 0x6D t 0 m d a 0)
  | .vext k t d a n => some ((k.vec 0x6E t 0 0 d a 0).withLane t n)
  | .vins k t d a n => some ((k.vec 0x6F t 0 0 d a 0).withLane t n)
  | .mand k d a b => some (k.rrr 0x70 0 d.field a.field b.field)
  | .mor k d a b => some (k.rrr 0x71 0 d.field a.field b.field)
  | .mxor k d a b => some (k.rrr 0x72 0 d.field a.field b.field)
  | .mnot k d a => some (k.rr 0x73 0 d.field a.field)
  | .mpopc k d a => some (k.rr 0x74 0 d a.field)
  | .mfirst k d a => some (k.rr 0x75 0 d a.field)
  | .mset k d a => some (k.rr 0x76 0 d.field a)
  | .mget k d a => some (k.rr 0x77 0 d a.field)
  | .viota k t m d => some (k.vec 0x78 t 0 m d 0 0)
  | .vmov k t m d a => some (k.vec 0x79 t 0 m d a 0)
  | .ld k t o d => some { (k.fields 0x80).withMem t.code o .unwritten .none with d := d }
  | .ldC k t o d => some { (k.fields 0x81).withMem t.code o .unwritten .none with d := d }
  | .st k t o d => some { (k.fields 0x82).withMem t.code o .unwritten .none with d := d }
  | .vld k t o m d => some { (k.fields 0x83).withMem t.code o .unwritten .none with d := d, mask := m }
  | .vldC k t o m d => some { (k.fields 0x84).withMem t.code o .unwritten .none with d := d, mask := m }
  | .vst k t o m d => some { (k.fields 0x85).withMem t.code o .unwritten .none with d := d, mask := m }
  | .vgather k t o m d b => some { (k.fields 0x86).withMem t.code o .unwritten .none with d := d, b := b, mask := m }
  | .vscatter k t o m d b => some { (k.fields 0x87).withMem t.code o .unwritten .none with d := d, b := b, mask := m }
  | .arm k o d b c => some { (k.fields 0x88).withMem 0 o .unwritten .none with d := d, b := b, c := c }
  | .armH k o d b c => some { (k.fields 0x88).withMem 1 o .unwritten .none with d := d, b := b, c := c }
  | .retire k o d b => some { (k.fields 0x89).withMem 0 o .unwritten .none with d := d, b := b }
  | .retireForce k o d b => some { (k.fields 0x89).withMem 1 o .unwritten .none with d := d, b := b }
  | .cinv k sc o b => some { (k.fields 0x8A).withMem 0 o sc .none with b := b }
  | .cwb k sc o b => some { (k.fields 0x8B).withMem 0 o sc .none with b := b }
  | .pref k o b => some { (k.fields 0x8C).withMem 0 o .unwritten .none with b := b }
  | .ldq k o d => some { (k.fields 0x8D).withMem 0 o .unwritten .none with d := d }
  | .stq k o d => some { (k.fields 0x8E).withMem 0 o .unwritten .none with d := d }
  | .vlds k t o m d b => some { (k.fields 0x8F).withMem t.code o .unwritten .none with d := d, b := b, mask := m }
  | .vsts k t o m d b => some { (k.fields 0x90).withMem t.code o .unwritten .none with d := d, b := b, mask := m }
  | .amoadd k t ord sc o d b => some (k.amo 0x91 t ord sc o d b 0)
  | .amoand k t ord sc o d b => some (k.amo 0x92 t ord sc o d b 0)
  | .amoor k t ord sc o d b => some (k.amo 0x93 t ord sc o d b 0)
  | .amoxor k t ord sc o d b => some (k.amo 0x94 t ord sc o d b 0)
  | .amomin k t ord sc o d b => some (k.amo 0x95 t ord sc o d b 0)
  | .amomax k t ord sc o d b => some (k.amo 0x96 t ord sc o d b 0)
  | .amoswap k t ord sc o d b => some (k.amo 0x97 t ord sc o d b 0)
  | .amoswapOnce k t ord sc o d b => some (k.amo 0x97 t ord sc o d b 1)
  | .amocas k t ord sc o d b => some (k.amo 0x98 t ord sc o d b 0)
  | .amocasOnce k t ord sc o d b => some (k.amo 0x98 t ord sc o d b 1)
  | .amofadd k t ord sc o d b => some (k.amo 0x99 t ord sc o d b 0)
  | .redAdd k t ord sc o b => some (k.amo 0x9A t ord sc o 0 b 0)
  | .redAnd k t ord sc o b => some (k.amo 0x9A t ord sc o 0 b 1)
  | .redOr k t ord sc o b => some (k.amo 0x9A t ord sc o 0 b 2)
  | .redXor k t ord sc o b => some (k.amo 0x9A t ord sc o 0 b 3)
  | .redMin k t ord sc o b => some (k.amo 0x9A t ord sc o 0 b 4)
  | .redMax k t ord sc o b => some (k.amo 0x9A t ord sc o 0 b 5)
  | .redFadd k t ord sc o b => some (k.amo 0x9A t ord sc o 0 b 6)
  | .lrw k t ord sc o d => some (k.amo 0x9B t ord sc o d 0 0)
  | .sch k t ord sc o d b => some (k.amo 0x9C t ord sc o d b 0)
  | .schDrop k t ord sc o d b => some (k.amo 0x9C t ord sc o d b 1)
  | .fence k ord sc =>
    some { k.fields 0x9D with imm24 := sc.code ++ ord.code ++ (0 : BitVec 19), ext := if sc.isRect then sc.reg.setWidth 64 else 0 }
  | .lda k t sc o d => some (k.amo 0x9E t .acq sc o d 0 0)
  | .stl k t ord sc o d => some (k.amo 0x9F t ord sc o d 0 0)
  | .barinit k ord sc o b c => some { (k.fields 0xA0).withMem 0 o sc ord with b := b, c := c }
  | .bararv k ord sc o d b => some { (k.fields 0xA1).withMem 0 o sc ord with d := d, b := b }
  | .bararvB k ord sc o d b => some { (k.fields 0xA1).withMem 1 o sc ord with d := d, b := b }
  | .barwt k ord sc o d b => some { (k.fields 0xA2).withMem 0 o sc ord with d := d, b := b }
  | .bartst k ord sc o d b => some { (k.fields 0xA3).withMem 0 o sc ord with d := d, b := b }
  | .barwtt k ord sc o d b c => some { (k.fields 0xA4).withMem 0 o sc ord with d := d, b := b, c := c }
  | .barexit k ord sc o => some ((k.fields 0xA5).withMem 0 o sc ord)
  | .lkacq k sc o d => some { (k.fields 0xA6).withMem 0 o sc .none with d := d }
  | .lkrel k ord sc o d => some { (k.fields 0xA7).withMem 0 o sc ord with d := d }
  | .mxq k jd dup d a b c => some { k.rrr 0xB0 0 d a b with c := c, ext := jobExt jd dup 0 }
  | .mxqs k jd dup d a b c => some { k.rrr 0xB1 0 d a b with c := c, ext := jobExt jd dup 0 }
  | .mxg k jd dup g d a b c => some { k.rrr 0xB2 0 d a b with c := c, ext := jobExt jd dup g }
  | .mxlb k jd d a => some { k.rr 0xB3 0 d a with ext := jobExt jd false 0 }
  | .cpq k jd d a b => some { k.rrr 0xB4 0 d a b with ext := jobExt jd false 0 }
  | .cpf k jd d a b => some { k.rrr 0xB5 0 d a b with ext := jobExt jd false 0 }
  | .tidfence k a => some (k.rr 0xB6 0 0 a)
  | .tidfenceAll k => some (k.rr 0xB6 1 0 0)
  | .jtest k d a => some (k.rr 0xB7 0 d a)
  | .jwait k d a => some (k.rr 0xB8 0 d a)
  | .jcancel k d a => some (k.rr 0xB9 0 d a)
  | .stest k d => some (k.rr 0xBA 0 d 0)
  | .fork k pl imm lreq a b c =>
    some { k.rrr 0xC0 (fnPl 0 pl) 0 a b with c := c, imm24 := imm.extractLsb' 0 24, ext := forkExt lreq 0 }
  | .forkD k imm lreq b c => some { k.rrr 0xC1 0 0 0 b with c := c, imm24 := imm.extractLsb' 0 24, ext := forkExt lreq 0 }
  | .forkAt k pl imm lreq kr a b c =>
    some { k.rrr 0xC2 (fnPl 0 pl) 0 a b with c := c, imm24 := imm.extractLsb' 0 24, ext := forkExt lreq kr }
  | .join k pl d a b => some (k.rrr 0xC3 (fnPl 0 pl) d a b)
  | .yield k d a => some (k.rr 0xC4 0 d a)
  | .steal k d a => some (k.rr 0xC5 0 d a)
  | .popb k d => some (k.rr 0xC6 0 d 0)
  | .gnew k d => some (k.rr 0xC7 0 d 0)
  | .gjoin k a => some (k.rr 0xC8 0 0 a)
  | .gfree k d a => some (k.rr 0xC9 0 d a)
  | .qenq k d a c => some { k.rr 0xCA 0 d a with c := c }
  | .qdeq k d a b => some (k.rrr 0xCB 0 d a b)
  | .qres k d a => some (k.rr 0xCC 0 d a)
  | .qfil k d a b c => some { k.rrr 0xCD 0 d a b with c := c }
  | .amsg k imm kr b c => some { k.rrr 0xCE 0 0 0 b with c := c, imm24 := imm.extractLsb' 0 24, ext := forkExt 0 kr }
  | .meet k a (.imm n) decl => some { k.rr 0xD0 0 0 a with imm24 := n, ext := decl.setWidth 64 }
  | .meet k a (.reg b) decl => some { k.rrr 0xD0 2 0 a b with ext := decl.setWidth 64 }
  | .mclose k d a => some (k.rr 0xD1 0 d a)
  | .svc k code => some { k.fields 0xE0 with imm24 := code }
  | .brk k code => some { k.fields 0xE1 with imm24 := code }
  | .ctlr k d r => some { k.rr 0xE2 0 d 0 with imm24 := r.code.setWidth 24 }
  | .ctlw k a r => some { k.rr 0xE3 0 0 a with imm24 := r.code.setWidth 24 }
  | .freeze k d a => some (k.rr 0xE4 0 d a)
  | .resumeSResume k d a b | .resumeSFail k d a b | .resumeSKill k d a b => some (k.rrr 0xE5 0 d a b)
  | .resumeJReplay k d a b => some (k.rrr 0xE5 1 d a b)
  | .resumeHRelease k d a b => some (k.rrr 0xE5 2 d a b)
  | .resumePRelease k d a b => some (k.rrr 0xE5 3 d a b)
  | .vacate k d a b => some (k.rrr 0xE6 0 d a b)
  | .stopcut k d a b => some (k.rrr 0xE7 0 d a b)
  | .tlbinvAsid k d a b => some (k.rrr 0xE8 0 d a b)
  | .tlbinvPage k d a b => some (k.rrr 0xE8 1 d a b)
  | .tlbinvPart k d a b => some (k.rrr 0xE8 2 d a b)
  | .waitev k d a b => some (k.rrr 0xE9 0 d a b)
  | .time k d => some (k.rr 0xEA 0 d 0)
  | .bbox k d a b => some (k.rrr 0xEB 0 d a b)
  | .activeMessageArrival _ | .dispatch _ | .theftAttempt _ | .memoryResultReturn .. | .wake _ | .inboxRoom _ | .jobEntryHandoff ..
  | .directoryRoom _ | .cacheEviction .. | .barwttTimeout _ | .meetDeadline .. | .survivorReady _ | .jobStart .. | .leaveGrant _
  | .jobComplete .. | .jobFreeze .. | .copyByteArrival .. | .macroSelfTest _ | .sliceEnd .. | .slotHandover _ | .contextRestore _
  | .cutClose _ | .pendingPacketDelivery _ | .hostAccess .. | .hostLinkTraining .. | .go .. | .qgo .. | .commit _ | .registerWrite ..
  | .debugCommandResume _ | .debugCommandFail .. | .debugCommandKill _ | .fabricPacketArrival .. | .linkCrcError .. | .thermalStateChange ..
  | .thermalAlarm _ | .powerOnReset | .coldReset | .warmReset | .bbhead _ | .bbread .. | .attest .. | .phase | .thermal | .reset _
  | .illegalEncoding .. | .fabricLinkTraining _ => none

/-- The bytes of an instruction, lowest address first. A device event has none. -/
def encode (i : Instr) : List Byte :=
  match i.fields? with
  | some f => f.bytes
  | none => []

/-- The row of the opcode table an instruction belongs to by its encoding alone: the three RESUME.S rows share one encoding, and the
command in xb chooses among them when the instruction issues (R299). -/
def Instr.decoded : Instr → Instr
  | .resumeSFail k d a b | .resumeSKill k d a b => .resumeSResume k d a b
  | i => i

/-- The instruction the decoder reads from an instruction whose bits are `w`, numbered as spec/opcode_table.json numbers them. -/
def decodeTableWord (nbits w : Nat) : Option Instr :=
  match decode (leBytes 16 (w % 2 ^ nbits)) with
  | .ok i => some i
  | .error _ => none

end Sys2Proof
end

