-- ==== Sys2Proof/Config.lean ====
section
/-! DEFINITION. What the manual leaves to the device or does not state: constants of this model (each named in the assumption
log) and free values. A free value is an opaque constant applied to plain data; nothing in Lean can evaluate it. -/

namespace Sys2Proof.Config

/-- FREE VALUE (log 3). A choice among `n` the manual leaves open (which line a full set evicts), for the `k`-th such choice. -/
opaque freeChoice : Nat → Nat

/-- FREE VALUE (log 4). The byte of SHAKE256 output and of the Ed448 key and signature of R330 and R331: which object (0 firmware digest,
1 manifest digest, 2 descriptor digest of a partition, 3 identity public key, 4 signature), the data it is taken over, and the byte's index. -/
opaque cryptoByte : Nat → List Byte → Nat → Byte

/-- FREE VALUE (log 5). Macro rows the self-test of R204 finds failing, for the `k`-th test the device runs: the number of newly failing rows. -/
opaque failingRows : Nat → Nat

/-- FREE VALUE (log 5). The phase at which start-up fails (R330, R333), for the `k`-th start-up; any number that is no phase: none fails. -/
opaque failingPhase : Nat → Nat

/-- FREE VALUE (log 6). The two macro rows a REDUNDANT packet names (R203, R281), for the `k`-th comparison. -/
opaque redundantRow : Nat → Nat

/-- DESIGN CHOICE (log 7). The firmware's supervisor entry of R333 phase 0x08: the manual does not give its address. -/
def supervisorEntry : Word := 0

/-- DESIGN CHOICE (log 8). The manifest of R314: this device has every core and every link enabled. -/
def coresEnabled : BitVec 1152 := BitVec.allOnes 1152
/-- DESIGN CHOICE (log 8). Links the manifest enables (R314). -/
def linksEnabled : BitVec 24 := BitVec.allOnes 24
/-- DESIGN CHOICE (log 8). The macro rows of a cluster's engine that the manifest fences from start-up (R204, R314). -/
def fencedRows (_cluster : Nat) : Nat := 0

/-- DESIGN CHOICE (log 9). Where in the top 1 GiB of stack 11 partition 0's areas lie (R333 gives the GiB and not the places). -/
def rootsBase0 : Nat := 0xBFC0000000
def finbox0 : Nat := 0xBFC0010000
def dirbase0 : Nat := 0xBFC0020000
def spillbase0 : Nat := 0xBFC0030000
def switchbase0 : Nat := 0xBFC0040000
def ranktab0 : Nat := 0xBFC1000000
/-- DESIGN CHOICE (log 9). DIRSIZE of partition 0 at start-up: the least R310 allows. -/
def dirsize0 : Nat := 1024

end Sys2Proof.Config
end

