-- ==== Sys2Proof/Machine/State.lean ====
section
/-! DEFINITION. The state of one Zhevolo Z6 package, as plain data: slots and their contexts, cores and their buffers, clusters with
their caches, job queues and tables, dies, partitions with their task directories, and the parties at the device's boundaries. -/

namespace Sys2Proof.Machine

/-- Memory: rising addresses, no byte equal to the zero an unlisted address reads as. -/
abbrev Memory := List Host.Cell

/-- Why the machine itself stops. -/
inductive Fault where
  /-- Raised by step when start-up has failed at a phase (R330, R333: the device stops there). Safe: the manual lets nothing run then. -/
  | startUpFailed (phase : Nat)
  deriving DecidableEq, Repr

/-- Why an instruction has no meaning here. -/
inductive Refusal where
  /-- Raised by exec for an instruction that is not modelled. Safe. -/
  | notModelled (mnemonic : String)
  deriving DecidableEq, Repr

/-- A place where one word has its serialisation point (R168, R176): a physical address or a local address in a core's buffers. -/
inductive Loc where
  | phys (pa : Nat)
  | buf (core : Nat) (addr : Nat)
  deriving DecidableEq, Repr

/-- A thread's context: the fields of a save frame (R285). Register 0 of x and of m is stored and never read. -/
structure Ctx where
  x        : Vector Word 32
  v        : Vector Vec 32
  m        : Vector Word 8
  pc       : Word
  bbData   : BitVec 128
  bbValid  : BitVec 8
  task     : TaskId
  mult     : BitVec 32
  group    : BitVec 16
  fgroup   : BitVec 16
  stealdom : BitVec 2
  fstat    : BitVec 6
  mstat    : Word
  deriving DecidableEq, Repr

/-- A context with every register zero and multiplicity 1. -/
def Ctx.zero : Ctx :=
  { x := Vector.replicate 32 0, v := Vector.replicate 32 0, m := Vector.replicate 8 0, pc := 0, bbData := 0, bbValid := 0,
    task := 0, mult := 1, group := 0, fgroup := 0, stealdom := 0, fstat := 0, mstat := 0 }

/-- One level of a slot's adoption chain (R241, R242). `adopted` levels count towards ctl.ADOPTMAX; `status` is the register of a POPB
or STEAL that adopted the level, which receives its status when the level leaves (R244, R247); `fplace` and `future` are an inline
level's future (R232). -/
structure Level where
  task    : TaskId
  inline  : Bool
  adopted : Bool
  status  : Option Reg
  fplace  : BitVec 2
  future  : BitVec 56
  deriving DecidableEq, Repr

/-- What a sleeping slot waits for (R19), with the tag under which its address space finds the word it watches (R126); `claim` is a RETIRE's
wait for a running job (R206), `engine` an STEST's (R227). -/
inductive Wait where
  | future (l : Loc) (tag : Nat) (owner : TaskId)
  | barrier (l : Loc) (tag : Nat) (gen : BitVec 30) (deadline : Option Nat)
  | lock (l : Loc) (tag : Nat) (owner : TaskId)
  | reserve (l : Loc)
  | job (id : BitVec 32)
  | group (g : BitVec 16)
  | queueEmpty (pa : Nat) (tag : Nat)
  | queueEntry (pa : Nat) (tag : Nat) (n : Nat) (owner : TaskId)
  | event (mask : BitVec 2) (time : Nat) (supervisor : Bool)
  | gang (cluster : Nat) (entry : Nat)
  | meet (cluster : Nat)
  | released
  | cut (part : Nat)
  | claim (core : Nat) (row : Nat)
  | engine (cluster : Nat)
  deriving DecidableEq, Repr

/-- What a slot that stays on its instruction waits for (R33, R191, R237); of an MXG `gang` is the gang register (R220). -/
inductive Stall where
  | inbox (core : Nat)
  | jobEntry (cluster : Nat) (gang : Option Word)
  | directory
  deriving DecidableEq, Repr

/-- Who stopped a frozen slot (R279). -/
inductive FreezeKind where
  | fault | freeze | cut
  deriving DecidableEq, Repr

/-- What a frozen slot holds of a meet (R275): nothing, its place at an entry, a release that waits for its resume, or one that had taken
effect before the stop. -/
inductive MeetHold where
  | none
  | parked (cluster : Nat)
  | released (mult : BitVec 32) (mstat : Word)
  | passed
  deriving DecidableEq, Repr

/-- The states of a slot (R19), with the stay on an instruction told apart from ready. -/
inductive Run where
  | idle
  | ready
  | parked
  | sleeping (w : Wait)
  | stalled (k : Stall)
  | frozen (k : FreezeKind) (h : MeetHold)
  deriving DecidableEq, Repr

/-- What a woken instruction remembers of its earlier run; `jobEntry` says that a freed queue entry is its own (R260), `stest` that an STEST
holds the starts of its cluster's matrix jobs (R227). -/
inductive Cont where
  | none
  | timed (deadline : Nat)
  | gangJob (id : BitVec 32)
  | cutSum (n : Nat)
  | jobEntry
  | stest
  deriving DecidableEq, Repr

/-- A requested memory result that has not returned (R21): its register and the register's content once it returns. -/
structure Result where
  isVec : Bool
  reg   : Reg
  val   : Vec
  deriving DecidableEq, Repr

/-- The registers held per slot and partition (R292). -/
structure SlotRegs where
  tidbase  : Word
  adoptmax : BitVec 3
  savebase : Word
  asid     : BitVec 11
  deriving DecidableEq, Repr

/-- Their reset values (R241, R292). -/
def SlotRegs.reset : SlotRegs := { tidbase := 0, adoptmax := 4, savebase := 0, asid := 0 }

/-- What a switched-out partition keeps of a slot besides the frame in its switch area (R262, R263): its state, chain and wait, whether a
step is armed (R284), since when it waits (R260), its waiting packet (R282), and the vacated chain it stands for. -/
structure Away where
  run       : Run
  levels    : List Level
  cont      : Cont
  stepArmed : Bool
  waitFrom  : Nat
  packet    : Option (BitVec 512)
  stands    : Option TaskId
  deriving DecidableEq, Repr

/-- A partition's part of a slot that holds no thread, idle since a cycle. -/
def Away.idle (now : Nat) : Away :=
  { run := .idle, levels := [], cont := .none, stepArmed := false, waitFrom := now, packet := none, stands := none }

/-- A thread slot (R17, R19). `levels` is the adoption chain, top first, and `ctx` the top task's context. `waitFrom` is since when it waits
(R260), of an idle slot when its next attempt of theft falls (R257). `stands` names the base task of the chain vacated from it whose fault it still
holds, frozen, for the supervisor (R286). -/
structure Slot where
  run       : Run
  ctx       : Ctx
  levels    : List Level
  cont      : Cont
  pending   : List Result
  regs      : Table SlotRegs
  priv      : BitVec 2
  step      : Bool
  stepArmed : Bool
  lost      : Bool
  packet    : Option (BitVec 512)
  lastIssue : Option Nat
  waitFrom  : Nat
  holder    : Option Nat
  restoring : Bool
  away      : Table Away
  stands    : Option TaskId
  deriving DecidableEq, Repr

/-- A slot that holds no thread. -/
def Slot.empty : Slot :=
  { run := .idle, ctx := Ctx.zero, levels := [], cont := .none, pending := [], regs := [], priv := 0, step := false,
    stepArmed := false, lost := false, packet := none, lastIssue := none, waitFrom := 0, holder := none, restoring := false,
    away := [], stands := none }

/-- A TLB entry (R130): what a walk found. -/
structure TlbEntry where
  part  : Nat
  asid  : BitVec 11
  level : Nat
  vpage : Nat
  pte   : Word
  deriving DecidableEq, Repr

/-- A core (R17): its buffers by local address (R119), the shadow bank of C, row counts (R131), micro-TLB, inbox, dispatcher and
thief state (R256, R257), its theft rings' pointers by partition, the counters of cuts (R289), per slice ring the partition whose slice is in
force and when that began (R254, R262), and the cycle of the dispatcher's last start (R256). -/
structure Core where
  buf        : Memory
  shadow     : Memory
  counts     : Table Nat
  utlb       : List TlbEntry
  inbox      : List Message
  waited     : Table Nat
  draining   : List Nat
  deqbase    : Table (BitVec 16)
  lastServed : Nat
  ring1      : Table Nat
  ring2      : Table Nat
  ring3      : Table Nat
  lastIssue  : Option Nat
  colour     : List Nat
  sent       : Table (BitVec 32)
  recv       : Table (BitVec 32)
  sliceOf    : Table Nat
  sliceFrom  : Table Nat
  lastStart  : Option Nat
  deriving DecidableEq, Repr

/-- A core after reset. -/
def Core.empty : Core :=
  { buf := [], shadow := [], counts := [], utlb := [], inbox := [], waited := [], draining := [], deqbase := [], lastServed := 15,
    ring1 := [], ring2 := [], ring3 := [], lastIssue := none, colour := [], sent := [], recv := [], sliceOf := [], sliceFrom := [], lastStart := none }

/-- A line of a cluster cache (R124, R126, R152), its count (R131), whether ECC has given up its data (R281) and, when spilled, its record
(R140), which stays the line's under the names it was spilled by (log 96). -/
structure CLine where
  part   : Nat
  asid   : BitVec 11
  vline  : Nat
  pline  : Nat
  data   : BitVec 1024
  dirty  : BitVec 128
  count  : Nat
  filled : Nat
  bad    : Bool
  spill  : Option Nat
  deriving DecidableEq, Repr

/-- A line counted at its home slice (R131, R142), whose tags are its ASID and its physical line address (R126). -/
structure HomeLine where
  part  : Nat
  asid  : BitVec 11
  data  : BitVec 1024
  count : Nat
  spill : Option Nat
  deriving DecidableEq, Repr

/-- A copy of a line that an address space holds at a home slice, uncounted (R126), in a way of a partition (R315). -/
structure HomeCopy where
  part : Nat
  data : BitVec 1024
  deriving DecidableEq, Repr

/-- The kinds of job (R191). -/
inductive JobKind where
  | mxq | mxqs | mxg | mxlb | cpq | cpf
  deriving DecidableEq, Repr

/-- The states of a job (R195). -/
inductive JobState where
  | queued | awaitingLeave | running | frozen | done | cancelled
  deriving DecidableEq, Repr

/-- A barrier word a job arrives on (R186, R216): the core whose own buffers a .L address names, the address, and the address space and
privilege of the thread that named it (R207). -/
structure BarRef where
  core  : Nat
  space : Space
  addr  : Word
  asid  : BitVec 11
  priv  : BitVec 2
  deriving DecidableEq, Repr

/-- A claim on a counted unit (R206). -/
structure Claim where
  core : Nat
  row  : Nat
  deriving DecidableEq, Repr

/-- A job (R191 to R211): its snapshot (R193), its descriptor's values, and its progress. For a copy job recA is the source and recB the
destination, `elems` the elements written, `arrived` the bytes arrived for (R209), and `fill` the destination lines whose counted ways it
has reserved (R210), by tag, virtual line and physical line. For an MXLB recB is its record. `leave` says that it asks leave (R211), `loaded` that the panel has been its B
since it last started (R202). -/
structure Job where
  gen       : BitVec 16
  part      : Nat
  kind      : JobKind
  state     : JobState
  fin       : BitVec 4
  flags     : BitVec 6
  replays   : BitVec 8
  task      : TaskId
  core      : Nat
  asid      : BitVec 11
  priv      : BitVec 2
  tidbase   : Word
  recA      : BitVec 512
  recB      : BitVec 512
  recC      : BitVec 512
  tids      : BitVec 48
  scope     : Scope
  rect      : Word
  bars      : List BarRef
  dup       : Bool
  members   : List Nat
  order     : Nat
  wasFrozen : Bool
  leave     : Bool
  claims    : List Claim
  fill      : List (Nat × Nat × Nat)
  elems     : Nat
  arrived   : Nat
  refused   : Bool
  loaded    : Bool
  packet    : Option (BitVec 512)
  deriving DecidableEq, Repr

/-- A gang that is forming (R207, R220). -/
structure Gang where
  part    : Nat
  members : BitVec 8
  tag     : BitVec 8
  entry   : Nat
  dup     : Bool
  scope   : Scope
  rect    : Word
  greg    : Reg
  recA    : BitVec 512
  recB    : BitVec 512
  recC    : BitVec 512
  tids    : BitVec 48
  joined  : List (Nat × Nat × Option BarRef)
  deriving DecidableEq, Repr

/-- An open meet entry (R269). -/
structure MeetEntry where
  part     : Nat
  group    : BitVec 16
  addr     : Word
  asid     : BitVec 11
  vals     : List Word
  survivor : TaskId
  mult     : Nat
  arrivals : Nat
  deadline : Option Nat
  deriving DecidableEq, Repr

/-- An allocated group (R31, R249). -/
structure Group where
  part  : Nat
  count : Nat
  deriving DecidableEq, Repr

/-- An iteration counter (R99). -/
structure Counter where
  next   : Word
  last   : Word
  part   : BitVec 8
  minc   : BitVec 12
  holder : Nat
  deriving DecidableEq, Repr

/-- A cached tensor record (R194, R228), most recently used first. -/
structure RecEntry where
  part    : Nat
  tidbase : Word
  tid     : BitVec 16
  data    : BitVec 512
  deriving DecidableEq, Repr

/-- The resident panel (R198, R202): its tag, whether a copy has cleared it, the core whose W a .L record names, and the stored K-rows and
masks it holds, each in ascending row or group and column. -/
structure Panel where
  tagged : Bool
  part : Nat
  asid : BitVec 11
  snap : BitVec 512
  core : Nat
  rows : List (BitVec 768)
  masks : Table (BitVec 12)
  deriving DecidableEq, Repr

/-- A cluster (R16). `fenced` counts fenced macro rows (R204); `held` lists partitions whose job starts a cut holds (R301). -/
structure Cluster where
  lines     : List CLine
  tlb       : List TlbEntry
  jobs      : Table Job
  ended     : Table Nat
  orders    : Nat
  gangs     : List Gang
  meets     : List MeetEntry
  groups    : Table Group
  counters  : Table Counter
  records   : List RecEntry
  panel     : Option Panel
  fenced    : Nat
  credMat   : Table Int
  credCopy  : Table Int
  lastCopy  : Table Nat
  lastHand  : Table Nat
  testDue   : Bool
  held      : List Nat
  deriving DecidableEq, Repr

/-- A cluster after reset, with `fenced` macro rows fenced. -/
def Cluster.empty : Cluster :=
  { lines := [], tlb := [], jobs := [], ended := [], orders := 0, gangs := [], meets := [], groups := [], counters := [], records := [],
    panel := none, fenced := 0, credMat := [], credCopy := [], lastCopy := [], lastHand := [], testDue := false, held := [] }

/-- A black-box record (R327). -/
structure BoxRec where
  word1 : Word
  word0 : Word
  time  : Word
  seq   : BitVec 32
  part  : BitVec 4
  kind  : BitVec 8
  code  : BitVec 16
  deriving DecidableEq, Repr

/-- A die (R15): its power controller (R326) and its black box (R327), by record index. `waiting` and `granted` are job ids. -/
structure Die where
  thermal  : BitVec 2
  since    : Nat
  waiting  : List (BitVec 32)
  granted  : List (BitVec 32)
  box      : Table BoxRec
  head     : BitVec 32
  deriving DecidableEq, Repr

/-- The states of a task (R28). -/
inductive TaskState where
  | unstarted | running | parked | done | failed | merged
  deriving DecidableEq, Repr

/-- A barrier attachment (R188): its word with the tag under which the arrival found it (R126), and the GEN it arrived in. -/
structure Attach where
  loc   : Loc
  tag   : Nat
  addr  : Word
  space : Space
  gen   : BitVec 30
  deriving DecidableEq, Repr

/-- A task directory entry (R230) with what the directory keeps beside it (R232, R270, R285): WHERE, the fields of the record at
creation, barrier attachments, locks held, reserved queue entries (the address and tag of their state words), live attached children, the
save area's address space, the levels of a vacated chain, the slot whose save frames hold that chain, the vacated core whose resume record is
held back (R286), the one whose resume record waits for room in a deque (log 99), the core whose budget the task reserves (R255), and the
cluster in which its creator, or its own last stop, released (R155, R170); 144 is the host, 145 another package. -/
structure Task where
  id       : TaskId
  state    : TaskState
  pin      : Bool
  whereTo  : Word
  asid     : BitVec 11
  det      : Bool
  fplace   : BitVec 2
  future   : BitVec 56
  group    : BitVec 16
  dom      : BitVec 2
  parent   : TaskId
  attach   : List Attach
  locks    : List Loc
  entries  : List (Nat × Nat)
  children : Nat
  chain    : List Level
  frames   : Option Nat
  meet     : Option Nat
  holdBack : Option Nat
  late     : Option Nat
  lreq     : Nat
  onCore   : Option Nat
  origin   : Nat
  ended    : Nat
  deriving DecidableEq, Repr

/-- A committed partition descriptor (R310). Ranges are first byte and byte after the last. -/
structure PartCfg where
  running    : Bool
  sliced     : Bool
  ring       : BitVec 2
  sliceLen   : Nat
  slots      : BitVec 16
  supSlot    : Nat
  asidFirst  : Nat
  asidLast   : Nat
  hostFn     : Nat
  hostAsid   : Nat
  key        : Word
  roots      : Nat
  ranktab    : Nat
  finbox     : Nat
  dirbase    : Nat
  dirsize    : Nat
  spillbase  : Nat
  spillsize  : Nat
  switchbase : Nat
  ranges     : List (Nat × Nat)
  lbudget    : Nat
  qshare     : Nat
  weight     : Nat
  meetshare  : Nat
  cways      : Nat
  ccways     : Nat
  gshare     : Nat
  lshare     : Nat
  hways      : Nat
  hcways     : Nat
  floor      : Nat
  cores      : BitVec 1152
  deriving DecidableEq, Repr

/-- A descriptor that has never been committed. -/
def PartCfg.none : PartCfg :=
  { running := false, sliced := false, ring := 0, sliceLen := 0, slots := 0, supSlot := 0, asidFirst := 0, asidLast := 0, hostFn := 0,
    hostAsid := 0, key := 0, roots := 0, ranktab := 0, finbox := 0, dirbase := 0, dirsize := 0, spillbase := 0, spillsize := 0,
    switchbase := 0, ranges := [(0, 0), (0, 0), (0, 0), (0, 0)], lbudget := 0, qshare := 0, weight := 0, meetshare := 0, cways := 0,
    ccways := 0, gshare := 0, lshare := 0, hways := 0, hcways := 0, floor := 0, cores := 0 }

/-- A master whose fault packet waits in its holder (R282): of a slot, the thread of one partition. -/
inductive Master where
  | slot (n part : Nat)
  | job (cluster : Nat) (entry : Nat)
  | hostFn (n : Nat)
  | link (n : Nat)
  deriving DecidableEq, Repr

/-- A consistent cut that has not closed (R290, R301): its cores and the slot of its STOPCUT. -/
structure Cut where
  cores  : List Nat
  issuer : Nat
  deriving DecidableEq, Repr

/-- A partition: its descriptor as written (by offset), as last committed (R331) and as in force, STATUS of its commits with BUSY (R310, R311), its
task directory by entry index (R229) with the next sequence number (R24; log 82: the first is 1), TAIL of its fault inbox and the packets in
its slots (R303; log 106), the packets that wait with their masters, oldest first (R282), and its open cut. -/
structure Part where
  staged  : Table Word
  last    : Option PartCfg
  cfg     : PartCfg
  status  : BitVec 9
  tasks   : Table Task
  seq     : BitVec 28
  endSeq  : Nat
  tail    : Word
  packets : Table (BitVec 512)
  waiting : List (Master × BitVec 512)
  cut     : Option Cut
  deriving DecidableEq, Repr

/-- A partition after reset. DESIGN CHOICE (log 82): its directory assigns sequence number 1 first. -/
def Part.empty : Part :=
  { staged := [], last := none, cfg := PartCfg.none, status := 0, tasks := [], seq := 1, endSeq := 0, tail := 0, packets := [], waiting := [], cut := none }

/-- A host function with its launch window (R320, R323, R324) and, when frozen, its packet (R278). `reply` is what the host last read
and `completed` how the function completed the host's last request (R321). -/
structure HostFn where
  entry     : Word
  arg0      : Word
  arg1      : Word
  item      : BitVec 512
  accepted  : BitVec 32
  op        : Bool
  code      : BitVec 8
  frozen    : Bool
  packet    : Option (BitVec 512)
  reply     : Word
  completed : Nat
  deriving DecidableEq, Repr

/-- A host function after reset. -/
def HostFn.empty : HostFn :=
  { entry := 0, arg0 := 0, arg1 := 0, item := 0, accepted := 0, op := false, code := 0, frozen := false, packet := none, reply := 0,
    completed := 0 }

/-- A fabric port (R317). `reply` is the value a remote load or atomic has read here. -/
structure Link where
  trained : Bool
  frozen  : Bool
  packet  : Option (BitVec 512)
  reply   : BitVec 1024
  deriving DecidableEq, Repr

/-- A fabric port after reset. -/
def Link.empty : Link := { trained := false, frozen := false, packet := none, reply := 0 }

/-- A word's reservation queue (R182): the head holds the reservation once `granted`, until a write breaks it (R183). -/
structure Resv where
  loc     : Loc
  queue   : List TaskId
  granted : Bool
  broken  : Bool
  deriving DecidableEq, Repr

/-- A waiter for a lock (R190): the lock, its task, the pc of its LKACQ, and whether LKREL has handed it the lock, which completes that LKACQ. -/
structure LockWait where
  loc   : Loc
  task  : TaskId
  pc    : Word
  given : Bool
  deriving DecidableEq, Repr

/-- The host port's protocol once trained (R320). -/
inductive HostProtocol where
  | down | cxl4 | cxl3 | pcie6 | pcie5
  deriving DecidableEq, Repr

/-- A unit whose data ECC gives up (R281): a row of a core, line `i` of a cluster's cache, a line in a memory-side cache or in HBM4, or a
macro row of the panel that is resident in a cluster. -/
inductive Damaged where
  | row (core row : Nat)
  | cached (cluster i : Nat)
  | line (pline : Nat) (hbm : Bool)
  | panel (cluster : Nat)
  deriving DecidableEq, Repr

/-- The cause of ECC that a damaged unit raises (R281). -/
def Damaged.cause : Damaged → BitVec 8
  | .row .. => 1
  | .cached .. => 2
  | .line _ hbm => if hbm then 4 else 3
  | .panel _ => 5

/-- What happens next: a slot issues, a device event happens, a device register takes a core's store, a launch window meets a core's
access of a wrong format (R323), a bit error is corrected where it is read or cannot be and damages a unit (R281), an address space's copy of a
line stays at its home slice, in a way of a partition (R315), or leaves it (R126), or a cycle passes. The causes of errors are those of ECC in R281. -/
inductive Move where
  | issue (slot : Nat)
  | event (i : Instr)
  | write (pa : Nat) (val : Word)
  | misuse (fn off : Nat)
  | corrected (die : Nat) (cause : BitVec 8) (addr : Word)
  | damaged (d : Damaged)
  | keepCopy (part tag pline : Nat)
  | dropCopy (tag pline : Nat)
  | tick
  deriving DecidableEq, Repr

/-- The package. `queueQ` holds the tasks that sleep on an empty work queue, and `claimQ` the entry each QDEQ has claimed (R251). `cur` (the slot whose instruction executes), `agenda` (who moves next) and `freeCtr` (which free value is next) are the
model's own. `home` and `copies`, the uncounted copies that address spaces hold at home slices (R126), are keyed by `homeKey`, and `poison` lists
the damaged units besides lines of cluster caches (R281). `remote` is memory of other packages and `hostMem` the host memory window, as this package's accesses leave them. -/
structure State where
  cycle       : Nat
  cur         : Nat
  agenda      : List Move
  freeCtr     : Nat
  slots       : Table Slot
  cores       : Table Core
  clusters    : Table Cluster
  dies        : Table Die
  parts       : Table Part
  mem         : Memory
  remote      : Memory
  hostMem     : Memory
  home        : Table HomeLine
  copies      : Table HomeCopy
  poison      : List Damaged
  resv        : List Resv
  lockQ       : List LockWait
  queueQ      : List (Nat × TaskId)
  claimQ      : List (Nat × TaskId × Nat)
  hostFns     : Table HostFn
  links       : Table Link
  hostPort    : HostProtocol
  hostWidth   : Nat
  pkgnum      : BitVec 11
  phase       : Nat
  failed      : Bool
  mgmtAlarm   : Bool
  thermAlarm  : Bool
  mgmtReply   : List Byte
  deriving DecidableEq, Repr

/-- The CORESET of partition 0: every enabled core (R333). -/
def cfg0 : PartCfg :=
  { PartCfg.none with
    running := true, slots := 0x8000, supSlot := 15, asidFirst := 1, asidLast := 15, hostFn := 0, hostAsid := 1, sliceLen := 1024,
    roots := Config.rootsBase0, ranktab := Config.ranktab0, finbox := Config.finbox0, dirbase := Config.dirbase0,
    dirsize := Config.dirsize0, spillbase := Config.spillbase0, switchbase := Config.switchbase0,
    ranges := [(0xF800, 0x10000), (0, 0), (0, 0), (0, 0)], cways := 2, hways := 2, qshare := 4, weight := 1,
    cores := Config.coresEnabled }

/-- A descriptor's fields as root writes them, by offset (R310). -/
def PartCfg.words (c : PartCfg) : Table Word :=
  let w (off n : Nat) : Nat × Word := (off, BitVec.ofNat 64 n)
  [ w 0x00 ((if c.running then 1 else 0) + (if c.sliced then 2 else 0) + c.ring.toNat * 4 + c.sliceLen * 2 ^ 32),
    w 0x08 (c.slots.toNat + c.supSlot * 2 ^ 16),
    w 0x10 (c.asidFirst + c.asidLast * 2 ^ 16 + c.hostFn * 2 ^ 32 + c.hostAsid * 2 ^ 48),
    (0x18, c.key), w 0x20 c.roots, w 0x28 c.ranktab, w 0x30 c.finbox, w 0x38 c.dirbase, w 0x40 c.dirsize, w 0x48 c.spillbase,
    w 0x50 c.spillsize, w 0x58 c.switchbase ] ++
  (List.range 4).map (fun i => let r := c.ranges.getD i (0, 0); w (0x60 + 8 * i) (r.1 + r.2 * 2 ^ 32)) ++
  [ w 0x80 c.lbudget,
    w 0x88 (c.qshare + c.weight * 2 ^ 8 + c.meetshare * 2 ^ 16 + c.cways * 2 ^ 24 + c.ccways * 2 ^ 28 + c.gshare * 2 ^ 32 + c.lshare * 2 ^ 40),
    w 0x90 (c.hways + c.hcways * 16 + c.floor * 2 ^ 16) ] ++
  (List.range 18).map fun i => w (0x100 + 8 * i) (c.cores.toNat / 2 ^ (64 * i))

/-- A die's record of an event of start-up at a cycle (R327), taking the next SEQ of its ring. -/
def Die.startRecord (d : Die) (now : Nat) (kind : BitVec 8) (code : BitVec 16) (w0 : Word) : Die :=
  { d with
    box := d.box.set (d.head.toNat % 2048)
      { word1 := 0, word0 := w0, time := BitVec.ofNat 64 now, seq := d.head, part := 0, kind := kind, code := code }
    head := d.head + 1 }

/-- The word STEST returns (R227): the healthy rows and both panel limits (R204), and whether this test fenced a row. -/
def stestWord (fenced : Nat) (now : Bool) : Word :=
  let healthy := 18 - fenced
  let limit := if healthy ≥ 16 then 16 else healthy
  let redlim := Nat.min 8 (healthy / 2)
  BitVec.ofNat 64 (healthy + limit * 32 + redlim * 1024 + (if now then 32768 else 0))

/-- The clusters of a die (R10, R14). -/
def clustersOfDie (die : Nat) : List Nat := (List.range 24).map fun i => 12 * (6 * (die / 3) + i / 4) + 4 * (die % 3) + i % 4

/-- The phases a start-up runs (R333): a warm one skips two, and a failing phase is the last. -/
def phasesRun (warm : Bool) (fail : Nat) : List Nat :=
  let l := if warm then [1, 2, 4, 6, 7, 8] else [1, 2, 3, 4, 5, 6, 7, 8]
  if l.contains fail then l.filter (· ≤ fail) else l

/-- What a die's ring receives in start-up (R333): one record per phase, the self-test results of its clusters in phase 0x06 (R204), and
on die 0 the commit of partition 0 in phase 0x07 (R328). `testOf` gives a cluster's STEST word. -/
def Die.startUp (d : Die) (now : Nat) (warm : Bool) (fail die : Nat) (testOf : Nat → Word) : Die :=
  (phasesRun warm fail).foldl (fun d ph =>
    let d := if ph = 6 then (clustersOfDie die).foldl (fun d c => d.startRecord now 0x07 (BitVec.ofNat 16 c) (testOf c)) d else d
    let d := if ph = 7 && die = 0 && fail ≠ 7 then d.startRecord now 0x0A 0 0 else d
    d.startRecord now 0x09 (BitVec.ofNat 16 ph) (if ph = fail then 1 else 0)) d

/-- The supervisor slot of partition 0 as phase 0x08 of R333 starts it: root privilege, at the firmware's entry, with the start state
of R26 for a task of partition 0 (R24). -/
def supervisorSlot : Slot :=
  { Slot.empty with
    run := .ready, priv := 2, holder := some 0,
    ctx := { Ctx.zero with pc := Config.supervisorEntry, task := 1 },
    levels := [{ task := 1, inline := false, adopted := false, status := none, fplace := 0, future := 0 }],
    regs := [(0, SlotRegs.reset)] }

/-- The directory entry of that task: pinned and detached, as a started message's (R32). -/
def supervisorTask : Task :=
  { id := 1, state := .running, pin := true, whereTo := 15, asid := 0, det := true, fplace := 0, future := 0, group := 0, dom := 0,
    parent := 0, attach := [], locks := [], entries := [], children := 0, chain := [], frames := none, meet := none, holdBack := none, late := none, lreq := 0,
    onCore := none, origin := 144, ended := 0 }

/-- What a reset keeps, and what happens in its start-up: memory (R332), every die's black box, PKGNUM, the clusters with the rows the
self-test leaves fenced and the words it returns (R204), and the phase that fails, or 0. -/
structure Boot where
  cycle    : Nat
  warm     : Bool
  mem      : Memory
  dies     : Table Die
  pkgnum   : BitVec 11
  clusters : Table Cluster
  tests    : Table Word
  fail     : Nat

/-- The machine after start-up (R332, R333). A failed phase leaves what the phases before it have done. -/
def State.afterReset (b : Boot) : State :=
  let ran := phasesRun b.warm b.fail
  let did (ph : Nat) : Bool := ran.contains ph && b.fail ≠ ph
  { cycle := b.cycle, cur := 15, agenda := [], freeCtr := 0,
    slots := if did 8 then [(15, supervisorSlot)] else [],
    cores := [],
    clusters := b.clusters,
    dies := (List.range 6).map fun d =>
      let old := b.dies.getD d { thermal := 0, since := 0, waiting := [], granted := [], box := [], head := 0 }
      (d, Die.startUp { old with thermal := 0, since := b.cycle, waiting := [], granted := [] } b.cycle b.warm b.fail d fun c =>
        b.tests.getD c (stestWord 0 false)),
    parts := if did 7 then
        [(0, { Part.empty with
               staged := cfg0.words, last := some cfg0, cfg := cfg0, tasks := if did 8 then [(0, supervisorTask)] else [], seq := if did 8 then 2 else 1 })]
      else [],
    mem := b.mem, remote := [], hostMem := [], home := [], copies := [], poison := [], resv := [], lockQ := [], queueQ := [], claimQ := [],
    hostFns := [], links := [], hostPort := .down, hostWidth := 0, pkgnum := b.pkgnum, phase := ran.getLast?.getD 8,
    failed := !did 8, mgmtAlarm := false, thermAlarm := false, mgmtReply := [] }

/-- The machine right after power-on reset and a start-up in which every phase and every self-test passes (R332, R333). -/
def State.reset : State :=
  let fenced := (List.range 144).filter fun cl => Config.fencedRows cl ≠ 0
  State.afterReset
    { cycle := 0, warm := false, mem := [], dies := [], pkgnum := 0x7FF, fail := 0
      clusters := fenced.map fun cl => (cl, { Cluster.empty with fenced := Config.fencedRows cl })
      tests := fenced.map fun cl => (cl, stestWord (Config.fencedRows cl) false) }

end Sys2Proof.Machine
end

