-- ==== Sys2Proof/Machine/Memory.lean ====
section
/-! DEFINITION. Memory as one canonical list of (address, byte) pairs: addresses rise strictly, and no listed byte is the zero that an
unlisted address reads as (log 2). Wider accesses are little-endian (R5). -/

namespace Sys2Proof.Machine

/-- What an unlisted address reads as (log 2). -/
def Memory.unlisted : Byte := 0

/-- Every listed address is above `lo`, addresses rise strictly and no byte equals the unlisted one. -/
def Memory.wfFrom : Nat → Memory → Bool
  | _, [] => true
  | lo, (a, b) :: r => decide (lo ≤ a) && b != Memory.unlisted && Memory.wfFrom (a + 1) r

/-- The canonical form of memory. -/
def Memory.wf (m : Memory) : Bool := Memory.wfFrom 0 m

/-- The byte at an address. -/
def Memory.read : Memory → Nat → Byte
  | [], _ => Memory.unlisted
  | (k, b) :: r, a => if k = a then b else if a < k then Memory.unlisted else Memory.read r a

/-- Stores a byte, keeping the canonical form. -/
def Memory.write : Memory → Nat → Byte → Memory
  | [], a, v => if v = Memory.unlisted then [] else [(a, v)]
  | (k, b) :: r, a, v =>
    if k = a then (if v = Memory.unlisted then r else (a, v) :: r)
    else if a < k then (if v = Memory.unlisted then (k, b) :: r else (a, v) :: (k, b) :: r)
    else (k, b) :: Memory.write r a v

/-- The `n` bytes from an address as a little-endian number (R5). -/
def Memory.readN (m : Memory) (a : Nat) : Nat → Nat
  | 0 => 0
  | n + 1 => (m.read a).toNat + 256 * Memory.readN m (a + 1) n

/-- Stores the low `n` bytes of a number from an address, little-endian (R5). -/
def Memory.writeN (m : Memory) (a : Nat) : Nat → Nat → Memory
  | 0, _ => m
  | n + 1, v => Memory.writeN (m.write a (BitVec.ofNat 8 v)) (a + 1) n (v / 256)

/-- Memory with `n` bytes from an address cleared to what an unlisted address reads as. -/
def Memory.without (m : Memory) (lo n : Nat) : Memory := m.filter fun e => decide (e.1 < lo) || decide (lo + n ≤ e.1)

/-- Byte `i` of a number. -/
def byteOf (v i : Nat) : Byte := BitVec.ofNat 8 (v / 256 ^ i)

/-- Replaces byte `i` of a number below `256 ^ n`. -/
def setByte (v i : Nat) (b : Byte) : Nat := v - (v / 256 ^ i % 256) * 256 ^ i + b.toNat * 256 ^ i

/-- Bits [hi:lo] of a number. -/
def bits (v hi lo : Nat) : Nat := v / 2 ^ lo % 2 ^ (hi + 1 - lo)

end Sys2Proof.Machine
end

