-- ==== Sys2Proof/Machine/Numbers.lean ====
section
/-! DEFINITION. Number formats and arithmetic (R64 to R81): exact values, their decoding from the sixteen element types, and the one
rounding, saturation and flag computation of each encoding. A value whose exact bits run on without end (a quotient, a root) is carried
with enough leading bits and a last bit that is one, which rounds as the exact value does. -/

namespace Sys2Proof.Machine

/-- The flags of R69, [5:0] of ctl.FSTAT: SAT, NX, UF, OF, DZ, NV. -/
abbrev Flags := BitVec 6

def flagNV : Flags := 1
def flagDZ : Flags := 2
def flagOF : Flags := 4
def flagUF : Flags := 8
def flagNX : Flags := 16
def flagSAT : Flags := 32

/-- A value: a NaN (`sig` signalling), an infinity, or ± m · 2^e. -/
inductive Num where
  | nan (sig : Bool)
  | inf (neg : Bool)
  | fin (neg : Bool) (m : Nat) (e : Int)
  deriving DecidableEq, Repr

/-- Bits of exponent and fraction of a binary floating format (R66). -/
def Elem.expBits : Elem → Nat
  | .f64 => 11 | .f32 | .bf16 => 8 | .f16 | .e5m2 => 5 | .e4m3 => 4 | _ => 0
def Elem.fracBits : Elem → Nat
  | .f64 => 52 | .f32 => 23 | .f16 => 10 | .bf16 => 7 | .e4m3 => 3 | .e5m2 => 2 | _ => 0

/-- The bias of a binary floating format (R66). -/
def Elem.bias (t : Elem) : Nat := 2 ^ (Elem.expBits t - 1) - 1

/-- The canonical NaN of R66, or NaR of a tapered format. -/
def Elem.canonNaN : Elem → Nat
  | .f64 => 0x7FF8000000000000 | .f32 => 0x7FC00000 | .f16 => 0x7E00 | .bf16 => 0x7FC0 | .e4m3 => 0x7F | .e5m2 => 0x7E
  | .t8 => 0x80 | .t6 => 0x20 | _ => 0

/-- A tapered type (R72). -/
def Elem.isTapered : Elem → Bool
  | .t8 | .t6 => true
  | _ => false

/-- Exponent bits of a tapered type (R72). -/
def Elem.es : Elem → Nat
  | .t8 => 1
  | _ => 0

/-- A width's low bits as a two's complement number. -/
def sInt (w v : Nat) : Int := if v % 2 ^ w < 2 ^ (w - 1) then (v % 2 ^ w : Nat) else ((v % 2 ^ w : Nat) : Int) - (2 ^ w : Nat)

/-- A number modulo 2^w. -/
def wrapInt (w : Nat) (i : Int) : Nat := (i % ((2 ^ w : Nat) : Int)).toNat

/-- An element's integer value (R64). -/
def intOf (t : Elem) (v : Nat) : Int := if t.isSigned then sInt t.width v else ((v % 2 ^ t.width : Nat) : Int)

/-- The range of an integer type (R64). -/
def intMin (t : Elem) : Int := if t.isSigned then -((2 ^ (t.width - 1) : Nat) : Int) else 0
def intMax (t : Elem) : Int := if t.isSigned then ((2 ^ (t.width - 1) : Nat) : Int) - 1 else ((2 ^ t.width : Nat) : Int) - 1

/-- The bit length of a number. -/
def bitLen (m : Nat) : Nat := if m = 0 then 0 else Nat.log2 m + 1

/-- Length of the run of bits equal to `b` in `mag` from bit `i − 1` down, at most `i`. -/
def runLen (mag : Nat) (b : Bool) : Nat → Nat
  | 0 => 0
  | i + 1 => if mag.testBit i = b then runLen mag b i + 1 else 0

/-- Decodes a tapered word (R72). -/
def decTapered (t : Elem) (v : Nat) : Num :=
  let n := t.width
  let w := v % 2 ^ n
  if w = 0 then .fin false 0 0
  else if w = 2 ^ (n - 1) then .nan false
  else
    let neg := w.testBit (n - 1)
    let mag := w % 2 ^ (n - 1)
    let b := mag.testBit (n - 2)
    let k := runLen mag b (n - 1)
    let rg : Int := if b then (k : Int) - 1 else -(k : Int)
    let len := n - 2 - k
    let rest := mag % 2 ^ len
    let es := Elem.es t
    if es ≤ len then
      let fb := len - es
      .fin neg (2 ^ fb + rest % 2 ^ fb) (rg * 2 ^ es + (rest / 2 ^ fb : Nat) - fb)
    else .fin neg 1 (rg * 2 ^ es + (rest * 2 ^ (es - len) : Nat))

/-- Decodes a binary floating word (R66). -/
def decFloat (t : Elem) (v : Nat) : Num :=
  let eb := Elem.expBits t
  let fb := Elem.fracBits t
  let neg := v.testBit (eb + fb)
  let ex := v / 2 ^ fb % 2 ^ eb
  let fr := v % 2 ^ fb
  if t = .e4m3 && ex = 15 && fr = 7 then .nan false
  else if t ≠ .e4m3 && ex = 2 ^ eb - 1 then
    if fr = 0 then .inf neg else .nan (t ≠ .e5m2 && !(fr.testBit (fb - 1)))
  else if ex = 0 then .fin neg fr (1 - (Elem.bias t : Int) - fb)
  else .fin neg (2 ^ fb + fr) ((ex : Int) - Elem.bias t - fb)

/-- The value of an element (R64, R66, R72). -/
def decNum (t : Elem) (v : Nat) : Num :=
  if t.isInt then .fin (intOf t v < 0) (intOf t v).natAbs 0
  else if Elem.isTapered t then decTapered t v
  else decFloat t v

/-- m · 2^e as a whole number of units 2^q, rounded (R68), and whether that was inexact. -/
def rndAt (rm : Rnd) (neg : Bool) (m : Nat) (e q : Int) : Nat × Bool :=
  if q ≤ e then (m * 2 ^ (e - q).toNat, false)
  else
    let k := (q - e).toNat
    let n := m / 2 ^ k
    let r := m % 2 ^ k
    let h := 2 ^ (k - 1)
    let up := match rm with
      | .rne => decide (r > h) || (decide (r = h) && n % 2 = 1)
      | .rtz => false
      | .rdn => neg && decide (r ≠ 0)
      | .rup => !neg && decide (r ≠ 0)
    (if up then n + 1 else n, decide (r ≠ 0))

/-- A sign bit above `w − 1` magnitude bits. -/
def withSign (w : Nat) (neg : Bool) (mag : Nat) : Nat := if neg then 2 ^ (w - 1) + mag else mag

/-- The encoding of the largest finite magnitude (R66). -/
def maxFinite (t : Elem) : Nat :=
  if t = .e4m3 then 0x7E else (2 ^ Elem.expBits t - 1) * 2 ^ Elem.fracBits t - 1

/-- Encodes a value in a binary floating format, rounded once (R67, R68, R70). -/
def encFloat (t : Elem) (rm : Rnd) (v : Num) : Nat × Flags :=
  let fb := Elem.fracBits t
  let w := t.width
  match v with
  | .nan sig => (Elem.canonNaN t, if sig then flagNV else 0)
  | .inf neg => if t = .e4m3 then (Elem.canonNaN t, flagNV) else (withSign w neg ((2 ^ Elem.expBits t - 1) * 2 ^ fb), 0)
  | .fin neg m e =>
    if m = 0 then (withSign w neg 0, 0)
    else
      let emin : Int := 1 - (Elem.bias t : Int)
      let top : Int := e + Nat.log2 m
      let q : Int := (if top < emin then emin else top) - fb
      let (n, inexact) := rndAt rm neg m e q
      let mag := (q - (emin - fb)).toNat * 2 ^ fb + n
      if mag > maxFinite t then
        if t = .e4m3 || t = .e5m2 then (withSign w neg (maxFinite t), flagSAT ||| flagNX)
        else
          let toInf := match rm with
            | .rne => true
            | .rtz => false
            | .rdn => neg
            | .rup => !neg
          (withSign w neg (if toInf then (2 ^ Elem.expBits t - 1) * 2 ^ fb else maxFinite t), flagOF ||| flagNX)
      else
        let tiny := decide (top < emin) &&
          (let n2 := (rndAt rm neg m e (top - fb)).1
           decide (top + (if n2 ≥ 2 ^ (fb + 1) then 1 else 0) < emin))
        (withSign w neg mag, if inexact then (if tiny then flagNX ||| flagUF else flagNX) else 0)

/-- Encodes a value in a tapered format (R74). -/
def encTapered (t : Elem) (rm : Rnd) (v : Num) : Nat × Flags :=
  let n := t.width
  let es := Elem.es t
  match v with
  | .nan sig => (Elem.canonNaN t, if sig then flagNV else 0)
  | .inf _ => (Elem.canonNaN t, flagNV)
  | .fin neg m e =>
    if m = 0 then (0, 0)
    else
      let lim : Int := ((n - 2) * 2 ^ es : Nat)
      let top : Int := e + Nat.log2 m
      let pow2 := decide (m = 2 ^ Nat.log2 m)
      if top ≥ lim then (withSign n neg (2 ^ (n - 1) - 1), if top = lim && pow2 then 0 else flagSAT ||| flagNX)
      else if top < -lim || (top = -lim && pow2) then
        (withSign n neg 1, if top = -lim && pow2 then 0 else flagSAT ||| flagNX)
      else
        let rg : Int := top / ((2 ^ es : Nat) : Int)
        let ex := (top - rg * (2 ^ es : Nat)).toNat
        let reg := if rg ≥ 0 then (2 ^ (rg.toNat + 1) - 1) * 2 else 1
        let regLen : Nat := if rg ≥ 0 then rg.toNat + 2 else 1 + (-rg).toNat
        let fl := Nat.log2 m
        let str := (reg * 2 ^ es + ex) * 2 ^ fl + (m - 2 ^ fl)
        let (kept, inexact) := rndAt rm neg str 0 ((regLen + es + fl : Nat) - ((n - 1 : Nat) : Int))
        (withSign n neg kept, if inexact then flagNX else 0)

/-- Converts a value to an integer type, rounded and saturated (R65, R70). A NaN gives 0. -/
def encInt (t : Elem) (rm : Rnd) (v : Num) : Nat × Flags :=
  match v with
  | .nan _ => (0, flagNV)
  | .inf neg => (wrapInt t.width (if neg then intMin t else intMax t), flagNV ||| flagSAT)
  | .fin neg m e =>
    let (n, inexact) := rndAt rm neg m e 0
    let i : Int := if neg then -(n : Int) else n
    if i < intMin t then (wrapInt t.width (intMin t), flagNV ||| flagSAT)
    else if i > intMax t then (wrapInt t.width (intMax t), flagNV ||| flagSAT)
    else (wrapInt t.width i, if inexact then flagNX else 0)

/-- Encodes a value in an element type, rounded once (R68, R70, R74). -/
def encNum (t : Elem) (rm : Rnd) (v : Num) : Nat × Flags :=
  if t.isInt then encInt t rm v
  else if Elem.isTapered t then encTapered t rm v
  else encFloat t rm v

/-- A signalling NaN. -/
def Num.isSig : Num → Bool
  | .nan s => s
  | _ => false

/-- A NaN. -/
def Num.isNaN : Num → Bool
  | .nan _ => true
  | _ => false

/-- NV when an operand is a signalling NaN (R67). -/
def sigFlag (vs : List Num) : Flags := if vs.any Num.isSig then flagNV else 0

/-- The product, exactly, and the invalid 0 × ∞ (R69, R79). -/
def mulNum (a b : Num) : Num × Flags :=
  match a, b with
  | .nan _, _ | _, .nan _ => (.nan false, sigFlag [a, b])
  | .inf x, .inf y => (.inf (x != y), 0)
  | .inf x, .fin y m _ => if m = 0 then (.nan false, flagNV) else (.inf (x != y), 0)
  | .fin x m _, .inf y => if m = 0 then (.nan false, flagNV) else (.inf (x != y), 0)
  | .fin x m e, .fin y n f => (.fin (x != y) (m * n) (e + f), 0)

/-- m · 2^e as a signed multiple of 2^q, for q ≤ e. -/
def scaled (neg : Bool) (m : Nat) (e q : Int) : Int :=
  let n : Int := ((m * 2 ^ (e - q).toNat : Nat) : Int)
  if neg then -n else n

/-- The sum, exactly, and the invalid ∞ − ∞ (R69). An exact zero sum of unlike signs is +0, or −0 when rounding down (R68). -/
def addNum (rm : Rnd) (a b : Num) : Num × Flags :=
  match a, b with
  | .nan _, _ | _, .nan _ => (.nan false, sigFlag [a, b])
  | .inf x, .inf y => if x = y then (.inf x, 0) else (.nan false, flagNV)
  | .inf x, .fin .. | .fin .., .inf x => (.inf x, 0)
  | .fin x m e, .fin y n f =>
    if m = 0 && n = 0 then (.fin (if x = y then x else rm == .rdn) 0 0, 0)
    else if m = 0 then (.fin y n f, 0)
    else if n = 0 then (.fin x m e, 0)
    else
      let q := if e ≤ f then e else f
      let t := scaled x m e q + scaled y n f q
      if t = 0 then (.fin (rm == .rdn) 0 0, 0) else (.fin (t < 0) t.natAbs q, 0)

/-- The negated value. -/
def negNum : Num → Num
  | .nan s => .nan s
  | .inf n => .inf (!n)
  | .fin n m e => .fin (!n) m e

/-- The quotient (R92): DZ for a finite nonzero value by zero, NV for 0 ÷ 0 and ∞ ÷ ∞. -/
def divNum (a b : Num) : Num × Flags :=
  match a, b with
  | .nan _, _ | _, .nan _ => (.nan false, sigFlag [a, b])
  | .inf _, .inf _ => (.nan false, flagNV)
  | .inf x, .fin y .. => (.inf (x != y), 0)
  | .fin x .., .inf y => (.fin (x != y) 0 0, 0)
  | .fin x m e, .fin y n f =>
    if n = 0 then (if m = 0 then (.nan false, flagNV) else (.inf (x != y), flagDZ))
    else if m = 0 then (.fin (x != y) 0 0, 0)
    else
      let k := 72 + bitLen n - bitLen m
      let q := m * 2 ^ k / n
      if m * 2 ^ k % n = 0 then (.fin (x != y) q (e - f - k), 0)
      else (.fin (x != y) (2 * q + 1) (e - f - k - 1), 0)

/-- Integer square root by bits from `i − 1` down: the largest r whose square is at most `n`, starting from `r`. -/
def sqrtFrom (n : Nat) : Nat → Nat → Nat
  | 0, r => r
  | i + 1, r =>
    let r' := r + 2 ^ i
    if r' * r' ≤ n then sqrtFrom n i r' else sqrtFrom n i r

/-- The square root (R92): NV below zero, and √(−0) = −0. -/
def sqrtNum (a : Num) : Num × Flags :=
  match a with
  | .nan s => (.nan false, if s then flagNV else 0)
  | .inf neg => if neg then (.nan false, flagNV) else (.inf false, 0)
  | .fin neg m e =>
    if m = 0 then (.fin neg 0 0, 0)
    else if neg then (.nan false, flagNV)
    else
      let odd := decide (e % 2 = 1)
      let m1 := if odd then m * 2 else m
      let e1 := if odd then e - 1 else e
      let k := (150 - bitLen m1) / 2
      let t := m1 * 2 ^ (2 * k)
      let r := sqrtFrom t (bitLen t / 2 + 1) 0
      if r * r = t then (.fin false r (e1 / 2 - k), 0) else (.fin false (2 * r + 1) (e1 / 2 - k - 1), 0)

/-- A value encoded in a format with the flags that came before (R69). -/
def rounded (t : Elem) (rm : Rnd) (v : Num × Flags) : Nat × Flags :=
  let r := encNum t rm v.1
  (r.1, v.2 ||| r.2)

/-- A sum in one format, rounded once (R92). -/
def fAdd (t : Elem) (rm : Rnd) (a b : Nat) : Nat × Flags := rounded t rm (addNum rm (decNum t a) (decNum t b))
/-- A difference in one format, rounded once (R92). -/
def fSub (t : Elem) (rm : Rnd) (a b : Nat) : Nat × Flags := rounded t rm (addNum rm (decNum t a) (negNum (decNum t b)))
/-- A product in one format, rounded once (R92). -/
def fMul (t : Elem) (rm : Rnd) (a b : Nat) : Nat × Flags := rounded t rm (mulNum (decNum t a) (decNum t b))
/-- A fused multiply-add: one rounding (R68, R92). A signalling c sets NV whatever the product is (R67). -/
def fFma (t : Elem) (rm : Rnd) (a b c : Nat) : Nat × Flags :=
  let p := mulNum (decNum t a) (decNum t b)
  let s := addNum rm p.1 (decNum t c)
  rounded t rm (s.1, p.2 ||| s.2)
/-- A quotient in one format, rounded once (R92). -/
def fDiv (t : Elem) (rm : Rnd) (a b : Nat) : Nat × Flags := rounded t rm (divNum (decNum t a) (decNum t b))
/-- A square root in one format, rounded once (R92). -/
def fSqrt (t : Elem) (rm : Rnd) (a : Nat) : Nat × Flags := rounded t rm (sqrtNum (decNum t a))

/-- a < b of two values that are not NaN, as numbers: −0 equals +0. -/
def ltNum : Num → Num → Bool
  | .inf x, .inf y => x && !y
  | .inf x, .fin .. => x
  | .fin .., .inf y => !y
  | .fin x m e, .fin y n f =>
    let q := if e ≤ f then e else f
    decide (scaled x m e q < scaled y n f q)
  | _, _ => false

/-- The sign of a value that is not a NaN. -/
def Num.isNeg : Num → Bool
  | .inf n => n
  | .fin n _ _ => n
  | .nan _ => false

/-- a < b with −0 below +0 (R71). -/
def ltOrd (a b : Num) : Bool := ltNum a b || (!ltNum b a && a.isNeg && !b.isNeg)

/-- a = b of two values that are not NaN: −0 equals +0. -/
def eqNum (a b : Num) : Bool := !a.isNaN && !b.isNaN && !ltNum a b && !ltNum b a

/-- FMIN or FMAX (R71). -/
def fMinMax (t : Elem) (max : Bool) (a b : Nat) : Nat × Flags :=
  let x := decNum t a
  let y := decNum t b
  let f := sigFlag [x, y]
  match x.isNaN, y.isNaN with
  | true, true => (Elem.canonNaN t, f)
  | true, false => (b % 2 ^ t.width, f)
  | false, true => (a % 2 ^ t.width, f)
  | false, false => (if (if max then ltOrd x y else ltOrd y x) then b % 2 ^ t.width else a % 2 ^ t.width, f)

/-- A comparison under a condition of R56, by R71: `quiet` conditions set NV only for a signalling NaN. -/
def fCompare (cc : Cond) (x y : Num) : Bool × Flags :=
  let anyNaN := x.isNaN || y.isNaN
  let quiet := match cc with
    | .eq | .ne => true
    | _ => false
  let fl := if quiet then sigFlag [x, y] else if anyNaN then flagNV else 0
  let r := match cc with
    | .eq => eqNum x y
    | .ne => !eqNum x y
    | .lt | .ltu => !anyNaN && ltNum x y
    | .ge | .geu => !anyNaN && !ltNum x y
    | .le | .leu => !anyNaN && !ltNum y x
    | .gt | .gtu => !anyNaN && ltNum y x
  (r, fl)

/-- A condition of R56 on 64-bit integers. -/
def Cond.holds (cc : Cond) (a b : Word) : Bool :=
  match cc with
  | .eq => a == b
  | .ne => a != b
  | .lt => a.slt b
  | .ge => !a.slt b
  | .ltu => a.ult b
  | .geu => !a.ult b
  | .le => !b.slt a
  | .gt => b.slt a
  | .leu => !b.ult a
  | .gtu => b.ult a

/-- A condition of R56 on a lane of `w` bits (R109). -/
def Cond.holdsLane (cc : Cond) (w a b : Nat) : Bool :=
  match cc with
  | .eq => decide (a = b)
  | .ne => decide (a ≠ b)
  | .lt => decide (sInt w a < sInt w b)
  | .ge => decide (sInt w a ≥ sInt w b)
  | .ltu => decide (a < b)
  | .geu => decide (a ≥ b)
  | .le => decide (sInt w a ≤ sInt w b)
  | .gt => decide (sInt w a > sInt w b)
  | .leu => decide (a ≤ b)
  | .gtu => decide (a > b)

/-- The class word of R94. -/
def classify (t : Elem) (v : Nat) : Nat :=
  let neg := if v.testBit (t.width - 1) then 128 else 0
  let x := decNum t v
  let c := match x with
    | .nan sig => if Elem.isTapered t then 64 else if sig then 32 else 16
    | .inf _ => 8
    | .fin _ m e =>
      if m = 0 then 1
      else if Elem.isTapered t then 4
      else if e + Nat.log2 m < 1 - (Elem.bias t : Int) then 2 else 4
  neg + c

/-- A conversion between two types, rounded once (R70, R93). -/
def convert (dst src : Elem) (rm : Rnd) (v : Nat) : Nat × Flags :=
  let x := decNum src v
  encNum dst rm x

/-- A valid block scale (R76). -/
def scaleOk (s : Nat) : Bool := !s.testBit 31 && s / 2 ^ 23 % 256 ≠ 255 && s % 2 ^ 31 ≠ 0

/-- A conversion of a scaled value, rounded once (R77): multiplied or divided by the scale. -/
def convertScaled (dst src : Elem) (mode : ScaleMode) (rm : Rnd) (s v : Nat) : Nat × Flags :=
  let x := decNum src v
  match mode with
  | .none => encNum dst rm x
  | .mul => rounded dst rm (mulNum x (decNum .f32 s))
  | .div => rounded dst rm (divNum x (decNum .f32 s))

/-- Exact sum of finite values as a signed multiple of 2^q, for q below every exponent. -/
def sumAt (q : Int) : List Num → Int
  | [] => 0
  | .fin neg m e :: r => scaled neg m e q + sumAt q r
  | _ :: r => sumAt q r

/-- The least exponent of a list of finite values. -/
def minExp : List Num → Int → Int
  | [], q => q
  | .fin _ m e :: r, q => minExp r (if m ≠ 0 && e < q then e else q)
  | _ :: r, q => minExp r q

/-- The exact sum of a list of values, by the special values of R112: a NaN, or infinities of both signs, give a NaN. DESIGN CHOICE (log 85):
an exact zero is negative where every term is, and under .RDN where any is. -/
def sumNum (rm : Rnd) (vs : List Num) : Num :=
  if vs.any Num.isNaN then .nan false
  else
    let pos := vs.any (fun v => v == .inf false)
    let neg := vs.any (fun v => v == .inf true)
    if pos && neg then .nan false
    else if pos then .inf false
    else if neg then .inf true
    else
      let q := minExp vs 0
      let t := sumAt q vs
      if t = 0 then .fin (if vs.all Num.isNeg then true else rm == .rdn && vs.any Num.isNeg) 0 0 else .fin (t < 0) t.natAbs q

/-- The largest exponent floor(log2 |p|) of the nonzero values. -/
def maxTop : List Num → Option Int → Option Int
  | [], b => b
  | .fin _ m e :: r, b =>
    if m = 0 then maxTop r b
    else
      let t : Int := e + Nat.log2 m
      maxTop r (match b with | none => some t | some u => some (if u < t then t else u))
  | _ :: r, b => maxTop r b

/-- A value's multiple of 2^q, rounded towards minus infinity (R78 step 2). -/
def floorAt (q : Int) : Num → Int
  | .fin neg m e =>
    if q ≤ e then scaled neg m e q
    else
      let k := (q - e).toNat
      if neg then -(((m + 2 ^ k - 1) / 2 ^ k : Nat) : Int) else ((m / 2 ^ k : Nat) : Int)
  | _ => 0

/-- One K-row of R78: from the exact products, the two scales and the accumulator to the new accumulator, with OF and NV of R223:
NV when a NaN arises although no operand is one (`opNaN` says that a factor of some product is a NaN). The sums are FP32 words. -/
def matrixRow (ps : List Num) (opNaN : Bool) (sA sB acc : Nat) : Nat × Flags :=
  let s3 : Nat × Flags :=
    if ps.any Num.isNaN || (ps.any (fun v => v == .inf false) && ps.any (fun v => v == .inf true)) then (Elem.canonNaN .f32, 0)
    else if ps.any (fun v => v == .inf false) then (0x7F800000, 0)
    else if ps.any (fun v => v == .inf true) then (0xFF800000, 0)
    else
      match maxTop ps none with
      | none => (0, 0)
      | some top =>
        let q := top - 52
        let t := (ps.map (floorAt q)).foldl (· + ·) 0
        if t = 0 then (0, 0) else encFloat .f32 .rne (.fin (t < 0) t.natAbs q)
  let p1 := mulNum (decNum .f32 s3.1) (decNum .f32 sA)
  let p2 := mulNum p1.1 (decNum .f32 sB)
  let s4 := encFloat .f32 .rne p2.1
  let s5 := fAdd .f32 .rne acc s4.1
  let nv := (decNum .f32 s5.1).isNaN && !opNaN && !(decNum .f32 acc).isNaN
  (s5.1, ((s3.2 ||| s4.2 ||| s5.2) &&& flagOF) ||| (if nv then flagNV else 0))

/-- One node of a floating sum tree (R81). -/
def treeAdd (rm : Rnd) (a b : Nat) : Nat × Flags := fAdd .f32 rm a b

end Sys2Proof.Machine
end

