-- ==== Sys2Proof/Machine/Slots.lean ====
section
/-! DEFINITION. Where things are and how they are reached: coordinates (R9 to R11), the tables of slots, cores, clusters, dies and
partitions, the registers of a slot, requested results (R21, R46), and the faults a check can raise (R281). -/

namespace Sys2Proof.Machine

/-- A failed check: class, cause, ADDR and INFO of the packet (R280, R281). -/
structure FaultInfo where
  cls   : FaultClass
  cause : BitVec 8
  addr  : Word
  info  : BitVec 32
  deriving DecidableEq, Repr

/-- The core of a linear slot number (R11). -/
def coreOfSlot (n : Nat) : Nat := n / 16
/-- The column and row of a core (R9). -/
def coreX (c : Nat) : Nat := c % 48
def coreY (c : Nat) : Nat := c / 48
/-- The cluster of a core (R10). -/
def clusterOfCore (c : Nat) : Nat := 12 * (coreY c / 2) + coreX c / 4
/-- The die of a core (R14). -/
def dieOfCore (c : Nat) : Nat := 3 * (coreY c / 12) + coreX c / 16
/-- The die of a cluster. -/
def dieOfCluster (cl : Nat) : Nat := 3 * (cl / 12 / 6) + cl % 12 / 4
/-- The index of a core within its cluster (R121). -/
def coreIndex (c : Nat) : Nat := coreX c % 4 + 4 * (coreY c % 2)
/-- The core of an index within a cluster (R121). -/
def coreOfIndex (cl k : Nat) : Nat := 48 * (2 * (cl / 12) + k / 4) + 4 * (cl % 12) + k % 4
/-- The cores of a cluster, by index. -/
def coresOfCluster (cl : Nat) : List Nat := (List.range 8).map (coreOfIndex cl)

def State.slot (s : State) (n : Nat) : Slot := s.slots.getD n Slot.empty
def State.setSlot (s : State) (n : Nat) (v : Slot) : State := { s with slots := s.slots.set n v }
def State.modSlot (s : State) (n : Nat) (f : Slot → Slot) : State := s.setSlot n (f (s.slot n))
def State.core (s : State) (c : Nat) : Core := s.cores.getD c Core.empty
def State.modCore (s : State) (c : Nat) (f : Core → Core) : State := { s with cores := s.cores.set c (f (s.core c)) }
def State.cluster (s : State) (c : Nat) : Cluster := s.clusters.getD c Cluster.empty
def State.modCluster (s : State) (c : Nat) (f : Cluster → Cluster) : State := { s with clusters := s.clusters.set c (f (s.cluster c)) }
def State.part (s : State) (p : Nat) : Part := s.parts.getD p Part.empty
def State.modPart (s : State) (p : Nat) (f : Part → Part) : State := { s with parts := s.parts.set p (f (s.part p)) }
def Die.empty : Die := { thermal := 0, since := 0, waiting := [], granted := [], box := [], head := 0 }
def State.die (s : State) (d : Nat) : Die := s.dies.getD d Die.empty
def State.modDie (s : State) (d : Nat) (f : Die → Die) : State := { s with dies := s.dies.set d (f (s.die d)) }
def State.hostFn (s : State) (f : Nat) : HostFn := s.hostFns.getD f HostFn.empty
def State.modHostFn (s : State) (f : Nat) (g : HostFn → HostFn) : State := { s with hostFns := s.hostFns.set f (g (s.hostFn f)) }
def State.link (s : State) (l : Nat) : Link := s.links.getD l Link.empty
def State.modLink (s : State) (l : Nat) (g : Link → Link) : State := { s with links := s.links.set l (g (s.link l)) }

/-- A partition owns slot `n`: it runs, and its core set and slot mask hold the core and the slot (R254). -/
def State.owns (s : State) (p n : Nat) : Bool :=
  let c := (s.part p).cfg
  c.running && c.cores.getLsbD (coreOfSlot n) && c.slots.getLsbD (n % 16)

/-- The partition that holds a slot: the one a slice change has given it to, or its owner (R254, R262). -/
def State.slotPart? (s : State) (n : Nat) : Option Nat :=
  match (s.slot n).holder with
  | some p => some p
  | none => (List.range 16).find? fun p => s.owns p n

/-- The registers a slot holds for a partition (R292). -/
def Slot.reg (v : Slot) (p : Nat) : SlotRegs := v.regs.getD p SlotRegs.reset
def Slot.modReg (v : Slot) (p : Nat) (f : SlotRegs → SlotRegs) : Slot := { v with regs := v.regs.set p (f (v.reg p)) }

/-- The thread of a slot, as its accesses carry it. -/
structure Thr where
  slot    : Nat
  core    : Nat
  cluster : Nat
  part    : Nat
  asid    : Nat
  priv    : Nat
  deriving DecidableEq, Repr

/-- The thread in a slot. -/
def State.thr (s : State) (n : Nat) : Thr :=
  let p := (s.slotPart? n).getD 0
  let v := s.slot n
  { slot := n, core := coreOfSlot n, cluster := clusterOfCore (coreOfSlot n), part := p, asid := (v.reg p).asid.toNat,
    priv := v.priv.toNat }

/-- A scalar register: x0 reads as zero (R12). -/
def Ctx.getX (c : Ctx) (r : Reg) : Word := if r = 0 then 0 else c.x[r.toNat]
/-- Writes a scalar register; a write to x0 is discarded (R48). -/
def Ctx.setX (c : Ctx) (r : Reg) (v : Word) : Ctx := if r = 0 then c else { c with x := c.x.set r.toNat v }
def Ctx.getV (c : Ctx) (r : Reg) : Vec := c.v[r.toNat]
def Ctx.setV (c : Ctx) (r : Reg) (v : Vec) : Ctx := { c with v := c.v.set r.toNat v }
/-- A mask register: m0 reads as all ones (R47). -/
def Ctx.getM (c : Ctx) (r : MReg) : Word := if r = 0 then BitVec.allOnes 64 else c.m[r.toNat]
/-- Writes a mask register; a write to m0 is discarded (R48). -/
def Ctx.setM (c : Ctx) (r : MReg) (v : Word) : Ctx := if r = 0 then c else { c with m := c.m.set r.toNat v }

/-- Changes the context of a slot. -/
def Slot.modCtx (v : Slot) (f : Ctx → Ctx) : Slot := { v with ctx := f v.ctx }

/-- Drops the requested results of a register that a later instruction writes (R46). -/
def Slot.dropResults (v : Slot) (isVec : Bool) (r : Reg) : Slot :=
  { v with pending := v.pending.filter fun e => !(e.isVec == isVec && e.reg == r) }

/-- Writes one requested result into its register. -/
def Ctx.deliver (c : Ctx) (e : Result) : Ctx := if e.isVec then c.setV e.reg e.val else c.setX e.reg (e.val.setWidth 64)

/-- Result `i` returns: the register takes it, and earlier results of the same register are discarded (R21, R46). -/
def Slot.deliver (v : Slot) (i : Nat) : Slot :=
  match v.pending[i]? with
  | none => v
  | some e =>
    let before := (v.pending.take i).filter fun f => !(f.isVec == e.isVec && f.reg == e.reg)
    { v with ctx := v.ctx.deliver e, pending := before ++ v.pending.drop (i + 1) }

/-- Every requested result returns, in the order of issue. -/
def Slot.deliverAll (v : Slot) : Slot := { v with ctx := v.pending.foldl Ctx.deliver v.ctx, pending := [] }

/-- A value of the current slot's registers. -/
def State.ctx (s : State) : Ctx := (s.slot s.cur).ctx
def State.getX (s : State) (r : Reg) : Word := s.ctx.getX r
def State.getV (s : State) (r : Reg) : Vec := s.ctx.getV r
def State.getM (s : State) (r : MReg) : Word := s.ctx.getM r
def State.pc (s : State) : Word := s.ctx.pc

/-- Writes a scalar register of the current slot by an instruction whose result is no memory result (R21, R46). -/
def State.setX (s : State) (r : Reg) (v : Word) : State :=
  s.modSlot s.cur fun t => (t.dropResults false r).modCtx fun c => c.setX r v
/-- Writes a vector register of the current slot, as `State.setX`. -/
def State.setV (s : State) (r : Reg) (v : Vec) : State :=
  s.modSlot s.cur fun t => (t.dropResults true r).modCtx fun c => c.setV r v
/-- Writes a mask register of the current slot. -/
def State.setM (s : State) (r : MReg) (v : Word) : State := s.modSlot s.cur fun t => t.modCtx fun c => c.setM r v
/-- Adds flags to ctl.FSTAT (R69). -/
def State.addFlags (s : State) (f : Flags) : State := s.modSlot s.cur fun t => t.modCtx fun c => { c with fstat := c.fstat ||| f }

/-- Requests a memory result for a scalar register (R21). -/
def State.reqX (s : State) (r : Reg) (v : Word) : State :=
  s.modSlot s.cur fun t => { t with pending := t.pending ++ [{ isVec := false, reg := r, val := v.setWidth 512 }] }
/-- Requests a memory result for a vector register (R21). -/
def State.reqV (s : State) (r : Reg) (v : Vec) : State :=
  s.modSlot s.cur fun t => { t with pending := t.pending ++ [{ isVec := true, reg := r, val := v }] }

/-- The latest value a vector register will hold: an outstanding result's, or the register's own. -/
def Slot.latestV (t : Slot) (r : Reg) : Vec :=
  match (t.pending.reverse.find? fun e => e.isVec && e.reg == r) with
  | some e => e.val
  | none => t.ctx.getV r

/-- The slot goes on at `target`; with a mark, it parks while a requested result has not returned (R21, R46). -/
def Slot.goto (t : Slot) (mark : Bool) (target : Word) : Slot :=
  { t with
    ctx := { t.ctx with pc := target }, cont := .none
    run := if mark && !t.pending.isEmpty then .parked else .ready }

/-- Ends the current slot's instruction at `target` (R44, R46). -/
def State.goto (s : State) (k : Enc) (target : Word) : State := s.modSlot s.cur fun t => t.goto k.mark target

/-- Ends the current slot's instruction at the next sequential one (R44). -/
def State.advance (s : State) (k : Enc) : State := s.goto k (s.pc + BitVec.ofNat 64 k.len.bytes)

/-- An instruction's first word, as an ILLEGAL packet names it (R281). -/
def firstWord (i : Instr) : Word :=
  match i.fields? with
  | some f => f.word
  | none => 0

/-- A fault with cause and address. -/
def mkFault (cls : FaultClass) (cause : Nat) (addr : Word) (info : Nat) : FaultInfo :=
  { cls := cls, cause := BitVec.ofNat 8 cause, addr := addr, info := BitVec.ofNat 32 info }

/-- Bits [lo + n − 1 : lo] of a bit vector. -/
def getBits {w : Nat} (v : BitVec w) (lo n : Nat) : Nat := v.toNat / 2 ^ lo % 2 ^ n

/-- Replaces bits [lo + n − 1 : lo] of a bit vector. -/
def setBits {w : Nat} (v : BitVec w) (lo n x : Nat) : BitVec w :=
  (v &&& ~~~(BitVec.ofNat w ((2 ^ n - 1) * 2 ^ lo))) ||| BitVec.ofNat w (x % 2 ^ n * 2 ^ lo)

/-- A rectangle of R160. -/
def rectOk (w : Word) : Bool :=
  let v := w.toNat
  let x0 := v % 256; let y0 := v / 256 % 256; let x1 := v / 65536 % 256; let y1 := v / 16777216 % 256
  decide (v < 2 ^ 32) && decide (x1 ≤ 47) && decide (y1 ≤ 23) && decide (x0 ≤ x1) && decide (y0 ≤ y1)

/-- A core lies in a rectangle (R159). -/
def inRect (w : Word) (c : Nat) : Bool :=
  let v := w.toNat
  decide (v % 256 ≤ coreX c) && decide (coreX c ≤ v / 65536 % 256) && decide (v / 256 % 256 ≤ coreY c) &&
  decide (coreY c ≤ v / 16777216 % 256)

/-- How far beyond the issuing cluster an instance reaches (R159). -/
inductive Reach where
  | inside | package | fabric
  deriving DecidableEq, Repr

/-- A rectangle reaches beyond a cluster's 4 × 2 block (R159). -/
def rectBeyond (w : Word) (cl : Nat) : Bool :=
  let v := w.toNat
  let bx := 4 * (cl % 12); let byy := 2 * (cl / 12)
  !(decide (bx ≤ v % 256) && decide (v / 65536 % 256 ≤ bx + 3) && decide (byy ≤ v / 256 % 256) && decide (v / 16777216 % 256 ≤ byy + 1))

/-- The reach of a scope for an instruction of a core (R159); `rect` is the rectangle's register value. -/
def Scope.reach (sc : Scope) (cl : Nat) (rect : Word) : Reach :=
  match sc with
  | .thread | .core | .cluster => .inside
  | .unwritten | .package => .package
  | .fabric => .fabric
  | .rect _ => if rectBeyond rect cl then .package else .inside

/-- The check of a scope operand (R160): a bad rectangle is ILLEGAL with cause 0x8 and names its register. -/
def State.checkScope (s : State) (sc : Scope) (i : Instr) : Except FaultInfo Unit :=
  match sc with
  | .rect r => if rectOk (s.getX r) then .ok () else .error (mkFault .illegal 8 (firstWord i) r.toNat)
  | _ => .ok ()

/-- The reach of an instruction's scope operand. -/
def State.reachOf (s : State) (sc : Scope) : Reach := Scope.reach sc (s.thr s.cur).cluster (s.getX sc.reg)

/-- The supervisor privilege an instruction needs (R60 cause 0x7). -/
def State.needPriv (s : State) (p : Nat) (i : Instr) : Except FaultInfo Unit :=
  if (s.slot s.cur).priv.toNat < p then .error (mkFault .illegal 7 (firstWord i) 0) else .ok ()

/-- The black-box record of an event, entered in a die's ring (R327, R329). -/
def State.boxAdd (s : State) (die : Nat) (kind : Nat) (code w0 w1 : Nat) (part : Nat) : State :=
  s.modDie die fun d =>
    { d with
      box := d.box.set (d.head.toNat % 2048)
        { word1 := BitVec.ofNat 64 w1, word0 := BitVec.ofNat 64 w0, time := BitVec.ofNat 64 s.cycle, seq := d.head,
          part := BitVec.ofNat 4 part, kind := BitVec.ofNat 8 kind, code := BitVec.ofNat 16 code }
      head := d.head + 1 }

/-- A free choice among `n` (log 3), and the state in which the next choice is fresh. -/
def State.choose (s : State) (n : Nat) : Nat × State := (Config.freeChoice s.freeCtr % n, { s with freeCtr := s.freeCtr + 1 })

end Sys2Proof.Machine
end

