-- ==== Sys2Proof/Machine/Home.lean ====
section
/-! DEFINITION. What stands at a physical address (R308, R319): memory at its home slice with the views the hardware keeps over it
(counted lines, the task directory), save frames (R285), debug windows (R296), configuration space (R310, R314), launch windows (R323)
and black boxes (R327). -/

namespace Sys2Proof.Machine

/-- The regions of R308. -/
inductive Region where
  | hbm | cfg | dbg | launch | bbox (die : Nat) | host | remote | none
  deriving DecidableEq, Repr

def hbmSize : Nat := 0xC000000000
def cfgBase : Nat := 0x10000000000
def dbgBase : Nat := 0x10100000000
def launchBase : Nat := 0x10200000000
def bboxBase : Nat := 0x10300000000
def hostBase : Nat := 0x100000000000

/-- The region of a physical address (R308). -/
def regionOf (pa : Nat) : Region :=
  if pa ≥ 2 ^ 55 then .remote
  else if pa < hbmSize then .hbm
  else if cfgBase ≤ pa && pa < cfgBase + 0x100000 then .cfg
  else if dbgBase ≤ pa && pa < dbgBase + 72 * 0x100000 then .dbg
  else if launchBase ≤ pa && pa < launchBase + 0x10000 then .launch
  else if bboxBase ≤ pa && pa < bboxBase + 6 * 0x10000 then .bbox ((pa - bboxBase) / 0x10000)
  else if hostBase ≤ pa && pa < 2 * hostBase then .host
  else .none

/-- A frame's bits (R285). -/
def frameNat (valid inline : Bool) (depth : Nat) (c : Ctx) : Nat :=
  let xs := (List.range 32).foldr (fun i n => (if i = 0 then 0 else (c.getX (BitVec.ofNat 5 i)).toNat) + 2 ^ 64 * n) 0
  let vs := (List.range 32).foldr (fun i n => (c.getV (BitVec.ofNat 5 i)).toNat + 2 ^ 512 * n) 0
  let ms := (List.range 8).foldr (fun i n => (if i = 0 then 0 else (c.getM (BitVec.ofNat 3 i)).toNat) + 2 ^ 64 * n) 0
  xs + vs * 2 ^ 2048 + ms * 2 ^ 18432 + c.pc.toNat * 2 ^ 18944 + (c.bbData.toNat + c.bbValid.toNat * 2 ^ 128) * 2 ^ 19008 +
    c.task.toNat * 2 ^ 19200 + c.mult.toNat * 2 ^ 19232 + c.group.toNat * 2 ^ 19264 + c.fgroup.toNat * 2 ^ 19280 +
    c.fstat.toNat * 2 ^ 19296 + c.stealdom.toNat * 2 ^ 19304 + c.mstat.toNat * 2 ^ 19328 + (depth % 8) * 2 ^ 19392 +
    (if inline then 2 ^ 19395 else 0) + (if valid then 2 ^ 19396 else 0)

/-- The bytes of a frame (R285). -/
def frameBytes : Nat := 2432

/-- A frame's VALID and INLINE (R285). -/
def frameValid (n : Nat) : Bool := n.testBit 19396
def frameInline (n : Nat) : Bool := n.testBit 19395

/-- The context a frame holds, as it was written (R285, R298). -/
def rawCtx (n : Nat) : Ctx :=
  let f (lo w : Nat) : Nat := n / 2 ^ lo % 2 ^ w
  { x := Vector.ofFn fun (i : Fin 32) => if i.val = 0 then 0 else BitVec.ofNat 64 (f (64 * i.val) 64)
    v := Vector.ofFn fun (i : Fin 32) => BitVec.ofNat 512 (f (2048 + 512 * i.val) 512)
    m := Vector.ofFn fun (i : Fin 8) => if i.val = 0 then 0 else BitVec.ofNat 64 (f (18432 + 64 * i.val) 64)
    pc := BitVec.ofNat 64 (f 18944 64)
    bbData := BitVec.ofNat 128 (f 19008 128)
    bbValid := BitVec.ofNat 8 (f 19136 8)
    task := BitVec.ofNat 32 (f 19200 32)
    mult := BitVec.ofNat 32 (f 19232 32)
    group := BitVec.ofNat 16 (f 19264 16)
    fgroup := BitVec.ofNat 16 (f 19280 16)
    stealdom := BitVec.ofNat 2 (f 19304 2)
    fstat := BitVec.ofNat 6 (f 19296 6)
    mstat := BitVec.ofNat 64 (f 19328 64) }

/-- What a restore corrects in a context (R97, R285): VALID is at most 128, DATA above it is zero, and MULT 0 starts as 1 (R25). -/
def Ctx.corrected (c : Ctx) : Ctx :=
  let valid := Nat.min c.bbValid.toNat 128
  { c with
    bbData := BitVec.ofNat 128 (c.bbData.toNat % 2 ^ valid), bbValid := BitVec.ofNat 8 valid
    mult := if c.mult = 0 then 1 else c.mult }

/-- The context a frame restores (R285). -/
def ctxOfFrame (n : Nat) : Ctx := (rawCtx n).corrected

/-- The position of a task on a slot's chain, the base at 0 (R242). -/
def levelPos (levels : List Level) (t : TaskId) : Nat :=
  match levels.reverse.findIdx? (fun l => l.task == t && !l.inline) with
  | some i => i
  | none => 0

/-- A slot is frozen (R278). -/
def Run.isFrozen : Run → Bool
  | .frozen .. => true
  | _ => false

/-- The STATE code of a directory entry (R230). -/
def TaskState.code : TaskState → Nat
  | .unstarted => 0 | .running => 1 | .parked => 2 | .done => 3 | .failed => 4 | .merged => 5

/-- The chain a running task stands on (R241): its slot's, one that is switched out there (R263), or one that a vacate has saved (R286). -/
def State.chainOf (s : State) (t : Task) : List Level :=
  let v := s.slot t.whereTo.toNat
  let chains := v.levels :: (v.away.map fun (e : Nat × Away) => e.2.levels) ++
    (s.part (t.id.toNat / 2 ^ 28)).tasks.map fun (e : Nat × Task) => e.2.chain
  (chains.find? fun ls => ls.any fun l => l.task == t.id).getD []

/-- A directory entry as memory shows it (R230). A running task is frozen where its slot is, where its chain is switched out or not yet
restored (R263), and where a vacate has saved it (R286). -/
def State.dirEntry (s : State) (t : Task) : Nat :=
  let v := s.slot t.whereTo.toNat
  let running := t.state == .running
  let frz := running && (v.run.isFrozen || v.restoring || !(v.levels.any fun l => l.task == t.id))
  let depth := if running then Nat.min 7 (levelPos (s.chainOf t) t.id) else 0
  t.whereTo.toNat + depth * 2 ^ 88 + (if frz then 2 ^ 91 else 0) + (if t.pin then 2 ^ 92 else 0) + t.state.code * 2 ^ 93 +
    t.id.toNat * 2 ^ 96

/-- The partition whose task directory holds a physical address (R229): its configuration names the region, and the directory stays there
while the partition is stopped (R313). -/
def State.dirOwner (s : State) (pa : Nat) : Option Nat :=
  (List.range 16).find? fun p =>
    let c := (s.part p).cfg
    decide (c.dirbase ≤ pa) && decide (pa < c.dirbase + 16 * c.dirsize)

/-- The bytes of a fault inbox: its header and 64 packets (R303). -/
def inboxBytes : Nat := 64 + 64 * 64

/-- The partition whose fault inbox has a physical address past HEAD: TAIL, the reserved bytes or a packet, none of which takes a write
(R280, R303). A committed descriptor names the region, and the inbox stays there while the partition is stopped (log 106). -/
def State.inboxOwner (s : State) (pa : Nat) : Option Nat :=
  (List.range 16).find? fun p =>
    let k := s.part p
    k.last.isSome && decide (k.cfg.finbox + 8 ≤ pa) && decide (pa < k.cfg.finbox + inboxBytes)

/-- Byte `i` of a fault inbox, past HEAD (R303). -/
def Part.inboxByte (k : Part) (i : Nat) : Byte :=
  if i < 16 then byteOf k.tail.toNat (i - 8)
  else if i < 64 then 0
  else byteOf (k.packets.getD (i / 64 - 1) 0).toNat (i % 64)

/-- The byte that memory shows at its home slice (R125): the task directory's view (R229), what a fault inbox keeps from writes (R303), or
memory. The hardware's own reads of tables see this (log 81). -/
def State.homeByte (s : State) (pa : Nat) : Byte :=
  if pa ≥ 2 ^ 55 then s.remote.read pa
  else if pa ≥ hostBase then s.hostMem.read pa
  else
    match s.dirOwner pa with
    | some p =>
      let i := pa - (s.part p).cfg.dirbase
      match (s.part p).tasks.get? (i / 16) with
      | none => 0
      | some t => byteOf (s.dirEntry t) (i % 16)
    | none =>
      match s.inboxOwner pa with
      | some p => (s.part p).inboxByte (pa - (s.part p).cfg.finbox)
      | none => s.mem.read pa

/-- `n` bytes at home slices as a little-endian number. -/
def State.homeRead (s : State) (pa : Nat) : Nat → Nat
  | 0 => 0
  | n + 1 => (s.homeByte pa).toNat + 256 * State.homeRead s (pa + 1) n

/-- The key of a line counted at its home slice: the memory-side cache tags physical line addresses with an ASID (R126). -/
def homeKey (tag pline : Nat) : Nat := pline * 2 ^ 11 + tag % 2 ^ 11

/-- Where a partition's spill record lies (R140). -/
def spillAddr (c : PartCfg) (i : Nat) : Nat := c.spillbase + 144 * i

/-- The count in a spill record, 0 where its VALID has fallen (R140). -/
def State.spillCount (s : State) (p i : Nat) : Nat :=
  let w := s.homeRead (spillAddr (s.part p).cfg i + 12) 2
  if w.testBit 0 then w / 4 % 256 else 0

/-- Byte `j` of the line in a spill record (R140). -/
def State.spillByte (s : State) (p i j : Nat) : Byte := s.homeByte (spillAddr (s.part p).cfg i + 16 + j)

/-- The count of a line of a cluster cache, in place or in its spill record (R131, R140). -/
def State.lineCount (s : State) (l : CLine) : Nat :=
  match l.spill with
  | none => l.count
  | some i => s.spillCount l.part i

/-- The count of a line counted at its home slice, in place or in its spill record (R131, R140). -/
def State.homeLineCount (s : State) (h : HomeLine) : Nat :=
  match h.spill with
  | none => h.count
  | some i => s.spillCount h.part i

/-- Byte `j` of a line of a cluster cache, in place or in its spill record. -/
def State.lineByte (s : State) (l : CLine) (j : Nat) : Byte :=
  match l.spill with
  | none => l.data.extractLsb' (8 * j) 8
  | some i => s.spillByte l.part i j

/-- The byte an address space finds at its home slice (R125, R126): that of a line counted there under its ASID (R131), whose data may lie in
a spill record (R140), that of its own copy, or what memory shows. -/
def State.spaceByte (s : State) (tag pa : Nat) : Byte :=
  match s.home.get? (homeKey tag (pa / 128)) with
  | some h =>
    match h.spill with
    | none => h.data.extractLsb' (8 * (pa % 128)) 8
    | some i => s.spillByte h.part i (pa % 128)
  | none =>
    match s.copies.get? (homeKey tag (pa / 128)) with
    | some k => k.data.extractLsb' (8 * (pa % 128)) 8
    | none => s.homeByte pa

/-- `n` bytes that an address space finds at home slices, as a little-endian number. -/
def State.spaceRead (s : State) (tag pa : Nat) : Nat → Nat
  | 0 => 0
  | n + 1 => (s.spaceByte tag pa).toNat + 256 * State.spaceRead s tag (pa + 1) n

/-- An access to a word's serialisation point that writes it breaks the word's granted reservation (R183). -/
def breakResv (rs : List Resv) (l : Loc) : List Resv :=
  rs.map fun r => if r.loc == l && r.granted then { r with broken := true } else r

/-- A copy after byte `i` of it has been stored. -/
def HomeCopy.store (k : HomeCopy) (i : Nat) (b : Byte) : HomeCopy := { k with data := setBits k.data (8 * i) 8 b.toNat }

/-- The copies at home slices of every address space after a byte has been stored. -/
def copyByte (cs : Table HomeCopy) (pa : Nat) (b : Byte) : Table HomeCopy :=
  cs.map fun (e : Nat × HomeCopy) => (e.1, if e.1 / 2 ^ 11 = pa / 128 then e.2.store (pa % 128) b else e.2)

/-- Stores one byte at its home slice. A counted line stays as it is, and the byte goes to the memory below it (log 15) and to every copy. -/
def State.homeWriteByte (s : State) (pa : Nat) (b : Byte) : State :=
  let s := { s with resv := breakResv s.resv (.phys (pa / 8 * 8)), copies := copyByte s.copies pa b }
  if pa ≥ 2 ^ 55 then { s with remote := s.remote.write pa b }
  else if pa ≥ hostBase then { s with hostMem := s.hostMem.write pa b }
  else { s with mem := s.mem.write pa b }

/-- Stores the low `n` bytes of a number at home slices. -/
def State.homeWrite (s : State) (pa : Nat) : Nat → Nat → State
  | 0, _ => s
  | n + 1, v => State.homeWrite (s.homeWriteByte pa (BitVec.ofNat 8 v)) (pa + 1) n (v / 256)

/-- The damaged lines after a write of bytes at home slices: those it covers whole are damaged no longer (R281). -/
def mendLines (ps : List Damaged) (pa n : Nat) : List Damaged :=
  ps.filter fun d => match d with | .line l _ => !(decide (pa ≤ l * 128) && decide (l * 128 + 128 ≤ pa + n)) | _ => true

/-- The hardware stores bytes of its own at home slices (R140, R262, R317): what they cover whole is damaged no longer (R281). -/
def State.homeStore (s : State) (pa n v : Nat) : State := { s.homeWrite pa n v with poison := mendLines s.poison pa n }

/-- Stores the low `n` bytes of a number at home slices for an address space (R126): another space's copy keeps what it holds. -/
def State.spaceWrite (s : State) (tag pa n v : Nat) : State :=
  let t := s.homeWrite pa n v
  { t with
    copies := t.copies.map fun (e : Nat × HomeCopy) => (e.1, if e.1 % 2 ^ 11 = tag % 2 ^ 11 then e.2 else s.copies.getD e.1 e.2)
    poison := mendLines s.poison pa n }

/-- The bytes of a row in each buffer (R118). -/
def rowBytes (buf : Nat) : Nat := if buf = 0 then 64 else if buf = 3 then 128 else 96
/-- The size of each buffer (R118). -/
def bufSize (buf : Nat) : Nat := if buf = 0 then 0x10000 else if buf = 3 then 0x8000 else 0x20000
/-- The buffer and the row of a local address (R119). -/
def bufOf (la : Nat) : Nat := la / 2 ^ 17 % 4
def rowOf (la : Nat) : Nat := bufOf la * 4096 + la % 2 ^ 17 / rowBytes (bufOf la)
/-- The local address of a row's first byte. -/
def rowAddr (row : Nat) : Nat := row / 4096 * 2 ^ 17 + row % 4096 * rowBytes (row / 4096)

/-- `n` bytes of a core's buffers. -/
def State.bufRead (s : State) (c la n : Nat) : Nat := (s.core c).buf.readN la n

/-- The damaged rows after a write of bytes of a core's buffers: those it covers whole are damaged no longer (R281). -/
def mendRows (ps : List Damaged) (c la n : Nat) : List Damaged :=
  ps.filter fun d =>
    match d with
    | .row k r => !(k == c && decide (la ≤ rowAddr r) && decide (rowAddr r + rowBytes (r / 4096) ≤ la + n))
    | _ => true

/-- Stores `n` bytes into a core's buffers. -/
def State.bufWrite (s : State) (c la n v : Nat) : State :=
  let s := s.modCore c fun k => { k with buf := k.buf.writeN la n v }
  { s with
    poison := mendRows s.poison c la n
    resv := (List.range ((la + n - 1) / 8 - la / 8 + 1)).foldl (fun rs i => breakResv rs (.buf c (la / 8 * 8 + 8 * i))) s.resv }

/-- The SSTATE of a debug window (R297). DESIGN CHOICE (log 120): a slot that stays on its instruction shows 1, as a ready one. -/
def sstate (v : Slot) : Nat :=
  match v.run with
  | .frozen .. => 4
  | r =>
    if v.restoring then 5 else
    match r with
    | .idle => 0
    | .ready | .stalled _ => 1
    | .parked => 2
    | .sleeping _ => 3
    | .frozen .. => 4

/-- STATUS of a debug window (R297). -/
def dbgStatus (v : Slot) : Nat :=
  (v.levels.length - 1) * 256 + sstate v * 32 + (if v.packet.isSome then 16 else 0) + (if v.step then 8 else 0) +
    (if v.lost then 4 else 0)

/-- The top level runs as an inline call (R238). -/
def topInline (levels : List Level) : Bool :=
  match levels with
  | l :: _ => l.inline
  | [] => false

/-- One 8-byte field of a debug window (R296). -/
def State.dbgRead (s : State) (n off : Nat) : Nat :=
  let v := s.slot n
  let p := (s.slotPart? n).getD 0
  if off < 0x980 then
    frameNat (v.levels != []) (topInline v.levels) (v.levels.length - 1) v.ctx / 2 ^ (8 * off) % 2 ^ 64
  else if off < 0x9C0 then ((v.packet.getD 0).toNat / 2 ^ (8 * (off - 0x980))) % 2 ^ 64
  else if off = 0x9C0 then dbgStatus v
  else if off = 0x9D0 then (v.reg p).savebase.toNat
  else if off = 0x9D8 then (v.reg p).adoptmax.toNat
  else if off = 0x9E0 then (v.reg p).tidbase.toNat
  else if off = 0x9E8 then (v.reg p).asid.toNat
  else if off = 0x9F0 then ((s.core (coreOfSlot n)).deqbase.getD p 0).toNat
  else if 0xA00 ≤ off && off < 0xA80 then
    match v.levels.reverse[(off - 0xA00) / 8]? with
    | some l => l.task.toNat + (if l.inline then 2 ^ 32 else 0)
    | none => 0
  else 0

/-- The fields of a descriptor that are not reserved, by offset (R310). -/
def cfgMask (off : Nat) : Nat :=
  match off with
  | 0x00 => 0x01FFFFFF0000000F
  | 0x08 => 0x7FFFFFFF
  | 0x10 => 0x07FF000F07FF07FF
  | 0x18 | 0x20 | 0x28 | 0x30 | 0x38 | 0x40 | 0x48 | 0x50 | 0x58 => 0xFFFFFFFFFFFFFFFF
  | 0x60 | 0x68 | 0x70 | 0x78 => 0x0001FFFF0001FFFF
  | 0x80 => 0xFFFF
  | 0x88 => 0x1F7FFFFF0F3F
  | 0x90 => 0x03FF00FF
  | _ => if 0x100 ≤ off && off < 0x190 then 0xFFFFFFFFFFFFFFFF else 0

/-- One 8-byte register of configuration space (R310, R314). -/
def State.cfgRead (s : State) (off : Nat) : Nat :=
  if off < 0x10000 then
    let p := s.part (off / 4096)
    let o := off % 4096
    if o = 0xA0 then p.status.toNat
    else (p.staged.getD o 0).toNat &&& cfgMask o
  else
    let o := off - 0x10000
    if o = 0 then s.pkgnum.toNat
    else if o = 8 then Config.linksEnabled.toNat
    else if o = 0x10 then (List.range 6).foldr (fun d n => (s.die d).thermal.toNat + 4 * n) 0
    else if 0x40 ≤ o && o < 0x70 then (s.die ((o - 0x40) / 8)).head.toNat
    else if 0x100 ≤ o && o < 0x190 then Config.coresEnabled.toNat / 2 ^ (8 * (o - 0x100)) % 2 ^ 64
    else 0

/-- The launch status word (R324). -/
def lstat (h : HostFn) : Nat := h.accepted.toNat * 2 ^ 32 + (if h.op then 256 else 0) + h.code.toNat

/-- One 8-byte field of a launch window (R323). -/
def State.launchRead (s : State) (off : Nat) : Nat :=
  let h := s.hostFn (off / 4096)
  let o := off % 4096
  if o = 0 then h.entry.toNat
  else if o = 8 then h.arg0.toNat
  else if o = 0x10 then h.arg1.toNat
  else if o = 0x20 then lstat h
  else if 0x40 ≤ o && o < 0x80 then h.item.toNat / 2 ^ (8 * (o - 0x40)) % 2 ^ 64
  else 0

/-- A black-box record as memory shows it (R327). -/
def boxRecNat (r : BoxRec) : Nat :=
  r.code.toNat + r.kind.toNat * 2 ^ 16 + r.part.toNat * 2 ^ 28 + r.seq.toNat * 2 ^ 32 + r.time.toNat * 2 ^ 64 + r.word0.toNat * 2 ^ 128 +
    r.word1.toNat * 2 ^ 192

/-- The aligned 8-byte word of a device region (R308). -/
def State.devWord (s : State) (pa : Nat) : Nat :=
  match regionOf pa with
  | .cfg => s.cfgRead (pa - cfgBase)
  | .dbg => s.dbgRead ((pa - dbgBase) / 4096) ((pa - dbgBase) % 4096)
  | .launch => s.launchRead (pa - launchBase)
  | .bbox d =>
    let o := (pa - bboxBase) % 0x10000
    match (s.die d).box.get? (o / 32) with
    | some r => boxRecNat r / 2 ^ (8 * (o % 32)) % 2 ^ 64
    | none => 0
  | _ => 0

/-- `n` bytes of a device region. -/
def State.devRead (s : State) (pa : Nat) : Nat → Nat
  | 0 => 0
  | n + 1 => s.devWord (pa / 8 * 8) / 2 ^ (8 * (pa % 8)) % 256 + 256 * State.devRead s (pa + 1) n

/-- A region outside memory. -/
def Region.isDevice : Region → Bool
  | .cfg | .dbg | .launch | .bbox _ => true
  | _ => false

/-- The writes of device registers that the agenda has next. -/
def Move.write? : Move → Option (Nat × Word)
  | .write pa v => some (pa, v)
  | _ => none

/-- A move that a store to a device region has left. -/
def Move.ofStore : Move → Bool
  | .write .. | .misuse .. => true
  | _ => false

/-- Moves that an access to a device region leaves come next, after those of the same instruction (log 16). -/
def State.devQueue (s : State) (moves : List Move) : State :=
  { s with agenda := s.agenda.takeWhile Move.ofStore ++ moves ++ s.agenda.dropWhile Move.ofStore }

/-- An access to a launch window that is not 8 bytes wide and aligned (R323). -/
def launchMisuse (pa n : Nat) : Bool := regionOf pa == .launch && (n != 8 || pa % 8 != 0)

/-- A core's access to a launch window of a wrong format: the function freezes next (R323). -/
def State.devMisuse (s : State) (pa n : Nat) : State :=
  if launchMisuse pa n then s.devQueue [.misuse ((pa - launchBase) / 4096) ((pa - launchBase) % 4096)] else s

/-- The word a narrower store to a device region is put together with: of a descriptor's field what was last written, its reserved bits
included (R310). -/
def State.devHeld (s : State) (pa : Nat) : Nat :=
  let off := pa - cfgBase
  if regionOf pa = .cfg && decide (off < 0x10000) then ((s.part (off / 4096)).staged.getD (off % 4096) 0).toNat else s.devWord pa

/-- The writes that a store of `n` bytes to a device region becomes: one of each aligned 8-byte word it touches. -/
def State.devMoves (s : State) (pa n v : Nat) : List Move :=
  let first := pa / 8
  let queued := s.agenda.takeWhile Move.ofStore
  let word (w : Nat) : Nat :=
    match (queued.reverse.filterMap Move.write?).find? fun e => e.1 == w * 8 with
    | some e => e.2.toNat
    | none => s.devHeld (w * 8)
  let merge (w : Nat) : Nat :=
    (List.range n).foldl (fun x i => if (pa + i) / 8 = w then setByte x ((pa + i) % 8) (byteOf v i) else x) (word w)
  (List.range ((pa + n - 1) / 8 - first + 1)).map fun i => .write ((first + i) * 8) (BitVec.ofNat 64 (merge (first + i)))

/-- Stores `n` bytes to a device region; a launch window takes none of a wrong format (R323). -/
def State.devWrite (s : State) (pa n v : Nat) : State :=
  if launchMisuse pa n then s.devMisuse pa n else s.devQueue (s.devMoves pa n v)

end Sys2Proof.Machine
end

