-- ==== Sys2Proof/Machine/Access.lean ====
section
/-! DEFINITION. How a thread reaches storage: address layouts (R119 to R122), translation and its checks (R127 to R130), rights, ports and
ranges (R118, R123, R308), cluster caches (R124, R126, R152), counted units (R131 to R143), and the order of checks of R144. -/

namespace Sys2Proof.Machine

/-- What an access does, for the checks of R118, R129 and R137. -/
inductive AccKind where
  | load | store | atomic | consume | fetch | retire | retireForce | arm | armH
  deriving DecidableEq, Repr

/-- A global address translated (R127, R128). -/
structure Xlat where
  va    : Nat
  pa    : Nat
  tag   : Nat
  level : Nat
  pte   : Nat
  deriving DecidableEq, Repr

def Xlat.ord (x : Xlat) : Nat := x.pte / 64 % 4
def Xlat.g (x : Xlat) : Bool := x.pte.testBit 9
def Xlat.cnt (x : Xlat) : Bool := x.pte.testBit 8
def Xlat.sup (x : Xlat) : Bool := x.pte.testBit 5

/-- Where a run of bytes stands. -/
inductive Place where
  | buf (core la : Nat)
  | glob (x : Xlat)
  deriving DecidableEq, Repr

/-- A run of an access's bytes at one place: `at` is its offset in the access. -/
structure Piece where
  off   : Nat
  n     : Nat
  addr  : Word
  place : Place
  deriving DecidableEq, Repr

/-- The page size of a leaf at a level (R127). -/
def pageBits (level : Nat) : Nat := if level = 2 then 30 else if level = 1 then 21 else 16

/-- The index of an address in a table of a level (R127). -/
def tableIndex (level va : Nat) : Nat :=
  if level = 3 then bits va 55 43 else if level = 2 then bits va 42 30 else if level = 1 then bits va 29 21 else bits va 20 16

/-- A failed walk (R281): the level, and which case of R129. -/
def walkFault (addr : Word) (level kind : Nat) : FaultInfo := mkFault .translation 1 addr (level + 4 * kind)

/-- The PA field of a table entry (R128). -/
def ptePa (e : Nat) : Nat := bits e 55 16 * 65536

/-- A leaf's checks and result (R129). -/
def leafOf (addr : Word) (level e : Nat) : Except FaultInfo (Nat × Nat) :=
  if e / 2 ^ 56 ≠ 0 || bits e 15 10 ≠ 0 then .error (walkFault addr level 3)
  else if bits e 7 6 = 3 then .error (walkFault addr level 5)
  else if ptePa e % 2 ^ pageBits level ≠ 0 then .error (walkFault addr level 4)
  else .ok (e, level)

/-- The ECC cause of a line that is damaged where it lies at home (R281). -/
def State.lineDamage (s : State) (pline : Nat) : Option (BitVec 8) :=
  (s.poison.find? fun d => match d with | .line l _ => l == pline | _ => false).map Damaged.cause

/-- `n` bytes of a table that the hardware reads for an access to `addr` (R127, R318), with ECC where their line is damaged (R281). -/
def State.tableRead (s : State) (addr : Word) (pa n : Nat) : Except FaultInfo Nat :=
  match s.lineDamage (pa / 128) with
  | some c => .error (mkFault .ecc c.toNat addr 0)
  | none => .ok (s.homeRead pa n)

/-- One level of a walk, down to level 0 (R127, R129): `fuel` levels remain. -/
def State.walkFrom (s : State) (addr : Word) (table : Nat) : Nat → Except FaultInfo (Nat × Nat)
  | 0 => .error (walkFault addr 0 2)
  | fuel + 1 => do
    let level := fuel
    let e ← s.tableRead addr (table + 8 * tableIndex level addr.toNat) 8
    if !e.testBit 0 then .error (walkFault addr level 0)
    else if e.testBit 1 then
      if level = 3 then .error (walkFault addr level 1) else leafOf addr level e
    else if level = 0 then .error (walkFault addr level 2)
    else if e / 2 ^ 56 ≠ 0 || bits e 15 10 ≠ 0 || bits e 9 2 ≠ 0 then .error (walkFault addr level 3)
    else State.walkFrom s addr (ptePa e) fuel

/-- A walk for a thread's address space (R127). An ASID outside the partition's range names no root (log 17). -/
def State.walk (s : State) (p asid : Nat) (addr : Word) : Except FaultInfo (Nat × Nat) :=
  let c := (s.part p).cfg
  if asid < c.asidFirst || asid > c.asidLast then .error (walkFault addr 3 0)
  else do
    let root ← s.tableRead addr (c.roots + 8 * (asid - c.asidFirst)) 8
    s.walkFrom addr (root / 65536 * 65536) 4

/-- A TLB entry translates an address for a partition's ASID (R126, R130). -/
def TlbEntry.hits (e : TlbEntry) (p asid va : Nat) : Bool :=
  e.part == p && (e.asid.toNat == asid || e.asid == 0) && e.vpage == va / 2 ^ pageBits e.level

/-- The entry of a page for a thread: its core's micro-TLB, its cluster's TLB, or a walk (R130). -/
def State.lookup (s : State) (t : Thr) (addr : Word) : Except FaultInfo (Nat × Nat) :=
  let hit (l : List TlbEntry) := l.find? fun e => TlbEntry.hits e t.part t.asid addr.toNat
  match hit (s.core t.core).utlb with
  | some e => .ok (e.pte.toNat, e.level)
  | none =>
    match hit (s.cluster t.cluster).tlb with
    | some e => .ok (e.pte.toNat, e.level)
    | none => s.walk t.part t.asid addr

/-- The package a tenant rank names, through the partition's rank table (R318); an access to `addr`, or a target, asks for it. -/
def State.rankPkg (s : State) (p : Nat) (addr : Word) (rank : Nat) : Except FaultInfo (Option Nat) := do
  let e ← s.tableRead addr ((s.part p).cfg.ranktab + 2 * (rank % 2048)) 2
  .ok (if e.testBit 15 && bits e 14 11 = 0 && e % 2048 < 1536 then some (e % 2048) else none)

/-- A physical address with its rank resolved (R319): remote memory is named by package number, and this package's own by bit [55] = 0. -/
def State.canonPa (s : State) (t : Thr) (addr : Word) (pa : Nat) : Except FaultInfo Nat :=
  if pa < 2 ^ 55 then .ok pa
  else do
    match ← s.rankPkg t.part addr (bits pa 50 40) with
    | none => .error (mkFault .translation 4 addr 0)
    | some pkg =>
      if bits pa 54 51 ≠ 0 || bits pa 39 0 ≥ hbmSize then .error (mkFault .permission 2 addr 0)
      else if pkg = s.pkgnum.toNat then .ok (bits pa 39 0)
      else .ok (2 ^ 55 + pkg * 2 ^ 40 + bits pa 39 0)

/-- Translates a global address (R127 to R130). -/
def State.translate (s : State) (t : Thr) (addr : Word) : Except FaultInfo Xlat :=
  match s.lookup t addr with
  | .error e => .error e
  | .ok (pte, level) =>
    match s.canonPa t addr (ptePa pte + addr.toNat % 2 ^ pageBits level) with
    | .error e => .error e
    | .ok pa => .ok { va := addr.toNat, pa := pa, tag := if pte.testBit 9 then 0 else t.asid, level := level, pte := pte }

/-- The entry of a page is kept in the core's micro-TLB and the cluster's TLB (R130); a full TLB drops its oldest entry (log 13). DESIGN CHOICE
(log 121): only fetches, loads, consuming loads, stores, accesses at the serialisation point and PREF keep it, once every check has passed. -/
def State.tlbFill (s : State) (t : Thr) (x : Xlat) : State :=
  let e : TlbEntry :=
    { part := t.part, asid := BitVec.ofNat 11 x.tag, level := x.level, vpage := x.va / 2 ^ pageBits x.level, pte := BitVec.ofNat 64 x.pte }
  let add (l : List TlbEntry) (n : Nat) : List TlbEntry := if l.any (fun f => TlbEntry.hits f t.part t.asid x.va) then l else (e :: l).take n
  let s := s.modCore t.core fun c => { c with utlb := add c.utlb 64 }
  s.modCluster t.cluster fun c => { c with tlb := add c.tlb 2048 }

/-- The layout of an address of `n` bytes (R119 to R122): the address itself lies in its buffer even where `n` is 0. -/
def localLayout (sp : Space) (addr : Word) (n : Nat) : Except FaultInfo Unit :=
  let a := addr.toNat
  let bad : Except FaultInfo Unit := .error (mkFault .translation 2 addr 0)
  let m := Nat.max n 1
  match sp with
  | .l =>
    if a ≥ 2 ^ 19 || a % 2 ^ 17 + m > bufSize (a / 2 ^ 17) then bad else .ok ()
  | .n =>
    if a ≥ 2 ^ 30 || a / 2 ^ 19 > 1151 || a % 2 ^ 17 + m > bufSize (bufOf a) then bad else .ok ()
  | .i =>
    if a ≥ 2 ^ 22 || a % 2 ^ 20 + m > 8 * bufSize (a / 2 ^ 20) then bad else .ok ()
  | .g => if a ≥ 2 ^ 56 || a + n > 2 ^ 56 then .error (mkFault .translation 3 addr 0) else .ok ()

/-- The core and local address of a byte of .L, .N or .I (R119 to R121). -/
def localPlace (t : Thr) (sp : Space) (a : Nat) : Nat × Nat :=
  match sp with
  | .n => (a / 2 ^ 19, a % 2 ^ 19)
  | .i =>
    let q := a % 2 ^ 20
    (coreOfIndex t.cluster (q / 8 % 8), a / 2 ^ 20 * 2 ^ 17 + q / 64 * 8 + q % 8)
  | _ => (t.core, a % 2 ^ 19)

/-- The next boundary a run of bytes may not cross: an 8-byte word under .I, a page under .G. -/
def runLength (sp : Space) (a n : Nat) : Nat :=
  match sp with
  | .i => Nat.min n (8 - a % 8)
  | .g => Nat.min n (65536 - a % 65536)
  | _ => n

/-- The ports of R118. -/
def portOk (buf : Nat) (k : AccKind) (vec : Bool) : Bool :=
  match k with
  | .atomic => buf == 0
  | .arm | .armH => buf != 2
  | .retire | .retireForce => true
  | .load | .consume | .fetch => buf == 0 || buf == 3 || vec
  | .store => buf == 0 || buf == 3 || (buf == 1 && vec)

/-- A partition's range of a buffer (R123). -/
def PartCfg.range (c : PartCfg) (buf : Nat) : Nat × Nat := c.ranges.getD buf (0, 0)

/-- A core that a partition's committed descriptor names, vacated since or not (R286). -/
def State.committedOn (s : State) (p c : Nat) : Bool := match (s.part p).last with | some l => l.cores.getLsbD c | none => false

/-- The range a partition is granted in a buffer of a core (R123, R310): none on a core outside its core set. A job keeps the ranges of
a core that was vacated (R286; log 27). -/
def State.rangeOn (s : State) (t : Thr) (job : Bool) (c buf : Nat) : Nat × Nat :=
  let k := s.part t.part
  if k.cfg.cores.getLsbD c || (job && s.committedOn t.part c) then k.cfg.range buf else (0, 0)

/-- The rights and range of a local run (R118, R123). -/
def State.localRights (s : State) (t : Thr) (k : AccKind) (vec : Bool) (addr : Word) (c la n : Nat) : Except FaultInfo Unit :=
  let r := s.rangeOn t false c (bufOf la)
  if !portOk (bufOf la) k vec then .error (mkFault .permission 2 addr 0)
  else if la % 2 ^ 17 < r.1 || la % 2 ^ 17 + n > r.2 then .error (mkFault .permission 3 addr 0)
  else .ok ()

def AccKind.writes : AccKind → Bool
  | .store | .atomic => true
  | _ => false

def AccKind.counted : AccKind → Bool
  | .consume | .arm | .armH => true
  | _ => false

/-- A missing right (R129, R281): RD 1, W 2, X 4, SUP 8, CNT 16. -/
def rightFault (addr : Word) (bit : Nat) : FaultInfo := mkFault .permission 1 addr bit

/-- The rights of a page (R129, R137). -/
def pageRights (t : Thr) (k : AccKind) (addr : Word) (x : Xlat) : Except FaultInfo Unit :=
  let needRd := k == .load || k == .consume || k == .retire || k == .retireForce
  let needW := k == .store || k == .atomic || k == .retireForce
  if needRd && !x.pte.testBit 2 then .error (rightFault addr 1)
  else if needW && !x.pte.testBit 3 then .error (rightFault addr 2)
  else if k == .fetch && !x.pte.testBit 4 then .error (rightFault addr 4)
  else if x.sup && t.priv = 0 then .error (rightFault addr 8)
  else if k.counted && !x.cnt then .error (rightFault addr 16)
  else if k == .arm && x.ord = 0 then .error (rightFault addr 16)
  else .ok ()

/-- A run of physical bytes reaches into a partition's task directory (R229). -/
def State.dirMeets (s : State) (pa n : Nat) : Bool :=
  (List.range 16).any fun p =>
    let c := (s.part p).cfg
    decide (pa < c.dirbase + 16 * c.dirsize) && decide (c.dirbase < pa + n) && decide (0 < c.dirsize)

/-- The rules of a physical region (R229, R298, R308, R322, R323). A region that no cache holds has no counted units: an ARM there fails as on an
SO page (R137), any other counted use at the port (log 83). A vector access is 64 bytes wide whatever its mask (R146), so a debug window refuses it. -/
def State.regionRights (s : State) (t : Thr) (k : AccKind) (vec : Bool) (addr : Word) (pa n : Nat) : Except FaultInfo Unit :=
  let port : Except FaultInfo Unit := .error (mkFault .permission 2 addr 0)
  let changes := k.writes || k.counted
  let uncounted : Except FaultInfo Unit := if k == .arm then .error (rightFault addr 16) else if k.counted then port else .ok ()
  match regionOf pa with
  | .hbm => if changes && s.dirMeets pa n then .error (mkFault .permission 5 addr 0) else .ok ()
  | .cfg => if t.priv < 2 then .error (rightFault addr 8) else uncounted
  | .dbg =>
    if t.priv = 0 || (t.priv < 2 && s.slotPart? ((pa - dbgBase) / 4096) != some t.part) then .error (mkFault .permission 3 addr 0)
    else if vec || n ≠ 8 || pa % 8 ≠ 0 then port else .ok ()
  | .launch => if t.priv < 2 then .error (rightFault addr 8) else uncounted
  | .bbox _ =>
    if changes then .error (rightFault addr 2)
    else if t.priv = 0 then .error (rightFault addr 8) else .ok ()
  | .host => if k == .atomic || k.counted then port else .ok ()
  | .remote => .ok ()
  | .none => port

/-- Where a run of bytes lies: translation (R144 step 3). Under .I every word is an access of its own (R121). -/
def State.placeRun (s : State) (t : Thr) (sp : Space) (addr : Word) (off n : Nat) : Except FaultInfo Piece :=
  match sp with
  | .g =>
    match s.translate t addr with
    | .error e => .error e
    | .ok x => .ok { off := off, n := n, addr := addr, place := .glob x }
  | _ =>
    let (c, la) := localPlace t sp addr.toNat
    .ok { off := off, n := n, addr := addr, place := .buf c la }

/-- An access in runs that lie at one place each; `fuel` bounds their number. -/
def State.placeRuns (s : State) (t : Thr) (sp : Space) (addr : Word) (off n : Nat) : Nat → Except FaultInfo (List Piece)
  | 0 => .ok []
  | fuel + 1 =>
    if n = 0 then .ok []
    else
      let r := runLength sp addr.toNat n
      match s.placeRun t sp addr off r with
      | .error e => .error e
      | .ok p =>
        match State.placeRuns s t sp (addr + BitVec.ofNat 64 r) (off + r) (n - r) fuel with
        | .error e => .error e
        | .ok ps => .ok (p :: ps)

/-- The rights and ports of a run (R144 step 4). A black box names W or SUP whatever its page says (R308). -/
def State.runRights (s : State) (t : Thr) (sp : Space) (k : AccKind) (vec : Bool) (p : Piece) : Except FaultInfo Unit :=
  match p.place with
  | .buf c la => s.localRights t k (vec && sp != .i) p.addr c la p.n
  | .glob x =>
    match regionOf x.pa with
    | .bbox _ =>
      match s.regionRights t k vec p.addr x.pa p.n with
      | .error e => .error e
      | .ok () => pageRights t k p.addr x
    | _ =>
      match pageRights t k p.addr x with
      | .error e => .error e
      | .ok () => s.regionRights t k vec p.addr x.pa p.n

/-- The rights of the runs of an access, in ascending order. -/
def State.allRights (s : State) (t : Thr) (sp : Space) (k : AccKind) (vec : Bool) : List Piece → Except FaultInfo Unit
  | [] => .ok ()
  | p :: r =>
    match s.runRights t sp k vec p with
    | .error e => .error e
    | .ok () => State.allRights s t sp k vec r

/-- Resolves an access: the translation of every run, then the rights and ports of every run (R144 steps 3 and 4). -/
def State.resolveRuns (s : State) (t : Thr) (sp : Space) (k : AccKind) (vec : Bool) (addr : Word) (off n fuel : Nat) :
    Except FaultInfo (List Piece) :=
  match s.placeRuns t sp addr off n fuel with
  | .error e => .error e
  | .ok ps =>
    match s.allRights t sp k vec ps with
    | .error e => .error e
    | .ok () => .ok ps

/-- The line of the cluster cache that a thread's access to a global run hits (R124, R126): its index. -/
def State.findLine (s : State) (cl p tag vline : Nat) : Option Nat :=
  (s.cluster cl).lines.findIdx? fun l => l.part == p && l.asid.toNat == tag && l.vline == vline

/-- The count of a line in a cluster cache, spilled or not (R131, R140). -/
def State.clusterCount (s : State) (t : Thr) (tag vline : Nat) : Nat :=
  match s.findLine t.cluster t.part tag vline with
  | some i => ((s.cluster t.cluster).lines[i]?.map s.lineCount).getD 0
  | none => 0

/-- The count of a line at its home slice, under a tag (R126, R131). -/
def State.homeCount (s : State) (tag pline : Nat) : Nat := (s.home.get? (homeKey tag pline) |>.map s.homeLineCount).getD 0

/-- A counted unit an access touches: a row of a core, or a line by its tag and its physical line. -/
inductive CUnit where
  | row (core row : Nat)
  | line (tag vline pline : Nat)
  deriving DecidableEq, Repr

/-- The counted units of a run, in ascending address order. -/
def Piece.units (p : Piece) : List CUnit :=
  match p.place with
  | .buf c la => (List.range (rowOf (la + p.n - 1) - rowOf la + 1)).map fun i => .row c (rowOf la + i)
  | .glob x => (List.range ((x.va + p.n - 1) / 128 - x.va / 128 + 1)).map fun i => .line x.tag (x.va / 128 + i) (x.pa / 128 + i)

/-- A run lies on an SO page, whose lines are looked for at the home level only (R137). -/
def Piece.so (p : Piece) : Bool :=
  match p.place with
  | .buf .. => false
  | .glob x => x.ord = 0

/-- The count of a unit as an access of a thread finds it (R142); on an SO page (`so`) the cluster cache is passed over (R137). -/
def State.countOf (s : State) (t : Thr) (so : Bool) : CUnit → Nat
  | .row c r => (s.core c).counts.getD r 0
  | .line tag v p =>
    let n := s.clusterCount t tag v
    if n ≠ 0 && !so then n else s.homeCount tag p

/-- The claims of running jobs on a row (R206). -/
def State.claimsOn (s : State) (c r : Nat) : Nat :=
  ((s.cluster (clusterOfCore c)).jobs.foldl (fun (n : Nat) (e : Nat × Job) =>
    n + (e.2.claims.filter fun k => k.core == c && k.row == r).length) 0)

/-- The consuming reads a unit still has to give: its count less the claims on it (R206). -/
def State.freeOf (s : State) (t : Thr) (so : Bool) (u : CUnit) : Nat :=
  match u with
  | .row c r => s.countOf t so u - s.claimsOn c r
  | .line .. => s.countOf t so u

/-- The address by which a packet names a unit (R135). -/
def CUnit.addr (sp : Space) : CUnit → Word
  | .row c r => BitVec.ofNat 64 (if sp == .l then rowAddr r else c * 2 ^ 19 + rowAddr r)
  | .line _ v _ => BitVec.ofNat 64 (v * 128)

/-- The ECC cause of a spill record (R140, R281), which may touch three lines. -/
def State.spillDamage (s : State) (p : Nat) (sp : Option Nat) : Option (BitVec 8) :=
  sp.bind fun i =>
    let a := spillAddr (s.part p).cfg i
    ((List.range 3).map (a / 128 + ·)).findSome? fun l => if l * 128 < a + 144 then s.lineDamage l else none

/-- The ECC cause of a line as an address space finds it at its home slice (R126, R281): counted there and spilled (R140), it lies in its record. -/
def State.homeDamage (s : State) (tag pline : Nat) : Option (BitVec 8) :=
  match s.home.get? (homeKey tag pline) with
  | some h => s.lineDamage pline <|> s.spillDamage h.part h.spill
  | none => s.lineDamage pline

/-- The ECC cause of the data that an access of a thread would consume, where ECC has given it up (R281). A plain read is served by the copy in
the thread's cluster cache, a consuming load by that only where it is counted, and an access at the home slice finds what the copy's dirty
bytes leave there (R152, R176). -/
def State.damage (s : State) (t : Thr) (k : AccKind) (so : Bool) (u : CUnit) : Option (BitVec 8) :=
  match u with
  | .row c r => if s.poison.contains (.row c r) then some 1 else none
  | .line tag v p =>
    let home := s.homeDamage tag p
    match (if so then none else (s.findLine t.cluster t.part tag v).bind fun i => (s.cluster t.cluster).lines[i]?) with
    | none => home
    | some l =>
      let own : Option (BitVec 8) := if l.bad then some 2 else s.spillDamage l.part l.spill
      match k with
      | .load | .fetch => own
      | .consume => if s.lineCount l ≠ 0 then own else home
      | _ => if l.bad && l.dirty ≠ 0 then some 2 else if l.dirty = BitVec.allOnes 128 then none else home

/-- The counts of a run (R144 step 5): a write of a counted unit (R136), a consuming read of too small a count (R135), and data that ECC
has given up (R281). -/
def State.checkCounts (s : State) (t : Thr) (sp : Space) (k : AccKind) (m : Nat) (p : Piece) : Except FaultInfo Unit :=
  let us := p.units
  let so := p.so
  if k.writes && us.any (fun u => decide (s.countOf t so u ≠ 0)) then .error (mkFault .permission 4 p.addr 0)
  else
    match (if k == .consume then us.find? fun u => decide (s.freeOf t so u < m || s.countOf t so u = 0) else none) with
    | some u => .error (mkFault .overRead 0 (u.addr sp) (s.countOf t so u))
    | none =>
      match (if k == .store then none else us.findSome? (s.damage t k so)) with
      | some c => .error (mkFault .ecc c.toNat p.addr 0)
      | none => .ok ()

def State.checkAllCounts (s : State) (t : Thr) (sp : Space) (k : AccKind) (m : Nat) : List Piece → Except FaultInfo Unit
  | [] => .ok ()
  | p :: r =>
    match s.checkCounts t sp k m p with
    | .error e => .error e
    | .ok () => State.checkAllCounts s t sp k m r

/-- The checks of one access in the order of R144: layout, alignment, translation, rights and ports, counts. -/
def State.check (s : State) (t : Thr) (sp : Space) (k : AccKind) (vec : Bool) (addr : Word) (n align m : Nat) :
    Except FaultInfo (List Piece) :=
  match localLayout sp addr n with
  | .error e => .error e
  | .ok () =>
    if addr.toNat % align ≠ 0 then .error (mkFault .misalign 0 addr 0)
    else
      match s.resolveRuns t sp k vec addr 0 n (n + 1) with
      | .error e => .error e
      | .ok ps =>
        match s.checkAllCounts t sp k m ps with
        | .error e => .error e
        | .ok () => .ok ps

/-- A line's dirty bytes go to its home slice (R152), for its address space (R126). -/
def State.sendDirty (s : State) (l : CLine) : State :=
  (List.range 128).foldl (fun s i =>
    if l.dirty.getLsbD i then s.spaceWrite l.asid.toNat (l.pline * 128 + i) 1 (l.data.extractLsb' (8 * i) 8).toNat else s) s

/-- Writes a line back. Damaged data leave the line damaged at home, and a wholly dirty line is written whole (R281). -/
def State.writeBackBytes (s : State) (l : CLine) : State :=
  let s := s.sendDirty l
  if l.bad then (if (s.lineDamage l.pline).isSome then s else { s with poison := s.poison ++ [.line l.pline false] })
  else if l.dirty = BitVec.allOnes 128 then { s with poison := mendLines s.poison (l.pline * 128) 128 }
  else s

/-- Writes back, and where `drop` drops, the lines of a cluster cache that `p` names; a counted line stays as it is (R162, R163). -/
def State.flush (s : State) (cl : Nat) (drop : Bool) (p : CLine → Bool) : State :=
  let ls := (s.cluster cl).lines
  let s := ls.foldl (fun s l => if p l && l.count = 0 && l.dirty ≠ 0 then s.writeBackBytes l else s) s
  s.modCluster cl fun c =>
    { c with
      lines := if drop then c.lines.filter (fun l => !(p l && l.count = 0))
        else c.lines.map (fun l => if p l && l.count = 0 then { l with dirty := 0 } else l) }

/-- The lines a release or an acquire of a thread covers (R162, R163). DESIGN CHOICE (log 122): lines of G pages that another partition holds are
not among them. -/
def coveredLine (t : Thr) (r : Reach) (l : CLine) : Bool :=
  l.part == t.part && (l.asid.toNat == t.asid || l.asid == 0) && (r == .fabric || decide (l.pline < 2 ^ 48))

/-- A release by a thread at an instance (R162). Earlier accesses have performed (log 12). -/
def State.release (s : State) (t : Thr) (r : Reach) : State :=
  if r = .inside then s else s.flush t.cluster false (coveredLine t r)

/-- An acquire by a thread at an instance (R163). -/
def State.acquire (s : State) (t : Thr) (r : Reach) : State :=
  if r = .inside then s else s.flush t.cluster true (coveredLine t r)

/-- A core set has a core in a cluster. -/
def PartCfg.inCluster (c : PartCfg) (cl : Nat) : Bool := (coresOfCluster cl).any c.cores.getLsbD

/-- The counted ways a partition has in a cluster cache (R139): none where its core set reaches the cluster no more (R315). -/
def State.ccwaysIn (s : State) (cl p : Nat) : Nat := if (s.part p).cfg.inCluster cl then (s.part p).cfg.ccways else 0

/-- The counted lines of a partition that stand in the counted ways of a set, of a cluster cache or of a home slice (R139). -/
def State.countedIn (s : State) (cl p set : Nat) : Nat :=
  ((s.cluster cl).lines.filter fun e => e.part == p && e.vline % 2048 == set && e.count ≠ 0 && e.spill.isNone).length
def sameHomeSet (key pline : Nat) : Bool :=
  let l := key / 2 ^ 11
  l % 2 ^ 14 == pline % 2 ^ 14 && l / 2 ^ 29 == pline / 2 ^ 29
def State.homeCountedIn (s : State) (p pline : Nat) : Nat :=
  (s.home.filter fun (e : Nat × HomeLine) => e.2.part == p && e.2.spill.isNone && sameHomeSet e.1 pline).length

/-- The spilled lines of a set that their records still count: they take up room as if they were not spilled (R140). -/
def State.spilledIn (s : State) (cl p set : Nat) : Nat :=
  ((s.cluster cl).lines.filter fun e => e.part == p && e.vline % 2048 == set && e.spill.isSome && s.lineCount e ≠ 0).length
def State.homeSpilledIn (s : State) (p pline : Nat) : Nat :=
  (s.home.filter fun (e : Nat × HomeLine) => e.2.part == p && e.2.spill.isSome && sameHomeSet e.1 pline && s.homeLineCount e.2 ≠ 0).length

/-- LEVEL of a tensor record (R213): a counted fill at the home level. -/
def trecLevel (r : BitVec 512) : Bool := r.getLsbD 77

/-- Lines of a partition that running counted fills have reserved ways for (R210): of one cluster, or at the home level. -/
def State.reserved (s : State) (p : Nat) (home : Option Nat) : List (Nat × Nat × Nat) :=
  let cls := match home with | some cl => [(cl, s.cluster cl)] | none => s.clusters
  cls.flatMap fun (e : Nat × Cluster) =>
    e.2.jobs.flatMap fun (j : Nat × Job) =>
      if j.2.part = p && j.2.state == .running && (trecLevel j.2.recB == home.isNone) then j.2.fill else []

/-- How many of a set's ways running fills have reserved (R210). -/
def State.reservedIn (s : State) (cl p set : Nat) : Nat :=
  ((s.reserved p (some cl)).filter fun (f : Nat × Nat × Nat) => f.2.1 % 2048 == set).length
def State.homeReservedIn (s : State) (p pline : Nat) : Nat :=
  ((s.reserved p none).filter fun (f : Nat × Nat × Nat) => sameHomeSet (homeKey 0 f.2.2) pline).length

/-- The ways a partition's uncounted lines have in a set of a cluster its core set reaches (R139, R315). DESIGN CHOICE (log 111): uncounted lines
may stand in counted ways that hold no counted line. -/
def State.waysLeft (s : State) (cl p set : Nat) : Nat :=
  if (s.part p).cfg.inCluster cl then (s.part p).cfg.cways - s.countedIn cl p set else 0

/-- The copies that stand in a partition's ways of a home slice's set (R126, R315). -/
def State.copiesIn (s : State) (p pline : Nat) : Table HomeCopy :=
  s.copies.filter fun (e : Nat × HomeCopy) => e.2.part == p && sameHomeSet e.1 pline

/-- The ways a partition has in a home slice's set for copies (R139, R315), as `State.waysLeft`. -/
def State.homeWaysLeft (s : State) (p pline : Nat) : Nat := (s.part p).cfg.hways - s.homeCountedIn p pline

/-- A partition's copies in a home slice's set give way until no more than `n` remain: a free choice of them leaves (R315, log 3). -/
def trimCopies (p pline n : Nat) : Nat → State → State
  | 0, s => s
  | fuel + 1, s =>
    let l := s.copiesIn p pline
    if l.length ≤ n then s
    else
      let r := s.choose l.length
      match l[r.1]? with
      | none => r.2
      | some e => trimCopies p pline n fuel { r.2 with copies := r.2.copies.erase e.1 }

/-- A set of a home slice after a partition's counted lines in it have become more (R139, R315). -/
def State.trimHome (s : State) (p pline : Nat) : State := trimCopies p pline (s.homeWaysLeft p pline) (s.copiesIn p pline).length s

/-- A cluster-cache set gives way for one more line of a partition: a free choice of its uncounted lines is evicted (R124, log 3). -/
def State.evictFor (s : State) (cl p set : Nat) : State :=
  let inSet (l : CLine) : Bool := l.part == p && l.vline % 2048 == set && l.count = 0
  let ls := (s.cluster cl).lines.filter inSet
  if ls.length < s.waysLeft cl p set then s
  else
    let (i, s) := s.choose ls.length
    match ls[i]? with
    | none => s
    | some v => s.flush cl true fun l => l.part == v.part && l.asid == v.asid && l.vline == v.vline

/-- While a set holds more of a partition's uncounted lines than it has ways for, a free choice of them is evicted (R139, R315). -/
def trimSet (cl p set : Nat) : Nat → State → State
  | 0, s => s
  | fuel + 1, s =>
    let n := ((s.cluster cl).lines.filter fun l => l.part == p && l.vline % 2048 == set && l.count = 0).length
    if n ≤ s.waysLeft cl p set then s else trimSet cl p set fuel (s.evictFor cl p set)

/-- A global run is cached in a cluster cache: an RC or UN page of memory, and a partition with ways (R123, R156, R308, R322). DESIGN CHOICE
(log 112): an access that finds no way left for its line performs at the home slice (R145, R152). -/
def State.cacheable (s : State) (t : Thr) (x : Xlat) : Bool :=
  x.ord ≠ 0 && (regionOf x.pa == .hbm || regionOf x.pa == .remote) && decide (0 < s.waysLeft t.cluster t.part (x.va / 128 % 2048))

/-- The line a run lies in is brought into the issuing cluster's cache (R145). -/
def State.fillLine (s : State) (t : Thr) (tag vline pline : Nat) : State :=
  match s.findLine t.cluster t.part tag vline with
  | some _ => s
  | none =>
    let s := s.evictFor t.cluster t.part (vline % 2048)
    let l : CLine :=
      { part := t.part, asid := BitVec.ofNat 11 tag, vline := vline, pline := pline, data := BitVec.ofNat 1024 (s.spaceRead tag (pline * 128) 128)
        dirty := 0, count := 0, filled := s.cycle, bad := (s.lineDamage pline).isSome, spill := none }
    s.modCluster t.cluster fun c => { c with lines := c.lines ++ [l] }

/-- `n` bytes of a line from `off` on, in place or in its spill record, as a little-endian number. -/
def State.lineRead (s : State) (l : CLine) (off : Nat) : Nat → Nat
  | 0 => 0
  | n + 1 => (s.lineByte l off).toNat + 256 * State.lineRead s l (off + 1) n

/-- Bytes of a line of the issuing cluster's cache. -/
def State.lineBytes (s : State) (t : Thr) (tag vline off n : Nat) : Nat :=
  match s.findLine t.cluster t.part tag vline with
  | some i => ((s.cluster t.cluster).lines[i]?.map fun l => s.lineRead l off n).getD 0
  | none => 0

/-- Stores bytes into a line of the issuing cluster's cache, marking them dirty (R152). -/
def State.lineStore (s : State) (t : Thr) (tag vline off n v : Nat) : State :=
  s.modCluster t.cluster fun c =>
    { c with
      lines := c.lines.map fun l =>
        if l.part == t.part && l.asid.toNat == tag && l.vline == vline then
          { l with data := setBits l.data (8 * off) (8 * n) v, dirty := setBits l.dirty off n (2 ^ n - 1), bad := l.bad && n != 128 }
        else l }

/-- A spill record's bits (R140). -/
def spillNat (data : BitVec 1024) (asid count line : Nat) (home : Bool) : Nat :=
  data.toNat * 2 ^ 128 + asid * 2 ^ 106 + count * 2 ^ 98 + (if home then 2 ^ 97 else 0) + 2 ^ 96 + line * 128

/-- A spill record is released: its VALID falls (R140). -/
def State.dropSpill (s : State) (p : Nat) (sp : Option Nat) : State :=
  match sp with
  | none => s
  | some i => let a := spillAddr (s.part p).cfg i; s.homeWriteByte (a + 12) (s.homeByte (a + 12) &&& 0xFE)

/-- A spilled line's record takes its new count (R140). -/
def State.recount (s : State) (p : Nat) (sp : Option Nat) (count : Nat) : State :=
  match sp with
  | none => s
  | some i =>
    let a := spillAddr (s.part p).cfg i + 12
    let w := s.homeRead a 2
    s.homeWrite a 2 (w - w / 4 % 256 * 4 + count * 4)

/-- Spill records of a partition in use. -/
def State.spillUsed (s : State) (p : Nat) : List Nat :=
  (s.clusters.flatMap fun (e : Nat × Cluster) => e.2.lines.filterMap fun l => if l.part = p then l.spill else none) ++
    s.home.filterMap fun (e : Nat × HomeLine) => if e.2.part = p then e.2.spill else none

/-- The lowest free spill record (R140). Spilled lines count against the counted ways (`State.spilledIn`), so the area has one. -/
def State.spillFree (s : State) (p : Nat) : Nat :=
  let used := s.spillUsed p
  ((List.range (used.length + 1)).find? fun i => !used.contains i).getD used.length

/-- Spills the counted lines of a partition in a cluster cache (R140). -/
def State.spillCluster (s : State) (cl p : Nat) (sel : CLine → Bool) : State :=
  ((s.cluster cl).lines.filter fun l => l.part == p && l.count ≠ 0 && l.spill.isNone && sel l).foldl (fun (s : State) (l : CLine) =>
    let i := s.spillFree p
    let s := s.homeStore (spillAddr (s.part p).cfg i) 144 (spillNat l.data l.asid.toNat l.count l.vline false)
    s.modCluster cl fun c =>
      { c with lines := c.lines.map fun x => if x.part == p && x.asid == l.asid && x.vline == l.vline then { x with spill := some i } else x }) s

/-- Spills lines a partition has counted at home slices (R140). -/
def State.spillHome (s : State) (p : Nat) (sel : Nat → HomeLine → Bool) : State :=
  (s.home.filter fun (e : Nat × HomeLine) => e.2.part == p && e.2.spill.isNone && sel e.1 e.2).foldl
    (fun (s : State) (e : Nat × HomeLine) =>
      let i := s.spillFree p
      let s := s.homeStore (spillAddr (s.part p).cfg i) 144 (spillNat e.2.data e.2.asid.toNat e.2.count (e.1 / 2 ^ 11) true)
      { s with home := s.home.set e.1 { e.2 with spill := some i } }) s

/-- The next access to a line that is spilled from the cluster's cache (R140): with the record's data and count it returns to the counted
ways of its set where they have room that no running fill has reserved (R210), and stays in its record where not; a record that no longer counts
it leaves it uncounted. -/
def State.fetchBackLine (s : State) (t : Thr) (tag v : Nat) : State :=
  let mine (l : CLine) : Bool := l.part == t.part && l.asid.toNat == tag && l.vline == v
  match (s.cluster t.cluster).lines.find? mine with
  | some l =>
    if l.spill.isNone then s
    else if s.lineCount l = 0 then s.modCluster t.cluster fun c => { c with lines := c.lines.filter fun e => !mine e }
    else if s.countedIn t.cluster t.part (v % 2048) + s.reservedIn t.cluster t.part (v % 2048) < s.ccwaysIn t.cluster t.part then
      trimSet t.cluster t.part (v % 2048) 12 ((s.modCluster t.cluster fun c =>
        { c with
          lines := c.lines.map fun e =>
            if mine e then { e with data := BitVec.ofNat 1024 (s.lineRead e 0 128), count := s.lineCount e, spill := none } else e }).dropSpill t.part l.spill)
    else s
  | none => s

/-- The next access to a line that is spilled from its home slice (R140), as `State.fetchBackLine`. -/
def State.fetchBackHome (s : State) (tag p : Nat) : State :=
  match s.home.get? (homeKey tag p) with
  | some h =>
    if h.spill.isNone then s
    else if s.homeLineCount h = 0 then { s with home := s.home.erase (homeKey tag p) }
    else if s.homeCountedIn h.part p + s.homeReservedIn h.part p < (s.part h.part).cfg.hcways then
      State.trimHome (State.dropSpill
        { s with home := s.home.set (homeKey tag p)
                   { h with data := BitVec.ofNat 1024 (s.spaceRead tag (p * 128) 128), count := s.homeLineCount h, spill := none } } h.part h.spill) h.part p
    else s
  | none => s

/-- The next access of any kind to a spilled unit (R140). -/
def State.fetchBack (s : State) (t : Thr) : CUnit → State
  | .row .. => s
  | .line tag v p => (s.fetchBackLine t tag v).fetchBackHome tag p

/-- The parts of a global run by line: line offset from the first, offset in the line, length, offset in the run. -/
def lineParts (va n : Nat) : List (Nat × Nat × Nat × Nat) :=
  (List.range ((va + n - 1) / 128 - va / 128 + 1)).map fun i =>
    let first := if i = 0 then va % 128 else 0
    let start := if i = 0 then 0 else 128 * i - va % 128
    (i, first, Nat.min (128 - first) (n - start), start)

/-- The next access of any kind to the lines of a run that are spilled from their home slices (R140). -/
def State.fetchBackHomes (s : State) (x : Xlat) (n : Nat) : State :=
  (lineParts x.va n).foldl (fun s e => s.fetchBackHome x.tag (x.pa / 128 + e.1)) s

/-- A plain load of a global run: from the cluster cache, from the home slice, or from a device region (R152, R156). -/
def State.loadGlob (s : State) (t : Thr) (x : Xlat) (n : Nat) : State × Nat :=
  let s := s.tlbFill t x
  if (regionOf x.pa).isDevice then (s.devMisuse x.pa n, s.devRead x.pa n)
  else if regionOf x.pa == .host || x.ord = 0 then
    let s := s.fetchBackHomes x n
    (s, s.spaceRead x.tag x.pa n)
  else
    (lineParts x.va n).foldl
      (fun (a : State × Nat) (i, off, k, start) =>
        let v := x.va / 128 + i
        let p := x.pa / 128 + i
        let a := (a.1.fetchBack t (.line x.tag v p), a.2)
        let present := (a.1.findLine t.cluster t.part x.tag v).isSome
        if present || a.1.cacheable t { x with va := v * 128 } then
          let s := a.1.fillLine t x.tag v p
          (s, a.2 + s.lineBytes t x.tag v off k * 256 ^ start)
        else (a.1, a.2 + a.1.spaceRead x.tag (p * 128 + off) k * 256 ^ start))
      (s, 0)

/-- A plain store of a global run (R152). -/
def State.storeGlob (s : State) (t : Thr) (x : Xlat) (n v : Nat) : State :=
  let s := s.tlbFill t x
  if (regionOf x.pa).isDevice then s.devWrite x.pa n v
  else if regionOf x.pa == .host || x.ord = 0 then (s.fetchBackHomes x n).spaceWrite x.tag x.pa n v
  else
    (lineParts x.va n).foldl
      (fun (s : State) (i, off, k, start) =>
        let l := x.va / 128 + i
        let p := x.pa / 128 + i
        let w := v / 256 ^ start % 256 ^ k
        let s := s.fetchBack t (.line x.tag l p)
        let present := (s.findLine t.cluster t.part x.tag l).isSome
        if present || s.cacheable t { x with va := l * 128 } then (s.fillLine t x.tag l p).lineStore t x.tag l off k w
        else s.spaceWrite x.tag (p * 128 + off) k w)
      s

/-- A core's colour for a partition (R289). -/
def State.colourOf (s : State) (p c : Nat) : Bool := (s.core c).colour.contains p

/-- The colour of a partition that is being cut on a core (R289, R290): a core of an open cut has flipped away from it. -/
def State.cutColour (s : State) (p c : Nat) : Bool :=
  s.colourOf p c != (match (s.part p).cut with | some k => k.cores.contains c | none => false)

/-- A core sends a message, which carries its colour (R289). -/
def State.noteSent (s : State) (p src : Nat) : State :=
  if s.colourOf p src = s.cutColour p src then s.modCore src fun c => { c with sent := c.sent.set p (c.sent.getD p 0 + 1) } else s

/-- A core performs a message of a colour (R289). -/
def State.notePerformed (s : State) (p dst : Nat) (colour : Bool) : State :=
  if colour = s.cutColour p dst then s.modCore dst fun c => { c with recv := c.recv.set p (c.recv.getD p 0 + 1) } else s

/-- A message is sent and performed (R289). -/
def State.noteMessage (s : State) (p src dst : Nat) : State := (s.noteSent p src).notePerformed p dst (s.colourOf p src)

/-- A request or a move counts where it goes from one core to another (R289). -/
def State.noteRequest (s : State) (p src dst : Nat) : State := if src = dst then s else s.noteMessage p src dst

/-- The requests that the runs of an access are to other cores count (R289). -/
def State.noteRuns (s : State) (t : Thr) (ps : List Piece) : State :=
  ps.foldl (fun s p => match p.place with | .buf c _ => s.noteRequest t.part t.core c | .glob _ => s) s

/-- Loads one run. -/
def State.loadPiece (s : State) (t : Thr) (p : Piece) : State × Nat :=
  match p.place with
  | .buf c la => let s := s.noteRequest t.part t.core c; (s, s.bufRead c la p.n)
  | .glob x => s.loadGlob t x p.n

/-- Stores one run. -/
def State.storePiece (s : State) (t : Thr) (p : Piece) (v : Nat) : State :=
  match p.place with
  | .buf c la => (s.noteRequest t.part t.core c).bufWrite c la p.n v
  | .glob x => s.storeGlob t x p.n v

/-- Loads the runs of an access as one number. -/
def State.loadPieces (s : State) (t : Thr) (ps : List Piece) : State × Nat :=
  ps.foldl (fun a p => let r := a.1.loadPiece t p; (r.1, a.2 + r.2 * 256 ^ p.off)) (s, 0)

/-- Stores a number to the runs of an access. -/
def State.storePieces (s : State) (t : Thr) (ps : List Piece) (v : Nat) : State :=
  ps.foldl (fun s p => s.storePiece t p (v / 256 ^ p.off % 256 ^ p.n)) s

/-- Before an access at the serialisation point, the issuing cluster's copy of each line is written back and invalidated (R176). -/
def State.flushCopies (s : State) (t : Thr) (ps : List Piece) : State :=
  ps.foldl (fun s p =>
    match p.place with
    | .buf .. => s
    | .glob x =>
      (s.tlbFill t x).flush t.cluster true fun l =>
        l.part == t.part && l.asid.toNat == x.tag && decide (x.va / 128 ≤ l.vline) && decide (l.vline ≤ (x.va + p.n - 1) / 128)) s

/-- Reads a run at its serialisation point (R168, R176). -/
def State.pointRead (s : State) (p : Piece) : Nat :=
  match p.place with
  | .buf c la => s.bufRead c la p.n
  | .glob x => if (regionOf x.pa).isDevice then s.devRead x.pa p.n else s.spaceRead x.tag x.pa p.n

/-- Writes a run at its serialisation point (R168, R176). -/
def State.pointWrite (s : State) (p : Piece) (v : Nat) : State :=
  match p.place with
  | .buf c la => s.bufWrite c la p.n v
  | .glob x => if (regionOf x.pa).isDevice then s.devWrite x.pa p.n v else s.spaceWrite x.tag x.pa p.n v

/-- The runs of an access read at their serialisation points, after the cluster's copies are handled. -/
def State.readPoints (s : State) (ps : List Piece) : Nat := ps.foldl (fun a p => a + s.pointRead p * 256 ^ p.off) 0
/-- The runs of an access written at their serialisation points. -/
def State.writePoints (s : State) (ps : List Piece) (v : Nat) : State :=
  ps.foldl (fun s p => s.pointWrite p (v / 256 ^ p.off % 256 ^ p.n)) s

/-- The next access of any kind to what runs touch at home slices (R140). -/
def State.fetchBackRuns (s : State) (ps : List Piece) : State :=
  ps.foldl (fun s p => match p.place with | .buf .. => s | .glob x => s.fetchBackHomes x p.n) s

/-- An access at a serialisation point prepares: copies are handled, and a request to another core is counted (R176, R289). -/
def State.atPoint (s : State) (t : Thr) (ps : List Piece) : State :=
  let s := (s.flushCopies t ps).noteRuns t ps
  s.fetchBackRuns ps

/-- The word of a location, by which waiters and reservations name it (R168): the address of the 8 bytes that hold a run's first byte. -/
def Piece.loc8 (p : Piece) : Loc :=
  match p.place with
  | .buf c la => .buf c (la / 8 * 8)
  | .glob x => .phys (x.pa / 8 * 8)

/-- A run's own address as a location. -/
def Piece.loc (p : Piece) : Loc :=
  match p.place with
  | .buf c la => .buf c la
  | .glob x => .phys x.pa

def firstLoc (ps : List Piece) : Loc :=
  match ps with
  | p :: _ => p.loc
  | [] => .phys 0

/-- The tag under which an access finds its first byte at a home slice (R126). -/
def firstTag (ps : List Piece) : Nat :=
  match ps with
  | { place := .glob x, .. } :: _ => x.tag
  | _ => 0

/-- `n` bytes at a location's serialisation point, as an address space finds them (R126). -/
def State.locRead (s : State) (l : Loc) (tag n : Nat) : Nat :=
  match l with
  | .buf c la => s.bufRead c la n
  | .phys pa => if (regionOf pa).isDevice then s.devRead pa n else s.spaceRead tag pa n

/-- A place `k` bytes further on. -/
def Place.plus (p : Place) (k : Nat) : Place :=
  match p with
  | .buf c la => .buf c (la + k)
  | .glob x => .glob { x with va := x.va + k, pa := x.pa + k }

/-- Bytes `lo` to `lo + n − 1` of an access, as an access of their own. -/
def subRuns (lo n : Nat) (ps : List Piece) : List Piece :=
  ps.filterMap fun p =>
    let a := Nat.max p.off lo
    let b := Nat.min (p.off + p.n) (lo + n)
    if a < b then some { off := a - lo, n := b - a, addr := p.addr + BitVec.ofNat 64 (a - p.off), place := p.place.plus (a - p.off) } else none

/-- What a read at the serialisation point consumes is not damaged (R281). -/
def State.undamaged (s : State) (t : Thr) (ps : List Piece) : Except FaultInfo Unit :=
  match ps.findSome? fun p => (p.units.findSome? (s.damage t .atomic p.so)).map fun c => mkFault .ecc c.toNat p.addr 0 with
  | some fi => .error fi
  | none => .ok ()

/-- A line counted in the issuing cluster's cache gives `m` reads; at zero it is shed (R133, R134). -/
def State.decrementLine (s : State) (t : Thr) (m tag v : Nat) : State :=
  let n := s.clusterCount t tag v - m
  let hit (l : CLine) : Bool := l.part == t.part && l.asid.toNat == tag && l.vline == v
  let sp := ((s.cluster t.cluster).lines.find? hit).bind CLine.spill
  if n = 0 then (s.modCluster t.cluster fun c => { c with lines := c.lines.filter fun l => !hit l }).dropSpill t.part sp
  else
    (s.modCluster t.cluster fun c => { c with lines := c.lines.map fun l => if hit l then { l with count := n } else l }).recount t.part sp n

/-- A line counted at its home slice gives `m` reads; at zero it is shed (R133, R134). -/
def State.decrementHome (s : State) (m tag p : Nat) : State :=
  match s.home.get? (homeKey tag p) with
  | none => s
  | some h =>
    let n := s.homeLineCount h - m
    if n = 0 then ({ s with home := s.home.erase (homeKey tag p) }).dropSpill h.part h.spill
    else ({ s with home := s.home.set (homeKey tag p) { h with count := n } }).recount h.part h.spill n

/-- A unit's count falls by `m` where an access finds it counted (R137, R142); at zero the unit is shed (R133, R134): a row reads as zero, a
line is invalidated without write-back. -/
def State.decrement (s : State) (t : Thr) (m : Nat) (so : Bool) : CUnit → State
  | .row c r =>
    let n := (s.core c).counts.getD r 0 - m
    if n = 0 then
      (s.modCore c fun k => { k with counts := k.counts.erase r }).bufWrite c (rowAddr r)
        (Nat.min (rowBytes (r / 4096)) (bufSize (r / 4096) - r % 4096 * rowBytes (r / 4096))) 0
    else s.modCore c fun k => { k with counts := k.counts.set r n }
  | .line tag v p => if s.clusterCount t tag v ≠ 0 && !so then s.decrementLine t m tag v else s.decrementHome m tag p

/-- The data a consuming load receives: that of the place where it finds the line counted (R137, R142). -/
def State.consumePiece (s : State) (t : Thr) (p : Piece) : Nat :=
  match p.place with
  | .buf c la => s.bufRead c la p.n
  | .glob x =>
    (lineParts x.va p.n).foldl
      (fun a (i, off, k, start) =>
        let v := x.va / 128 + i
        a + (if s.clusterCount t x.tag v ≠ 0 && x.ord ≠ 0 then s.lineBytes t x.tag v off k
          else s.spaceRead x.tag ((x.pa / 128 + i) * 128 + off) k) * 256 ^ start)
      0

/-- The translations of an access's runs enter the TLBs. -/
def State.tlbRuns (s : State) (t : Thr) (ps : List Piece) : State :=
  ps.foldl (fun s p => match p.place with | .buf .. => s | .glob x => s.tlbFill t x) s

/-- A consuming load of checked runs at multiplicity `m` (R133, R134): the data, and each unit's count lower by `m`. -/
def State.consumePieces (s : State) (t : Thr) (ps : List Piece) (m : Nat) : State × Nat :=
  let us := (ps.flatMap fun p => p.units.map fun u => (p.so, u)).eraseDups
  let s := us.foldl (fun s u => s.fetchBack t u.2) s
  let v := ps.foldl (fun a p => a + s.consumePiece t p * 256 ^ p.off) 0
  let s := (s.noteRuns t ps).tlbRuns t ps
  (us.foldl (fun s u => s.decrement t m u.1 u.2) s, v)

/-- A save frame's address checked for a context's store or load (R241): translation and rights of its 2,432 bytes. -/
def State.checkFrame (s : State) (t : Thr) (k : AccKind) (addr : Word) : Except FaultInfo (List Piece) :=
  s.check t .g k false addr frameBytes 1 0

end Sys2Proof.Machine
end

