-- ==== Sys2Proof/Machine/Ops.lean ====
section
/-! DEFINITION. The shared operations of stopping and going on: how a meaning ends, the fault packet (R280), its delivery to a fault
inbox (R282, R303), taking a fault (R278, R279, R295) and the return from one (R283, R299), reservations (R182, R183), the wake
conditions of sleepers (R36) and the black box (R328). -/

namespace Sys2Proof.Machine

/-- The outcome of a meaning. -/
abbrev Res := Host.Outcome State Fault Refusal

/-- Which slots exist (R18). -/
def slotCount : Nat := 18432

/-- A packet's bits (R280). `levels` is the stopped slot's chain, top first. -/
def packetNat (fi : FaultInfo) (master source : Nat) (task : TaskId) (pc : Word) (aux : Nat) (levels : List Level) : Nat :=
  let below := levels.drop 1
  let shown := below.take 7
  let chain := shown.foldr (fun l n => l.task.toNat + 2 ^ 32 * n) 0
  let inl := shown.foldr (fun l n => (if l.inline then 1 else 0) + 2 * n) 0
  fi.cls.code.toNat + fi.cause.toNat * 2 ^ 8 + master * 2 ^ 16 + (if topInline levels then 2 ^ 19 else 0) + shown.length * 2 ^ 21 +
    inl * 2 ^ 24 + (if below.length > 7 then 2 ^ 31 else 0) + task.toNat * 2 ^ 32 + source * 2 ^ 64 + aux * 2 ^ 96 +
    pc.toNat * 2 ^ 128 + fi.addr.toNat * 2 ^ 192 + fi.info.toNat * 2 ^ 256 + chain * 2 ^ 288

/-- TAIL of a partition's fault inbox (R303). -/
def State.inboxTail (s : State) (p : Nat) : Nat := (s.part p).tail.toNat
/-- HEAD of a partition's fault inbox, a HEAD above TAIL being read as TAIL (R303). -/
def State.inboxHead (s : State) (p : Nat) : Nat := Nat.min (s.homeRead (s.part p).cfg.finbox 8) (s.inboxTail p)
def State.inboxFull (s : State) (p : Nat) : Bool := decide (s.inboxTail p - s.inboxHead p ≥ 64)

/-- A packet enters the inbox: its slot is written, then TAIL rises (R303). -/
def State.enterInbox (s : State) (p : Nat) (pkt : BitVec 512) : State :=
  (s.homeWrite ((s.part p).cfg.finbox + 64 + 64 * (s.inboxTail p % 64)) 64 pkt.toNat).modPart p fun k =>
    { k with packets := k.packets.set (k.tail.toNat % 64) pkt, tail := k.tail + 1 }

/-- The packet a master's holder keeps (R282). -/
def State.setHolder (s : State) (m : Master) (pkt : Option (BitVec 512)) : State :=
  match m with
  | .slot n p =>
    s.modSlot n fun v =>
      if s.slotPart? n = some p then { v with packet := pkt }
      else match v.away.get? p with
        | some w => { v with away := v.away.set p { w with packet := pkt } }
        | none => v
  | .job c e =>
    s.modCluster c fun k =>
      match k.jobs.get? e with
      | some j => { k with jobs := k.jobs.set e { j with packet := pkt } }
      | none => k
  | .hostFn f => s.modHostFn f fun h => { h with packet := pkt }
  | .link l => s.modLink l fun h => { h with packet := pkt }

/-- The packet a master's holder holds. -/
def State.holder? (s : State) (m : Master) : Option (BitVec 512) :=
  match m with
  | .slot n p => if s.slotPart? n = some p then (s.slot n).packet else ((s.slot n).away.get? p).bind Away.packet
  | .job c e => ((s.cluster c).jobs.get? e).bind Job.packet
  | .hostFn f => (s.hostFn f).packet
  | .link l => (s.link l).packet

/-- A packet as it waits in a holder: with PEND set (R280, R282). -/
def pendPacket (pkt : BitVec 512) : BitVec 512 := pkt ||| BitVec.ofNat 512 (2 ^ 20)

/-- Delivers a packet of partition `p`'s masters (R282): into the inbox, or with PEND into the master's holder, where it waits in its turn. -/
def State.sendPacket (s : State) (m : Master) (p : Nat) (pkt : BitVec 512) : State :=
  if (s.part p).waiting.isEmpty && !s.inboxFull p then s.enterInbox p pkt
  else (s.setHolder m (some (pendPacket pkt))).modPart p fun k => { k with waiting := k.waiting ++ [(m, pkt)] }

/-- A waiting packet is withdrawn from its holder (R283). -/
def State.withdraw (s : State) (m : Master) : State :=
  let s := s.setHolder m none
  (List.range 16).foldl (fun s p => s.modPart p fun k => { k with waiting := k.waiting.filter fun e => e.1 != m }) s

/-- The black-box record of a packet (R282, R328). -/
def State.boxPacket (s : State) (die part : Nat) (fi : FaultInfo) (source : Nat) (task : TaskId) : State :=
  s.boxAdd die 1 (fi.cls.code.toNat + 256 * fi.cause.toNat) (source + 2 ^ 32 * task.toNat) fi.addr.toNat part

/-- The reservation of a word (R182). -/
def State.resvAt (s : State) (l : Loc) : Option Resv := s.resv.find? fun r => r.loc == l

/-- A task leaves a reservation queue; when it heads it, the reservation passes to the next (R183). -/
def Resv.leave (r : Resv) (t : TaskId) : Option Resv :=
  let q := r.queue.filter (· != t)
  if q.isEmpty then none
  else if r.queue.head? == some t then some { r with queue := q, granted := false, broken := false }
  else some { r with queue := q }

/-- A task passes on whatever reservation it holds or waits for (R182, R183). -/
def State.passResv (s : State) (t : TaskId) : State := { s with resv := s.resv.filterMap fun r => r.leave t }

/-- A task holds a reservation (R182). -/
def State.holdsResv (s : State) (t : TaskId) : Bool := s.resv.any fun r => r.queue.head? == some t && r.granted

/-- What a stop makes of a continuation: a wait that has acted for good keeps its record, any other executes as new (R279). -/
def Cont.keep : Cont → Cont
  | .timed _ | .jobEntry | .stest => .none
  | c => c

/-- The stopped slot's hold on a meet (R275). -/
def Run.meetHold (r : Run) : MeetHold :=
  match r with
  | .sleeping (.meet cl) => .parked cl
  | .sleeping .released => .passed
  | .frozen _ h => h
  | _ => .none

/-- A partition's partner that sleeps in a forming gang withdraws from it (R220). -/
def State.leaveGang (s : State) (n cl p : Nat) : State :=
  s.modCluster cl fun c =>
    { c with gangs := c.gangs.map fun g => if g.part = p then { g with joined := g.joined.filter fun j => j.2.1 != n } else g }

/-- A stop takes a sleeping thread of partition `p` in slot `n` out of the queues its wait stands in: the waiting instruction is left as if it
had not issued (R279). -/
def State.leaveWaitsOf (s : State) (n p : Nat) (t : TaskId) (run : Run) (cont : Cont) : State :=
  match run with
  | .sleeping (.reserve l) =>
    { s with resv := s.resv.filterMap fun r => if r.loc == l && !(r.granted && r.queue.head? == some t) then r.leave t else some r }
  | .sleeping (.lock l _ _) => { s with lockQ := s.lockQ.filter fun e => !(e.loc == l && e.task == t && !e.given) }
  | .sleeping (.queueEmpty pa _) => { s with queueQ := s.queueQ.filter fun e => e != (pa, t) }
  | .sleeping (.gang cl _) =>
    match cont with
    | .gangJob _ => s
    | _ => s.leaveGang n cl p
  | _ => s

/-- A stop takes a slot out of the queues its wait stands in (R279). -/
def State.leaveWaits (s : State) (n : Nat) : State :=
  let v := s.slot n
  s.leaveWaitsOf n (s.thr n).part v.ctx.task v.run v.cont

/-- Stops a slot precisely (R279): its requested results have returned, its wait is undone, and the stop is a release at package (R295). -/
def State.stopSlot (s : State) (n : Nat) (k : FreezeKind) : State :=
  let s := s.leaveWaits n
  let s := s.modSlot n fun v =>
    let v := v.deliverAll
    { v with run := .frozen k v.run.meetHold, stepArmed := false, cont := v.cont.keep }
  s.release (s.thr n) .package

/-- Takes a fault (R278 to R282, R295): the slot stops with `pc` as its resume address, and one packet goes to the supervisor of its
partition, or of partition 0 for a supervisor slot; a fault of partition 0's supervisor slot raises the management port instead. -/
def State.takeFaultAt (s : State) (n : Nat) (pc : Word) (fi : FaultInfo) : State :=
  let t := s.thr n
  let s := s.stopSlot n .fault
  let s := s.modSlot n fun v => v.modCtx fun c => { c with pc := pc }
  let v := s.slot n
  let pkt := BitVec.ofNat 512 (packetNat fi 0 n v.ctx.task pc 0 v.levels)
  let s := s.boxPacket (dieOfCore t.core) t.part fi n v.ctx.task
  if (s.part t.part).cfg.supSlot = n then
    if t.part = 0 then { s with mgmtAlarm := true } else s.sendPacket (.slot n t.part) 0 pkt
  else s.sendPacket (.slot n t.part) t.part pkt

/-- Takes a fault whose stopping instruction executes again on resume (R279). -/
def State.takeFault (s : State) (n : Nat) (fi : FaultInfo) : State := s.takeFaultAt n (s.slot n).ctx.pc fi

/-- A meaning ends: with its next state, or with the fault of the first check that failed (R279). -/
def State.finish (s : State) (r : Except FaultInfo State) : Res :=
  match r with
  | .ok t => .next t
  | .error fi => .next (s.takeFault s.cur fi)

/-- The slot sleeps on its instruction (R19). -/
def State.sleepOn (s : State) (w : Wait) : State :=
  s.modSlot s.cur fun v => { v with run := .sleeping w, waitFrom := s.cycle }

/-- The slot stays on its instruction (R33, R191, R237). -/
def State.stallOn (s : State) (k : Stall) : State :=
  s.modSlot s.cur fun v =>
    { v with run := .stalled k, waitFrom := match v.run with | .stalled _ => v.waitFrom | _ => s.cycle }

/-- The slot of a chain's top task, a sleeper or a runner. -/
def State.slotOfTop (s : State) (t : TaskId) : Option Nat :=
  (s.slots.find? fun e => match e.2.levels with | l :: _ => l.task == t | [] => false).map Prod.fst

/-- After an instruction of a stepped slot has completed, the slot freezes with STEP (R284), also where it has left the slot without a
thread. `addr` is the instruction's address. -/
def State.afterStep (s : State) (n : Nat) (addr : Word) : State :=
  let v := s.slot n
  if !v.stepArmed then s
  else
    match v.run with
    | .ready | .parked | .idle => s.takeFault n (mkFault .step 0 addr 0)
    | .frozen .. => s.modSlot n fun v => { v with stepArmed := false }
    | _ => s

/-- The first resume of a partition's slot in a cluster lifts the hold of a cut on the job starts there (R301). -/
def State.liftHold (s : State) (n p : Nat) : State :=
  s.modCluster (clusterOfCore (coreOfSlot n)) fun c => { c with held := c.held.filter (· != p) }

/-- A slot starts again from where it stopped (R279), with the acquire of R295 and its context as its fields were edited, corrected (R97,
R298); a release of a meet that came while it was frozen takes effect now (R275), and a job hold of a cut lifts (R301). -/
def State.restart (s : State) (n : Nat) : State :=
  let s := s.liftHold n (s.thr n).part
  let s := s.acquire (s.thr n) .package
  s.modSlot n fun v =>
    let v := v.modCtx Ctx.corrected
    if v.levels.isEmpty then { v with run := .idle, stands := none, waitFrom := s.cycle }
    else
      match v.run with
      | .frozen _ (.parked cl) => { v with run := .sleeping (.meet cl), stepArmed := v.step }
      | .frozen _ .passed => { v with run := .sleeping .released, stepArmed := v.step }
      | .frozen _ (.released m ms) =>
        { v with run := .sleeping .released, stepArmed := v.step, ctx := { v.ctx with mult := m, mstat := ms } }
      | _ => { v with run := .ready, stepArmed := v.step }

/-- The state of a future (R29): 0b11 reads as failed. -/
def futureState (n : Nat) : Nat := if n % 4 = 3 then 2 else n % 4
def futureOwner (n : Nat) : TaskId := BitVec.ofNat 32 (n / 2 ^ 32)
def futureValue (n : Nat) : Word := BitVec.ofNat 64 (n / 2 ^ 64)

/-- The bits of a task record (R25). -/
def recNat (r : TaskRecord) : Nat :=
  r.entry.toNat + r.arg0.toNat * 2 ^ 64 + r.arg1.toNat * 2 ^ 128 + r.arg2.toNat * 2 ^ 192 + r.arg3.toNat * 2 ^ 256 +
    r.taskid.toNat * 2 ^ 320 + r.owner.toNat * 2 ^ 352 + r.mult.toNat * 2 ^ 384 + r.future.toNat * 2 ^ 416 +
    r.fplace.toNat * 2 ^ 472 + r.dom.toNat * 2 ^ 474 + (if r.pin then 2 ^ 476 else 0) + (if r.det then 2 ^ 477 else 0) +
    r.group.toNat * 2 ^ 480 + r.lreq.toNat * 2 ^ 496

/-- The task record of 64 bytes (R25), its reserved bits ignored. -/
def recOf (n : Nat) : TaskRecord :=
  let f (lo w : Nat) : Nat := n / 2 ^ lo % 2 ^ w
  { entry := BitVec.ofNat 64 (f 0 64), arg0 := BitVec.ofNat 64 (f 64 64), arg1 := BitVec.ofNat 64 (f 128 64),
    arg2 := BitVec.ofNat 64 (f 192 64), arg3 := BitVec.ofNat 64 (f 256 64), taskid := BitVec.ofNat 32 (f 320 32),
    owner := BitVec.ofNat 32 (f 352 32), mult := BitVec.ofNat 32 (f 384 32), future := BitVec.ofNat 56 (f 416 56),
    fplace := BitVec.ofNat 2 (f 472 2), dom := BitVec.ofNat 2 (f 474 2), pin := n.testBit 476, det := n.testBit 477,
    group := BitVec.ofNat 16 (f 480 16), lreq := BitVec.ofNat 16 (f 496 16) }

/-- The start state of a task (R26), with the corrections of R25. -/
def recCtx (r : TaskRecord) : Ctx :=
  let c := { Ctx.zero with
    pc := r.entry, task := r.taskid, mult := if r.mult = 0 then 1 else r.mult, group := r.group, fgroup := r.group, stealdom := r.dom }
  (((c.setX 2 r.arg0).setX 3 r.arg1).setX 4 r.arg2).setX 5 r.arg3

/-- The checks of an access that must lie in S or in global memory (R29, R176, R184): step 4 of R144 refuses another buffer. -/
def State.checkS (s : State) (t : Thr) (sp : Space) (k : AccKind) (addr : Word) (n align : Nat) : Except FaultInfo (List Piece) :=
  let buf := match sp with | .i => addr.toNat / 2 ^ 20 | _ => bufOf addr.toNat
  match localLayout sp addr n with
  | .error e => .error e
  | .ok () =>
    if addr.toNat % align ≠ 0 then .error (mkFault .misalign 0 addr 0)
    else if sp ≠ .g && buf ≠ 0 then .error (mkFault .permission 2 addr 0)
    else s.check t sp k false addr n align 0

/-- Reads a value at its serialisation point, cluster copies handled (R176). -/
def State.atomicRead (s : State) (t : Thr) (ps : List Piece) : State × Nat :=
  let s := s.atPoint t ps
  (s, s.readPoints ps)

/-- The reach of an access that is homed by its first run (R170, R253): fabric for a word of another package. -/
def homeReach (ps : List Piece) : Reach :=
  match firstLoc ps with
  | .phys pa => if pa ≥ 2 ^ 55 then .fabric else .package
  | .buf .. => .package

/-- A group number's cluster and index (R31). -/
def groupCluster (g : BitVec 16) : Nat := g.toNat / 64 % 256
def groupIndex (g : BitVec 16) : Nat := g.toNat % 64

/-- The allocated group of a partition that a number names (R31). -/
def State.groupOf (s : State) (p : Nat) (g : Word) : Option Group :=
  let n := g.toNat
  if n / 2 ^ 16 ≠ 0 || !n.testBit 15 || n.testBit 14 || n / 64 % 256 > 143 then none
  else
    match (s.cluster (n / 64 % 256)).groups.get? (n % 64) with
    | some e => if e.part = p then some e else none
    | none => none

/-- A release at the instance of a group's cluster (R253, R268). From outside that cluster it reaches beyond the issuing one (R159): what the
thread left dirty is written back, and the group's cluster keeps no older copy. -/
def State.groupRelease (s : State) (t : Thr) (g : BitVec 16) : State :=
  if g = 0 || groupCluster g = t.cluster then s.release t .inside
  else (s.release t .package).flush (groupCluster g) true (coveredLine t .package)

/-- An acquire at that instance (R175, R253): from outside, what the group's cluster holds dirty is written back first. -/
def State.groupAcquire (s : State) (t : Thr) (g : BitVec 16) : State :=
  if g = 0 || groupCluster g = t.cluster then s.acquire t .inside
  else (s.flush (groupCluster g) false (coveredLine t .package)).acquire t .package

/-- A group's count changes (R31); it never goes below zero. -/
def State.groupAdd (s : State) (g : BitVec 16) (up : Bool) : State :=
  if g = 0 then s
  else
    s.modCluster (groupCluster g) fun c =>
      match c.groups.get? (groupIndex g) with
      | some e => { c with groups := c.groups.set (groupIndex g) { e with count := if up then e.count + 1 else e.count - 1 } }
      | none => c

/-- The reach of a deque's release or of a start's acquire by steal domain (R170). -/
def domReach (d : BitVec 2) : Reach := if d.toNat ≤ 1 then .inside else .package

end Sys2Proof.Machine
end

