-- ==== Sys2Proof/Machine/Chains.lean ====
section
/-! DEFINITION. Tasks at large: the task directory (R24, R229, R230), deques (R233, R234), claims (R231), save frames and adoption chains
(R241, R242, R244, R288), waiting by helping (R240), failing (R245) and the delivery of messages (R32, R33). -/

namespace Sys2Proof.Machine

/-- A state in which a task still lives (R229). -/
def TaskState.live : TaskState → Bool
  | .unstarted | .running | .parked => true
  | _ => false

/-- The directory entry of a task in a partition's directory (R229). -/
def State.findTask (s : State) (p : Nat) (t : TaskId) : Option Task :=
  if t.toNat % 2 ^ 28 = 0 then none else ((s.part p).tasks.find? fun e => e.2.id == t).map Prod.snd

/-- A lookup of an id that has no entry treats the task as done (R229). -/
def State.taskState (s : State) (p : Nat) (t : TaskId) : TaskState :=
  match s.findTask p t with
  | some k => k.state
  | none => .done

def State.modTask (s : State) (p : Nat) (t : TaskId) (f : Task → Task) : State :=
  s.modPart p fun k => { k with tasks := k.tasks.map fun e => if e.2.id == t then (e.1, f e.2) else e }

/-- The directory has room (R229). -/
def State.dirRoom (s : State) (p : Nat) : Bool :=
  decide (((s.part p).tasks.filter fun e => e.2.state.live).length < (s.part p).cfg.dirsize)

/-- The next sequence number that no entry holds (R24). -/
def nextSeq (tasks : Table Task) : Nat → Nat → Nat
  | 0, q => q
  | fuel + 1, q =>
    let q := if q = 0 then 1 else q
    if tasks.any fun e => e.2.id.toNat % 2 ^ 28 = q then nextSeq tasks fuel ((q + 1) % 2 ^ 28) else q

/-- The lowest key a rising table does not list. -/
def firstGap {α : Type} : Table α → Nat → Nat
  | [], k => k
  | (i, _) :: r, k => if i = k then firstGap r (k + 1) else k

/-- The entry that is released when a new one needs room: the task that ended first (R229). -/
def oldestEnded : Table Task → Option (Nat × Nat)
  | [] => none
  | (i, t) :: r =>
    let best := oldestEnded r
    if t.state.live then best
    else match best with
      | some (j, e) => if e < t.ended then some (j, e) else some (i, t.ended)
      | none => some (i, t.ended)

/-- A new task enters the directory under a new id (R24, R229). -/
def State.addTask (s : State) (p : Nat) (mk : TaskId → Task) : State × TaskId :=
  let k := s.part p
  let gap := firstGap k.tasks 0
  let (i, tasks) :=
    if gap < k.cfg.dirsize then (gap, k.tasks)
    else match oldestEnded k.tasks with
      | some (j, _) => (j, k.tasks.erase j)
      | none => (gap, k.tasks)
  let q := nextSeq tasks (tasks.length + 2) k.seq.toNat
  let id : TaskId := BitVec.ofNat 32 (p * 2 ^ 28 + q)
  (s.modPart p fun k => { k with tasks := tasks.set i (mk id), seq := BitVec.ofNat 28 (q + 1) }, id)

/-- The directory entry of a record at creation by a party of cluster `origin` (R230, R232). -/
def recEntry (r : TaskRecord) (id : TaskId) (st : TaskState) (wh : Word) (origin : Nat) : Task :=
  { id := id, state := st, pin := r.pin, whereTo := wh, asid := 0, det := r.det, fplace := r.fplace, future := r.future, group := r.group,
    dom := r.dom, parent := r.owner, attach := [], locks := [], entries := [], children := 0, chain := [], frames := none, meet := none, holdBack := none,
    late := none, lreq := r.lreq.toNat, onCore := none, origin := origin, ended := 0 }

/-- A reserved queue entry, whose state word lies at `a` for the address space of a tag, becomes failed (R126, R245, R250). -/
def State.failEntry (s : State) (a tag : Nat) : State :=
  let w := s.spaceRead tag a 8
  if w % 4 = 1 then s.spaceWrite tag a 8 (w - w % 4 + 3) else s

/-- A task ends (R27, R245, R274): its entry takes the state, its group's count falls, and what it holds is passed on. -/
def State.endTask (s : State) (p : Nat) (t : TaskId) (st : TaskState) (wh : Word) : State :=
  match s.findTask p t with
  | none => s
  | some k =>
    let s := s.groupAdd k.group false
    let s := s.passResv t
    let s := { s with lockQ := s.lockQ.filter (fun e => e.task != t), queueQ := s.queueQ.filter (fun e => e.2 != t),
                        claimQ := s.claimQ.filter (fun e => e.2.1 != t) }
    let s := if k.det then s else s.modTask p k.parent fun m => { m with children := m.children - 1 }
    let s := if st = .failed then k.entries.foldl (fun s e => s.failEntry e.1 e.2) s else s
    let s := s.modTask p t fun m =>
      { m with
        state := st, whereTo := wh, attach := [], locks := [], entries := [], chain := [], frames := none, meet := none, holdBack := none, late := none, onCore := none
        ended := (s.part p).endSeq }
    s.modPart p fun m => { m with endSeq := m.endSeq + 1 }

/-! ### Deques -/

/-- A valid deque (R233). -/
structure Deque where
  core   : Nat
  addr   : Nat
  cap    : Nat
  top    : Nat
  bottom : Nat
  skips  : Nat
  deriving DecidableEq, Repr

def Deque.size (d : Deque) : Nat := (d.bottom + 2 ^ 32 - d.top) % 2 ^ 32

/-- The capacities of R233. -/
def capOk (n : Nat) : Bool := (List.range 9).any fun i => n == 2 ^ (i + 1)

/-- A partition's deque on a core of its set, or on one vacated from it (R287), where it is valid (R233). -/
def State.deque (s : State) (p c : Nat) : Option Deque :=
  let a := ((s.core c).deqbase.getD p 0).toNat
  let h := s.bufRead c a 64
  let cap := h / 2 ^ 64 % 2 ^ 16
  let r := (s.part p).cfg.range 0
  if !((s.part p).cfg.cores.getLsbD c || s.committedOn p c) || h / 2 ^ 104 ≠ 0 || h / 2 ^ 80 % 2 ^ 16 ≠ 0 || !capOk cap || a + 64 + 64 * cap > 0x10000 || a < r.1 || a + 64 + 64 * cap > r.2 then none
  else some { core := c, addr := a, cap := cap, top := h / 2 ^ 32 % 2 ^ 32, bottom := h % 2 ^ 32, skips := h / 2 ^ 96 % 2 ^ 8 }

/-- The fault of the row of a core's buffers at a local address, where ECC has given it up (R281). DESIGN CHOICE (log 126): its packet names the
row by its .N address. -/
def State.rowEcc (s : State) (c la : Nat) : Option FaultInfo :=
  if s.poison.contains (.row c (rowOf la)) then some (mkFault .ecc 1 (BitVec.ofNat 64 (c * 2 ^ 19 + rowAddr (rowOf la))) 0) else none

/-- The fault of a deque's header (R233, R281): the row at DEQBASE, where the partition's range of S holds it. -/
def State.headerEcc (s : State) (p c : Nat) : Option FaultInfo :=
  let a := ((s.core c).deqbase.getD p 0).toNat
  let r := (s.part p).cfg.range 0
  if !((s.part p).cfg.cores.getLsbD c || s.committedOn p c) || a < r.1 || a + 64 > r.2 then none else s.rowEcc c a

/-- A deque that takes no push (R233). -/
def State.dequeFull (s : State) (p c : Nat) : Bool :=
  match s.deque p c with
  | some d => decide (d.size ≥ d.cap)
  | none => true

/-- The local address of the record at a position (R233). -/
def Deque.recAddr (d : Deque) (pos : Nat) : Nat := d.addr + 64 + 64 * (pos % d.cap)

/-- The record at a position (R233). -/
def State.recAt (s : State) (d : Deque) (pos : Nat) : TaskRecord := recOf (s.bufRead d.core (d.recAddr pos) 64)

/-- Updates the header's TOP, BOTTOM and SKIPS in one step (R234). -/
def State.setEnds (s : State) (d : Deque) (top bottom skips : Nat) : State :=
  (s.bufWrite d.core d.addr 8 (bottom % 2 ^ 32 + top % 2 ^ 32 * 2 ^ 32)).bufWrite d.core (d.addr + 12) 1 skips

/-- A record is live while its task's entry is unstarted or parked (R234). DEDUCED (log 107): a record that names a task whose resume record
is held back (R275, R286) is not. -/
def State.recLive (s : State) (p : Nat) (r : TaskRecord) : Bool :=
  match s.findTask p r.taskid with
  | some k => (k.state == .unstarted || k.state == .parked) && k.meet.isNone && k.holdBack.isNone
  | none => false

/-- The positions of a deque's records, from the bottom. -/
def Deque.down (d : Deque) : List Nat := (List.range (Nat.min d.size d.cap)).map fun i => (d.bottom + 2 ^ 32 - 1 - i) % 2 ^ 32
/-- The positions of a deque's records, from the top. -/
def Deque.up (d : Deque) : List Nat := (List.range (Nat.min d.size d.cap)).map fun i => (d.top + i) % 2 ^ 32

/-- Live records from the bottom, with their positions (R234, R256). -/
def State.liveDown (s : State) (p : Nat) (d : Deque) : List (Nat × TaskRecord) :=
  (d.down.map fun pos => (pos, s.recAt d pos)).filter fun e => s.recLive p e.2

/-- What a search for a live record consumes of damaged data (R234, R281): the header, and the records from one end on up to the first live one. -/
def State.searchEcc (s : State) (p c : Nat) (bottom : Bool) : Option FaultInfo :=
  match s.headerEcc p c with
  | some fi => some fi
  | none =>
    (s.deque p c).bind fun d =>
      ((if bottom then d.down else d.up).find? fun pos => (s.rowEcc c (d.recAddr pos)).isSome || s.recLive p (s.recAt d pos)).bind
        fun pos => s.rowEcc c (d.recAddr pos)

/-- Stale records at the bottom are discarded (R234). -/
def trimBottom (p c : Nat) : Nat → State → State
  | 0, s => s
  | fuel + 1, s =>
    match s.deque p c with
    | none => s
    | some d =>
      if d.size = 0 then s
      else
        let pos := (d.bottom + 2 ^ 32 - 1) % 2 ^ 32
        if s.recLive p (s.recAt d pos) then s else trimBottom p c fuel (s.setEnds d d.top pos d.skips)

/-- Stale records at the top are discarded (R234). -/
def trimTop (p c : Nat) : Nat → State → State
  | 0, s => s
  | fuel + 1, s =>
    match s.deque p c with
    | none => s
    | some d =>
      if d.size = 0 || s.recLive p (s.recAt d d.top) then s else trimTop p c fuel (s.setEnds d (d.top + 1) d.bottom d.skips)

/-- The bottom live record of a trimmed deque. -/
def State.bottomRec (s : State) (p c : Nat) : Option TaskRecord :=
  match s.deque p c with
  | some d => if d.size = 0 then none else some (s.recAt d ((d.bottom + 2 ^ 32 - 1) % 2 ^ 32))
  | none => none

/-- The top live record of a trimmed deque. -/
def State.topRec (s : State) (p c : Nat) : Option TaskRecord :=
  match s.deque p c with
  | some d => if d.size = 0 then none else some (s.recAt d d.top)
  | none => none

def State.trimB (s : State) (p c : Nat) : State := trimBottom p c (s.deque p c |>.map Deque.size |>.getD 0) s
def State.trimT (s : State) (p c : Nat) : State := trimTop p c (s.deque p c |>.map Deque.size |>.getD 0) s

/-- Pushes a record at the bottom (R234); SKIPS becomes 0 (R256). The caller has seen that the deque is not full. -/
def State.push (s : State) (p c : Nat) (r : TaskRecord) : State :=
  match s.deque p c with
  | none => s
  | some d =>
    let s := s.bufWrite c (d.recAddr d.bottom) 64 (recNat r)
    s.setEnds d d.top (d.bottom + 1) 0

/-- The position the next push takes (R230). -/
def State.pushPos (s : State) (p c : Nat) : Nat := (s.deque p c |>.map Deque.bottom).getD 0

/-- WHERE of a record in a deque, or in an inbox (R230). -/
def whereDeque (c pos : Nat) : Word := BitVec.ofNat 64 (c + pos % 2 ^ 32 * 2 ^ 16)
def whereInbox (c : Nat) : Word := BitVec.ofNat 64 (c + 2 ^ 11)

/-- Removes the bottom record, or the top one (R234). -/
def State.takeBottom (s : State) (p c : Nat) : State :=
  match s.deque p c with
  | some d => s.setEnds d d.top (d.bottom + 2 ^ 32 - 1) 0
  | none => s
def State.takeTop (s : State) (p c : Nat) : State :=
  match s.deque p c with
  | some d => s.setEnds d (d.top + 1) d.bottom (if d.size = 1 then 0 else d.skips)
  | none => s

/-- SKIPS falls to 0 in each deque whose bottom live record is the task a claim takes (R256). -/
def State.resetSkips (s : State) (p : Nat) (t : TaskId) : State :=
  s.cores.foldl (fun s e =>
    match s.deque p e.1 with
    | some d =>
      match s.liveDown p d with
      | (_, r) :: _ => if r.taskid == t && d.skips ≠ 0 then s.setEnds d d.top d.bottom 0 else s
      | [] => s
    | none => s) s

/-- A claim (R231): the task, and every task of its vacated chain, runs in slot `n` from this step on. -/
def State.claim (s : State) (p : Nat) (t : TaskId) (n : Nat) (onCore : Option Nat) : State :=
  let s := s.resetSkips p t
  let chain := ((s.findTask p t).map Task.chain).getD []
  let s := chain.foldl (fun s l => s.modTask p l.task fun k => { k with whereTo := BitVec.ofNat 64 n }) s
  s.modTask p t fun k => { k with state := .running, whereTo := BitVec.ofNat 64 n, chain := [], frames := none, late := none, onCore := onCore }

/-! ### Frames and chains -/

/-- A slot's save frame k (R241). -/
def State.frameAddr (s : State) (n k : Nat) : Word :=
  ((s.slot n).reg (s.thr n).part).savebase + BitVec.ofNat 64 (frameBytes * k)

/-- Writes a frame's bytes (log 18: at the home slices). -/
def State.putFrame (s : State) (t : Thr) (ps : List Piece) (frame : Nat) : State := (s.atPoint t ps).writePoints ps frame

/-- The frame of a slot's top task. -/
def Slot.frame (v : Slot) : Nat := frameNat (v.levels != []) (topInline v.levels) (v.levels.length - 1) v.deliverAll.ctx

/-- What a start of a parked task reads and writes (R241, R288): copies of frames below the top, and the top's frame. -/
structure Restore where
  copies : List (List Piece × List Piece × Nat)
  top    : List Piece
  deriving DecidableEq, Repr

def State.planCopies (s : State) (t src : Thr) (from_ : Word) (n base : Nat) : Nat → Except FaultInfo (List (List Piece × List Piece × Nat))
  | 0 => .ok []
  | j + 1 => do
    let rest ← State.planCopies s t src from_ n base j
    let a ← s.checkFrame src .load (from_ + BitVec.ofNat 64 (frameBytes * j))
    let b ← s.checkFrame t .store (s.frameAddr n (base + j))
    .ok (rest ++ [(a, b, base + j)])

/-- Checks everything that starting a task in slot `n` with its base at depth `base` reads and writes. -/
def State.planRestore (s : State) (n : Nat) (k : Task) (base : Nat) : Except FaultInfo Restore :=
  if k.state = .parked then do
    let t := s.thr n
    let src := { t with asid := k.asid.toNat }
    let d := k.chain.length - 1
    let copies ← s.planCopies t src k.whereTo n base k.chain.length
    let top ← s.checkFrame src .load (k.whereTo + BitVec.ofNat 64 (frameBytes * d))
    .ok { copies := copies, top := top }
  else .ok { copies := [], top := [] }

/-- The chain below its base takes the base's adoption and status. -/
def relabel (chain : List Level) (adopted : Bool) (status : Option Reg) : List Level :=
  match chain.reverse with
  | [] => []
  | b :: r => r.reverse ++ [{ b with adopted := adopted, status := status }]

/-- Every task of a chain becomes failed, and the slot idle: what a frame whose VALID is 0 restores to (R285, log 19). -/
def State.wreck (s : State) (n : Nat) (levels : List Level) : State :=
  let p := (s.thr n).part
  let s := levels.foldl (fun s l => if l.inline then s else s.endTask p l.task .failed 0) s
  s.modSlot n fun v => { v with run := .idle, levels := [], ctx := Ctx.zero, pending := [], cont := .none, waitFrom := s.cycle }

/-- The acquire of a task that starts (R170; log 51): at the instance its creator released at, of a vacated chain at package (R295). An instance of
another cluster reaches beyond this one: the acquire is at package, at fabric for a creator in another package, and what a release at that cluster
alone left dirty there is written back. A thread that moves must find its own stores wherever they are homed (R155). -/
def State.startAcquire (s : State) (t : Thr) (k : Task) : State :=
  if k.origin = t.cluster then s.acquire t (if k.chain.isEmpty then domReach k.dom else .package)
  else if k.state = .parked then (s.flush k.origin false (coveredLine { t with asid := k.asid.toNat } .fabric)).acquire t .fabric
  else if k.origin = 145 then s.acquire t .fabric
  else if domReach k.dom = .inside then (s.flush k.origin false (coveredLine t .package)).acquire t .package
  else s.acquire t .package

/-- The claimed task starts on top of `below` (R26, R241, R285, R288). -/
def State.startTask (s : State) (n : Nat) (k : Task) (r : TaskRecord) (plan : Restore) (below : List Level) (adopted : Bool)
    (status : Option Reg) (onCore : Option Nat) : State :=
  let t := s.thr n
  let s := s.claim t.part k.id n onCore
  let s := s.startAcquire t k
  let lvl : Level := { task := k.id, inline := false, adopted := adopted, status := status, fplace := 0, future := 0 }
  if k.state = .parked then
    let s := plan.copies.foldl (fun s (a, b, d) => s.putFrame t b (setByte (s.readPoints a) 2424 (BitVec.ofNat 8 (s.readPoints a / 2 ^ 19392 % 256 / 8 * 8 + d % 8)))) s
    let s := s.atPoint t plan.top
    let f := s.readPoints plan.top
    let levels := if k.chain.isEmpty then lvl :: below else relabel k.chain adopted status ++ below
    if !frameValid f then s.wreck n levels
    else
      let topTask := match levels with | l :: _ => l.task | [] => k.id
      s.modSlot n fun v =>
        { v with run := .ready, ctx := { ctxOfFrame f with task := topTask }, levels := levels, cont := .none, pending := [] }
  else
    s.modSlot n fun v => { v with run := .ready, ctx := { recCtx r with task := k.id }, levels := lvl :: below, cont := .none, pending := [] }

/-- The adoption count of a slot (R242). -/
def Slot.adoptions (v : Slot) : Nat := (v.levels.filter Level.adopted).length

/-- The group confinement of R31. -/
def groupNear (g : BitVec 16) (cluster : Nat) : Bool := g == 0 || groupCluster g == cluster

/-- A task's record found no room at a vacate and lies in the deque of a core outside the core set, where theft alone takes it (R287). -/
def State.stranded (s : State) (p : Nat) (k : Task) : Bool :=
  s.cores.any fun (e : Nat × Core) =>
    !(s.part p).cfg.cores.getLsbD e.1 &&
      match s.deque p e.1 with
      | some d => (s.liveDown p d).any fun x => x.2.taskid == k.id
      | none => false

/-- A task is adoptable by a slot (R240, R275, R287, R288). -/
def State.adoptable (s : State) (n : Nat) (k : Task) : Bool :=
  let v := s.slot n
  let t := s.thr n
  !k.pin && !s.stranded t.part k && decide (v.adoptions + 1 + (k.chain.dropLast.filter Level.adopted).length ≤ (v.reg t.part).adoptmax.toNat) &&
    groupNear k.group t.cluster && k.holdBack.isNone && k.meet.isNone

/-- The slot adopts a task (R241): the frame's rights are checked before the claim, the top task's context is saved, and the task starts
above it. `r` is the record of an unstarted task. -/
def State.adopt (s : State) (n : Nat) (k : Task) (r : TaskRecord) (status : Option Reg) : Except FaultInfo State := do
  let v := s.slot n
  let t := s.thr n
  let d := v.levels.length - 1
  let ps ← s.checkFrame t .store (s.frameAddr n d)
  let plan ← s.planRestore n k (d + 1)
  let s := s.putFrame t ps v.frame
  .ok (s.startTask n k r plan v.levels true status none)

/-- The record of an unstarted task, read where WHERE says it lies (R230, R287). -/
def State.recordOf (s : State) (p : Nat) (k : Task) : TaskRecord :=
  let w := k.whereTo.toNat
  let c := w % 2 ^ 11
  if w.testBit 11 then
    match (s.core c).inbox.find? fun m => m.hasId && m.record.taskid == k.id with
    | some m => m.record
    | none => recOf 0
  else
    match s.deque p c with
    | some d => s.recAt d (w / 2 ^ 16 % 2 ^ 32)
    | none => recOf 0

/-- The directory entry of a wait's owner, in the directory of its own partition (R24, R240). -/
def State.ownerTask (s : State) (owner : TaskId) : Option Task := s.findTask (owner.toNat / 2 ^ 28) owner

/-- The fault of reading an unstarted task's record where WHERE says it lies (R230, R281). -/
def State.recordEcc (s : State) (p : Nat) (k : Task) : Option FaultInfo :=
  let w := k.whereTo.toNat
  let c := w % 2 ^ 11
  if k.state != .unstarted || w.testBit 11 then none
  else s.headerEcc p c <|> (s.deque p c).bind fun d => s.rowEcc c (d.recAddr (w / 2 ^ 16 % 2 ^ 32))

/-- An access meets the first fault there is. -/
def stopOn (f : Option FaultInfo) : Except FaultInfo Unit :=
  match f with
  | some fi => .error fi
  | none => .ok ()

/-- What waiting by helping comes to (R240). -/
inductive Help where
  | dead
  | adopted (s : State)
  | sleep (s : State)

/-- One turn of the helping loop of R240 for slot `n` on a task's condition that does not hold. -/
def State.help (s : State) (n : Nat) (owner : TaskId) : Except FaultInfo Help :=
  let t := s.thr n
  let v := s.slot n
  match s.ownerTask owner with
  | none => .ok .dead
  | some k =>
    let own := owner.toNat / 2 ^ 28 = t.part
    match k.state with
    | .done | .failed | .merged => .ok .dead
    | .unstarted | .parked =>
      if own && s.adoptable n k then do
        stopOn (s.recordEcc t.part k)
        (s.adopt n k (s.recordOf t.part k) none).map .adopted
      else .ok (.sleep s)
    | .running =>
      let u := s.slot k.whereTo.toNat
      if !own || u.run.isFrozen || u.restoring || !(u.levels.any fun l => l.task == owner) || v.adoptions ≥ (v.reg t.part).adoptmax.toNat then .ok (.sleep s)
      else do
        let c := coreOfSlot k.whereTo.toNat
        stopOn (s.searchEcc t.part c false)
        let s := s.trimT t.part c
        match s.topRec t.part c with
        | none => .ok (.sleep s)
        | some r =>
          match s.findTask t.part r.taskid with
          | none => .ok (.sleep s)
          | some j =>
            if r.owner == owner && s.adoptable n j then (State.adopt (s.takeTop t.part c) n j r none).map .adopted else .ok (.sleep s)

/-- A task leaves the chain of slot `n` (R244): the slot restores the frame below, or becomes idle; `st` is the status of a POPB or
STEAL that had adopted the task. -/
def State.popLevel (s : State) (n : Nat) (st : Nat) : State :=
  match (s.slot n).levels with
  | [] => s
  | [_] =>
    s.modSlot n fun v =>
      { v with run := .idle, levels := [], ctx := Ctx.zero, pending := [], cont := .none, waitFrom := s.cycle }
  | top :: next :: rest =>
    let t := s.thr n
    match s.checkFrame t .load (s.frameAddr n rest.length) with
    | .error _ => s.wreck n (next :: rest)
    | .ok ps =>
      let s := s.atPoint t ps
      let f := s.readPoints ps
      if !frameValid f then s.wreck n (next :: rest)
      else
        let c := { ctxOfFrame f with task := next.task }
        let c := match top.status with
          | some r => { c.setX r (BitVec.ofNat 64 st) with pc := c.pc + 8 }
          | none => c
        s.modSlot n fun v => { v with run := .ready, levels := next :: rest, ctx := c, pending := [], cont := .none }

/-- The address check of a future (R29): a 16-byte store at S or in global memory. -/
def State.futureCheck (s : State) (t : Thr) (fplace : BitVec 2) (future : BitVec 56) : Except FaultInfo (List Piece) :=
  s.checkS t (if fplace = 1 then .n else .g) .store (future.setWidth 64) 16 16

/-- A record names a future (R25). -/
def hasFuture (fplace : BitVec 2) : Bool := fplace == 1 || fplace == 3

/-- A future fails (R245): STATE failed, VALUE kept, one 16-byte write. The Bool says whether the write was refused. -/
def State.failFuture (s : State) (t : Thr) (fplace : BitVec 2) (future : BitVec 56) : State × Bool :=
  if !hasFuture fplace then (s, false)
  else
    match s.futureCheck t fplace future with
    | .error _ => (s, true)
    | .ok ps =>
      let s := s.atPoint t ps
      let n := s.readPoints ps
      (s.writePoints ps (n - n % 4 + 2), false)

/-- The supervisor fails one level of a chain (R245); an open meet entry of a parked survivor is freed (R275). -/
def State.failLevel (s : State) (n : Nat) (l : Level) : State × Bool :=
  let t := s.thr n
  if l.inline then s.failFuture t l.fplace l.future
  else
    match s.findTask t.part l.task with
    | none => (s, false)
    | some k =>
      let (s, bad) := s.failFuture t k.fplace k.future
      let s := { s with clusters := s.clusters.map fun (e : Nat × Cluster) => (e.1, { e.2 with meets := e.2.meets.filter fun m => m.survivor != l.task }) }
      (s.endTask t.part l.task .failed 0, bad)

/-- The task at a depth, and every task above it, fails, top down; the task below resumes (R245). -/
def State.failFrom (s : State) (n depth : Nat) : State × Bool :=
  let ls := (s.slot n).levels
  let gone := ls.take (ls.length - depth)
  let (s, bad) := gone.foldl (fun (a : State × Bool) (l : Level) => let r := a.1.failLevel n l; (r.1, a.2 || r.2)) (s, false)
  ((s.modSlot n fun v => { v with levels := v.levels.drop (gone.length - 1), run := .ready }).popLevel n 4, bad)

/-! ### Messages -/

/-- How many bits of a slot mask are set. -/
def popc (n : Nat) : Nat → Nat
  | 0 => 0
  | k + 1 => n % 2 + popc (n / 2) k

/-- The running partitions of a partition's slice ring that share its slots of a core (R254): a vacate takes a core out of one member's set
only (R286). -/
def State.ringOf (s : State) (p core : Nat) : List Nat :=
  let c := (s.part p).cfg
  (List.range 16).filter fun q =>
    let d := (s.part q).cfg
    d.running && d.sliced && d.ring == c.ring && d.slots == c.slots && d.cores.getLsbD core

/-- The inbox share of a partition on a core (R32, R259). -/
def State.inboxShare (s : State) (p core : Nat) : Nat :=
  let c := (s.part p).cfg
  let n := popc c.slots.toNat 16
  if c.sliced then Nat.max 1 (4 * n / Nat.max 1 (s.ringOf p core).length) else 4 * n

/-- A partition owns a slot on a core, at this moment or in turn (R32, R254). -/
def State.ownsOn (s : State) (p c : Nat) : Bool :=
  let k := (s.part p).cfg
  k.running && k.cores.getLsbD c && k.slots != 0

/-- The partition whose slice is in force on a core, of the slice ring a partition belongs to there (R254). -/
def State.inForce (s : State) (p core : Nat) : Option Nat :=
  if (s.ringOf p core).contains p then (s.core core).sliceOf.get? (s.part p).cfg.ring.toNat else none

/-- The slice of the partition that holds a slot has ended on its core: that of another member of its ring is in force (R262). -/
def State.sliceOver (s : State) (n : Nat) : Bool :=
  match s.slotPart? n with
  | some p => match s.inForce p (coreOfSlot n) with | some q => q != p | none => false
  | none => false

/-- The partition that follows in a slice ring on a core (R254). -/
def State.nextInRing (s : State) (p c : Nat) : Option Nat :=
  let r := (s.ringOf p c).filter (· != p)
  match r.find? (fun q => decide (p < q)) with
  | some q => some q
  | none => r.head?

/-- A partition's slice in force on a core has lasted its length by a cycle, and another partition of the ring follows (R262). -/
def State.sliceEnds (s : State) (p core now : Nat) : Bool :=
  let k := (s.part p).cfg
  s.inForce p core == some p && decide ((s.core core).sliceFrom.getD k.ring.toNat 0 + k.sliceLen ≤ now) && (s.nextInRing p core).isSome

/-- A slot's turn is over in a cycle: its partition's slice has ended on the core, or ends with this cycle (R262). -/
def State.turnOver (s : State) (n now : Nat) : Bool :=
  s.sliceOver n || (match s.slotPart? n with | some p => s.sliceEnds p (coreOfSlot n) now | none => false)

/-- A slot may take a new task of its partition (R19, R262, R298): not while its save frames hold a vacated chain (R286). -/
def State.slotFree (s : State) (p n : Nat) : Bool :=
  let v := s.slot n
  v.run == .idle && s.slotPart? n == some p && !v.restoring && !s.turnOver n s.cycle &&
    (s.part p).tasks.all fun (e : Nat × Task) => e.2.frames != some n

/-- The lowest-numbered idle slot of a partition on a core (R32, R256). -/
def State.idleSlot (s : State) (p c : Nat) : Option Nat := ((List.range 16).map (16 * c + ·)).find? (s.slotFree p)

/-- The cluster in which a message's sender released (R170); 144 for the host, 145 for another package. -/
def messageOrigin (m : Message) : Nat := match m.source with | .core c => clusterOfCore c | .host _ => 144 | .package .. => 145

/-! ### Attempts of theft that find nothing (R257) -/

/-- The victims of a ring, in order. -/
def State.ringCores (s : State) (p c ring : Nat) : List Nat :=
  let set := (List.range 1152).filter fun x => (s.part p).cfg.cores.getLsbD x
  match ring with
  | 1 => (coresOfCluster (clusterOfCore c)).filter (· != c)
  | 2 => set.filter fun x => dieOfCore x == dieOfCore c && clusterOfCore x != clusterOfCore c
  | _ => set.filter fun x => dieOfCore x != dieOfCore c

/-- A ring's pointer on a core, which each partition has its own of (DEDUCED, log 109): the place in the ring of the victim to visit next. -/
def Core.ringPtr (k : Core) (ring p : Nat) : Nat := (match ring with | 1 => k.ring1 | 2 => k.ring2 | _ => k.ring3).getD p 0
def Core.setRing (k : Core) (ring p v : Nat) : Core :=
  match ring with
  | 1 => { k with ring1 := k.ring1.set p v }
  | 2 => { k with ring2 := k.ring2.set p v }
  | _ => { k with ring3 := k.ring3.set p v }

/-- The victims an attempt visits of a ring of some length (R257). -/
def ringVisits (len : Nat) : Nat := Nat.min len 8

/-- The attempts that fell to an idle slot before a cycle: one when it became idle, and one every 64 cycles. -/
def Slot.attempts (v : Slot) (now : Nat) : Nat := (now + 63 - v.waitFrom) / 64

/-- The attempts an idle slot of a partition has made before this cycle and in which no deque held a record: each has passed the pointers over
the victims it visits. While the partition drains it makes none (R256). -/
def State.idleAttempts (s : State) (p n : Nat) : State :=
  let c := coreOfSlot n
  let k := (s.slot n).attempts s.cycle
  if k = 0 || !s.slotFree p n then s
  else
    let s :=
      if (s.core c).draining.contains p then s
      else [1, 2, 3].foldl (fun (s : State) ring =>
        let len := (s.ringCores p c ring).length
        s.modCore c fun m => m.setRing ring p ((m.ringPtr ring p + k * ringVisits len) % Nat.max 1 len)) s
    s.modSlot n fun v => { v with waitFrom := v.waitFrom + 64 * k }

/-- The attempts of a core's idle slots are accounted for, before anything there reads their pointers or changes who is idle. -/
def State.catchUp (s : State) (c : Nat) : State :=
  ((List.range 16).map (16 * c + ·)).foldl (fun s n => match s.slotPart? n with | some p => s.idleAttempts p n | none => s) s

/-- The dispatcher of a core has started a task in this cycle (R256): an attempt of theft that falls in it is made in the next. -/
def State.started (s : State) (c : Nat) : State :=
  let s := ((List.range 16).map (16 * c + ·)).foldl (fun (s : State) n =>
    if (s.slot n).run == .idle && (s.slot n).waitFrom == s.cycle then s.modSlot n fun v => { v with waitFrom := s.cycle + 1 } else s) (s.catchUp c)
  s.modCore c fun k => { k with lastStart := some s.cycle }

/-! ### Messages that start -/

/-- Starts a message in an idle slot (R32): a FORK.AT delivery under its own id, an active message under a new one. A delivery whose task has been
claimed before by another record of its id starts nothing, since one claim of a task succeeds (R231). -/
def State.startMessage (s : State) (n : Nat) (m : Message) : State :=
  let c := coreOfSlot n
  let s := s.catchUp c
  let (s, id) :=
    if m.hasId then (s, m.record.taskid)
    else s.addTask m.part fun id => recEntry m.record id .unstarted (whereInbox c) (messageOrigin m)
  match s.findTask m.part id with
  | none => s
  | some k =>
    if k.state = .unstarted then s.startTask n { k with dom := 3 } m.record { copies := [], top := [] } [] false none (some c) else s

/-- A message of a sender waits in a core's inbox: a later one of that sender starts after it (R33). -/
def State.senderWaits (s : State) (p c : Nat) (source : Sender) : Bool :=
  (s.core c).inbox.any fun e => e.part == p && e.source == source

/-- The idle slot a message that comes to a core now starts in (R32, R33). -/
def State.startsIn (s : State) (p c : Nat) (hasId : Bool) (source : Sender) : Option Nat :=
  if (hasId || s.dirRoom p) && !s.senderWaits p c source then s.idleSlot p c else none

/-- A partition's share of a core's inbox has room (R32, R33). -/
def State.inboxRoom (s : State) (p c : Nat) : Bool :=
  decide (((s.core c).inbox.filter fun e => e.part == p).length < s.inboxShare p c)

/-- A message reaches its core (R32, R33): 0 it starts or enters the inbox, 1 the share is full, 2 the partition owns no slot there. -/
def State.arrive (s : State) (m : Message) : State × Nat :=
  let c := m.target
  if !s.ownsOn m.part c then (s, 2)
  else
    match s.startsIn m.part c m.hasId m.source with
    | some n => (s.startMessage n m, 0)
    | none =>
      if s.inboxRoom m.part c then
        (s.modCore c fun k => { k with inbox := k.inbox ++ [m] }, 0)
      else (s, 1)

/-- FREE, the local budget a partition has left on a core (R255); a lowered LBUDGET may leave it below zero. -/
def State.freeBudget (s : State) (p c : Nat) : Int :=
  ((s.part p).cfg.lbudget : Int) -
    ((s.part p).tasks.foldl (fun (n : Nat) (e : Nat × Task) => if e.2.onCore == some c && e.2.state.live then n + e.2.lreq else n) 0 : Nat)

/-- A record fits (R255). -/
def State.fits (s : State) (p c : Nat) (r : TaskRecord) : Bool := decide ((r.lreq.toNat : Int) ≤ s.freeBudget p c)

end Sys2Proof.Machine
end

