-- ==== Sys2Proof/Machine/Operands.lean ====
section
/-! DEFINITION. The operand forms: the effective address of form M (R51, R144), elements in scalar registers (R64, R91), lanes and masks
(R103, R104), the immediate form of a vector operand (R107), bit-buffer widths (R98), lane counts (R115) and timeouts (R267). -/

namespace Sys2Proof.Machine

/-- The effective address of form M (R144). -/
def State.ea (s : State) (o : MemOp) : Word := s.getX o.base + o.off

/-- An element as a scalar register holds it: integers extended under their type (R64), other bits in the low end (R91). -/
def elemToX (t : Elem) (v : Nat) : Word :=
  if t.isInt then BitVec.ofInt 64 (intOf t v) else BitVec.ofNat 64 (v % 2 ^ t.width)

/-- The low bits of a scalar register that an element's width covers (R64, R91). -/
def elemOfX (t : Elem) (w : Word) : Nat := w.toNat % 2 ^ t.width

/-- Lane i of a vector register at a type (R103). -/
def laneAt (t : Elem) (v : Vec) (i : Nat) : Nat := getBits v (t.width * i) t.width

/-- A vector from its lanes, lane 0 lowest. -/
def vecOfLanes (w : Nat) (ls : List Nat) : Vec := BitVec.ofNat 512 (ls.foldr (fun l n => l % 2 ^ w + 2 ^ w * n) 0)

/-- The active lanes of a mask (R104). -/
def laneOn (m : Word) (i : Nat) : Bool := m.getLsbD i

/-- A lane-wise result: active lanes take `f`, inactive lanes keep the destination's, bits above the last lane are zero (R103, R104); the
flags are those of the active lanes (R69). -/
def mapLanes (t : Elem) (m : Word) (old : Vec) (f : Nat → Nat × Flags) : Vec × Flags :=
  let rs := (List.range t.lanes).map fun i => if laneOn m i then f i else (laneAt t old i, 0)
  (vecOfLanes t.width (rs.map Prod.fst), rs.foldl (fun a r => a ||| r.2) 0)

/-- A lane-wise result that raises no flag. -/
def mapBits (t : Elem) (m : Word) (old : Vec) (f : Nat → Nat) : Vec :=
  vecOfLanes t.width ((List.range t.lanes).map fun i => if laneOn m i then f i else laneAt t old i)

/-- Lane i of a b operand with the immediate form (R107): a register's lane, or the immediate in every lane. -/
def State.vsrc (s : State) (t : Elem) (b : VSrc) (i : Nat) : Nat :=
  match b with
  | .reg r => laneAt t (s.getV r) i
  | .imm w => w.toNat % 2 ^ t.width

/-- The width of a bit-buffer instruction, at most `cap` from a register (R98). -/
def State.bitCount (s : State) (w : BitCount) (cap : Nat) : Nat :=
  match w with
  | .imm n => n.toNat
  | .reg b => Nat.min (s.getX b).toNat cap

/-- The count or index of a lane instruction (R115). -/
def State.laneSrc (s : State) (n : LaneSrc) : Nat :=
  match n with
  | .imm k => k.toNat
  | .reg b => (s.getX b).toNat

/-- The timeout of a MEET; none means no timeout (R267). -/
def State.timeout (s : State) (t : Timeout) : Option Nat :=
  match t with
  | .imm n => if n.toNat = 0xFFFFFF then none else some n.toNat
  | .reg b =>
    let v := (s.getX b).toNat % 2 ^ 40
    if v = 2 ^ 40 - 1 then none else some v

/-- The multiplicity of the running task (R265). -/
def State.mult (s : State) : Nat := s.ctx.mult.toNat

/-- The refusal of a multiplicity above 1 (R180, R252, R281). -/
def State.refuseMult (s : State) : Except FaultInfo Unit :=
  if s.mult > 1 then .error (mkFault .mult 1 0 s.mult) else .ok ()

end Sys2Proof.Machine
end

