-- ==== Sys2Proof/Machine/Flags.lean ====
section
/-! DEFINITION. The flags a thread accumulates in ctl.FSTAT (R69): every instruction that computes with floating or tapered elements, or
saturates, ends here. Hardware only sets flags. -/

namespace Sys2Proof.Machine

/-- A result of type `t` goes to a scalar register, and its flags to ctl.FSTAT (R69, R91). -/
def State.putX (s : State) (k : Enc) (d : Reg) (t : Elem) (r : Nat × Flags) : State :=
  ((s.setX d (elemToX t r.1)).addFlags r.2).advance k

/-- A truth value goes to a scalar register, and its flags to ctl.FSTAT (R92). -/
def State.putBool (s : State) (k : Enc) (d : Reg) (r : Bool × Flags) : State :=
  ((s.setX d (if r.1 then 1 else 0)).addFlags r.2).advance k

/-- A vector result and its flags (R69). -/
def State.putV (s : State) (k : Enc) (d : Reg) (r : Vec × Flags) : State := ((s.setV d r.1).addFlags r.2).advance k

/-- The flags of ctl.FSTAT as CTLR and a frame show them (R69). -/
def Ctx.fstatWord (c : Ctx) : Word := c.fstat.setWidth 64

/-- ctl.FSTAT as a CTLW leaves it: reserved bits are ignored (R69, R293). -/
def fstatOf (w : Word) : Flags := w.setWidth 6

end Sys2Proof.Machine
end

