-- ==== Sys2Proof/Machine/Scalar.lean ====
section
/-! DEFINITION. The meanings of the scalar, control and bit-stream instructions (R59, R85 to R102). -/

namespace Sys2Proof.Machine

/-- Writes a scalar result and goes on (R21, R44). -/
def State.retX (s : State) (k : Enc) (d : Reg) (v : Word) : Res := .next ((s.setX d v).advance k)

/-- An integer result modulo 2^64 (R86). -/
def State.retInt (s : State) (k : Enc) (d : Reg) (v : Int) : Res := s.retX k d (BitVec.ofInt 64 v)

/-- The shifts of R87: the count is a whole number. -/
def shiftL (a : Word) (n : Nat) : Word := if n < 64 then a <<< n else 0
def shiftR (a : Word) (n : Nat) : Word := if n < 64 then a >>> n else 0
def shiftA (a : Word) (n : Nat) : Word := a.sshiftRight (Nat.min n 63)
def rotL (a : Word) (n : Nat) : Word := (a <<< (n % 64)) ||| (if n % 64 = 0 then 0 else a >>> (64 - n % 64))

/-- Zero bits above the highest one bit (R87). -/
def clz64 (a : Word) : Nat := 64 - bitLen a.toNat
/-- Zero bits below the lowest one bit, of the `n` bits still to be looked at (R87). -/
def ctzFrom (v : Nat) : Nat → Nat
  | 0 => 0
  | n + 1 => if v % 2 = 1 then 0 else ctzFrom (v / 2) n + 1

/-- The quotients and remainders of R88. -/
def divS (a b : Word) : Word := if b = 0 then BitVec.allOnes 64 else BitVec.ofInt 64 (a.toInt.tdiv b.toInt)
def divU (a b : Word) : Word := if b = 0 then BitVec.allOnes 64 else BitVec.ofNat 64 (a.toNat / b.toNat)
def remS (a b : Word) : Word := if b = 0 then a else BitVec.ofInt 64 (a.toInt.tmod b.toInt)
def remU (a b : Word) : Word := if b = 0 then a else BitVec.ofNat 64 (a.toNat % b.toNat)

/-- NOP (R59): with the switch mark the slot parks as R21 gives. -/
def execNop (k : Enc) (s : State) : Res := .next (s.advance k)

/-- Control transfers (R95, R96). -/
def execJ (k : Enc) (imm : Word) (s : State) : Res := .next (s.goto k (s.pc + 4 * imm))
def execJr (k : Enc) (a : Reg) (off : Word) (s : State) : Res := .next (s.goto k (s.getX a + off))
/-- The link of CALL and CALLR (R95). -/
def State.link1 (s : State) (k : Enc) : State := s.setX 1 (s.pc + BitVec.ofNat 64 k.len.bytes)
def execCall (k : Enc) (imm : Word) (s : State) : Res := .next ((s.link1 k).goto k (s.pc + 4 * imm))
def execCallr (k : Enc) (a : Reg) (off : Word) (s : State) : Res := .next ((s.link1 k).goto k (s.getX a + off))
def execRet (k : Enc) (s : State) : Res := .next (s.goto k (s.getX 1))
def execBr (k : Enc) (cc : Cond) (a : Reg) (b : Reg) (imm : Word) (s : State) : Res :=
  if Cond.holds cc (s.getX a) (s.getX b) then .next (s.goto k (s.pc + 4 * imm)) else .next (s.advance k)

/-- Sets the bit buffer of the current slot, its data cut to its valid bits (R97). -/
def State.setBB (s : State) (data valid : Nat) : State :=
  s.modSlot s.cur fun v => v.modCtx fun c => { c with bbData := BitVec.ofNat 128 (data % 2 ^ valid), bbValid := BitVec.ofNat 8 valid }

/-- DATA and VALID of the bit buffer (R97). -/
def State.bbData (s : State) : Nat := s.ctx.bbData.toNat
def State.bbValid (s : State) : Nat := s.ctx.bbValid.toNat

/-- The w lowest bits of the buffer as a register's value (R98). -/
def State.bbField (s : State) (w : Nat) (sx : Bool) : Word :=
  let r := s.bbData % 2 ^ w
  if sx && decide (0 < w) then BitVec.ofInt 64 (sInt w r) else BitVec.ofNat 64 r

/-- Drops w bits off the bottom of the buffer (R98). -/
def State.bbDrop (s : State) (w : Nat) : State := s.setBB (s.bbData / 2 ^ w) (s.bbValid - w)

def execBbld (k : Enc) (d : Reg) (a : Reg) (w : BitVec 8) (s : State) : Res :=
  let n := w.toNat
  let v := s.bbValid
  if v + n > 128 then s.retX k d 0
  else (s.setBB (s.bbData + (s.getX a).toNat % 2 ^ n * 2 ^ v) (v + n)).retX k d (BitVec.ofNat 64 (v + n))
def execBbget (k : Enc) (d : Reg) (w : BitCount) (s : State) : Res :=
  (s.bbDrop (s.bitCount w 64)).retX k d (s.bbField (s.bitCount w 64) false)
def execBbgetSx (k : Enc) (d : Reg) (w : BitCount) (s : State) : Res :=
  (s.bbDrop (s.bitCount w 64)).retX k d (s.bbField (s.bitCount w 64) true)
def execBbpeek (k : Enc) (d : Reg) (w : BitCount) (s : State) : Res := s.retX k d (s.bbField (s.bitCount w 64) false)
def execBbpeekSx (k : Enc) (d : Reg) (w : BitCount) (s : State) : Res := s.retX k d (s.bbField (s.bitCount w 64) true)
def execBbskip (k : Enc) (d : Reg) (w : BitCount) (s : State) : Res :=
  let t := s.bbDrop (s.bitCount w 128)
  t.retX k d (BitVec.ofNat 64 t.bbValid)
def execBbpos (k : Enc) (d : Reg) (s : State) : Res := s.retX k d (BitVec.ofNat 64 s.bbValid)
def execBbposClr (k : Enc) (d : Reg) (s : State) : Res := (s.setBB 0 0).retX k d (BitVec.ofNat 64 s.bbValid)

/-- An iteration counter of a cluster; all fields are zero at reset (R99). -/
def Cluster.counter (c : Cluster) (i : Nat) : Counter := c.counters.getD i { next := 0, last := 0, part := 0, minc := 0, holder := 0 }
/-- A counter is held (R99). -/
def Counter.held (c : Counter) : Bool := decide (c.next.toNat < c.last.toNat)

/-- LOOPINIT (R100). -/
def execLoopinit (k : Enc) (d : Reg) (a : Reg) (b : Reg) (ctr : BitVec 4) (p : BitVec 8) (mc : BitVec 12) (s : State) : Res :=
  let t := s.thr s.cur
  let c := s.cluster t.cluster
  let e := c.counter ctr.toNat
  let mine := ((List.range 16).filter fun i => (c.counter i).held && (c.counter i).holder == t.part).length
  if e.held && e.holder ≠ t.part then .next ((s.reqX d 1).advance k)
  else if !(e.held && e.holder == t.part) && decide (mine ≥ (s.part t.part).cfg.lshare) then .next ((s.reqX d 1).advance k)
  else
    let n : Counter :=
      { next := s.getX a, last := s.getX b, part := if p = 0 then 1 else p, minc := if mc = 0 then 1 else mc, holder := t.part }
    let s := s.modCluster t.cluster fun c => { c with counters := c.counters.set ctr.toNat n }
    .next ((s.reqX d 0).advance k)

/-- The length of the next range (R101). -/
def Counter.chunk (e : Counter) : Nat :=
  let rem := e.last.toNat - e.next.toNat
  Nat.min rem (Nat.max e.minc.toNat ((rem + e.part.toNat - 1) / e.part.toNat))

/-- CHUNK (R101). DESIGN CHOICE (log 110): a counter serves a request of LOOPINIT or CHUNK in the step that issues it (R102). -/
def execChunk (k : Enc) (d : Reg) (ctr : BitVec 4) (s : State) : Res :=
  s.finish do
    s.refuseMult
    let t := s.thr s.cur
    let e := (s.cluster t.cluster).counter ctr.toNat
    if e.holder ≠ t.part then .ok (((s.reqX d 0).reqX (d + 1) 0).advance k)
    else if !e.held then .ok (((s.reqX d e.next).reqX (d + 1) e.next).advance k)
    else
      let n := e.next + BitVec.ofNat 64 e.chunk
      let s := s.modCluster t.cluster fun c => { c with counters := c.counters.set ctr.toNat { e with next := n } }
      .ok (((s.reqX d e.next).reqX (d + 1) n).advance k)

/-! Integer instructions on registers (R87, R88). -/
def execAdd (k : Enc) (d : Reg) (a : Reg) (b : Reg) (s : State) : Res := s.retX k d (s.getX a + s.getX b)
def execSub (k : Enc) (d : Reg) (a : Reg) (b : Reg) (s : State) : Res := s.retX k d (s.getX a - s.getX b)
def execMul (k : Enc) (d : Reg) (a : Reg) (b : Reg) (s : State) : Res := s.retX k d (s.getX a * s.getX b)
def execMulh (k : Enc) (d : Reg) (a : Reg) (b : Reg) (s : State) : Res :=
  s.retInt k d ((s.getX a).toInt * (s.getX b).toInt / 2 ^ 64)
def execMulhU (k : Enc) (d : Reg) (a : Reg) (b : Reg) (s : State) : Res :=
  s.retX k d (BitVec.ofNat 64 ((s.getX a).toNat * (s.getX b).toNat / 2 ^ 64))
def execMulhSu (k : Enc) (d : Reg) (a : Reg) (b : Reg) (s : State) : Res :=
  s.retInt k d ((s.getX a).toInt * ((s.getX b).toNat : Int) / 2 ^ 64)
def execDiv (k : Enc) (d : Reg) (a : Reg) (b : Reg) (s : State) : Res := s.retX k d (divS (s.getX a) (s.getX b))
def execDivU (k : Enc) (d : Reg) (a : Reg) (b : Reg) (s : State) : Res := s.retX k d (divU (s.getX a) (s.getX b))
def execRem (k : Enc) (d : Reg) (a : Reg) (b : Reg) (s : State) : Res := s.retX k d (remS (s.getX a) (s.getX b))
def execRemU (k : Enc) (d : Reg) (a : Reg) (b : Reg) (s : State) : Res := s.retX k d (remU (s.getX a) (s.getX b))
def execAnd (k : Enc) (d : Reg) (a : Reg) (b : Reg) (s : State) : Res := s.retX k d (s.getX a &&& s.getX b)
def execOr (k : Enc) (d : Reg) (a : Reg) (b : Reg) (s : State) : Res := s.retX k d (s.getX a ||| s.getX b)
def execXor (k : Enc) (d : Reg) (a : Reg) (b : Reg) (s : State) : Res := s.retX k d (s.getX a ^^^ s.getX b)
def execSll (k : Enc) (d : Reg) (a : Reg) (b : Reg) (s : State) : Res := s.retX k d (shiftL (s.getX a) (s.getX b).toNat)
def execSrl (k : Enc) (d : Reg) (a : Reg) (b : Reg) (s : State) : Res := s.retX k d (shiftR (s.getX a) (s.getX b).toNat)
def execSra (k : Enc) (d : Reg) (a : Reg) (b : Reg) (s : State) : Res := s.retX k d (shiftA (s.getX a) (s.getX b).toNat)
def execRot (k : Enc) (d : Reg) (a : Reg) (b : Reg) (s : State) : Res := s.retX k d (rotL (s.getX a) (s.getX b).toNat)
def execMin (k : Enc) (d : Reg) (a : Reg) (b : Reg) (s : State) : Res :=
  s.retX k d (if (s.getX a).toInt < (s.getX b).toInt then s.getX a else s.getX b)
def execMinU (k : Enc) (d : Reg) (a : Reg) (b : Reg) (s : State) : Res :=
  s.retX k d (if (s.getX a).toNat < (s.getX b).toNat then s.getX a else s.getX b)
def execMax (k : Enc) (d : Reg) (a : Reg) (b : Reg) (s : State) : Res :=
  s.retX k d (if (s.getX b).toInt < (s.getX a).toInt then s.getX a else s.getX b)
def execMaxU (k : Enc) (d : Reg) (a : Reg) (b : Reg) (s : State) : Res :=
  s.retX k d (if (s.getX b).toNat < (s.getX a).toNat then s.getX a else s.getX b)
def execSetc (k : Enc) (cc : Cond) (d : Reg) (a : Reg) (b : Reg) (s : State) : Res :=
  s.retX k d (if Cond.holds cc (s.getX a) (s.getX b) then 1 else 0)
def execClz (k : Enc) (d : Reg) (a : Reg) (s : State) : Res := s.retX k d (BitVec.ofNat 64 (clz64 (s.getX a)))
def execCtz (k : Enc) (d : Reg) (a : Reg) (s : State) : Res := s.retX k d (BitVec.ofNat 64 (ctzFrom (s.getX a).toNat 64))
def execPopc (k : Enc) (d : Reg) (a : Reg) (s : State) : Res := s.retX k d (BitVec.ofNat 64 (popc (s.getX a).toNat 64))
def execSel (k : Enc) (d : Reg) (a : Reg) (b : Reg) (c : Reg) (s : State) : Res :=
  s.retX k d (if s.getX c = 0 then s.getX b else s.getX a)
def execSext (k : Enc) (t : Elem) (d : Reg) (a : Reg) (s : State) : Res := s.retX k d (elemToX t (elemOfX t (s.getX a)))

/-! Integer instructions with an immediate (R89, R90). -/
def execAddi (k : Enc) (d : Reg) (a : Reg) (imm : Word) (s : State) : Res := s.retX k d (s.getX a + imm)
def execMuli (k : Enc) (d : Reg) (a : Reg) (imm : Word) (s : State) : Res := s.retX k d (s.getX a * imm)
def execAndi (k : Enc) (d : Reg) (a : Reg) (imm : Word) (s : State) : Res := s.retX k d (s.getX a &&& imm)
def execOri (k : Enc) (d : Reg) (a : Reg) (imm : Word) (s : State) : Res := s.retX k d (s.getX a ||| imm)
def execXori (k : Enc) (d : Reg) (a : Reg) (imm : Word) (s : State) : Res := s.retX k d (s.getX a ^^^ imm)
def execSlli (k : Enc) (d : Reg) (a : Reg) (n : BitVec 6) (s : State) : Res := s.retX k d (shiftL (s.getX a) n.toNat)
def execSrli (k : Enc) (d : Reg) (a : Reg) (n : BitVec 6) (s : State) : Res := s.retX k d (shiftR (s.getX a) n.toNat)
def execSrai (k : Enc) (d : Reg) (a : Reg) (n : BitVec 6) (s : State) : Res := s.retX k d (shiftA (s.getX a) n.toNat)
def execRoti (k : Enc) (d : Reg) (a : Reg) (n : BitVec 6) (s : State) : Res := s.retX k d (rotL (s.getX a) n.toNat)
def execSetci (k : Enc) (cc : Cond) (d : Reg) (a : Reg) (imm : Word) (s : State) : Res :=
  s.retX k d (if Cond.holds cc (s.getX a) imm then 1 else 0)
def execMov (k : Enc) (d : Reg) (a : Reg) (s : State) : Res := s.retX k d (s.getX a)
def execLi (k : Enc) (d : Reg) (imm : Word) (s : State) : Res := s.retX k d imm
def execLa (k : Enc) (d : Reg) (imm : Word) (s : State) : Res := s.retX k d (s.pc + imm)
/-- A field's bits; `w` holds the width less one (R90). -/
def fieldOf (a : Word) (p w : BitVec 6) : Nat := a.toNat / 2 ^ p.toNat % 2 ^ (w.toNat + 1)
def execBfx (k : Enc) (d : Reg) (a : Reg) (p : BitVec 6) (w : BitVec 6) (s : State) : Res :=
  s.retX k d (BitVec.ofNat 64 (fieldOf (s.getX a) p w))
def execBfxSx (k : Enc) (d : Reg) (a : Reg) (p : BitVec 6) (w : BitVec 6) (s : State) : Res :=
  s.retInt k d (sInt (w.toNat + 1) (fieldOf (s.getX a) p w))
def execBfi (k : Enc) (d : Reg) (a : Reg) (p : BitVec 6) (w : BitVec 6) (s : State) : Res :=
  let m := BitVec.ofNat 64 ((2 ^ (w.toNat + 1) - 1) * 2 ^ p.toNat)
  s.retX k d ((s.getX d &&& ~~~m) ||| ((s.getX a <<< p.toNat) &&& m))

end Sys2Proof.Machine
end

