-- ==== Sys2Proof/Machine/Float.lean ====
section
/-! DEFINITION. The meanings of the scalar floating instructions (R91 to R94). -/

namespace Sys2Proof.Machine

/-- A scalar floating source (R91). -/
def State.fx (s : State) (t : Elem) (r : Reg) : Nat := elemOfX t (s.getX r)

def execFadd (k : Enc) (t : Elem) (rm : Rnd) (d : Reg) (a : Reg) (b : Reg) (s : State) : Res :=
  .next (s.putX k d t (fAdd t rm (s.fx t a) (s.fx t b)))
def execFsub (k : Enc) (t : Elem) (rm : Rnd) (d : Reg) (a : Reg) (b : Reg) (s : State) : Res :=
  .next (s.putX k d t (fSub t rm (s.fx t a) (s.fx t b)))
def execFmul (k : Enc) (t : Elem) (rm : Rnd) (d : Reg) (a : Reg) (b : Reg) (s : State) : Res :=
  .next (s.putX k d t (fMul t rm (s.fx t a) (s.fx t b)))
def execFma (k : Enc) (t : Elem) (rm : Rnd) (d : Reg) (a : Reg) (b : Reg) (c : Reg) (s : State) : Res :=
  .next (s.putX k d t (fFma t rm (s.fx t a) (s.fx t b) (s.fx t c)))
def execFdiv (k : Enc) (t : Elem) (rm : Rnd) (d : Reg) (a : Reg) (b : Reg) (s : State) : Res :=
  .next (s.putX k d t (fDiv t rm (s.fx t a) (s.fx t b)))
def execFsqrt (k : Enc) (t : Elem) (rm : Rnd) (d : Reg) (a : Reg) (s : State) : Res :=
  .next (s.putX k d t (fSqrt t rm (s.fx t a)))
def execFmin (k : Enc) (t : Elem) (d : Reg) (a : Reg) (b : Reg) (s : State) : Res :=
  .next (s.putX k d t (fMinMax t false (s.fx t a) (s.fx t b)))
def execFmax (k : Enc) (t : Elem) (d : Reg) (a : Reg) (b : Reg) (s : State) : Res :=
  .next (s.putX k d t (fMinMax t true (s.fx t a) (s.fx t b)))
def execFeq (k : Enc) (t : Elem) (d : Reg) (a : Reg) (b : Reg) (s : State) : Res :=
  .next (s.putBool k d (fCompare .eq (decNum t (s.fx t a)) (decNum t (s.fx t b))))
def execFlt (k : Enc) (t : Elem) (d : Reg) (a : Reg) (b : Reg) (s : State) : Res :=
  .next (s.putBool k d (fCompare .lt (decNum t (s.fx t a)) (decNum t (s.fx t b))))
def execFle (k : Enc) (t : Elem) (d : Reg) (a : Reg) (b : Reg) (s : State) : Res :=
  .next (s.putBool k d (fCompare .le (decNum t (s.fx t a)) (decNum t (s.fx t b))))
/-- FCVT (R93). -/
def execFcvt (k : Enc) (dst : Elem) (src : Elem) (rm : Rnd) (d : Reg) (a : Reg) (s : State) : Res :=
  .next (s.putX k d dst (convert dst src rm (s.fx src a)))
/-- FCLASS (R94). -/
def execFclass (k : Enc) (t : Elem) (d : Reg) (a : Reg) (s : State) : Res := s.retX k d (BitVec.ofNat 64 (classify t (s.fx t a)))

/-- a with another sign bit (R92). -/
def signAs (t : Elem) (a : Nat) (neg : Bool) : Nat := a % 2 ^ (t.width - 1) + (if neg then 2 ^ (t.width - 1) else 0)
def execFsgn (k : Enc) (t : Elem) (d : Reg) (a : Reg) (b : Reg) (s : State) : Res :=
  s.retX k d (elemToX t (signAs t (s.fx t a) ((s.fx t b).testBit (t.width - 1))))
def execFsgnN (k : Enc) (t : Elem) (d : Reg) (a : Reg) (b : Reg) (s : State) : Res :=
  s.retX k d (elemToX t (signAs t (s.fx t a) (!(s.fx t b).testBit (t.width - 1))))
def execFsgnX (k : Enc) (t : Elem) (d : Reg) (a : Reg) (b : Reg) (s : State) : Res :=
  s.retX k d (elemToX t (signAs t (s.fx t a) ((s.fx t a).testBit (t.width - 1) != (s.fx t b).testBit (t.width - 1))))

end Sys2Proof.Machine
end

