-- ==== Sys2Proof/Machine/Vector.lean ====
section
/-! DEFINITION. The meanings of the vector and mask instructions (R103 to R117) and the reduction tree (R81). -/

namespace Sys2Proof.Machine

/-- The rounding a sub-operation field names (R68, R106). -/
def rndSub (sub : BitVec 2) : Rnd :=
  match sub.toNat with
  | 1 => .rtz
  | 2 => .rdn
  | 3 => .rup
  | _ => .rne

/-- An integer lane result: wrapped, or clamped with SAT (R65, R108). -/
def intLane (t : Elem) (sat : Bool) (i : Int) : Nat × Flags :=
  if sat && decide (i < intMin t) then (wrapInt t.width (intMin t), flagSAT)
  else if sat && decide (intMax t < i) then (wrapInt t.width (intMax t), flagSAT)
  else (wrapInt t.width i, 0)

/-- One lane of VADD, VSUB, VMUL and VFMA (R108). -/
def laneAdd (t : Elem) (sub : BitVec 2) (a b : Nat) : Nat × Flags :=
  if t.isFloat then fAdd t (rndSub sub) a b else intLane t (sub == 1) (intOf t a + intOf t b)
def laneSub (t : Elem) (sub : BitVec 2) (a b : Nat) : Nat × Flags :=
  if t.isFloat then fSub t (rndSub sub) a b else intLane t (sub == 1) (intOf t a - intOf t b)
def laneMul (t : Elem) (sub : BitVec 2) (a b : Nat) : Nat × Flags :=
  if t.isFloat then fMul t (rndSub sub) a b
  else intLane t false (if sub = 1 then intOf t a * intOf t b / 2 ^ t.width else intOf t a * intOf t b)
def laneFma (t : Elem) (sub : BitVec 2) (a b c : Nat) : Nat × Flags :=
  if t.isFloat then fFma t (rndSub sub) a b c else intLane t false (intOf t a * intOf t b + intOf t c)
/-- One lane of VMIN and VMAX (R108). -/
def laneMinMax (t : Elem) (max : Bool) (a b : Nat) : Nat × Flags :=
  if t.isFloat then fMinMax t max a b
  else (if (if max then decide (intOf t b > intOf t a) else decide (intOf t b < intOf t a)) then b else a, 0)
/-- One lane of the shifts (R108). -/
def laneSll (t : Elem) (a n : Nat) : Nat := if n < t.width then a * 2 ^ n % 2 ^ t.width else 0
def laneSrl (t : Elem) (a n : Nat) : Nat := if n < t.width then a / 2 ^ n else 0
def laneSra (t : Elem) (a n : Nat) : Nat := wrapInt t.width (sInt t.width a / ((2 ^ Nat.min n (t.width - 1) : Nat) : Int))
/-- One lane of VABS and VNEG (R108). -/
def laneAbs (t : Elem) (sub : BitVec 2) (a : Nat) : Nat × Flags :=
  if t.isFloat then (signAs t a false, 0) else intLane t (sub == 1) ((intOf t a).natAbs : Int)
def laneNeg (t : Elem) (sub : BitVec 2) (a : Nat) : Nat × Flags :=
  if t.isFloat then (signAs t a (!a.testBit (t.width - 1)), 0) else intLane t (sub == 1) (-(intOf t a))

/-- A lane-wise instruction of one vector source and a b operand with the immediate form. -/
def State.vop2 (s : State) (k : Enc) (t : Elem) (m : MReg) (d a : Reg) (b : VSrc) (f : Nat → Nat → Nat × Flags) : Res :=
  .next (s.putV k d (mapLanes t (s.getM m) (s.getV d) fun i => f (laneAt t (s.getV a) i) (s.vsrc t b i)))
/-- A lane-wise instruction of one vector source. -/
def State.vop1 (s : State) (k : Enc) (t : Elem) (m : MReg) (d a : Reg) (f : Nat → Nat × Flags) : Res :=
  .next (s.putV k d (mapLanes t (s.getM m) (s.getV d) fun i => f (laneAt t (s.getV a) i)))
/-- A lane-wise instruction that raises no flag; `f` gives lane i. -/
def State.vbits (s : State) (k : Enc) (t : Elem) (m : MReg) (d : Reg) (f : Nat → Nat) : Res :=
  .next ((s.setV d (mapBits t (s.getM m) (s.getV d) f)).advance k)

def execVadd (k : Enc) (t : Elem) (sub : BitVec 2) (m : MReg) (d : Reg) (a : Reg) (b : VSrc) (s : State) : Res :=
  s.vop2 k t m d a b (laneAdd t sub)
def execVsub (k : Enc) (t : Elem) (sub : BitVec 2) (m : MReg) (d : Reg) (a : Reg) (b : VSrc) (s : State) : Res :=
  s.vop2 k t m d a b (laneSub t sub)
def execVmul (k : Enc) (t : Elem) (sub : BitVec 2) (m : MReg) (d : Reg) (a : Reg) (b : VSrc) (s : State) : Res :=
  s.vop2 k t m d a b (laneMul t sub)
def execVfma (k : Enc) (t : Elem) (sub : BitVec 2) (m : MReg) (d : Reg) (a : Reg) (b : VSrc) (c : Reg) (s : State) : Res :=
  .next (s.putV k d (mapLanes t (s.getM m) (s.getV d) fun i =>
    laneFma t sub (laneAt t (s.getV a) i) (s.vsrc t b i) (laneAt t (s.getV c) i)))
def execVdiv (k : Enc) (t : Elem) (sub : BitVec 2) (m : MReg) (d : Reg) (a : Reg) (b : VSrc) (s : State) : Res :=
  s.vop2 k t m d a b (fDiv t (rndSub sub))
def execVsqrt (k : Enc) (t : Elem) (sub : BitVec 2) (m : MReg) (d : Reg) (a : Reg) (s : State) : Res :=
  s.vop1 k t m d a (fSqrt t (rndSub sub))
def execVmin (k : Enc) (t : Elem) (m : MReg) (d : Reg) (a : Reg) (b : VSrc) (s : State) : Res := s.vop2 k t m d a b (laneMinMax t false)
def execVmax (k : Enc) (t : Elem) (m : MReg) (d : Reg) (a : Reg) (b : VSrc) (s : State) : Res := s.vop2 k t m d a b (laneMinMax t true)
def execVand (k : Enc) (t : Elem) (m : MReg) (d : Reg) (a : Reg) (b : VSrc) (s : State) : Res :=
  s.vbits k t m d fun i => laneAt t (s.getV a) i &&& s.vsrc t b i
def execVor (k : Enc) (t : Elem) (m : MReg) (d : Reg) (a : Reg) (b : VSrc) (s : State) : Res :=
  s.vbits k t m d fun i => laneAt t (s.getV a) i ||| s.vsrc t b i
def execVxor (k : Enc) (t : Elem) (m : MReg) (d : Reg) (a : Reg) (b : VSrc) (s : State) : Res :=
  s.vbits k t m d fun i => laneAt t (s.getV a) i ^^^ s.vsrc t b i
def execVsll (k : Enc) (t : Elem) (m : MReg) (d : Reg) (a : Reg) (b : VSrc) (s : State) : Res :=
  s.vbits k t m d fun i => laneSll t (laneAt t (s.getV a) i) (s.vsrc t b i)
def execVsrl (k : Enc) (t : Elem) (m : MReg) (d : Reg) (a : Reg) (b : VSrc) (s : State) : Res :=
  s.vbits k t m d fun i => laneSrl t (laneAt t (s.getV a) i) (s.vsrc t b i)
def execVsra (k : Enc) (t : Elem) (m : MReg) (d : Reg) (a : Reg) (b : VSrc) (s : State) : Res :=
  s.vbits k t m d fun i => laneSra t (laneAt t (s.getV a) i) (s.vsrc t b i)
def execVabs (k : Enc) (t : Elem) (sub : BitVec 2) (m : MReg) (d : Reg) (a : Reg) (s : State) : Res := s.vop1 k t m d a (laneAbs t sub)
def execVneg (k : Enc) (t : Elem) (sub : BitVec 2) (m : MReg) (d : Reg) (a : Reg) (s : State) : Res := s.vop1 k t m d a (laneNeg t sub)

/-- One lane of VCMP (R109). -/
def laneCmp (cc : Cond) (t : Elem) (a b : Nat) : Bool × Flags :=
  if t.isInt then (Cond.holdsLane cc t.width a b, 0) else fCompare cc (decNum t a) (decNum t b)

/-- VCMP (R109): active lanes below L take the condition, inactive lanes below L keep their bit, and bits above are zero. -/
def execVcmp (k : Enc) (cc : Cond) (t : Elem) (m : MReg) (d : MReg) (a : Reg) (b : VSrc) (s : State) : Res :=
  let mask := s.getM m
  let rs := (List.range t.lanes).map fun i =>
    if laneOn mask i then laneCmp cc t (laneAt t (s.getV a) i) (s.vsrc t b i) else ((s.getM d).getLsbD i, (0 : Flags))
  let w := rs.foldr (fun r n => (if r.1 then 1 else 0) + 2 * n) 0
  .next (((s.setM d (BitVec.ofNat 64 w)).addFlags (rs.foldl (fun f r => f ||| r.2) 0)).advance k)

/-- VSEL (R110): every lane is written. -/
def execVsel (k : Enc) (t : Elem) (m : MReg) (d : Reg) (a : Reg) (b : Reg) (s : State) : Res :=
  let v := vecOfLanes t.width ((List.range t.lanes).map fun i =>
    if laneOn (s.getM m) i then laneAt t (s.getV a) i else laneAt t (s.getV b) i)
  .next ((s.setV d v).advance k)

/-- The elements of a VCVT: source lane, destination lane (R111). -/
def cvtPairs (dst src : Elem) (p : Nat) : List (Nat × Nat × Nat) :=
  let n := Nat.min src.lanes dst.lanes
  (List.range n).map fun i =>
    (i, if src.lanes > dst.lanes then n * p + i else i, if dst.lanes > src.lanes then n * p + i else i)

/-- VCVT (R111). DESIGN CHOICE (log 87): an active element whose .T6 destination lane does not exist raises no flag. -/
def execVcvt (k : Enc) (dst : Elem) (src : Elem) (mode : ScaleMode) (rm : Rnd) (p : BitVec 4) (m : MReg) (d : Reg) (a : Reg) (b : Reg)
    (s : State) : Res :=
  let sc := (s.getX b).toNat % 2 ^ 32
  if mode ≠ .none && !scaleOk sc then .next (s.takeFault s.cur (mkFault .scale 2 (BitVec.ofNat 64 sc) b.toNat))
  else
    let es := cvtPairs dst src p.toNat
    let one (i : Nat) : Nat × Flags :=
      match es.find? fun e => e.2.2 == i && laneOn (s.getM m) e.1 with
      | some e => convertScaled dst src mode rm sc (if e.2.1 < src.lanes then laneAt src (s.getV a) e.2.1 else 0)
      | none => (laneAt dst (s.getV d) i, 0)
    let rs := (List.range dst.lanes).map one
    .next (s.putV k d (vecOfLanes dst.width (rs.map Prod.fst), rs.foldl (fun f r => f ||| r.2) 0))

/-- One result lane of VDOT (R112). DESIGN CHOICE (log 86): beside a NaN term, infinities of both signs raise no NV. -/
def dotLane (t : Elem) (sub : BitVec 2) (va vb vc : Vec) (j : Nat) : Nat × Flags :=
  let g := 32 / t.width
  let qs := (List.range g).map fun i => g * j + i
  if t.isInt then
    intLane .s32 (sub == 1)
      (qs.foldl (fun (n : Int) q => n + intOf t (laneAt t va q) * intOf t (laneAt t vb q)) (intOf .s32 (laneAt .f32 vc j)))
  else
    let ps := qs.map fun q => mulNum (decNum t (laneAt t va q)) (decNum t (laneAt t vb q))
    let c := decNum .f32 (laneAt .f32 vc j)
    let vs := c :: ps.map Prod.fst
    let sum := sumNum (rndSub sub) vs
    let inv := sum.isNaN && !vs.any Num.isNaN
    let fl := ps.foldl (fun f p => f ||| p.2) (sigFlag (c :: qs.flatMap fun q => [decNum t (laneAt t va q), decNum t (laneAt t vb q)]))
    rounded .f32 (rndSub sub) (sum, fl ||| (if inv then flagNV else 0))

def execVdot (k : Enc) (t : Elem) (sub : BitVec 2) (m : MReg) (d : Reg) (a : Reg) (b : Reg) (c : Reg) (s : State) : Res :=
  .next (s.putV k d (mapLanes .f32 (s.getM m) (s.getV d) (dotLane t sub (s.getV a) (s.getV b) (s.getV c))))

/-- A node of the reduction tree (R81): a value or EMPTY, and the flags raised so far. -/
abbrev Leaf := Option Nat × Flags

/-- One level of the tree (R81). -/
def pairUp (op : Nat → Nat → Nat × Flags) : List Leaf → List Leaf
  | p :: q :: r =>
    (match p.1, q.1 with
      | some x, some y => let z := op x y; (some z.1, p.2 ||| q.2 ||| z.2)
      | none, y => (y, p.2 ||| q.2)
      | x, none => (x, p.2 ||| q.2)) :: pairUp op r
  | l => l

/-- The tree of R81, `n` levels high. -/
def reduceTree (op : Nat → Nat → Nat × Flags) : Nat → List Leaf → List Leaf
  | 0, l => l
  | n + 1, l => reduceTree op n (pairUp op l)

/-- The leaves of a reduction: integers as 64-bit words, other lanes decoded exactly to FP32 (R81). -/
def leaves (t : Elem) (m : Word) (v : Vec) : List Leaf :=
  (List.range (if t = .t6 then 128 else t.lanes)).map fun i =>
    if (t == .t6 && decide (i < 85)) || (t != .t6 && laneOn m i) then
      if t.isInt then (some (elemToX t (laneAt t v i)).toNat, 0)
      else if t = .f32 then (some (laneAt t v i), sigFlag [decNum t (laneAt t v i)])
      else let r := convert .f32 t .rne (laneAt t v i); (some r.1, r.2)
    else (none, 0)

/-- A reduction's result and flags: `ident` with no active lane; a NaN is canonical (R67, R81). -/
def reduceOf (t : Elem) (m : Word) (v : Vec) (op : Nat → Nat → Nat × Flags) (ident : Nat) : Nat × Flags :=
  match reduceTree op 7 (leaves t m v) with
  | (some x, f) :: _ => (if !t.isInt && (decNum .f32 x).isNaN then Elem.canonNaN .f32 else x, f)
  | (none, f) :: _ => (ident, f)
  | [] => (ident, 0)

/-- The operations of the integer reductions on 64-bit words (R81, R113). -/
def sum64 (a b : Nat) : Nat × Flags := ((a + b) % 2 ^ 64, 0)
def pick64 (t : Elem) (max : Bool) (a b : Nat) : Nat × Flags := laneMinMax (if t.isSigned then .s64 else .z64) max a b

/-- Writes a reduction's result (R113). -/
def State.putRed (s : State) (k : Enc) (d : Reg) (r : Nat × Flags) : Res :=
  .next (((s.setX d (BitVec.ofNat 64 r.1)).addFlags r.2).advance k)

def execVredsum (k : Enc) (t : Elem) (sub : BitVec 2) (m : MReg) (d : Reg) (a : Reg) (s : State) : Res :=
  s.putRed k d (reduceOf t (s.getM m) (s.getV a) (if t.isInt then sum64 else treeAdd (rndSub sub)) 0)
/-- The identity of a maximum or minimum reduction (R81). -/
def redIdent (t : Elem) (max : Bool) : Nat :=
  if !t.isInt then Elem.canonNaN .f32
  else if t.isSigned then (if max then 2 ^ 63 else 2 ^ 63 - 1)
  else if max then 0 else 2 ^ 64 - 1
def execVredmax (k : Enc) (t : Elem) (m : MReg) (d : Reg) (a : Reg) (s : State) : Res :=
  s.putRed k d (reduceOf t (s.getM m) (s.getV a) (if t.isInt then pick64 t true else fMinMax .f32 true) (redIdent t true))
def execVredmin (k : Enc) (t : Elem) (m : MReg) (d : Reg) (a : Reg) (s : State) : Res :=
  s.putRed k d (reduceOf t (s.getM m) (s.getV a) (if t.isInt then pick64 t false else fMinMax .f32 false) (redIdent t false))

/-- The scan of VARGMAX (R114): the best lane and the first NaN. -/
structure ArgMax where
  best : Option (Nat × Nat)
  nan  : Option Nat
  deriving DecidableEq, Repr

def argStep (t : Elem) (m : Word) (v : Vec) (r : ArgMax) (i : Nat) : ArgMax :=
  let x := laneAt t v i
  if !(t == .t6 || laneOn m i) then r
  else if !t.isInt && (decNum t x).isNaN then { r with nan := if r.nan.isNone then some i else r.nan }
  else
    match r.best with
    | none => { r with best := some (i, x) }
    | some (_, y) =>
      if (if t.isInt then decide (intOf t y < intOf t x) else ltOrd (decNum t y) (decNum t x)) then { r with best := some (i, x) } else r

def execVargmax (k : Enc) (t : Elem) (m : MReg) (d : Reg) (a : Reg) (s : State) : Res :=
  let r := (List.range t.lanes).foldl (argStep t (s.getM m) (s.getV a)) { best := none, nan := none }
  let w := match r.best, r.nan with
    | some (i, _), _ => i
    | none, some i => i
    | none, none => 2 ^ 64 - 1
  s.putRed k d (w, if r.nan.isSome then flagNV else 0)

/-! Permutes, slides, extract and insert (R115). -/
def execVperm (k : Enc) (t : Elem) (m : MReg) (d : Reg) (a : Reg) (b : Reg) (s : State) : Res :=
  s.vbits k t m d fun i =>
    let j := laneAt t (s.getV b) i
    if j < t.lanes then laneAt t (s.getV a) j else 0
def execVslideup (k : Enc) (t : Elem) (m : MReg) (d : Reg) (a : Reg) (n : LaneSrc) (s : State) : Res :=
  let c := s.laneSrc n
  s.vbits k t m d fun i => if c ≤ i then laneAt t (s.getV a) (i - c) else laneAt t (s.getV d) i
def execVslidedn (k : Enc) (t : Elem) (m : MReg) (d : Reg) (a : Reg) (n : LaneSrc) (s : State) : Res :=
  let c := s.laneSrc n
  s.vbits k t m d fun i => if i + c < t.lanes then laneAt t (s.getV a) (i + c) else 0
def execVext (k : Enc) (t : Elem) (d : Reg) (a : Reg) (n : LaneSrc) (s : State) : Res :=
  s.retX k d (if s.laneSrc n < t.lanes then elemToX t (laneAt t (s.getV a) (s.laneSrc n)) else 0)
/-- VINS (R115). DESIGN CHOICE (log 88): with n ≥ L it counts as a write of d, which discards an outstanding load of d (R46). -/
def execVins (k : Enc) (t : Elem) (d : Reg) (a : Reg) (n : LaneSrc) (s : State) : Res :=
  let c := s.laneSrc n
  let v := if c < t.lanes then setBits (s.getV d) (t.width * c) t.width (s.getX a).toNat else s.getV d
  .next ((s.setV d v).advance k)

/-- The active lanes of a mask, ascending. -/
def activeLanes (t : Elem) (m : Word) : List Nat := (List.range t.lanes).filter (laneOn m)
/-- The number of active lanes below a lane (R116). -/
def activeBelow (m : Word) (i : Nat) : Nat := ((List.range i).filter (laneOn m)).length

def execVcompress (k : Enc) (t : Elem) (m : MReg) (d : Reg) (a : Reg) (s : State) : Res :=
  .next ((s.setV d (vecOfLanes t.width ((activeLanes t (s.getM m)).map (laneAt t (s.getV a))))).advance k)
def execVexpand (k : Enc) (t : Elem) (m : MReg) (d : Reg) (a : Reg) (s : State) : Res :=
  s.vbits k t m d fun i => laneAt t (s.getV a) (activeBelow (s.getM m) i)
def execVbcast (k : Enc) (t : Elem) (m : MReg) (d : Reg) (a : Reg) (s : State) : Res :=
  s.vbits k t m d fun _ => elemOfX t (s.getX a)
def execViota (k : Enc) (t : Elem) (m : MReg) (d : Reg) (s : State) : Res :=
  s.vbits k t m d fun i => activeBelow (s.getM m) i
def execVmov (k : Enc) (t : Elem) (m : MReg) (d : Reg) (a : Reg) (s : State) : Res :=
  s.vbits k t m d fun i => laneAt t (s.getV a) i

/-! Mask instructions (R117). -/
def execMand (k : Enc) (d : MReg) (a : MReg) (b : MReg) (s : State) : Res := .next ((s.setM d (s.getM a &&& s.getM b)).advance k)
def execMor (k : Enc) (d : MReg) (a : MReg) (b : MReg) (s : State) : Res := .next ((s.setM d (s.getM a ||| s.getM b)).advance k)
def execMxor (k : Enc) (d : MReg) (a : MReg) (b : MReg) (s : State) : Res := .next ((s.setM d (s.getM a ^^^ s.getM b)).advance k)
def execMnot (k : Enc) (d : MReg) (a : MReg) (s : State) : Res := .next ((s.setM d (~~~(s.getM a))).advance k)
def execMpopc (k : Enc) (d : Reg) (a : MReg) (s : State) : Res := s.retX k d (BitVec.ofNat 64 (popc (s.getM a).toNat 64))
def execMfirst (k : Enc) (d : Reg) (a : MReg) (s : State) : Res := s.retX k d (BitVec.ofNat 64 (ctzFrom (s.getM a).toNat 64))
def execMset (k : Enc) (d : MReg) (a : Reg) (s : State) : Res := .next ((s.setM d (s.getX a)).advance k)
def execMget (k : Enc) (d : Reg) (a : MReg) (s : State) : Res := s.retX k d (s.getM a)

end Sys2Proof.Machine
end

