-- ==== Sys2Proof/Machine/Mem.lean ====
section
/-! DEFINITION. The meanings of the loads, stores, counting and cache instructions (R144 to R151). -/

namespace Sys2Proof.Machine

/-- The thread of the current slot. -/
def State.me (s : State) : Thr := s.thr s.cur

/-- The bytes of an element. -/
def Elem.size (t : Elem) : Nat := t.width / 8

/-- A scalar load (R145). -/
def State.loadX (s : State) (k : Enc) (t : Elem) (o : MemOp) (d : Reg) : Except FaultInfo State := do
  let ps ← s.check s.me o.pl .load false (s.ea o) (Elem.size t) (Elem.size t) 0
  let r := s.loadPieces s.me ps
  .ok ((r.1.reqX d (elemToX t r.2)).advance k)

/-- A scalar store (R145). -/
def State.storeX (s : State) (k : Enc) (t : Elem) (o : MemOp) (d : Reg) : Except FaultInfo State := do
  let ps ← s.check s.me o.pl .store false (s.ea o) (Elem.size t) (Elem.size t) 0
  .ok ((s.storePieces s.me ps (elemOfX t (s.getX d))).advance k)

def execLd (k : Enc) (t : Elem) (o : MemOp) (d : Reg) (s : State) : Res := s.finish (s.loadX k t o d)

/-- LD.C (R133 to R135, R145). -/
def execLdC (k : Enc) (t : Elem) (o : MemOp) (d : Reg) (s : State) : Res :=
  s.finish do
    let ps ← s.check s.me o.pl .consume false (s.ea o) (Elem.size t) (Elem.size t) s.mult
    let r := s.consumePieces s.me ps s.mult
    .ok ((r.1.reqX d (elemToX t r.2)).advance k)

def execSt (k : Enc) (t : Elem) (o : MemOp) (d : Reg) (s : State) : Res := s.finish (s.storeX k t o d)

/-- LDQ (R145): one 16-byte access. -/
def execLdq (k : Enc) (o : MemOp) (d : Reg) (s : State) : Res :=
  s.finish do
    let ps ← s.check s.me o.pl .load false (s.ea o) 16 16 0
    let r := s.loadPieces s.me ps
    .ok (((r.1.reqX d (BitVec.ofNat 64 r.2)).reqX (d + 1) (BitVec.ofNat 64 (r.2 / 2 ^ 64))).advance k)

/-- STQ (R145). -/
def execStq (k : Enc) (o : MemOp) (d : Reg) (s : State) : Res :=
  s.finish do
    let ps ← s.check s.me o.pl .store false (s.ea o) 16 16 0
    .ok ((s.storePieces s.me ps ((s.getX d).toNat + (s.getX (d + 1)).toNat * 2 ^ 64)).advance k)

/-- Every lane of a type is active. -/
def allOn (t : Elem) (m : Word) : Bool := (List.range t.lanes).all (laneOn m)

/-- Checks the runs of one element after its layout and alignment (R144 steps 3 to 5). -/
def State.checkRuns (s : State) (t : Thr) (sp : Space) (k : AccKind) (vec : Bool) (addr : Word) (n m : Nat) :
    Except FaultInfo (List Piece) := do
  let ps ← s.resolveRuns t sp k vec addr 0 n (n + 1)
  s.checkAllCounts t sp k m ps
  .ok ps

/-- Checks the elements of a list of lanes in ascending order, each in the order of R144. -/
def State.checkEach (s : State) (t : Thr) (e : Elem) (sp : Space) (k : AccKind) : List (Nat × Word) → Except FaultInfo (List (Nat × List Piece))
  | [] => .ok []
  | (i, a) :: r => do
    let ps ← s.check t sp k false a (Elem.size e) (Elem.size e) 0
    let rest ← State.checkEach s t e sp k r
    .ok ((i, ps) :: rest)

/-- A lane's run: in a launch window, where it is part of a 64-byte access (R146), two runs of a wrong width (R323). -/
def Piece.ofLane (p : Piece) : List Piece :=
  match p.place with
  | .buf .. => [p]
  | .glob x =>
    if p.n = 8 && regionOf x.pa == .launch then [{ p with n := 4 }, { off := p.off + 4, n := 4, addr := p.addr + 4, place := p.place.plus 4 }] else [p]

/-- Checks the active lanes of a 64-byte access, in ascending order (R146). -/
def State.checkActive (s : State) (t : Thr) (e : Elem) (sp : Space) (k : AccKind) (addr : Word) : List Nat →
    Except FaultInfo (List (Nat × List Piece))
  | [] => .ok []
  | i :: r => do
    let ps ← s.checkRuns t sp k true (addr + BitVec.ofNat 64 (Elem.size e * i)) (Elem.size e) 0
    let rest ← State.checkActive s t e sp k addr r
    .ok ((i, ps.flatMap Piece.ofLane) :: rest)

/-- The alignment a vector access needs (R146). -/
def vecAlign (e : Elem) : Nat := if e = .t6 then 64 else Elem.size e

/-- An access to A or W narrower than the port (R118, R146). -/
def portNarrow (sp : Space) (addr : Word) : Bool :=
  let buf := match sp with | .i => addr.toNat / 2 ^ 20 | .g => 0 | _ => bufOf addr.toNat
  (buf == 1 || buf == 2) && decide (addr.toNat % 64 ≠ 0)

/-- The bits of a vector register that elements of a type can hold: of .T6, the upper two read and write as zero (R75). -/
def Elem.regBits (t : Elem) : Nat := if t = .t6 then 510 else 512

/-- 64 bytes as a register of a type. -/
def Elem.whole (t : Elem) (n : Nat) : Vec := BitVec.ofNat 512 (n % 2 ^ Elem.regBits t)

/-- The checked runs of VLD or VST: the 64 bytes whole, or those of its active lanes (R146). -/
inductive VecRuns where
  | whole (ps : List Piece)
  | lanes (ls : List (Nat × List Piece))
  deriving DecidableEq, Repr

/-- The checks of VLD and VST (R144, R146): those of each active lane in ascending order, a .T6 vector's 64 bytes as one. -/
def State.checkVec (s : State) (e : Elem) (sp : Space) (k : AccKind) (m : Word) (addr : Word) : Except FaultInfo VecRuns := do
  localLayout sp addr 64
  if addr.toNat % vecAlign e ≠ 0 then .error (mkFault .misalign 0 addr 0)
  else if e = .t6 then (s.checkRuns s.me sp k true addr 64 0).map .whole
  else
    let as := activeLanes e m
    if portNarrow sp addr && !as.isEmpty then .error (mkFault .permission 2 addr 0)
    else do
      let ls ← s.checkActive s.me e sp k addr as
      if allOn e m then (s.checkRuns s.me sp k true addr 64 0).map .whole else .ok (.lanes ls)

/-- Loads checked lanes over the register's latest value (R104). -/
def State.loadLanes (s : State) (e : Elem) (old : Vec) (ls : List (Nat × List Piece)) : State × Vec :=
  ls.foldl (fun a l =>
    let r := a.1.loadPieces a.1.me l.2
    (r.1, setBits a.2 (e.width * l.1) e.width r.2)) (s, old)

/-- Stores the lanes of a register to checked lanes, in ascending order (R147). -/
def State.storeLanes (s : State) (e : Elem) (v : Vec) (ls : List (Nat × List Piece)) : State :=
  ls.foldl (fun s l => s.storePieces s.me l.2 (laneAt e v l.1)) s

/-- The latest value of a vector register of the current slot. -/
def State.lastV (s : State) (d : Reg) : Vec := (s.slot s.cur).latestV d

/-- VLD (R146). -/
def execVld (k : Enc) (t : Elem) (o : MemOp) (m : MReg) (d : Reg) (s : State) : Res :=
  s.finish do
    match ← s.checkVec t o.pl .load (s.getM m) (s.ea o) with
    | .whole ps =>
      let r := s.loadPieces s.me ps
      .ok ((r.1.reqV d (Elem.whole t r.2)).advance k)
    | .lanes ls =>
      let r := s.loadLanes t (s.lastV d) ls
      .ok ((r.1.reqV d r.2).advance k)

/-- VLD.C (R133 to R135, R146): every unit of the 64 bytes is consumed, whatever the mask. -/
def execVldC (k : Enc) (t : Elem) (o : MemOp) (m : MReg) (d : Reg) (s : State) : Res :=
  s.finish do
    localLayout o.pl (s.ea o) 64
    if (s.ea o).toNat % vecAlign t ≠ 0 then .error (mkFault .misalign 0 (s.ea o) 0)
    else if portNarrow o.pl (s.ea o) then .error (mkFault .permission 2 (s.ea o) 0)
    else
      let ps ← s.checkRuns s.me o.pl .consume true (s.ea o) 64 s.mult
      let r := s.consumePieces s.me ps s.mult
      let v := Elem.whole t r.2
      .ok ((r.1.reqV d (if t = .t6 then v else mapBits t (s.getM m) (s.lastV d) (laneAt t v))).advance k)

/-- VST (R146). -/
def execVst (k : Enc) (t : Elem) (o : MemOp) (m : MReg) (d : Reg) (s : State) : Res :=
  s.finish do
    match ← s.checkVec t o.pl .store (s.getM m) (s.ea o) with
    | .whole ps => .ok ((s.storePieces s.me ps (Elem.whole t (s.getV d).toNat).toNat).advance k)
    | .lanes ls => .ok ((s.storeLanes t (s.getV d) ls).advance k)

/-- The active lanes with their addresses under a gather or scatter (R147). -/
def State.gatherAddrs (s : State) (t : Elem) (o : MemOp) (m : MReg) (b : Reg) : List (Nat × Word) :=
  (activeLanes t (s.getM m)).map fun i => (i, s.ea o + BitVec.ofInt 64 (sInt t.width (laneAt t (s.getV b) i)))

/-- The active lanes with their addresses under a strided access (R146). -/
def State.strideAddrs (s : State) (t : Elem) (o : MemOp) (m : MReg) (b : Reg) : List (Nat × Word) :=
  (activeLanes t (s.getM m)).map fun i => (i, s.ea o + BitVec.ofNat 64 i * s.getX b)

/-- Loads separately addressed lanes. -/
def State.loadEach (s : State) (k : Enc) (t : Elem) (sp : Space) (d : Reg) (as : List (Nat × Word)) : Except FaultInfo State := do
  let ls ← s.checkEach s.me t sp .load as
  let r := s.loadLanes t (s.lastV d) ls
  .ok ((r.1.reqV d r.2).advance k)

/-- Stores separately addressed lanes. -/
def State.storeEach (s : State) (k : Enc) (t : Elem) (sp : Space) (d : Reg) (as : List (Nat × Word)) : Except FaultInfo State := do
  let ls ← s.checkEach s.me t sp .store as
  .ok ((s.storeLanes t (s.getV d) ls).advance k)

def execVgather (k : Enc) (t : Elem) (o : MemOp) (m : MReg) (d : Reg) (b : Reg) (s : State) : Res :=
  s.finish (s.loadEach k t o.pl d (s.gatherAddrs t o m b))
def execVscatter (k : Enc) (t : Elem) (o : MemOp) (m : MReg) (d : Reg) (b : Reg) (s : State) : Res :=
  s.finish (s.storeEach k t o.pl d (s.gatherAddrs t o m b))
def execVlds (k : Enc) (t : Elem) (o : MemOp) (m : MReg) (d : Reg) (b : Reg) (s : State) : Res :=
  s.finish (s.loadEach k t o.pl d (s.strideAddrs t o m b))
def execVsts (k : Enc) (t : Elem) (o : MemOp) (m : MReg) (d : Reg) (b : Reg) (s : State) : Res :=
  s.finish (s.storeEach k t o.pl d (s.strideAddrs t o m b))

/-- The counting unit of an address (R131). -/
def unitBytes (sp : Space) (addr : Word) : Nat :=
  match sp with
  | .g => 128
  | _ => rowBytes (bufOf addr.toNat)

/-- The checks of ARM and RETIRE: layout, alignment to the counting unit, translation, rights and ports (R144, R148, R149). A buffer that
refuses ARM refuses an empty range too. -/
def State.checkRegion (s : State) (sp : Space) (k : AccKind) (addr : Word) (n : Nat) : Except FaultInfo (List Piece) := do
  localLayout sp addr n
  let u := unitBytes sp addr
  let off := match sp with | .g => addr.toNat | _ => addr.toNat % 2 ^ 17
  if off % u ≠ 0 || n % u ≠ 0 then .error (mkFault .misalign 0 addr 0)
  else if sp ≠ .g && !portOk (bufOf addr.toNat) k false then .error (mkFault .permission 2 addr 0)
  else s.resolveRuns s.me sp k false addr 0 n (n + 1)

/-- The count of a unit at the level an ARM names (R148). -/
def State.countAt (s : State) (home : Bool) (u : CUnit) : Nat :=
  match u with
  | .row c r => (s.core c).counts.getD r 0
  | .line tag v p => if home then s.homeCount tag p else s.clusterCount s.me tag v

/-- The set of a line at the level an ARM names, how many counted lines of the partition are in it, spilled from it (R140) or on their way there
(R210), and the counted ways it has there (R139). -/
def State.armSet (s : State) (t : Thr) (home : Bool) (u : CUnit) : Nat × Nat × Nat :=
  let k := (s.part t.part).cfg
  match u with
  | .row .. => (0, 0, 0)
  | .line _ v l =>
    if home then
      (l / 2 ^ 29 * 2 ^ 14 + l % 2 ^ 14,
        s.homeCountedIn t.part l + s.homeSpilledIn t.part l + s.homeReservedIn t.part l, k.hcways)
    else
      (v % 2048,
        s.countedIn t.cluster t.part (v % 2048) + s.spilledIn t.cluster t.part (v % 2048) + s.reservedIn t.cluster t.part (v % 2048),
        s.ccwaysIn t.cluster t.part)

/-- The counted ways give room for every unit of an ARM or of a counted fill (R139, R210). DESIGN CHOICE (log 123): a line of a fill that is counted
already is taken to need one more. -/
def State.armRoom (s : State) (t : Thr) (home : Bool) (us : List CUnit) : Bool :=
  us.all fun u =>
    match u with
    | .row .. => true
    | .line .. =>
      let a := s.armSet t home u
      let same := us.filter fun w => (s.armSet t home w).1 == a.1
      decide (a.2.1 + same.length ≤ a.2.2)

/-- One unit becomes counted (R132, R142, R148). -/
def State.armUnit (s : State) (t : Thr) (home : Bool) (n : Nat) (u : CUnit) : State :=
  match u with
  | .row c r => s.modCore c fun k => { k with counts := k.counts.set r n }
  | .line tag v p =>
    let mine (l : CLine) : Bool := l.part == t.part && l.asid.toNat == tag && l.vline == v
    let s := s.fetchBack t u
    if home then
      let s := s.flush t.cluster true mine
      let h : HomeLine := { part := t.part, asid := BitVec.ofNat 11 tag, data := BitVec.ofNat 1024 (s.spaceRead tag (p * 128) 128), count := n, spill := none }
      State.trimHome { s with home := s.home.set (homeKey tag p) h, copies := s.copies.erase (homeKey tag p) } t.part p
    else
      let s := s.fillLine t tag v p
      let s := s.modCluster t.cluster fun c => { c with lines := c.lines.map fun l => if mine l then { l with count := n } else l }
      trimSet t.cluster t.part (v % 2048) 12 s

/-- ARM and ARM.H (R148). -/
def State.armWith (s : State) (k : Enc) (home : Bool) (o : MemOp) (d b c : Reg) : Except FaultInfo State := do
  let n := (s.getX b).toNat
  let cnt := (s.getX c).toNat % 256
  let ps ← s.checkRegion o.pl (if home then .armH else .arm) (s.ea o) n
  let us := ps.flatMap Piece.units
  let done (s : State) (v : Word) : Except FaultInfo State := .ok ((s.reqX d v).advance k)
  if cnt = 0 then done s 3
  else
  let s := s.noteRuns s.me ps
  if n = 0 then done s 0
  else if us.any fun u => decide (s.countAt home u ≠ 0) then done s 2
  else if !s.armRoom s.me home us then done s 1
  else done (us.foldl (fun s u => s.armUnit s.me home cnt u) s) 0

def execArm (k : Enc) (o : MemOp) (d : Reg) (b : Reg) (c : Reg) (s : State) : Res := s.finish (s.armWith k false o d b c)
def execArmH (k : Enc) (o : MemOp) (d : Reg) (b : Reg) (c : Reg) (s : State) : Res := s.finish (s.armWith k true o d b c)

/-- The counts of a unit at every level a RETIRE reaches (R138). -/
def State.retireCounts (s : State) (u : CUnit) : Nat × Nat :=
  match u with
  | .row c r => ((s.core c).counts.getD r 0, 0)
  | .line tag v p => (s.clusterCount s.me tag v, s.homeCount tag p)

/-- The first unit of a region that a running job has claimed (R206). -/
def State.firstClaim (s : State) (us : List CUnit) : Option (Nat × Nat) :=
  us.findSome? fun u =>
    match u with
    | .row c r => if s.claimsOn c r ≠ 0 then some (c, r) else none
    | .line .. => none

/-- RETIRE (R138, R149): it waits for a job that has claimed a unit of the region (R206). DESIGN CHOICE (log 89): of a line counted at both
levels the packet names the cluster's count. -/
def execRetire (k : Enc) (o : MemOp) (d : Reg) (b : Reg) (s : State) : Res :=
  s.finish do
    let ps ← s.checkRegion o.pl .retire (s.ea o) (s.getX b).toNat
    let us := ps.flatMap Piece.units
    let s := s.noteRuns s.me ps
    match s.firstClaim us with
    | some (c, r) => .ok (s.sleepOn (.claim c r))
    | none =>
      match us.find? fun u => s.retireCounts u != (0, 0) with
      | some u =>
        let n := s.retireCounts u
        .error (mkFault .underRead 0 (u.addr o.pl) (if n.1 ≠ 0 then n.1 else n.2))
      | none => .ok ((s.reqX d 0).advance k)

/-- A unit is shed whatever its count, at every level (R134, R138). -/
def State.shed (s : State) (u : CUnit) : State :=
  let n := s.retireCounts u
  match u with
  | .row .. => if n.1 ≠ 0 then s.decrement s.me n.1 false u else s
  | .line tag v p =>
    let s := if n.1 ≠ 0 then s.decrementLine s.me n.1 tag v else s
    if n.2 ≠ 0 then s.decrementHome n.2 tag p else s

/-- RETIRE.FORCE (R138, R149). -/
def execRetireForce (k : Enc) (o : MemOp) (d : Reg) (b : Reg) (s : State) : Res :=
  s.finish do
    let ps ← s.checkRegion o.pl .retireForce (s.ea o) (s.getX b).toNat
    let us := ps.flatMap Piece.units
    let s := s.noteRuns s.me ps
    match s.firstClaim us with
    | some (c, r) => .ok (s.sleepOn (.claim c r))
    | none =>
      let sum := us.foldl (fun n u => n + (s.retireCounts u).1 + (s.retireCounts u).2) 0
      .ok (((us.foldl State.shed s).reqX d (BitVec.ofNat 64 sum)).advance k)

/-- The lines a cache instruction's range names: those of its thread's memory, on pages that have a mapping (R150). Where `far` is false,
lines homed on other packages stay. -/
def State.rangeLine (s : State) (t : Thr) (addr n : Nat) (far : Bool) (l : CLine) : Bool :=
  l.part == t.part && decide (0 < n) && decide (addr / 128 ≤ l.vline) && decide (l.vline ≤ (addr + n - 1) / 128) &&
    (far || decide (l.pline < 2 ^ 48)) &&
    match s.lookup t (BitVec.ofNat 64 (l.vline * 128)) with
    | .ok (pte, _) => l.asid.toNat == (if pte.testBit 9 then 0 else t.asid)
    | .error _ => false

/-- CINV and CWB (R150): CINV reaches every line of the range, CWB those homed on other packages at fabric scope only. -/
def State.cacheOp (s : State) (k : Enc) (drop : Bool) (sc : Scope) (o : MemOp) (b : Reg) (i : Instr) : Except FaultInfo State := do
  s.checkScope sc i
  let n := (s.getX b).toNat
  localLayout .g (s.ea o) n
  match s.reachOf sc with
  | .inside => .ok (s.advance k)
  | r => .ok ((s.flush s.me.cluster drop (s.rangeLine s.me (s.ea o).toNat n (drop || r == .fabric))).advance k)

def execCinv (k : Enc) (sc : Scope) (o : MemOp) (b : Reg) (s : State) : Res := s.finish (s.cacheOp k true sc o b (.cinv k sc o b))
def execCwb (k : Enc) (sc : Scope) (o : MemOp) (b : Reg) (s : State) : Res := s.finish (s.cacheOp k false sc o b (.cwb k sc o b))

/-- One line is prefetched; a line whose load would fault is skipped (R151). -/
def State.prefLine (s : State) (va : Nat) : State :=
  let t := s.me
  match s.checkRuns t .g .load false (BitVec.ofNat 64 va) 128 0 with
  | .ok [{ place := .glob x, .. }] =>
    let s := s.fetchBack t (.line x.tag (x.va / 128) (x.pa / 128))
    if s.cacheable t x then (s.tlbFill t x).fillLine t x.tag (x.va / 128) (x.pa / 128) else s
  | _ => s

/-- PREF (R151). -/
def execPref (k : Enc) (o : MemOp) (b : Reg) (s : State) : Res :=
  let a := (s.ea o).toNat
  let n := (s.getX b).toNat
  let lines := if n = 0 || a ≥ 2 ^ 56 then 0 else (Nat.min (a + n - 1) (2 ^ 56 - 1)) / 128 - a / 128 + 1
  .next (((List.range lines).foldl (fun s i => s.prefLine ((a / 128 + i) * 128)) s).advance k)

end Sys2Proof.Machine
end

