-- ==== Sys2Proof/Machine/Sync.lean ====
section
/-! DEFINITION. The meanings of the atomic and synchronising instructions (R176 to R190). -/

namespace Sys2Proof.Machine

/-- The release an ordering code asks for before the access (R181). -/
def State.ordBefore (s : State) (ord : Ordering) (sc : Scope) : State :=
  match ord with
  | .rel | .un => s.release s.me (s.reachOf sc)
  | .none | .acq => s

/-- The acquire an ordering code asks for after the access (R181). -/
def State.ordAfter (s : State) (ord : Ordering) (sc : Scope) : State :=
  match ord with
  | .acq => s.acquire s.me (s.reachOf sc)
  | .none | .rel | .un => s

/-- An atomic or RED form (R176 to R181): one read and one write at the serialisation point. `d` receives the old value where there is one. -/
def State.amo (s : State) (k : Enc) (i : Instr) (t : Elem) (ord : Ordering) (sc : Scope) (o : MemOp) (d : Option Reg) (f : Nat → Nat) :
    Except FaultInfo State := do
  s.checkScope sc i
  let ps ← s.check s.me o.pl .atomic false (s.ea o) (Elem.size t) (Elem.size t) 0
  let r := (s.ordBefore ord sc).atomicRead s.me ps
  let s := (r.1.writePoints ps (f r.2 % 2 ^ t.width)).ordAfter ord sc
  .ok ((match d with | some d => s.reqX d (elemToX t r.2) | none => s).advance k)

/-- The operand of an atomic (R178). -/
def State.amoArg (s : State) (t : Elem) (b : Reg) : Nat := elemOfX t (s.getX b)

/-- The operations of R178. -/
def State.opAdd (s : State) (t : Elem) (b : Reg) (v : Nat) : Nat := v + s.mult * s.amoArg t b
def State.opMinMax (s : State) (t : Elem) (max : Bool) (b : Reg) (v : Nat) : Nat := (laneMinMax t max v (s.amoArg t b)).1
/-- FADD at multiplicity `m`: the exact m·arg is added to `v` with one rounding (R179). -/
def faddOf (m arg v : Nat) : Nat :=
  (rounded .f32 .rne (addNum .rne (decNum .f32 v) (mulNum (decNum .f32 arg) (.fin false m 0)).1)).1
def State.opFadd (s : State) (b : Reg) (v : Nat) : Nat := faddOf s.mult (s.amoArg .f32 b) v

def execAmoadd (k : Enc) (t : Elem) (ord : Ordering) (sc : Scope) (o : MemOp) (d : Reg) (b : Reg) (s : State) : Res :=
  s.finish (s.amo k (.amoadd k t ord sc o d b) t ord sc o (some d) (s.opAdd t b))
def execAmoand (k : Enc) (t : Elem) (ord : Ordering) (sc : Scope) (o : MemOp) (d : Reg) (b : Reg) (s : State) : Res :=
  s.finish (s.amo k (.amoand k t ord sc o d b) t ord sc o (some d) (fun v => v &&& s.amoArg t b))
def execAmoor (k : Enc) (t : Elem) (ord : Ordering) (sc : Scope) (o : MemOp) (d : Reg) (b : Reg) (s : State) : Res :=
  s.finish (s.amo k (.amoor k t ord sc o d b) t ord sc o (some d) (fun v => v ||| s.amoArg t b))
def execAmoxor (k : Enc) (t : Elem) (ord : Ordering) (sc : Scope) (o : MemOp) (d : Reg) (b : Reg) (s : State) : Res :=
  s.finish (s.amo k (.amoxor k t ord sc o d b) t ord sc o (some d) (fun v => v ^^^ s.amoArg t b))
def execAmomin (k : Enc) (t : Elem) (ord : Ordering) (sc : Scope) (o : MemOp) (d : Reg) (b : Reg) (s : State) : Res :=
  s.finish (s.amo k (.amomin k t ord sc o d b) t ord sc o (some d) (s.opMinMax t false b))
def execAmomax (k : Enc) (t : Elem) (ord : Ordering) (sc : Scope) (o : MemOp) (d : Reg) (b : Reg) (s : State) : Res :=
  s.finish (s.amo k (.amomax k t ord sc o d b) t ord sc o (some d) (s.opMinMax t true b))
/-- AMOSWAP at m > 1 without .ONCE freezes with MULT (R179). -/
def execAmoswap (k : Enc) (t : Elem) (ord : Ordering) (sc : Scope) (o : MemOp) (d : Reg) (b : Reg) (s : State) : Res :=
  s.finish do
    s.refuseMult
    s.amo k (.amoswap k t ord sc o d b) t ord sc o (some d) (fun _ => s.amoArg t b)
def execAmoswapOnce (k : Enc) (t : Elem) (ord : Ordering) (sc : Scope) (o : MemOp) (d : Reg) (b : Reg) (s : State) : Res :=
  s.finish (s.amo k (.amoswapOnce k t ord sc o d b) t ord sc o (some d) (fun _ => s.amoArg t b))
/-- AMOCAS: b holds the expected value and b + 1 the new one (R178). -/
def State.opCas (s : State) (t : Elem) (b : Reg) (v : Nat) : Nat := if v = s.amoArg t b then s.amoArg t (b + 1) else v
def execAmocas (k : Enc) (t : Elem) (ord : Ordering) (sc : Scope) (o : MemOp) (d : Reg) (b : Reg) (s : State) : Res :=
  s.finish do
    s.refuseMult
    s.amo k (.amocas k t ord sc o d b) t ord sc o (some d) (s.opCas t b)
def execAmocasOnce (k : Enc) (t : Elem) (ord : Ordering) (sc : Scope) (o : MemOp) (d : Reg) (b : Reg) (s : State) : Res :=
  s.finish (s.amo k (.amocasOnce k t ord sc o d b) t ord sc o (some d) (s.opCas t b))
def execAmofadd (k : Enc) (t : Elem) (ord : Ordering) (sc : Scope) (o : MemOp) (d : Reg) (b : Reg) (s : State) : Res :=
  s.finish (s.amo k (.amofadd k t ord sc o d b) t ord sc o (some d) (s.opFadd b))
def execRedAdd (k : Enc) (t : Elem) (ord : Ordering) (sc : Scope) (o : MemOp) (b : Reg) (s : State) : Res :=
  s.finish (s.amo k (.redAdd k t ord sc o b) t ord sc o none (s.opAdd t b))
def execRedAnd (k : Enc) (t : Elem) (ord : Ordering) (sc : Scope) (o : MemOp) (b : Reg) (s : State) : Res :=
  s.finish (s.amo k (.redAnd k t ord sc o b) t ord sc o none (fun v => v &&& s.amoArg t b))
def execRedOr (k : Enc) (t : Elem) (ord : Ordering) (sc : Scope) (o : MemOp) (b : Reg) (s : State) : Res :=
  s.finish (s.amo k (.redOr k t ord sc o b) t ord sc o none (fun v => v ||| s.amoArg t b))
def execRedXor (k : Enc) (t : Elem) (ord : Ordering) (sc : Scope) (o : MemOp) (b : Reg) (s : State) : Res :=
  s.finish (s.amo k (.redXor k t ord sc o b) t ord sc o none (fun v => v ^^^ s.amoArg t b))
def execRedMin (k : Enc) (t : Elem) (ord : Ordering) (sc : Scope) (o : MemOp) (b : Reg) (s : State) : Res :=
  s.finish (s.amo k (.redMin k t ord sc o b) t ord sc o none (s.opMinMax t false b))
def execRedMax (k : Enc) (t : Elem) (ord : Ordering) (sc : Scope) (o : MemOp) (b : Reg) (s : State) : Res :=
  s.finish (s.amo k (.redMax k t ord sc o b) t ord sc o none (s.opMinMax t true b))
def execRedFadd (k : Enc) (t : Elem) (ord : Ordering) (sc : Scope) (o : MemOp) (b : Reg) (s : State) : Res :=
  s.finish (s.amo k (.redFadd k t ord sc o b) t ord sc o none (s.opFadd b))

/-! ### Queued reservations (R182, R183) -/

/-- The word of a checked access by which a reservation is held (R182). -/
def firstLoc8 (ps : List Piece) : Loc :=
  match ps with
  | p :: _ => p.loc8
  | [] => .phys 0

/-- A task joins a word's reservation queue (R182). DESIGN CHOICE (log 90): a task that stands in it keeps its place. -/
def joinResv (rs : List Resv) (l : Loc) (t : TaskId) : List Resv :=
  if rs.any (fun r => r.loc == l) then
    rs.map fun r => if r.loc == l && !r.queue.contains t then { r with queue := r.queue ++ [t] } else r
  else rs ++ [{ loc := l, queue := [t], granted := false, broken := false }]

/-- The head of a queue takes the reservation, afresh (R182, R183). DESIGN CHOICE (log 124): LRW returns, for R183, in the step in which it
performs. -/
def grantResv (rs : List Resv) (l : Loc) : List Resv :=
  rs.map fun r => if r.loc == l then { r with granted := true, broken := false } else r

/-- LRW (R182). -/
def execLrw (k : Enc) (t : Elem) (ord : Ordering) (sc : Scope) (o : MemOp) (d : Reg) (s : State) : Res :=
  s.finish do
    s.refuseMult
    s.checkScope sc (.lrw k t ord sc o d)
    let ps ← s.checkS s.me o.pl .load (s.ea o) (Elem.size t) (Elem.size t)
    let l := firstLoc8 ps
    let me := s.ctx.task
    let s := { s with resv := s.resv.filterMap fun (r : Resv) => if r.loc == l then some r else r.leave me }
    let s := { s with resv := joinResv s.resv l me }
    match s.resvAt l with
    | some r =>
      if r.queue.head? == some me then
        let a := (s.ordBefore ord sc).atomicRead s.me ps
        let s := { a.1 with resv := grantResv a.1.resv l }
        .ok (((s.ordAfter ord sc).reqX d (elemToX t a.2)).advance k)
      else .ok (s.sleepOn (.reserve l))
    | none => .ok s

/-- SCH and SCH.DROP (R183). -/
def State.schWith (s : State) (k : Enc) (drop : Bool) (i : Instr) (t : Elem) (ord : Ordering) (sc : Scope) (o : MemOp) (d b : Reg) :
    Except FaultInfo State := do
  s.refuseMult
  s.checkScope sc i
  let ps ← s.check s.me o.pl .atomic false (s.ea o) (Elem.size t) (Elem.size t) 0
  let l := firstLoc8 ps
  let me := s.ctx.task
  let held (s : State) : Option Resv := s.resv.find? fun r => r.loc == l && r.granted && r.queue.head? == some me
  let s := (s.ordBefore ord sc).atPoint s.me ps
  match held s with
  | none => .ok (((s.ordAfter ord sc).reqX d 1).advance k)
  | some r =>
    let ok := !drop && !r.broken
    let s := if ok then s.writePoints ps (s.amoArg t b) else s
    .ok ((((s.passResv me).ordAfter ord sc).reqX d (if ok then 0 else 1)).advance k)

def execSch (k : Enc) (t : Elem) (ord : Ordering) (sc : Scope) (o : MemOp) (d : Reg) (b : Reg) (s : State) : Res :=
  s.finish (s.schWith k false (.sch k t ord sc o d b) t ord sc o d b)
def execSchDrop (k : Enc) (t : Elem) (ord : Ordering) (sc : Scope) (o : MemOp) (d : Reg) (b : Reg) (s : State) : Res :=
  s.finish (s.schWith k true (.schDrop k t ord sc o d b) t ord sc o d b)

/-! ### Fences and ordered loads and stores (R164, R189) -/

def execFence (k : Enc) (ord : Ordering) (sc : Scope) (s : State) : Res :=
  s.finish do
    s.checkScope sc (.fence k ord sc)
    .ok (((s.release s.me (s.reachOf sc)).acquire s.me (s.reachOf sc)).advance k)

/-- LDA: as LD, then an acquire (R163, R189). -/
def execLda (k : Enc) (t : Elem) (sc : Scope) (o : MemOp) (d : Reg) (s : State) : Res :=
  s.finish do
    s.checkScope sc (.lda k t sc o d)
    let ps ← s.check s.me o.pl .load false (s.ea o) (Elem.size t) (Elem.size t) 0
    let r := s.loadPieces s.me ps
    .ok (((r.1.acquire s.me (s.reachOf sc)).reqX d (elemToX t r.2)).advance k)

/-- STL: a release, then as ST (R162, R189). -/
def execStl (k : Enc) (t : Elem) (ord : Ordering) (sc : Scope) (o : MemOp) (d : Reg) (s : State) : Res :=
  s.finish do
    s.checkScope sc (.stl k t ord sc o d)
    let ps ← s.check s.me o.pl .store false (s.ea o) (Elem.size t) (Elem.size t) 0
    .ok (((s.release s.me (s.reachOf sc)).storePieces s.me ps (elemOfX t (s.getX d))).advance k)

/-! ### Barrier words (R184 to R188) -/

/-- The fields of a barrier word (R184). -/
structure Bar where
  expt  : Nat
  arrt  : Nat
  expb  : Nat
  arrb  : Nat
  phase : Nat
  ovf   : Nat
  gen   : Nat
  deriving DecidableEq, Repr

def barOf (n : Nat) : Bar :=
  { expt := bits n 15 0, arrt := bits n 31 16, expb := bits n 63 32, arrb := bits n 95 64, phase := bits n 96 96, ovf := bits n 97 97,
    gen := bits n 127 98 }

/-- The word's low 16 bytes with a barrier's fields; its reserved bits stay. -/
def barNat (b : Bar) : Nat :=
  b.expt + b.arrt * 2 ^ 16 + b.expb * 2 ^ 32 + b.arrb * 2 ^ 64 + b.phase * 2 ^ 96 + b.ovf * 2 ^ 97 + b.gen * 2 ^ 98

/-- A ticket is bits [127:96] of the word (R184). -/
def barTicket (n : Nat) : Nat := bits n 127 96

/-- update of R185. -/
def Bar.update (b : Bar) (dT dB : Nat) : Bar :=
  { b with
    arrt := Nat.min (b.arrt + dT) 0xFFFF, arrb := Nat.min (b.arrb + dB) (2 ^ 32 - 1)
    ovf := if b.arrt + dT > 0xFFFF || b.arrb + dB > 2 ^ 32 - 1 then 1 else b.ovf }

/-- check of R185: at most one completion. -/
def Bar.check (b : Bar) : Bar :=
  if b.arrt ≥ b.expt && b.arrb ≥ b.expb then
    { b with
      ovf := if b.arrt > b.expt || b.arrb > b.expb then 1 else b.ovf
      arrt := b.arrt - b.expt, arrb := b.arrb - b.expb, phase := 1 - b.phase, gen := (b.gen + 1) % 2 ^ 30 }
  else b

/-- An arrival at a word's serialisation point: update and check in one step (R185, R186). -/
def barArrive (n dT dB : Nat) : Nat := barNat ((barOf n).update dT dB).check

/-- The checks of a barrier word, whose reserved half is ignored and left (R184). DESIGN CHOICE (log 91): an update has the rights of a store and a
wait those of a load, and a word in the host memory window is updated as by stores. -/
def State.checkBar (s : State) (k : AccKind) (sp : Space) (addr : Word) : Except FaultInfo (List Piece) := s.checkS s.me sp k addr 32 32

/-- Writes the low half of a barrier word, keeping the reserved half (R184). -/
def State.writeBar (s : State) (ps : List Piece) (n : Nat) : State := s.writePoints (subRuns 0 16 ps) n
/-- The low half of a barrier word. -/
def State.readBar (s : State) (ps : List Piece) : Nat := s.readPoints (subRuns 0 16 ps)

/-- The checks of a thread's update of a barrier word, which reads what it changes (R185, R281). -/
def State.checkUpdate (s : State) (sp : Space) (addr : Word) : Except FaultInfo (List Piece) := do
  let ps ← s.checkBar .store sp addr
  s.undamaged s.me ps
  .ok ps

/-- BARINIT (R185): waiting slots wake and read the word again. -/
def execBarinit (k : Enc) (ord : Ordering) (sc : Scope) (o : MemOp) (b : Reg) (c : Reg) (s : State) : Res :=
  s.finish do
    s.checkScope sc (.barinit k ord sc o b c)
    let ps ← s.checkBar .store o.pl (s.ea o)
    let s := s.atPoint s.me ps
    .ok ((s.writePoints ps ((s.getX b).toNat % 2 ^ 16 + (s.getX c).toNat % 2 ^ 32 * 2 ^ 32)).advance k)

/-- A thread arrival attaches the task to the word (R188). -/
def attachBar (l : List Attach) (a : Attach) : List Attach :=
  let l := l.filter fun e => e.loc != a.loc
  (if l.length ≥ 4 then l.drop 1 else l) ++ [a]

/-- BARARV (R180, R185, R187, R188). -/
def State.arriveBar (s : State) (k : Enc) (threads : Bool) (i : Instr) (sc : Scope) (o : MemOp) (d b : Reg) : Except FaultInfo State := do
  s.checkScope sc i
  let ps ← s.checkUpdate o.pl (s.ea o)
  let t := s.me
  let s := (s.release t (s.reachOf sc)).atPoint t ps
  let n := s.readBar ps
  let s := s.writeBar ps (barArrive n (if threads then s.mult else 0) (s.mult * ((s.getX b).toNat % 2 ^ 32)))
  let a : Attach := { loc := firstLoc ps, tag := firstTag ps, addr := s.ea o, space := o.pl, gen := BitVec.ofNat 30 (barOf n).gen }
  let s := if threads then s.modTask t.part s.ctx.task fun e => { e with attach := attachBar e.attach a } else s
  .ok ((s.reqX d (BitVec.ofNat 64 (barTicket n))).advance k)

def execBararv (k : Enc) (ord : Ordering) (sc : Scope) (o : MemOp) (d : Reg) (b : Reg) (s : State) : Res :=
  s.finish (s.arriveBar k true (.bararv k ord sc o d b) sc o d b)
def execBararvB (k : Enc) (ord : Ordering) (sc : Scope) (o : MemOp) (d : Reg) (b : Reg) (s : State) : Res :=
  s.finish (s.arriveBar k false (.bararvB k ord sc o d b) sc o d b)

/-- The checks of a waiting barrier instruction, as of a load (log 91): the runs, the word, and the GEN its ticket names. -/
def State.barWait (s : State) (sc : Scope) (o : MemOp) (b : Reg) (i : Instr) : Except FaultInfo (List Piece × State × Nat × Nat) := do
  s.checkScope sc i
  let ps ← s.checkBar .load o.pl (s.ea o)
  let t := s.atPoint s.me ps
  .ok (ps, t, t.readBar ps, (s.getX b).toNat % 2 ^ 32 / 4)

/-- BARWT (R185, R187). -/
def execBarwt (k : Enc) (ord : Ordering) (sc : Scope) (o : MemOp) (d : Reg) (b : Reg) (s : State) : Res :=
  s.finish do
    let (ps, t, n, g) ← s.barWait sc o b (.barwt k ord sc o d b)
    if (barOf n).gen ≠ g then .ok (((t.acquire s.me (s.reachOf sc)).reqX d (BitVec.ofNat 64 (barTicket n))).advance k)
    else .ok (t.sleepOn (.barrier (firstLoc ps) (firstTag ps) (BitVec.ofNat 30 g) none))

/-- BARTST's outcome (R185, R187): 1 with an acquire where the phase has changed, else 0. -/
def State.barTest (s : State) (k : Enc) (sc : Scope) (d : Reg) (n g : Nat) : State :=
  if (barOf n).gen ≠ g then ((s.acquire s.me (s.reachOf sc)).reqX d 1).advance k else (s.reqX d 0).advance k

/-- BARTST (R185). -/
def execBartst (k : Enc) (ord : Ordering) (sc : Scope) (o : MemOp) (d : Reg) (b : Reg) (s : State) : Res :=
  s.finish do
    let (_, t, n, g) ← s.barWait sc o b (.bartst k ord sc o d b)
    .ok (t.barTest k sc d n g)

/-- BARWTT (R185, R187): with timeout 0 it is BARTST; else its deadline is counted from its first issue. -/
def execBarwtt (k : Enc) (ord : Ordering) (sc : Scope) (o : MemOp) (d : Reg) (b : Reg) (c : Reg) (s : State) : Res :=
  s.finish do
    let (ps, t, n, g) ← s.barWait sc o b (.barwtt k ord sc o d b c)
    let deadline := match (s.slot s.cur).cont with
      | .timed n => n
      | _ => s.cycle + (s.getX c).toNat % 2 ^ 40
    if (s.getX c).toNat % 2 ^ 40 = 0 then .ok (t.barTest k sc d n g)
    else if (barOf n).gen ≠ g then .ok (((t.acquire s.me (s.reachOf sc)).reqX d 0).advance k)
    else if deadline ≤ s.cycle then .ok ((t.reqX d 1).advance k)
    else
      let t := t.modSlot t.cur fun v => { v with cont := .timed deadline }
      .ok (t.sleepOn (.barrier (firstLoc ps) (firstTag ps) (BitVec.ofNat 30 g) (some deadline)))

/-- BAREXIT (R180, R185, R187, R188). -/
def execBarexit (k : Enc) (ord : Ordering) (sc : Scope) (o : MemOp) (s : State) : Res :=
  s.finish do
    s.checkScope sc (.barexit k ord sc o)
    let ps ← s.checkUpdate o.pl (s.ea o)
    let t := s.me
    let s := (s.release t (s.reachOf sc)).atPoint t ps
    let b := barOf (s.readBar ps)
    let b := if s.mult > b.expt then { b with expt := 0, ovf := 1 } else { b with expt := b.expt - s.mult }
    let s := s.writeBar ps (barNat b.check)
    let l := firstLoc ps
    .ok ((s.modTask t.part s.ctx.task fun e => { e with attach := e.attach.filter fun a => a.loc != l }).advance k)

/-! ### Locks (R190) -/

/-- A task's places in lock queues that its LKACQ at `pc` may have: those LKREL has handed it (R190). -/
def handedTo (q : List LockWait) (me : TaskId) (pc : Word) : Bool := q.any fun e => e.task == me && e.pc == pc && e.given

/-- The task leaves a lock's queue. -/
def leaveLock (q : List LockWait) (l : Loc) (t : TaskId) : List LockWait := q.filter fun e => !(e.loc == l && e.task == t)

/-- The task joins a lock's queue of sleepers, or keeps its place there (R190). -/
def joinLock (q : List LockWait) (l : Loc) (t : TaskId) (pc : Word) : List LockWait :=
  if q.any fun e => e.loc == l && e.task == t then q else q ++ [{ loc := l, task := t, pc := pc, given := false }]

/-- LKACQ ends with the lock its task's (R190): an acquire. -/
def State.lockDone (s : State) (k : Enc) (sc : Scope) (d : Reg) (v : Word) : State := ((s.acquire s.me (s.reachOf sc)).reqX d v).advance k

/-- The task takes a lock (R190, R270). -/
def State.takeLock (s : State) (k : Enc) (ps : List Piece) (sc : Scope) (d : Reg) (v : Word) : State :=
  let me := s.ctx.task
  let l := firstLoc ps
  let s := s.writePoints ps me.toNat
  let s := { s with lockQ := leaveLock s.lockQ l me }
  (s.modTask s.me.part me fun e => { e with locks := l :: e.locks }).lockDone k sc d v

/-- LKACQ (R190). One that LKREL has handed the lock completes without repeating its tests. -/
def execLkacq (k : Enc) (sc : Scope) (o : MemOp) (d : Reg) (s : State) : Res :=
  s.finish do
    let me := s.ctx.task
    if handedTo s.lockQ me s.pc then
      .ok (({ s with lockQ := s.lockQ.filter fun e => !(e.task == me && e.pc == s.pc && e.given) } : State).lockDone k sc d 0)
    else
    s.refuseMult
    s.checkScope sc (.lkacq k sc o d)
    let ps ← s.check s.me o.pl .atomic false (s.ea o) 8 8 0
    let a := s.atomicRead s.me ps
    let s := a.1
    let owner : TaskId := BitVec.ofNat 32 a.2
    let l := firstLoc ps
    if owner.toNat % 2 ^ 28 = 0 then .ok (s.takeLock k ps sc d 0)
    else if owner = me then .ok ((s.reqX d 2).advance k)
    else
      match ← ({ s with lockQ := joinLock s.lockQ l me s.pc }).help s.cur owner with
      | .dead => .ok (s.takeLock k ps sc d 1)
      | .adopted t => .ok t
      | .sleep t => .ok (t.sleepOn (.lock l (firstTag ps) owner))

/-- The waiter that has waited longest for a lock (R190). DEDUCED (log 48): one that helps meanwhile keeps its place, and may be handed it. -/
def nextWaiter (q : List LockWait) (l : Loc) (me : TaskId) : Option LockWait := q.find? fun e => e.loc == l && e.task != me && !e.given

/-- LKREL hands a lock to a waiter (R190), whose task holds it from now on (R270). -/
def State.handLock (s : State) (l : Loc) (w : TaskId) : State :=
  ({ s with lockQ := s.lockQ.map fun e => if e.loc == l && e.task == w then { e with given := true } else e } : State).modTask (w.toNat / 2 ^ 28) w
    fun e => { e with locks := l :: e.locks }

/-- LKREL (R190): hands the lock to the longest-sleeping waiter. -/
def execLkrel (k : Enc) (ord : Ordering) (sc : Scope) (o : MemOp) (d : Reg) (s : State) : Res :=
  s.finish do
    s.checkScope sc (.lkrel k ord sc o d)
    let ps ← s.check s.me o.pl .atomic false (s.ea o) 8 8 0
    let me := s.ctx.task
    let l := firstLoc ps
    let a := s.atomicRead s.me ps
    if a.2 % 2 ^ 32 ≠ me.toNat then .ok ((a.1.reqX d 1).advance k)
    else
      let s := (s.release s.me (s.reachOf sc)).atPoint s.me ps
      let s := s.modTask s.me.part me fun e => { e with locks := e.locks.filter (· != l) }
      let s :=
        match nextWaiter s.lockQ l me with
        | some e => (s.writePoints ps e.task.toNat).handLock l e.task
        | none => s.writePoints ps 0
      .ok ((s.reqX d 0).advance k)

end Sys2Proof.Machine
end

