-- ==== Sys2Proof/Machine/MeetOps.lean ====
section
/-! DEFINITION. Releasing meet entries and the quiescence of a group (R272 to R275), and the resume records of vacated chains (R286, R287). -/

namespace Sys2Proof.Machine

/-- ctl.MSTAT after a release (R266). -/
def mstatOf (arrivals outcome : Nat) : Word := BitVec.ofNat 64 (arrivals % 2 ^ 32 * 2 ^ 32 + outcome)
/-- ctl.MSTAT after a pass (R266, R271). -/
def mstatPass (outcome : Nat) : Word := BitVec.ofNat 64 (8 + outcome)

/-- A thread that acts for a partition's saved contexts, under the address space they were saved in. -/
def areaThr (core part asid : Nat) : Thr :=
  { slot := 16 * core, core := core, cluster := clusterOfCore core, part := part, asid := asid, priv := 2 }

/-- Replaces the `n` bits from `lo` of a number. -/
def putField (v lo n x : Nat) : Nat := v - (v / 2 ^ lo % 2 ^ n) * 2 ^ lo + x % 2 ^ n * 2 ^ lo

/-- A saved frame takes a release: MULT, MSTAT and, where the MEET is behind, the pc after it (R275, R285). -/
def releaseFrame (f mult : Nat) (mstat : Word) (pcStep : Nat) : Nat :=
  putField (putField (putField f 19232 32 mult) 19328 64 mstat.toNat) 18944 64 (f / 2 ^ 18944 % 2 ^ 64 + pcStep)

/-- The core that takes the records of a vacated core (R287); that may be the core itself once it is back in the core set. -/
def State.moveTarget (s : State) (p c : Nat) (grouped : Bool) : Option Nat :=
  let set := (List.range 1152).filter fun x => (s.part p).cfg.cores.getLsbD x
  match set.find? fun x => clusterOfCore x == clusterOfCore c with
  | some x => some x
  | none =>
    if grouped then none
    else match set.find? fun x => dieOfCore x == dieOfCore c with
      | some x => some x
      | none => set.head?

/-- The resume record of a vacated chain, from its base task's saved context (R286). -/
def State.resumeRecord (s : State) (p : Nat) (k : Task) : TaskRecord :=
  let t := areaThr ((k.holdBack <|> k.late).getD 0) p k.asid.toNat
  let f := match s.checkFrame t .load k.whereTo with
    | .ok ps => s.readPoints ps
    | .error _ => 0
  { lreq := 0, group := k.group, det := true, pin := k.pin, dom := k.dom, fplace := 0, future := 0,
    mult := BitVec.ofNat 32 (f / 2 ^ 19232), owner := k.id, taskid := k.id, arg3 := 0, arg2 := 0, arg1 := 0, arg0 := 0,
    entry := BitVec.ofNat 64 (f / 2 ^ 18944) }

/-- The resume record of a chain vacated from core `c` is pushed (R286), on the target of R287 or, without room there, on the vacated core's
own deque. Its push on another core counts as a vacate move (R289). DESIGN CHOICE (log 99): with room in neither it waits until one has. -/
def State.pushFrom (s : State) (p c : Nat) (k : Task) : State :=
  let target := (s.moveTarget p c (k.group != 0)).getD c
  let dst := if s.dequeFull p target then c else target
  if s.dequeFull p dst then s.modTask p k.id fun m => { m with holdBack := none, late := some c }
  else ((s.modTask p k.id fun m => { m with holdBack := none, late := none }).noteRequest p c dst).push p dst (s.resumeRecord p k)

/-- A held-back resume record is pushed (R286). -/
def State.pushResume (s : State) (p : Nat) (k : Task) : State :=
  match k.holdBack with
  | none => s
  | some c => s.pushFrom p c k

/-- The first resume record that waits for room is pushed, once there is room (log 99). -/
def State.pushLate (s : State) (p : Nat) : Option State :=
  (s.part p).tasks.findSome? fun (e : Nat × Task) =>
    e.2.late.bind fun c =>
      if s.dequeFull p ((s.moveTarget p c (e.2.group != 0)).getD c) && s.dequeFull p c then none else some (s.pushFrom p c e.2)

/-- The base task whose vacated chain has a task on top (R286). -/
def State.baseOf (s : State) (p : Nat) (t : TaskId) : Option Task :=
  ((s.part p).tasks.find? fun e => e.2.state == .parked && (match e.2.chain with | l :: _ => l.task == t | [] => false)).map Prod.snd

/-- The top task of a vacated chain is a survivor whose entry is still open (R275, R286). -/
def State.topParked (s : State) (p : Nat) (k : Task) : Bool :=
  match k.chain with
  | l :: _ => ((s.findTask p l.task).bind Task.meet).isSome
  | [] => false

/-- Where a partition's switch area keeps a slot's context (R262, R310): the areas lie in the order of the slots of the committed core set. -/
def State.switchAddr (s : State) (p n : Nat) : Nat :=
  let k := (s.part p).cfg
  let set := ((s.part p).last.getD k).cores
  let before := (List.range (coreOfSlot n)).foldl (fun a c => if set.getLsbD c then a + popc k.slots.toNat 16 else a) 0
  k.switchbase + frameBytes * (before + popc k.slots.toNat (n % 16))

/-- A slot, or a part of it that is switched out, holds the fault of a vacated chain for the supervisor (R286). -/
def Slot.standsFor (v : Slot) (t : TaskId) : Bool := v.stands == some t || v.away.any fun (e : Nat × Away) => e.2.stands == some t

/-- A release reaches a survivor whose context is saved, or whose slot is frozen (R275). -/
def Run.afterRelease (r : Run) (mult : BitVec 32) (ms : Word) : Run :=
  match r with
  | .sleeping (.meet _) => .sleeping .released
  | .frozen k (.parked _) => .frozen k (.released mult ms)
  | r => r

/-- A release writes ctl.MULT and ctl.MSTAT into a context that lies in a partition's switch area (R262, R275). -/
def State.releaseArea (s : State) (p n mult : Nat) (ms : Word) : State :=
  let a := s.switchAddr p n
  s.homeWrite a frameBytes (releaseFrame (s.homeRead a frameBytes) mult ms 0)

/-- A release reaches the survivor (R274, R275), wherever its context is. Of a vacated survivor the chain's resume record is pushed, unless a
fault of the chain still waits for the supervisor (R286); what the group's cluster holds dirty is written back for its restart (R175, R295). -/
def State.releaseTask (s : State) (p : Nat) (t : TaskId) (mult arrivals outcome : Nat) : State :=
  let ms := mstatOf arrivals outcome
  let m := BitVec.ofNat 32 mult
  match s.slotOfTop t with
  | some n =>
    if (s.slot n).restoring then (s.releaseArea p n mult ms).modSlot n fun v => { v with run := v.run.afterRelease m ms }
    else
      s.modSlot n fun v =>
        match v.run with
        | .sleeping (.meet _) => { v with run := .sleeping .released, ctx := { v.ctx with mult := m, mstat := ms } }
        | r => { v with run := r.afterRelease m ms }
  | none =>
    match s.slots.find? fun e => match e.2.away.get? p with | some a => (match a.levels with | l :: _ => l.task == t | [] => false) | none => false with
    | some (n, _) =>
      (s.releaseArea p n mult ms).modSlot n fun v =>
        match v.away.get? p with
        | some w => { v with away := v.away.set p { w with run := w.run.afterRelease m ms } }
        | none => v
    | none =>
      match s.baseOf p t with
      | none => s
      | some b =>
        let c := areaThr (b.holdBack.getD 0) p b.asid.toNat
        let s := match s.checkFrame c .store (b.whereTo + BitVec.ofNat 64 (frameBytes * (b.chain.length - 1))) with
          | .ok ps => (s.atPoint c ps).writePoints ps (releaseFrame (s.readPoints ps) mult ms 12)
          | .error _ => s
        let s := match s.findTask p t with
          | some k => if k.group = 0 then s else s.flush (groupCluster k.group) false (coveredLine c .package)
          | none => s
        let s := s.modTask p t fun k => { k with meet := none }
        if s.slots.any fun (e : Nat × Slot) => e.2.standsFor b.id then s else s.pushResume p b

/-- Releases the open entries of a cluster that `sel` selects, in the order they were opened (R273, R274). -/
def State.releaseMeets (s : State) (cl : Nat) (sel : MeetEntry → Bool) (outcome : Nat) : State :=
  let out := (s.cluster cl).meets.filter sel
  let s := s.modCluster cl fun c => { c with meets := c.meets.filter fun e => !sel e }
  out.foldl (fun s e => s.releaseTask e.part e.survivor e.mult e.arrivals outcome) s

/-- A wait in which a slot stays on its instruction (R272): the entry of a work queue. -/
def Wait.stays : Wait → Bool
  | .queueEmpty .. | .queueEntry .. => true
  | _ => false

/-- A slot with this state runs its top task (R272): a frozen slot counts as frozen whatever it holds (R278), and a released survivor as
running (log 20). -/
def Run.runs : Run → Bool
  | .ready | .parked | .stalled _ | .frozen .. | .sleeping .released => true
  | .sleeping w => w.stays
  | _ => false

/-- A member of a group is runnable (R272): it runs on top of its slot's chain, or is switched out with its slot, whatever it waits for there. -/
def State.runnable (s : State) (p : Nat) (k : Task) : Bool :=
  match k.state with
  | .unstarted => true
  | .parked => k.meet.isNone && k.holdBack.isNone
  | .running =>
    let v := s.slot k.whereTo.toNat
    if v.levels.any fun l => l.task == k.id then
      v.restoring || (match v.levels with | l :: _ => l.task == k.id && v.run.runs | [] => false)
    else
      match v.away.get? p with
      | some a => a.levels.any fun l => l.task == k.id
      | none => false
  | _ => false

/-- A group has a runnable member (R272). -/
def State.groupRuns (s : State) (p : Nat) (g : BitVec 16) : Bool :=
  (s.part p).tasks.any fun e => e.2.group == g && s.runnable p e.2

/-- Every group without a runnable member has its open entries released (R272, R273). -/
def State.quiesce (s : State) : State :=
  s.clusters.foldl (fun s e =>
    e.2.meets.foldl (fun s m =>
      if s.groupRuns m.part m.group then s else s.releaseMeets e.1 (fun x => x.part == m.part && x.group == m.group) 0) s) s

end Sys2Proof.Machine
end

