-- ==== Sys2Proof/Machine/Tasks.lean ====
section
/-! DEFINITION. The meanings of EXIT and of the task, group, work-queue and meet instructions (R27, R237 to R253, R265 to R276). -/

namespace Sys2Proof.Machine

/-- The frame below the top is readable, so that the chain can go on after the top task leaves it (R244, log 19). -/
def State.checkBelow (s : State) (n : Nat) : Except FaultInfo Unit :=
  if (s.slot n).levels.length ≤ 1 then .ok ()
  else (s.checkFrame (s.thr n) .load (s.frameAddr n ((s.slot n).levels.length - 2))).map fun _ => ()

/-- Fulfilment (R27, R30): VALUE and STATE full, one 16-byte write after the release of R170. -/
def State.fulfil (s : State) (t : Thr) (ps : List Piece) (v : Word) : State :=
  let s := (s.release t (homeReach ps)).atPoint t ps
  let n := s.readPoints ps
  s.writePoints ps (n % 2 ^ 64 - n % 4 + 1 + v.toNat * 2 ^ 64)

/-- The first attachment in which the task is still expected (R188). DESIGN CHOICE (log 92): its word is read where the arrival found it. -/
def State.abandoned (s : State) (l : List Attach) : Option (Attach × Nat) :=
  l.findSome? fun a =>
    let n := s.locRead a.loc a.tag 16
    if (barOf n).gen ≠ a.gen.toNat then some (a, barTicket n) else none

/-- The fault of the first attached word that is damaged (R188, R281). -/
def State.attachEcc (s : State) (l : List Attach) : Option FaultInfo :=
  l.findSome? fun a =>
    (match a.loc with | .buf c la => (s.rowEcc c la).map FaultInfo.cause | .phys pa => s.homeDamage a.tag (pa / 128)).map fun (c : BitVec 8) => mkFault .ecc c.toNat a.addr 0

/-- EXIT (R27, R188, R238); the retirement of a group member is a release (R253). -/
def execExit (k : Enc) (s : State) : Res :=
  s.finish do
    let n := s.cur
    let t := s.thr n
    let _ := k
    let s := s.modSlot n Slot.deliverAll
    let v := s.getX 2
    s.checkBelow n
    match (s.slot n).levels with
    | [] => .ok (s.popLevel n 0)
    | top :: _ =>
      if top.inline then
        if hasFuture top.fplace then
          let ps ← s.futureCheck t top.fplace top.future
          .ok ((s.fulfil t ps v).popLevel n 0)
        else .ok (s.popLevel n 0)
      else
        match s.findTask t.part top.task with
        | none => .ok (s.popLevel n 0)
        | some e =>
          stopOn (s.attachEcc e.attach)
          match s.abandoned e.attach with
          | some (a, ticket) => .error (mkFault .barrierAbandon 0 a.addr ticket)
          | none =>
            if hasFuture e.fplace then
              let ps ← s.futureCheck t e.fplace e.future
              .ok ((((s.fulfil t ps v).groupRelease t e.group).endTask t.part top.task .done 0).popLevel n 0)
            else .ok (((s.groupRelease t e.group).endTask t.part top.task .done 0).popLevel n 0)

/-! ### Creating tasks (R235 to R238) -/

/-- A target register (R235): the core, and whether another package is meant. -/
def State.target (s : State) (p : Nat) (w : Word) : Except FaultInfo (Nat × Bool) :=
  let n := w.toNat
  let bad : Except FaultInfo (Nat × Bool) := .error (mkFault .translation 4 w 0)
  if n / 2 ^ 27 ≠ 0 || bits n 14 11 ≠ 0 || n % 2 ^ 11 > 1151 then bad
  else if n.testBit 15 then do
    match ← s.rankPkg p w (bits n 26 16) with
    | some pkg => .ok (n % 2 ^ 11, decide (pkg ≠ s.pkgnum.toNat))
    | none => bad
  else .ok (n % 2 ^ 11, false)

/-- How a record names a future (R237): FPLACE, and the address, a .L address as the .N address of the issuing core. -/
def futureName (t : Thr) (sp : Space) (a : Word) : BitVec 2 × BitVec 56 :=
  match sp with
  | .g => (3, a.setWidth 56)
  | .n => (1, a.setWidth 56)
  | _ => (1, BitVec.ofNat 56 (t.core * 2 ^ 19 + a.toNat % 2 ^ 19))

/-- The record of FORK, FORK.D, FORK.AT and AMSG before its id is known (R237). -/
def State.forkRecord (s : State) (imm : Word) (lreq : BitVec 16) (b c : Reg) : TaskRecord :=
  { lreq := lreq, group := 0, det := false, pin := false, dom := s.ctx.stealdom, fplace := 0, future := 0, mult := s.ctx.mult,
    owner := s.ctx.task, taskid := 0, arg3 := 0, arg2 := 0, arg1 := s.getX c, arg0 := s.getX b, entry := s.pc + 4 * imm }

/-- An inline call (R238): the parent's context goes to the next save frame, and the child runs in the slot. -/
def State.inlineCall (s : State) (k : Enc) (r : TaskRecord) : Except FaultInfo State := do
  let n := s.cur
  let v := s.slot n
  let ps ← s.checkFrame s.me .store (s.frameAddr n (v.levels.length - 1))
  let v := (v.goto k.mark (s.pc + BitVec.ofNat 64 k.len.bytes)).deliverAll
  let s := s.putFrame s.me ps v.frame
  let lvl : Level := { task := v.ctx.task, inline := true, adopted := false, status := none, fplace := r.fplace, future := r.future }
  let c := { recCtx r with task := v.ctx.task, mult := v.ctx.mult, group := v.ctx.group, fgroup := v.ctx.group }
  .ok (s.setSlot n { v with run := .ready, ctx := c, levels := lvl :: v.levels, pending := [] })

/-- The empty future of a new child (R30, R237). -/
def State.writeFuture (s : State) (t : Thr) (ps : List Piece) (id : TaskId) : State :=
  (s.atPoint t ps).writePoints ps (id.toNat * 2 ^ 32)

/-- A new attached child counts against its parent's meets until it ends (R270). -/
def State.addChild (s : State) (p : Nat) (t : TaskId) : State := s.modTask p t fun m => { m with children := m.children + 1 }

/-- FORK (R237). -/
def execFork (k : Enc) (pl : Space) (imm : Word) (lreq : BitVec 16) (a : Reg) (b : Reg) (c : Reg) (s : State) : Res :=
  s.finish do
    let t := s.me
    let ps ← s.checkS t pl .store (s.getX a) 16 16
    let f := futureName t pl (s.getX a)
    let r := { s.forkRecord imm lreq b c with fplace := f.1, future := f.2 }
    stopOn (s.headerEcc t.part t.core)
    if s.dequeFull t.part t.core || !s.dirRoom t.part then s.inlineCall k r
    else
      let pos := s.pushPos t.part t.core
      let (s, id) := s.addTask t.part fun id => recEntry r id .unstarted (whereDeque t.core pos) t.cluster
      let s := (s.addChild t.part r.owner).writeFuture t ps id
      let s := s.release t (domReach r.dom)
      .ok ((s.push t.part t.core { r with taskid := id }).advance k)

/-- FORK.D (R31, R237). -/
def execForkD (k : Enc) (imm : Word) (lreq : BitVec 16) (b : Reg) (c : Reg) (s : State) : Res :=
  s.finish do
    let t := s.me
    let g := s.ctx.fgroup
    let g : BitVec 16 := if (s.groupOf t.part (g.setWidth 64)).isSome && groupCluster g == t.cluster then g else 0
    let r := s.forkRecord imm lreq b c
    let r := { r with det := true, group := g, dom := if g ≠ 0 && r.dom.toNat > 1 then 1 else r.dom }
    stopOn (s.headerEcc t.part t.core)
    if s.dequeFull t.part t.core || !s.dirRoom t.part then s.inlineCall k r
    else
      let pos := s.pushPos t.part t.core
      let (s, id) := s.addTask t.part fun id => recEntry r id .unstarted (whereDeque t.core pos) t.cluster
      let s := (s.groupAdd g true).release t (domReach r.dom)
      .ok ((s.push t.part t.core { r with taskid := id }).advance k)

/-- A message of a core would be taken at another now (R32, R33). -/
def State.wouldTake (s : State) (p c : Nat) (hasId : Bool) (source : Nat) : Bool :=
  s.ownsOn p c && ((s.startsIn p c hasId (.core source)).isSome || s.inboxRoom p c)

/-- A record is sent to a core of this package (R32, R33, R289); to another package it leaves through the fabric. -/
def State.sendRecord (s : State) (t : Thr) (c : Nat) (remote : Bool) (r : TaskRecord) (hasId : Bool) : State :=
  if remote then s
  else
    let s := s.noteMessage t.part t.core c
    (s.arrive { target := c, source := .core t.core, part := t.part, record := r, hasId := hasId, colour := s.colourOf t.part t.core, counted := true }).1

/-- FORK.AT (R237): it stays on the instruction until the directory has room and the target takes the delivery. -/
def execForkAt (k : Enc) (pl : Space) (imm : Word) (lreq : BitVec 16) (kr : Reg) (a : Reg) (b : Reg) (c : Reg) (s : State) : Res :=
  s.finish do
    let t := s.me
    let (core, remote) ← s.target t.part (s.getX kr)
    let ps ← s.checkS t pl .store (s.getX a) 16 16
    let f := futureName t pl (s.getX a)
    let r := { s.forkRecord imm lreq b c with fplace := f.1, future := f.2, pin := true, dom := 0 }
    if !s.dirRoom t.part then .ok (s.stallOn .directory)
    else if !remote && !s.wouldTake t.part core true t.core then .ok (s.stallOn (.inbox core))
    else
      let (s, id) := s.addTask t.part fun id => recEntry r id .unstarted (whereInbox core) t.cluster
      let s := (s.addChild t.part r.owner).writeFuture t ps id
      let s := s.release t (if remote then .fabric else .package)
      .ok ((s.sendRecord t core remote { r with taskid := id } true).advance k)

/-- AMSG (R32, R237). -/
def execAmsg (k : Enc) (imm : Word) (kr : Reg) (b : Reg) (c : Reg) (s : State) : Res :=
  s.finish do
    let t := s.me
    let (core, remote) ← s.target t.part (s.getX kr)
    s.refuseMult
    let r := { s.forkRecord imm 0 b c with det := true, pin := true, dom := 0, mult := 1 }
    if !remote && !s.wouldTake t.part core false t.core then .ok (s.stallOn (.inbox core))
    else
      let s := s.release t (if remote then .fabric else .package)
      .ok ((s.sendRecord t core remote r false).advance k)

/-! ### Joining, yielding and taking work (R239, R247, R248) -/

/-- JOIN (R239, R240). -/
def execJoin (k : Enc) (pl : Space) (d : Reg) (a : Reg) (b : Reg) (s : State) : Res :=
  s.finish do
    let t := s.me
    let ps ← s.checkS t pl .load (s.getX a) 16 16
    let r := s.atomicRead t ps
    let f := r.2
    if futureState f ≠ 0 then
      .ok ((((r.1.acquire t (homeReach ps)).reqX d (futureValue f)).reqX b (if futureState f = 1 then 0 else 1)).advance k)
    else
      match ← r.1.help s.cur (futureOwner f) with
      | .dead => .ok (((r.1.reqX d 0).reqX b 2).advance k)
      | .adopted t => .ok t
      | .sleep t => .ok (t.sleepOn (.future (firstLoc ps) (firstTag ps) (futureOwner f)))

/-- YIELD (R248, R253). -/
def execYield (k : Enc) (d : Reg) (a : Reg) (s : State) : Res :=
  s.finish do
    let n := s.cur
    let t := s.me
    let ps ← s.check t .g .store false (s.getX a) frameBytes 64 0
    let v := s.slot n
    stopOn (s.headerEcc t.part t.core)
    if v.levels.length > 1 || s.dequeFull t.part t.core || s.holdsResv v.ctx.task then .ok ((s.reqX d 1).advance k)
    else
      match s.findTask t.part v.ctx.task with
      | none => .ok ((s.reqX d 1).advance k)
      | some e =>
        let area := s.getX a
        let next := s.pc + BitVec.ofNat 64 k.len.bytes
        let w := v.deliverAll
        let w := { w with ctx := { w.ctx.setX d 0 with pc := next } }
        let s := s.putFrame t ps w.frame
        let r : TaskRecord :=
          { lreq := 0, group := e.group, det := true, pin := e.pin, dom := e.dom, fplace := 0, future := 0, mult := v.ctx.mult,
            owner := e.id, taskid := e.id, arg3 := 0, arg2 := 0, arg1 := 0, arg0 := 0, entry := next }
        let s := s.modTask t.part e.id fun m =>
          { m with state := .parked, whereTo := area, asid := BitVec.ofNat 11 t.asid, origin := t.cluster }
        let s := (s.release t (domReach e.dom)).push t.part t.core r
        .ok (s.modSlot n fun v =>
          { v with run := .idle, levels := [], ctx := Ctx.zero, pending := [], cont := .none, waitFrom := s.cycle })

/-- The target core lies within a record's steal domain counted from where the record lies (R247, R257). -/
def domReaches (dom : BitVec 2) (here there : Nat) : Bool :=
  match dom.toNat with
  | 0 => here == there
  | 1 => clusterOfCore here == clusterOfCore there
  | 2 => dieOfCore here == dieOfCore there
  | _ => true

/-- The adoption count a task needs besides its own (R288). -/
def chainAdopted (k : Task) : Nat := (k.chain.dropLast.filter Level.adopted).length

/-- Takes a live record by hand (R247): the refusals in the order of their codes, else the adoption; `take` removes the record. -/
def State.takeByHand (s : State) (k : Enc) (d : Reg) (r? : Option TaskRecord) (from_ : Nat) (useDom : Bool) (take : State → State) :
    Except FaultInfo State :=
  let t := s.me
  let v := s.slot s.cur
  let ret (n : Word) : Except FaultInfo State := .ok ((s.reqX d n).advance k)
  match r? with
  | none => ret 1
  | some r =>
    match s.findTask t.part r.taskid with
    | none => ret 1
    | some e =>
      if e.pin || (useDom && !domReaches r.dom from_ t.core) || !groupNear e.group t.cluster then ret 2
      else if v.adoptions + 1 + chainAdopted e > (v.reg t.part).adoptmax.toNat then ret 3
      else State.adopt (take s) s.cur e r (some d)

/-- POPB (R247). -/
def execPopb (k : Enc) (d : Reg) (s : State) : Res :=
  s.finish do
    let t := s.me
    stopOn (s.searchEcc t.part t.core true)
    let u := s.trimB t.part t.core
    u.takeByHand k d (u.bottomRec t.part t.core) t.core false fun s => s.takeBottom t.part t.core

/-- STEAL (R247). DEDUCED (log 108): a core outside the partition's core set holds no record that it takes (R287). -/
def execSteal (k : Enc) (d : Reg) (a : Reg) (s : State) : Res :=
  s.finish do
    let t := s.me
    let (core, _) ← s.target t.part (s.getX a)
    if (s.getX a).getLsbD 15 then .ok ((s.reqX d 2).advance k)
    else if !(s.part t.part).cfg.cores.getLsbD core then .ok ((s.reqX d 1).advance k)
    else
      stopOn (s.searchEcc t.part core false)
      let u := s.trimT t.part core
      u.takeByHand k d (u.topRec t.part core) core true fun s => (s.noteRequest t.part core t.core).takeTop t.part core

/-! ### Groups (R249) -/

/-- GNEW (R249), whose result is no memory result (R21). DESIGN CHOICE (log 95): the free entry it takes is the lowest. -/
def execGnew (k : Enc) (d : Reg) (s : State) : Res :=
  let t := s.me
  let gs := (s.cluster t.cluster).groups
  let mine := (gs.filter fun e => e.2.part == t.part).length
  let i := firstGap gs 0
  if i ≥ 64 || mine ≥ (s.part t.part).cfg.gshare then .next ((s.setX d 0).advance k)
  else
    let g : BitVec 16 := BitVec.ofNat 16 (2 ^ 15 + t.cluster * 64 + i)
    let s := s.modCluster t.cluster fun c => { c with groups := c.groups.set i { part := t.part, count := 0 } }
    let s := s.modSlot s.cur fun v => v.modCtx fun c => { c with fgroup := g }
    .next ((s.setX d (g.setWidth 64)).advance k)

/-- GJOIN (R31, R249). -/
def execGjoin (k : Enc) (a : Reg) (s : State) : Res :=
  s.finish do
    let t := s.me
    let g : BitVec 16 := (s.getX a).setWidth 16
    match s.groupOf t.part (s.getX a) with
    | none => .ok (s.advance k)
    | some e =>
      if e.count = 0 then .ok ((s.groupAcquire t g).advance k)
      else
        stopOn (s.searchEcc t.part t.core true)
        let u := s.trimB t.part t.core
        match u.bottomRec t.part t.core with
        | none => .ok (u.sleepOn (.group g))
        | some r =>
          match u.findTask t.part r.taskid with
          | none => .ok (u.sleepOn (.group g))
          | some m =>
            if m.group == g && u.adoptable s.cur m then State.adopt (u.takeBottom t.part t.core) s.cur m r none
            else .ok (u.sleepOn (.group g))

/-- GFREE (R249), whose result is no memory result (R21). -/
def execGfree (k : Enc) (d : Reg) (a : Reg) (s : State) : Res :=
  let t := s.me
  match s.groupOf t.part (s.getX a) with
  | none => .next ((s.setX d 2).advance k)
  | some e =>
    if e.count ≠ 0 then .next ((s.setX d 1).advance k)
    else
      let n := (s.getX a).toNat
      let s := s.modCluster (n / 64 % 256) fun c => { c with groups := c.groups.erase (n % 64) }
      .next ((s.setX d 0).advance k)

/-! ### Work queues (R250, R251) -/

/-- A work queue's header (R250), with the runs of its 64 bytes. -/
structure Queue where
  ps   : List Piece
  addr : Word
  cap  : Nat
  head : Nat
  tail : Nat
  deriving DecidableEq, Repr

/-- The capacities of R250. -/
def qcapOk (n : Nat) : Bool := (List.range 22).any fun i => n == 2 ^ (i + 3)

/-- Reads and checks a work queue's header at its home slice (R250, R251). -/
def State.queue (s : State) (t : Thr) (addr : Word) : Except FaultInfo (State × Queue) := do
  let ps ← s.check t .g .atomic false addr 64 64 0
  let r := s.atomicRead t ps
  let h := r.2
  if h / 2 ^ 160 ≠ 0 || !qcapOk (bits h 159 128) then .error (mkFault .permission 6 addr 0)
  else .ok (r.1, { ps := ps, addr := addr, cap := bits h 159 128, head := bits h 127 64, tail := bits h 63 0 })

/-- The runs of entry n's state word and item (R250). -/
def State.queueState (s : State) (t : Thr) (q : Queue) (n : Nat) : Except FaultInfo (List Piece) :=
  s.check t .g .atomic false (q.addr + BitVec.ofNat 64 (64 + 8 * (n % q.cap))) 8 8 0
def State.queueItem (s : State) (t : Thr) (q : Queue) (n : Nat) : Except FaultInfo (List Piece) :=
  s.check t .g .atomic false (q.addr + BitVec.ofNat 64 (64 + 8 * q.cap + 64 * (n % q.cap))) 64 64 0

/-- Writes TAIL or HEAD. -/
def State.setTail (s : State) (q : Queue) (n : Nat) : State := s.writePoints (subRuns 0 8 q.ps) n
def State.setHead (s : State) (q : Queue) (n : Nat) : State := s.writePoints (subRuns 8 8 q.ps) n

/-- An entry state word (R250). -/
def entryWord (owner : TaskId) (n st : Nat) : Nat := owner.toNat * 2 ^ 32 + n % 2 ^ 30 * 4 + st

/-- A location's physical address. -/
def locPa (l : Loc) : Nat :=
  match l with
  | .phys pa => pa
  | .buf .. => 0

/-- Room for one more reservation: TAIL − HEAD < CAP, and the state at TAIL is empty (R251). -/
def queueRoom (q : Queue) (st : Nat) : Bool := decide ((q.tail + 2 ^ 64 - q.head) % 2 ^ 64 < q.cap) && st % 4 == 0

/-- QRES (R251). -/
def execQres (k : Enc) (d : Reg) (a : Reg) (s : State) : Res :=
  s.finish do
    s.refuseMult
    let t := s.me
    let (s, q) ← s.queue t (s.getX a)
    let ws ← s.queueState t q q.tail
    let (s, w) := s.atomicRead t ws
    if !queueRoom q w then .ok ((s.reqX d (BitVec.allOnes 64)).advance k)
    else
      let s := (s.writePoints ws (entryWord s.ctx.task q.tail 1)).setTail q (q.tail + 1)
      let s := s.modTask t.part s.ctx.task fun e => { e with entries := e.entries ++ [(locPa (firstLoc ws), firstTag ws)] }
      .ok ((s.reqX d (BitVec.ofNat 64 q.tail)).advance k)

/-- QFIL (R251, R253). -/
def execQfil (k : Enc) (d : Reg) (a : Reg) (b : Reg) (c : Reg) (s : State) : Res :=
  s.finish do
    s.refuseMult
    let t := s.me
    let (s, q) ← s.queue t (s.getX a)
    let n := (s.getX b).toNat
    let ws ← s.queueState t q n
    let is ← s.queueItem t q n
    let (s, w) := s.atomicRead t ws
    if w ≠ entryWord s.ctx.task n 1 then .ok ((s.reqX d 1).advance k)
    else
      let s := ((s.release t (homeReach q.ps)).atPoint t is).writePoints is (s.getV c).toNat
      let s := s.writePoints ws (entryWord s.ctx.task n 2)
      let s := s.modTask t.part s.ctx.task fun e => { e with entries := e.entries.filter fun x => x.1 != locPa (firstLoc ws) }
      .ok ((s.reqX d 0).advance k)

/-- QENQ's step on a queue (R251, R323): reserve and fill, or none where the queue is full. -/
def State.enqueue (s : State) (t : Thr) (addr : Word) (owner : TaskId) (item : BitVec 512) : Except FaultInfo (State × Option Nat) := do
  let (s, q) ← s.queue t addr
  let ws ← s.queueState t q q.tail
  let is ← s.queueItem t q q.tail
  let (s, w) := s.atomicRead t ws
  if !queueRoom q w then .ok (s, none)
  else
    let s := ((s.release t (homeReach q.ps)).atPoint t is).writePoints is item.toNat
    .ok ((s.writePoints ws (entryWord owner q.tail 2)).setTail q (q.tail + 1), some q.tail)

/-- QENQ (R251). -/
def execQenq (k : Enc) (d : Reg) (a : Reg) (c : Reg) (s : State) : Res :=
  s.finish do
    s.refuseMult
    let (s, n) ← s.enqueue s.me (s.getX a) s.ctx.task (s.getV c)
    .ok ((s.reqX d (match n with | some n => BitVec.ofNat 64 n | none => BitVec.allOnes 64)).advance k)

/-- The entry a task's QDEQ has claimed on a queue. -/
def State.claimed (s : State) (pa : Nat) (t : TaskId) : Option Nat :=
  (s.claimQ.find? fun e => e.1 == pa && e.2.1 == t).map fun e => e.2.2

/-- A QDEQ ends: the entry becomes empty and the claim is forgotten (R251). -/
def State.endClaim (s : State) (pa : Nat) (ws : List Piece) (w : Nat) : State :=
  let me := s.ctx.task
  let s := s.writePoints ws (w - w % 4)
  { s with claimQ := s.claimQ.filter fun e => !(e.1 == pa && e.2.1 == me) }

/-- QDEQ after its claim of entry n (R251). DESIGN CHOICE (log 119): an entry found empty is taken as failed. -/
def State.dequeue (s : State) (k : Enc) (q : Queue) (n : Nat) (d b : Reg) : Except FaultInfo State := do
  let t := s.me
  let pa := locPa (firstLoc q.ps)
  let ws ← s.queueState t q n
  let is ← s.queueItem t q n
  let (s, w) := s.atomicRead t ws
  let failed (s : State) : State := ((s.endClaim pa ws w).reqX b 1).advance k
  match w % 4 with
  | 1 =>
    match ← s.help s.cur (BitVec.ofNat 32 (w / 2 ^ 32)) with
    | .dead => .ok (failed s)
    | .adopted t => .ok t
    | .sleep u => .ok (u.sleepOn (.queueEntry (locPa (firstLoc ws)) (firstTag ws) n (BitVec.ofNat 32 (w / 2 ^ 32))))
  | 2 =>
    let (s, v) := s.atomicRead t is
    .ok (((((s.endClaim pa ws w).acquire t (homeReach q.ps)).reqV d (BitVec.ofNat 512 v)).reqX b 0).advance k)
  | _ => .ok (failed s)

/-- QDEQ (R251): waiters on an empty queue are served first in, first out. -/
def execQdeq (k : Enc) (d : Reg) (a : Reg) (b : Reg) (s : State) : Res :=
  s.finish do
    s.refuseMult
    let t := s.me
    let me := s.ctx.task
    let (s, q) ← s.queue t (s.getX a)
    let pa := locPa (firstLoc q.ps)
    match s.claimed pa me with
    | some n => s.dequeue k q n d b
    | none =>
      let waiters := (s.queueQ.filter fun e => e.1 == pa).map Prod.snd
      let first := match waiters with | w :: _ => w == me | [] => true
      if q.head = q.tail || !first then
        let s := if waiters.contains me then s else { s with queueQ := s.queueQ ++ [(pa, me)] }
        .ok (s.sleepOn (.queueEmpty pa (firstTag q.ps)))
      else
        let _ ← s.queueState t q q.head
        let _ ← s.queueItem t q q.head
        let s := { s with queueQ := s.queueQ.filter fun e => e != (pa, me) }
        let s := { s.setHead q (q.head + 1) with claimQ := s.claimQ ++ [(pa, me, q.head)] }
        s.dequeue k q q.head d b

/-! ### Meets (R267 to R276) -/

/-- A pass (R271). -/
def State.meetPass (s : State) (k : Enc) (o : Nat) : State :=
  (s.modSlot s.cur fun v => v.modCtx fun c => { c with mstat := mstatPass o }).advance k

/-- The cases of R270 in which a thread passes, in their order. -/
def State.meetCase (s : State) (a : Reg) : Option Nat :=
  let t := s.me
  let c := s.ctx
  if topInline (s.slot s.cur).levels then some 7
  else if s.getX a ≠ c.group.setWidth 64 || c.group = 0 || (s.groupOf t.part (s.getX a)).isNone then some 6
  else
    match s.findTask t.part c.task with
    | none => some 5
    | some e =>
      if !e.det || s.holdsResv c.task || !e.locks.isEmpty || !e.entries.isEmpty || e.children ≠ 0 then some 5 else none

/-- The values of the registers a mask declares, in ascending number (R268). -/
def State.declared (s : State) (decl : BitVec 32) : List Word :=
  ((List.range 32).filter decl.getLsbD).map fun i => s.getX (BitVec.ofNat 5 i)

/-- An entry has the key of an arrival (R268). -/
def MeetEntry.keyed (e : MeetEntry) (t : Thr) (g : BitVec 16) (pc : Word) (vals : List Word) : Bool :=
  e.part == t.part && e.group == g && e.addr == pc && e.asid.toNat == t.asid && e.vals == vals

/-- An entry still takes arrivals: its DEADLINE is served after every other request of that cycle (R273). -/
def MeetEntry.inTime (e : MeetEntry) (now : Nat) : Bool := match e.deadline with | some d => decide (now ≤ d) | none => true

/-- MEET (R267 to R274). Quiescence is evaluated at the end of the request. -/
def execMeet (k : Enc) (a : Reg) (tmo : Timeout) (decl : BitVec 32) (s : State) : Res :=
  s.finish do
    let s := s.modSlot s.cur Slot.deliverAll
    let t := s.me
    let c := s.ctx
    let m := s.mult
    match s.meetCase a with
    | some o => .ok (s.meetPass k o)
    | none =>
      let cl := groupCluster c.group
      let vals := s.declared decl
      let open_ := (s.cluster cl).meets.filter fun e => e.inTime s.cycle
      let s := s.groupRelease t c.group
      match open_.find? fun e => e.keyed t c.group c.pc vals with
      | some e =>
        if e.mult + m > 2 ^ 32 - 1 then .error (mkFault .mult 2 0 m)
        else
          let s := s.modCluster cl fun u =>
            { u with meets := u.meets.map fun x => if x.keyed t c.group c.pc vals && x.inTime s.cycle then
                { x with mult := x.mult + m, arrivals := Nat.min (x.arrivals + 1) (2 ^ 32 - 1) } else x }
          let s := s.endTask t.part c.task .merged (e.survivor.setWidth 64)
          .ok ((s.popLevel s.cur 0).quiesce)
      | none =>
        match s.timeout tmo with
        | some 0 => .ok (s.meetPass k 4)
        | tm =>
          if open_.length ≥ 256 || (open_.filter fun e => e.part == t.part).length ≥ (s.part t.part).cfg.meetshare then .ok (s.meetPass k 3)
          else
            let e : MeetEntry :=
              { part := t.part, group := c.group, addr := c.pc, asid := BitVec.ofNat 11 t.asid, vals := vals, survivor := c.task, mult := m,
                arrivals := 0, deadline := tm.map (s.cycle + ·) }
            let s := s.modCluster cl fun u => { u with meets := u.meets ++ [e] }
            .ok ((s.sleepOn (.meet cl)).quiesce)

/-- MCLOSE (R276). -/
def execMclose (k : Enc) (d : Reg) (a : Reg) (s : State) : Res :=
  let t := s.me
  match s.groupOf t.part (s.getX a) with
  | none => .next ((s.reqX d (BitVec.allOnes 64)).advance k)
  | some _ =>
    let g : BitVec 16 := (s.getX a).setWidth 16
    let cl := groupCluster g
    let sel (e : MeetEntry) : Bool := e.part == t.part && e.group == g
    let n := ((s.cluster cl).meets.filter sel).length
    .next (((s.releaseMeets cl sel 2).reqX d (BitVec.ofNat 64 n)).advance k)

end Sys2Proof.Machine
end

