-- ==== Sys2Proof/Machine/Records.lean ====
section
/-! DEFINITION. Tensor records (R212 to R215, R228), the footprints of jobs and their edges (R196, R197), and how an engine reaches the
bytes of a record (R118, R144, R206, R307). -/

namespace Sys2Proof.Machine

/-- The fields of a tensor record (R213); dimensions beyond the last have extent 1 and stride 0. `bad` says that a reserved bit or code
makes the record invalid. -/
structure TRec where
  base   : Word
  place  : Space
  fmt    : Elem
  layout : Nat
  sparse : Nat
  cls    : Nat
  home   : Bool
  count  : Nat
  ndim   : Nat
  ext    : List Nat
  str    : List Int
  scale  : Word
  sblk   : Nat
  splace : Space
  srow   : Int
  moff   : Nat
  bad    : Bool
  deriving DecidableEq, Repr

/-- Reads a record's fields (R213). -/
def trec (b : BitVec 512) : TRec :=
  let f (lo w : Nat) : Nat := getBits b lo w
  let nd := f 88 2 + 1
  { base := BitVec.ofNat 64 (f 0 64), place := Space.ofCode (BitVec.ofNat 2 (f 64 2)), fmt := Elem.ofCode (BitVec.ofNat 4 (f 66 4)),
    layout := f 70 2, sparse := f 72 3, cls := f 75 2, home := trecLevel b, count := f 80 8, ndim := nd,
    ext := (List.range 4).map fun i => if i < nd then f (96 + 32 * i) 32 else 1
    str := (List.range 4).map fun i => if i < nd then sInt 32 (f (224 + 32 * i) 32) else 0
    scale := BitVec.ofNat 64 (f 352 64), sblk := f 416 8, splace := Space.ofCode (BitVec.ofNat 2 (f 424 2)), srow := sInt 32 (f 432 32),
    moff := f 480 16
    bad := f 496 16 ≠ 0 || f 464 16 ≠ 0 || f 426 6 ≠ 0 || f 90 6 ≠ 0 || f 78 2 ≠ 0 || f 75 2 = 3 || f 72 3 > 4 || f 70 2 > 1 }

/-- The extent and the stride of a dimension. -/
def TRec.e (r : TRec) (i : Nat) : Nat := r.ext.getD i 1
def TRec.st (r : TRec) (i : Nat) : Int := r.str.getD i 0

/-- N of a sparse panel (R201, R213). -/
def TRec.n (r : TRec) : Nat :=
  match r.sparse with
  | 1 => 2 | 2 => 3 | 3 => 4 | 4 => 6 | _ => 12

/-- Elements per K-row (R199): 96 bytes in every format. -/
def perRow (t : Elem) : Nat := 768 / t.width

/-- ceiling(a ÷ b). -/
def ceilDiv (a b : Nat) : Nat := (a + b - 1) / b

/-- Groups of 12 logical positions of a sparse panel (R201). -/
def TRec.groups (r : TRec) : Nat := ceilDiv (r.e 0) 12

/-- Stored K-rows of a panel (R199, R201, R214). -/
def TRec.stored (r : TRec) : Nat :=
  if r.sparse = 0 then ceilDiv (r.e 0) (perRow r.fmt) else ceilDiv r.groups (perRow r.fmt / r.n)

/-- Bytes that a record reaches: a run of `len` bytes repeated along dimensions, each an extent and a stride in bytes. -/
structure Shape where
  dims : List (Nat × Int)
  len  : Nat
  deriving DecidableEq, Repr

/-- The span from a shape's lowest byte to its highest. -/
def Shape.span (h : Shape) : Int × Int :=
  let reach (d : Nat × Int) : Int := ((d.1 - 1 : Nat) : Int) * d.2
  (h.dims.foldl (fun n d => n + min 0 (reach d)) 0, h.dims.foldl (fun n d => n + max 0 (reach d)) 0 + (h.len : Int))

/-- A shape from address `q` with runs that touch along a dimension joined into one run, and the address it then starts at. -/
def Shape.join (h : Shape) : Nat → Int → Int × Shape
  | 0, q => (q, h)
  | fuel + 1, q =>
    match h.dims.find? fun d => decide (d.1 = 1) || decide (d.2.natAbs ≤ h.len) with
    | none => (q, h)
    | some d =>
      let far := (d.1 - 1) * d.2.natAbs
      Shape.join { dims := h.dims.erase d, len := h.len + far } fuel (if d.2 < 0 then q - (far : Int) else q)

/-- `f` holds of the first byte of every run along the dimensions. -/
def allRuns (f : Int → Bool) : List (Nat × Int) → Int → Bool
  | [], q => f q
  | d :: r, q => (List.range d.1).all fun i => allRuns f r (q + i * d.2)

/-- The bytes of a record's elements, relative to BASE (R214). DESIGN CHOICE (log 125): of a panel whose last K-row is partial, the whole 96-byte
rows. -/
def TRec.shape (r : TRec) : Shape :=
  if r.layout = 1 then { dims := [], len := r.stored * r.e 1 * 96 }
  else if r.fmt = .t6 then { dims := [(r.e 1, r.st 1), (r.e 2, r.st 2), (r.e 3, r.st 3)], len := ceilDiv (6 * r.e 0) 8 }
  else { dims := (List.range 4).map fun i => (r.e i, r.st i), len := r.fmt.width / 8 }

/-- The span from the lowest to the highest byte reached, relative to BASE (R196 class 0). -/
def TRec.span (r : TRec) : Int × Int := r.shape.span

/-- An address plus a signed distance. -/
def addrPlus (a : Word) (d : Int) : Word := a + BitVec.ofInt 64 d

/-- The byte and bit of an element (R214). -/
def TRec.at (r : TRec) (i0 i1 i2 i3 : Nat) : Word × Nat :=
  if r.layout = 1 then
    let e := perRow r.fmt
    let bit := i0 % e * r.fmt.width
    (r.base + BitVec.ofNat 64 ((i0 / e * r.e 1 + i1) * 96 + bit / 8), bit % 8)
  else
    let row := addrPlus r.base (i1 * r.st 1 + i2 * r.st 2 + i3 * r.st 3)
    if r.fmt = .t6 then (row + BitVec.ofNat 64 (6 * i0 / 8), 6 * i0 % 8) else (addrPlus row (i0 * r.st 0), 0)

/-- The 96 bytes of stored K-row r, column j (R214). -/
def TRec.panelRow (r : TRec) (k j : Nat) : Word := r.base + BitVec.ofNat 64 ((k * r.e 1 + j) * 96)

/-- The byte a sparse panel's masks start at, MOFF rows into the record's buffer (R213, R214). -/
def TRec.maskBase (r : TRec) : Word :=
  let bits := if r.place = .i then 20 else 17
  BitVec.ofNat 64 (r.base.toNat / 2 ^ bits * 2 ^ bits + r.moff * 96)

/-- The bytes of a sparse panel's masks. -/
def TRec.maskBytes (r : TRec) : Nat := ceilDiv (12 * r.groups * r.e 1) 8

/-- The address of the scale word of a row and block (R214). -/
def TRec.scaleAt (r : TRec) (row blk : Nat) : Word := addrPlus r.scale (row * r.srow + ((4 * blk : Nat) : Int))

/-! ### How an engine reaches a record's bytes -/

/-- The buffer an address names (R119, R121). -/
def bufNum (sp : Space) (a : Word) : Nat :=
  match sp with
  | .i => a.toNat / 2 ^ 20 % 4
  | _ => bufOf a.toNat

/-- A local access in runs, by address alone. -/
def localRuns (t : Thr) (sp : Space) : Nat → Word → Nat → Nat → List Piece
  | 0, _, _, _ => []
  | fuel + 1, a, off, n =>
    if n = 0 then []
    else
      let r := runLength sp a.toNat n
      let (c, la) := localPlace t sp a.toNat
      { off := off, n := r, addr := a, place := .buf c la } :: localRuns t sp fuel (a + BitVec.ofNat 64 r) (off + r) (n - r)

/-- A fault an engine meets, with the core of the local unit it is at (R307). -/
abbrev EngErr := FaultInfo × Option Nat

/-- A check that names no local unit, as an engine meets it. -/
def engErr {α : Type} (r : Except FaultInfo α) : Except EngErr α :=
  match r with
  | .ok a => .ok a
  | .error e => .error (e, none)

/-- The runs of an engine's access, for a record whose port its role has checked (R118, R215): layout, translation, rights and ranges. A
local address is named by R119 (R307). -/
def State.engRuns (s : State) (t : Thr) (sp : Space) (k : AccKind) (a : Word) (n : Nat) : Except EngErr (List Piece) :=
  match localLayout sp a n with
  | .error e => .error (e, none)
  | .ok () =>
    match sp with
    | .g => engErr (s.resolveRuns t .g k false a 0 n (n + 1))
    | _ =>
      let ps := localRuns t sp (n + 1) a 0 n
      let out (p : Piece) : Option EngErr :=
        match p.place with
        | .buf c la =>
          let r := s.rangeOn t true c (bufOf la)
          if la % 2 ^ 17 < r.1 || la % 2 ^ 17 + p.n > r.2 then some (mkFault .permission 3 (BitVec.ofNat 64 la) 0, some c) else none
        | .glob _ => none
      match ps.findSome? out with
      | some e => .error e
      | none => .ok ps

/-- The counts and the damage of a job's run (R136, R281); a local unit is named by its local address (R307). -/
def State.engCounts (s : State) (t : Thr) (k : AccKind) (p : Piece) : Except EngErr Unit :=
  match p.place with
  | .glob _ => engErr (s.checkCounts t .g k 1 p)
  | .buf c _ =>
    match p.units.find? fun u => k.writes && decide (s.countOf t false u ≠ 0) with
    | some u => .error (mkFault .permission 4 (u.addr .l) 0, some c)
    | none =>
      match (if k.writes then none else p.units.find? fun u => (s.damage t k false u).isSome) with
      | some u => .error (mkFault .ecc 1 (u.addr .l) 0, some c)
      | none => .ok ()

/-- A plain read of an engine: the cluster cache's line where it holds one, else the home slice. It leaves no line behind (log 21). -/
def State.engByte (s : State) (t : Thr) (x : Xlat) (i : Nat) : Nat :=
  let v := (x.va + i) / 128
  if (regionOf x.pa).isDevice then s.devRead (x.pa + i) 1
  else if x.ord ≠ 0 && (s.findLine t.cluster t.part x.tag v).isSome then s.lineBytes t x.tag v ((x.va + i) % 128) 1
  else s.spaceRead x.tag (x.pa + i) 1

def State.engPiece (s : State) (t : Thr) (p : Piece) : Nat :=
  match p.place with
  | .buf c la => s.bufRead c la p.n
  | .glob x => (List.range p.n).foldl (fun a i => a + s.engByte t x i * 256 ^ i) 0

/-- The checked runs of `n` bytes that an engine reads. -/
def State.engCheckR (s : State) (t : Thr) (sp : Space) (a : Word) (n : Nat) : Except EngErr (List Piece) := do
  let ps ← s.engRuns t sp .load a n
  ps.forM fun p => s.engCounts t .load p
  .ok ps

/-- The bytes of checked runs. -/
def State.engPieces (s : State) (t : Thr) (ps : List Piece) : Nat := ps.foldl (fun v p => v + s.engPiece t p * 256 ^ p.off) 0

/-- Reads `n` bytes of a record. -/
def State.engRead (s : State) (t : Thr) (sp : Space) (a : Word) (n : Nat) : Except EngErr Nat := do
  let ps ← s.engCheckR t sp a n
  .ok (s.engPieces t ps)

/-- The spilled lines that an engine has read are fetched back (R140). -/
def State.engFetched (s : State) (t : Thr) (sp : Space) (a : Word) (n : Nat) : State :=
  match sp, s.engRuns t sp .load a n with
  | .g, .ok ps => (ps.flatMap Piece.units).foldl (fun s u => s.fetchBack t u) s
  | _, _ => s

/-- Checks `n` bytes for an engine's write. -/
def State.engCheckW (s : State) (t : Thr) (sp : Space) (a : Word) (n : Nat) : Except EngErr (List Piece) := do
  let ps ← s.engRuns t sp .store a n
  ps.forM fun p => s.engCounts t .store p
  .ok ps

/-- Writes checked bytes. -/
def State.engWrite (s : State) (t : Thr) (ps : List Piece) (v : Nat) : State :=
  ps.foldl (fun s p =>
    let w := v / 256 ^ p.off % 256 ^ p.n
    match p.place with
    | .buf c la => s.bufWrite c la p.n w
    | .glob x => s.storeGlob t x p.n w) s

/-- A scale word, valid by R76. -/
def State.engScale (s : State) (t : Thr) (r : TRec) (row blk : Nat) : Except EngErr Nat :=
  if r.sblk = 0 then .ok 0x3F800000
  else do
    let a := r.scaleAt row blk
    let v ← s.engRead t r.splace a 4
    if scaleOk v then .ok v else .error (mkFault .scale 1 a 0, none)

/-- A scale word's line is fetched back (R140). -/
def State.scaleFetched (s : State) (t : Thr) (r : TRec) (row blk : Nat) : State :=
  if r.sblk = 0 then s else s.engFetched t r.splace (r.scaleAt row blk) 4

/-! ### Validity (R193, R215) -/

/-- The roles of R215. -/
inductive Role where
  | a | b | c | src | dst
  deriving DecidableEq, Repr

/-- The formats of R199. -/
def Elem.isMatrix : Elem → Bool
  | .s8 | .z8 | .f16 | .bf16 | .e4m3 | .e5m2 | .t8 | .t6 => true
  | _ => false

/-- A byte at an interleaved address lies in the partition's range of its core (R121, R123). -/
def State.interInRange (s : State) (t : Thr) (b : Nat) (q : Int) : Bool :=
  let a := q.toNat
  let rg := s.rangeOn t true (coreOfIndex t.cluster (a / 8 % 8)) b
  decide (0 ≤ q) && decide (rg.1 ≤ a / 64 * 8 + a % 8) && decide (a / 64 * 8 + a % 8 < rg.2)

/-- Every byte of a shape off an address of a local space lies in its buffer and in the partition's range on the core that holds it (R119, R121,
R123, R215). Of an interleaved run each core holds bytes between those among the first and the last 64. -/
def State.bytesInRange (s : State) (t : Thr) (sp : Space) (base : Word) (h : Shape) : Bool :=
  let b := bufNum sp base
  match sp with
  | .g => true
  | .i =>
    let q : Int := (base.toNat % 2 ^ 20 : Nat)
    let (q, h') := h.join h.dims.length q
    decide (base.toNat < 2 ^ 22) && decide (0 ≤ (base.toNat % 2 ^ 20 : Nat) + h.span.1) &&
      decide ((base.toNat % 2 ^ 20 : Nat) + h.span.2 ≤ ((8 * bufSize b : Nat) : Int)) &&
      allRuns (fun x => (List.range (Nat.min 64 h'.len)).all fun i => s.interInRange t b (x + i) && s.interInRange t b (x + (h'.len - 1 - i : Nat)))
        h'.dims q
  | sp =>
    let q : Int := (base.toNat % 2 ^ 17 : Nat)
    let rg := s.rangeOn t true (if sp = .n then base.toNat / 2 ^ 19 else t.core) b
    decide (base.toNat < (if sp = .n then 2 ^ 30 else 2 ^ 19)) && (sp != .n || decide (base.toNat / 2 ^ 19 ≤ 1151)) &&
      decide ((rg.1 : Int) ≤ q + h.span.1) && decide (q + h.span.2 ≤ (rg.2 : Int)) && decide (q + h.span.2 ≤ ((bufSize b : Nat) : Int))

/-- The scale words a record reaches, relative to SCALE (R214). -/
def TRec.scaleShape (r : TRec) : Shape :=
  { dims := [(r.e 1, r.srow)], len := 4 * (if r.layout = 1 && r.sparse ≠ 0 then r.stored else ceilDiv (r.e 0) (16 * r.sblk)) }

/-- A sparse panel's masks, MOFF rows into the record's buffer, end in it (R213, R215). -/
def TRec.masksFit (r : TRec) : Bool :=
  decide (r.moff * 96 + r.maskBytes ≤ (if r.place = .i then 8 else 1) * bufSize (bufNum r.place r.base))

/-- Every byte that a record reaches in a local space lies in its buffer and in the partition's range: elements, masks and scales (R215). -/
def State.recInRange (s : State) (t : Thr) (r : TRec) : Bool :=
  s.bytesInRange t r.place r.base r.shape &&
    (r.sparse = 0 || r.layout = 0 || (r.masksFit && s.bytesInRange t r.place r.maskBase { dims := [], len := r.maskBytes })) &&
    (r.sblk = 0 || s.bytesInRange t r.splace r.scale r.scaleShape)

/-- The record names a core of the cluster (R215). -/
def inCluster (t : Thr) (r : TRec) : Bool :=
  match r.place with
  | .n => decide (r.base.toNat / 2 ^ 19 ≤ 1151) && clusterOfCore (r.base.toNat / 2 ^ 19) == t.cluster
  | .g => false
  | _ => true

/-- The scale fields of a record in a role (R213, R215). -/
def scaleFieldsOk (r : TRec) (role : Role) : Bool :=
  r.splace != .i &&
    (r.sblk = 0 ||
      (decide (r.ndim ≤ 2) &&
        (match role with
         | .a | .b => r.sblk = perRow r.fmt / 16 && r.splace == .g && !r.fmt.isInt
         | .c => false
         | .src | .dst => r.splace == .g || bufNum r.splace r.scale == 0)))

/-- A record is valid in its role (R215, R219): `gang` for MXG, `sparse` says which B a job takes. -/
def State.recOk (s : State) (t : Thr) (r : TRec) (role : Role) (gang : Bool) (sparse : Nat → Bool) : Bool :=
  let buf := bufNum r.place r.base
  !r.bad && r.ext.all (· ≠ 0) && scaleFieldsOk r role && s.recInRange t r &&
    (match role with
     | .a =>
       inCluster t r && buf = 1 && (!gang || r.place == .l) && r.layout = 0 && r.ndim = 2 && Elem.isMatrix r.fmt &&
         r.st 0 == (if r.fmt = .t6 then 0 else ((r.fmt.width / 8 : Nat) : Int)) && r.st 1 % 96 == 0
     | .b =>
       inCluster t r && buf = 2 && r.layout = 1 && r.ndim = 2 && Elem.isMatrix r.fmt && decide (r.e 1 ≤ 256) && sparse r.sparse &&
         (r.sparse = 0 || r.fmt != .t6)
     | .c =>
       inCluster t r && buf = 3 && (!gang || r.place == .l) && r.layout = 0 && r.ndim = 2 && (r.fmt == .f32 || r.fmt == .s32) &&
         r.st 0 == 4 && r.st 1 % 128 == 0
     | .src => r.layout = 0 && (r.place == .g || buf = 0)
     | .dst => (r.place == .g || buf != 3) && (r.layout = 0 || (r.place != .g && buf = 2 && r.sparse = 0)))

/-- A and B name the same format, or one of the two pairs of R199. -/
def pairOk (a b : Elem) : Bool :=
  a == b || (a == .s8 && b == .z8) || (a == .z8 && b == .s8) || (a == .e4m3 && b == .e5m2) || (a == .e5m2 && b == .e4m3)

/-- The shapes and formats of a matrix job agree (R199, R215). -/
def matrixAgrees (a b c : TRec) : Bool :=
  pairOk a.fmt b.fmt && a.e 0 == b.e 0 && c.e 0 == b.e 1 && c.e 1 == a.e 1 && c.fmt == (if a.fmt.isInt then .s32 else .f32)

/-- The shapes and formats of a copy job agree (R215). -/
def copyAgrees (a d : TRec) (fill : Bool) : Bool :=
  let de := if a.layout = d.layout then d.ext else [d.e 1, d.e 0, d.e 2, d.e 3]
  a.ext == de && !(a.fmt.isInt && d.fmt.isInt && a.fmt != d.fmt) && (!fill || d.count ≠ 0)

/-! ### Footprints and edges (R196, R197) -/

/-- Where a region lies; global regions carry the thread under whose ASID they are. -/
inductive RegionSpace where
  | local (core buf : Nat)
  | inter (cluster buf : Nat)
  | glob (t : Thr)
  deriving DecidableEq, Repr

/-- A region of a footprint. -/
structure Foot where
  sp    : RegionSpace
  lo    : Int
  hi    : Int
  whole : Bool
  write : Bool
  deriving DecidableEq, Repr

/-- One region from an address and a span. -/
def footAt (t : Thr) (sp : Space) (a : Word) (lo hi : Int) (whole write : Bool) : Foot :=
  match sp with
  | .g => { sp := .glob t, lo := a.toNat + lo, hi := a.toNat + hi, whole := whole, write := write }
  | .i =>
    { sp := .inter t.cluster (bufNum .i a), lo := (a.toNat % 2 ^ 20 : Nat) + lo, hi := (a.toNat % 2 ^ 20 : Nat) + hi, whole := whole, write := write }
  | _ =>
    let c := (localPlace t sp a.toNat).1
    { sp := .local c (bufNum sp a), lo := (a.toNat % 2 ^ 17 : Nat) + lo, hi := (a.toNat % 2 ^ 17 : Nat) + hi, whole := whole, write := write }

/-- The region of a record's elements. -/
def footElems (t : Thr) (r : TRec) (whole write : Bool) : Foot := footAt t r.place r.base r.span.1 r.span.2 whole write

/-- The region of a sparse panel's masks. -/
def footMasks (t : Thr) (r : TRec) (whole : Bool) : List Foot :=
  if r.layout = 1 && r.sparse ≠ 0 then [footAt t r.place r.maskBase 0 r.maskBytes whole false] else []

/-- The regions a record adds (R196): its elements, its masks and its scales. -/
def footOf (t : Thr) (r : TRec) (write : Bool) : List Foot :=
  if r.cls = 2 then []
  else
    let whole := r.cls = 1
    footElems t r whole write :: footMasks t r whole ++
      (if r.sblk = 0 then [] else [footAt t r.splace r.scale r.scaleShape.span.1 r.scaleShape.span.2 whole false])

/-- A page that a thread's address space maps as G (R126). -/
def State.gPage (s : State) (t : Thr) (page : Nat) : Bool :=
  match s.lookup t (BitVec.ofNat 64 (page * 65536)) with
  | .ok (pte, _) => pte.testBit 9
  | .error _ => false

/-- The intervals of two regions meet. -/
def Foot.overlaps (a b : Foot) : Bool := a.whole || b.whole || (decide (a.lo < b.hi) && decide (b.lo < a.hi))

/-- Two global regions overlap (R197): under one ASID of a partition where their intervals meet, under two where they meet on a page that is G in
both. The whole memories of two ASIDs are taken to share a G page (log 98). -/
def State.globMeets (s : State) (t u : Thr) (a b : Foot) : Bool :=
  if t.part = u.part && t.asid = u.asid then a.overlaps b
  else if a.whole && b.whole then true
  else
    let lo := if a.whole then b.lo else if b.whole then a.lo else max a.lo b.lo
    let hi := if a.whole then b.hi else if b.whole then a.hi else min a.hi b.hi
    decide (lo < hi) &&
      (List.range ((hi.toNat - 1) / 65536 - lo.toNat / 65536 + 1)).any fun i =>
        let p := lo.toNat / 65536 + i
        s.gPage t p && s.gPage u p

/-- Two regions overlap, and at least one of them is written (R197). -/
def State.meets (s : State) (a b : Foot) : Bool :=
  (a.write || b.write) &&
    (match a.sp, b.sp with
     | .local c x, .local d y => c == d && x == y && a.overlaps b
     | .inter cl x, .inter dl y => x == y && cl == dl
     | .inter cl x, .local c y | .local c x, .inter cl y => x == y && clusterOfCore c == cl
     | .glob t, .glob u => s.globMeets t u a b
     | _, _ => false)

end Sys2Proof.Machine
end

