-- ==== Sys2Proof/Machine/Jobs.lean ====
section
/-! DEFINITION. The life of a job (R191 to R211, R221 to R224, R261): what an engine computes, claims and writes, how a job starts,
completes, freezes, is replayed and is cancelled, and the queue's choices. -/

namespace Sys2Proof.Machine

/-- A job's id (R192). -/
def jobId (cl e : Nat) (gen : BitVec 16) : BitVec 32 := BitVec.ofNat 32 (gen.toNat * 2 ^ 16 + cl * 256 + e)
def Job.id (j : Job) (cl e : Nat) : BitVec 32 := jobId cl e j.gen

/-- A job has ended (R195). -/
def Job.ended (j : Job) : Bool := j.state == .done || j.state == .cancelled

/-- The matrix engine's job, or the copy unit's (R191). -/
def JobKind.isMatrix : JobKind → Bool
  | .mxq | .mxqs | .mxg | .mxlb => true
  | .cpq | .cpf => false

/-- A job's instance is relative to its cluster, and none written is the cluster (R159). -/
def Job.reach (j : Job) (cl : Nat) : Reach :=
  match j.scope with
  | .unwritten => .inside
  | sc => Scope.reach sc cl j.rect

/-- A thread in whose place a job's access on a core stands (R161). -/
def Job.thr (j : Job) (cl core : Nat) : Thr :=
  { slot := 16 * core, core := core, cluster := cl, part := j.part, asid := j.asid.toNat, priv := j.priv.toNat }

/-- The cores whose A and C slices a job takes, in job order (R207, R220). -/
def Job.slices (j : Job) : List Nat := if j.members.isEmpty then [j.core] else j.members

/-- The core whose W a .L record of B names (R220). -/
def Job.coreB (j : Job) : Nat := j.slices.headD j.core

/-- A fault of a job, with AUX (R280, R307). -/
abbrev JobErr := FaultInfo × Nat

/-- AUX names the partner core of a ganged job's fault (R280). -/
def Job.aux (j : Job) (core : Nat) : Nat := if j.members.isEmpty then 0 else core

/-- A fault an engine meets becomes the job's: AUX names the core of the local unit it is at (R307), else that of the slice. -/
def liftErr {α : Type} (j : Job) (core : Nat) (r : Except EngErr α) : Except JobErr α :=
  match r with
  | .ok a => .ok a
  | .error e => .error (e.1, j.aux (e.2.getD core))

def State.modJob (s : State) (cl e : Nat) (f : Job → Job) : State :=
  s.modCluster cl fun c => match c.jobs.get? e with | some j => { c with jobs := c.jobs.set e (f j) } | none => c

def State.job? (s : State) (cl e : Nat) : Option Job := (s.cluster cl).jobs.get? e

/-! ### Claims (R206) -/

/-- Claims further units for a job; the first whose count less the other jobs' claims is 0 raises OVER-READ. -/
def State.claimUnits (s : State) (j : Job) (held : List Claim) : List CUnit → Except JobErr (List Claim)
  | [] => .ok held
  | .line .. :: r => State.claimUnits s j held r
  | .row c w :: r =>
    let k : Claim := { core := c, row := w }
    if held.contains k then State.claimUnits s j held r
    else
      let own := (j.claims.filter fun (x : Claim) => x == k).length
      let n := (s.core c).counts.getD w 0
      if n - (s.claimsOn c w - own) = 0 then .error (mkFault .overRead 0 ((CUnit.row c w).addr .l) n, j.aux c)
      else State.claimUnits s j (held ++ [k]) r

/-- The units of a local run of an operand. -/
def runUnits (t : Thr) (sp : Space) (a : Word) (n : Nat) : List CUnit := (localRuns t sp (n + 1) a 0 n).flatMap Piece.units

/-! ### The matrix engine (R198 to R205) -/

/-- Healthy macro rows and the panel limits (R204). -/
def Cluster.healthy (c : Cluster) : Nat := 18 - c.fenced
def Cluster.limit (c : Cluster) (dup : Bool) : Nat := if dup then Nat.min 8 (c.healthy / 2) else Nat.min 16 c.healthy

/-- The resident panel is the one a job needs (R202): a job that has loaded it goes on with it when a copy clears the tag. -/
def Job.resident (j : Job) (p : Option Panel) : Bool :=
  match p with
  | some p => p.part == j.part && p.asid == j.asid && p.snap == j.recB && (p.tagged || j.loaded)
  | none => false

/-- The address of a B record (R212). -/
def Job.recAddr (j : Job) (i : Nat) : Word := j.tidbase + BitVec.ofNat 64 (64 * (j.tids.toNat / 2 ^ (16 * i) % 2 ^ 16))

/-- A mask of a sparse panel: its byte address and its bits (R214). -/
def State.readMask (s : State) (t : Thr) (b : TRec) (g col : Nat) : Except EngErr (Word × BitVec 12) := do
  let bit := 12 * (g * b.e 1 + col)
  let a := b.maskBase + BitVec.ofNat 64 (bit / 8)
  let v ← s.engRead t b.place a 2
  .ok (a, BitVec.ofNat 12 (v / 2 ^ (bit % 8)))

/-- One stored K-row of one column, with its masks (R201, R214). -/
def State.readCell (s : State) (t : Thr) (b : TRec) (tid k col : Nat) : Except EngErr (BitVec 768 × Table (BitVec 12)) := do
  let v ← s.engRead t b.place (b.panelRow k col) 96
  if b.sparse = 0 then .ok (BitVec.ofNat 768 v, [])
  else
    let per := perRow b.fmt / b.n
    let gs := (List.range per).filterMap fun i => if k * per + i < b.groups then some (k * per + i) else none
    let ms ← gs.mapM fun g => do
      let m ← s.readMask t b g col
      if popc m.2.toNat 12 > b.n then .error (mkFault .job 2 m.1 tid, none) else .ok (g * b.e 1 + col, m.2)
    .ok (BitVec.ofNat 768 v, ms)

/-- The stored K-rows and columns of B in the order of R206. -/
def TRec.cells (b : TRec) : List (Nat × Nat) := (List.range b.stored).flatMap fun k => (List.range (b.e 1)).map fun col => (k, col)

/-- What a job has of B. -/
structure Loaded where
  rows   : List (BitVec 768)
  masks  : Table (BitVec 12)
  claims : List Claim
  deriving DecidableEq, Repr

/-- The operand B (R202, R206): from the resident panel or from W, its counted units claimed in stored order. DESIGN CHOICE (log 93): the
mask rows of a sparse B are read and not claimed. A damaged macro row raises ECC (R281). -/
def State.fetchB (s : State) (cl : Nat) (j : Job) : Except JobErr Loaded := do
  let b := trec j.recB
  let t := j.thr cl j.coreB
  let tid := j.tids.toNat / 2 ^ (if j.kind == .mxlb then 0 else 16) % 2 ^ 16
  if b.stored > (s.cluster cl).limit j.dup then .error (mkFault .job 3 (j.recAddr (if j.kind == .mxlb then 0 else 1)) 0, 0)
  else if j.resident (s.cluster cl).panel && s.poison.contains (.panel cl) then .error (mkFault .ecc 5 b.base 0, j.aux j.coreB)
  else
    let panel := (s.cluster cl).panel
    let step (l : Loaded) (kc : Nat × Nat) : Except JobErr Loaded := do
      let cell ← if j.resident panel then .ok (0, []) else liftErr j j.coreB (s.readCell t b tid kc.1 kc.2)
      let claims ← if b.count = 0 then .ok l.claims else s.claimUnits j l.claims (runUnits t b.place (b.panelRow kc.1 kc.2) 96)
      .ok { rows := l.rows ++ [cell.1], masks := l.masks ++ cell.2, claims := claims }
    let l ← b.cells.foldlM step { rows := [], masks := [], claims := [] }
    match panel with
    | some p => if j.resident panel then .ok { l with rows := p.rows, masks := p.masks } else .ok l
    | none => .ok l

/-- The panel a job leaves (R202). -/
def Job.panelOf (j : Job) (l : Loaded) : Panel :=
  { tagged := true, part := j.part, asid := j.asid, snap := j.recB, core := j.coreB, rows := l.rows, masks := l.masks }

/-- The slice and the row within it of a job row (R220). -/
def Job.rowOf (j : Job) (a : TRec) (i : Nat) : Nat × Nat := (j.slices.getD (i / a.e 1) j.core, i % a.e 1)

/-- The logical K-rows of a job (R200). -/
def TRec.kRows (a : TRec) : Nat := ceilDiv (a.e 0) (perRow a.fmt)

/-- The order in which the engine reads A (R206): groups of eight job rows, within a group by K-row, then by row. -/
def Job.orderA (j : Job) (a : TRec) : List (Nat × Nat) :=
  let rows := j.slices.length * a.e 1
  (List.range (ceilDiv rows 8)).flatMap fun g =>
    (List.range a.kRows).flatMap fun k => ((List.range 8).map (8 * g + ·)).filterMap fun i => if i < rows then some (i, k) else none

/-- The operand A: each row's K-row segments by key row · K-rows + K-row, claimed in the order read (R206). DESIGN CHOICE (log 115): a job
claims the counted units whose bytes the engine reads, where rows leave gaps and whatever the record's footprint class. -/
def State.fetchA (s : State) (cl : Nat) (j : Job) (held : List Claim) : Except JobErr (Table Nat × List Claim) := do
  let a := trec j.recA
  let bytes := ceilDiv (a.e 0 * a.fmt.width) 8
  (j.orderA a).foldlM (fun (acc : Table Nat × List Claim) (ik : Nat × Nat) => do
    let (core, r) := j.rowOf a ik.1
    let t := j.thr cl core
    let addr := addrPlus a.base (r * a.st 1) + BitVec.ofNat 64 (96 * ik.2)
    let n := Nat.min 96 (bytes - 96 * ik.2)
    let v ← liftErr j core (s.engRead t a.place addr n)
    let claims ← if a.count = 0 then .ok acc.2 else s.claimUnits j acc.2 (runUnits t a.place addr n)
    .ok (acc.1 ++ [(ik.1 * a.kRows + ik.2, v)], claims)) ([], held)

/-- The element of B at position q of logical K-row k, column j, where one is present (R201, R214). -/
def bElem (b : TRec) (l : Loaded) (k col q : Nat) : Option Nat :=
  let e := perRow b.fmt
  let pos := k * e + q
  if pos ≥ b.e 0 then none
  else if b.sparse = 0 then some (getBits (l.rows.getD (k * b.e 1 + col) 0) (q * b.fmt.width) b.fmt.width)
  else
    let g := pos / 12
    let m := l.masks.getD (g * b.e 1 + col) 0
    if !m.getLsbD (pos % 12) then none
    else
      let per := e / b.n
      let slot := g % per * b.n + popc (m.toNat % 2 ^ (pos % 12)) 12
      some (getBits (l.rows.getD (g / per * b.e 1 + col) 0) (slot * b.fmt.width) b.fmt.width)

/-- One K-row's contribution to an output element (R78, R80): the new accumulator and the flags of R223. -/
def kRowStep (a b : TRec) (l : Loaded) (seg : Nat) (k col : Nat) (sA sB acc : Nat) : Nat × Flags :=
  let qs := (List.range (perRow a.fmt)).filterMap fun q => (bElem b l k col q).map fun v => (seg / 2 ^ (q * a.fmt.width) % 2 ^ a.fmt.width, v)
  if a.fmt.isInt then
    let sum := qs.foldl (fun (n : Int) (p : Nat × Nat) => n + intOf a.fmt p.1 * intOf b.fmt p.2) 0
    let v := sInt 32 acc + sum
    if v > intMax .s32 then (wrapInt 32 (intMax .s32), flagSAT)
    else if v < intMin .s32 then (wrapInt 32 (intMin .s32), flagSAT)
    else (wrapInt 32 v, 0)
  else
    let ps := qs.map fun p => (mulNum (decNum a.fmt p.1) (decNum b.fmt p.2)).1
    matrixRow ps (qs.any fun p => (decNum a.fmt p.1).isNaN || (decNum b.fmt p.2).isNaN) sA sB acc

/-- The accumulator's address of a job row (R215). -/
def Job.rowC (j : Job) (a c : TRec) (i : Nat) : Nat × Word :=
  let (core, r) := j.rowOf a i
  (core, addrPlus c.base (r * c.st 1))

/-- The local bytes of every accumulator row (R205). -/
def Job.regionC (j : Job) (cl : Nat) : List Piece :=
  let a := trec j.recA
  let c := trec j.recC
  (List.range (j.slices.length * a.e 1)).flatMap fun i =>
    let (core, addr) := j.rowC a c i
    localRuns (j.thr cl core) c.place (4 * c.e 0 + 1) addr 0 (4 * c.e 0)

/-- The shadow copy (R205): each core that the job writes takes its rows and forgets the last job's. -/
def State.takeShadow (s : State) (ps : List Piece) : State :=
  let cores := (ps.filterMap fun p => match p.place with | .buf c _ => some c | .glob _ => none).eraseDups
  let s := cores.foldl (fun s c => s.modCore c fun k => { k with shadow := [] }) s
  ps.foldl (fun s p =>
    match p.place with
    | .buf c la => s.modCore c fun k => { k with shadow := k.shadow.writeN la p.n (k.buf.readN la p.n) }
    | .glob _ => s) s

/-- The shadow copied back over C (R205). -/
def State.putShadow (s : State) (ps : List Piece) : State :=
  ps.foldl (fun s p => match p.place with | .buf c la => s.bufWrite c la p.n ((s.core c).shadow.readN la p.n) | .glob _ => s) s

/-- The accumulators of a row at job start, from the shadow bank (R78, R118, R205). -/
def State.shadowRow (s : State) (t : Thr) (c : TRec) (addr : Word) : Nat :=
  (localRuns t c.place (4 * c.e 0 + 1) addr 0 (4 * c.e 0)).foldl (fun v p =>
    match p.place with
    | .buf k la => v + (s.core k).shadow.readN la p.n * 256 ^ p.off
    | .glob _ => v) 0

/-- What a run of a matrix job comes to. -/
structure Product where
  loaded : Loaded
  claims : List Claim
  rows   : List (List Piece × Nat)
  flags  : Flags
  deriving DecidableEq, Repr

/-- The operands of a matrix job, fetched and claimed. -/
def State.operands (s : State) (cl : Nat) (j : Job) : Except JobErr (Loaded × Table Nat × List Claim) := do
  let l ← s.fetchB cl j
  if j.kind == .mxlb then .ok (l, [], l.claims)
  else
    let a ← s.fetchA cl j l.claims
    .ok (l, a.1, a.2)

/-- One output row (R78, R80). -/
def State.outRow (s : State) (cl : Nat) (j : Job) (l : Loaded) (segs : Table Nat) (i : Nat) : Except JobErr (List Piece × Nat × Flags) := do
  let a := trec j.recA
  let b := trec j.recB
  let c := trec j.recC
  let (core, addr) := j.rowC a c i
  let t := j.thr cl core
  let r := (j.rowOf a i).2
  let _ ← liftErr j core (s.engRead t c.place addr (4 * c.e 0))
  let ks := List.range a.kRows
  let sA ← ks.mapM fun k => liftErr j core (s.engScale t a r k)
  let cols ← (List.range (c.e 0)).mapM fun col => do
    let sB ← ks.mapM fun k => liftErr j j.coreB
      (s.engScale (j.thr cl j.coreB) b col (if b.sparse = 0 then k else k * perRow b.fmt / 12 / (perRow b.fmt / b.n)))
    let acc := s.shadowRow t c addr / 2 ^ (32 * col) % 2 ^ 32
    .ok (ks.foldl (fun (x : Nat × Flags) k =>
      let y := kRowStep a b l (segs.getD (i * a.kRows + k) 0) k col (sA.getD k 0) (sB.getD k 0) x.1
      (y.1, x.2 ||| y.2)) (acc, 0))
  let ps ← liftErr j core (s.engCheckW t c.place addr (4 * c.e 0))
  .ok (ps, cols.foldr (fun x n => x.1 + 2 ^ 32 * n) 0, cols.foldl (fun f x => f ||| x.2) 0)

/-- A whole run of a matrix job on the state it finds, with the first fault in the engine's order (R205, R206). -/
def State.product (s : State) (cl : Nat) (j : Job) : Except JobErr Product := do
  let (l, segs, claims) ← s.operands cl j
  if j.kind == .mxlb then .ok { loaded := l, claims := claims, rows := [], flags := 0 }
  else
    let rows ← (List.range (j.slices.length * (trec j.recA).e 1)).mapM fun i => s.outRow cl j l segs i
    .ok { loaded := l, claims := claims, rows := rows.map fun r => (r.1, r.2.1), flags := rows.foldl (fun f r => f ||| r.2.2) 0 }

/-! ### The copy unit (R208 to R210) -/

/-- The elements of a copy job. -/
def TRec.elems (r : TRec) : Nat := r.e 0 * r.e 1 * r.e 2 * r.e 3

/-- The indices of the n-th element of the source, the first dimension fastest. -/
def TRec.index (r : TRec) (n : Nat) : Nat × Nat × Nat × Nat :=
  (n % r.e 0, n / r.e 0 % r.e 1, n / (r.e 0 * r.e 1) % r.e 2, n / (r.e 0 * r.e 1 * r.e 2))

/-- The destination bytes of `n` elements. DESIGN CHOICE (log 94): the last byte of packed elements counts whole. -/
def copyBytes (d : TRec) (n : Nat) : Nat := ceilDiv (n * d.fmt.width) 8

/-- The destination indices of the n-th element of the source (R208). -/
def destIndex (a d : TRec) (n : Nat) : Nat × Nat × Nat × Nat :=
  let (i0, i1, i2, i3) := a.index n
  if a.layout = d.layout then (i0, i1, i2, i3) else (i1, i0, i2, i3)

/-- The destination bytes of the n-th element. -/
def elemBytes (a d : TRec) (n : Nat) : List Word :=
  let (k0, k1, i2, i3) := destIndex a d n
  let (da, db) := d.at k0 k1 i2 i3
  (List.range (ceilDiv (db + d.fmt.width) 8)).map fun i => da + BitVec.ofNat 64 i

/-- The aligned 8-byte words of the destination that the elements from `lo` to `hi` touch. -/
def elemWords (a d : TRec) (lo hi : Nat) : List Nat :=
  (((List.range (hi - lo)).flatMap fun i => elemBytes a d (lo + i)).map fun b => b.toNat / 8).eraseDups

/-- A step that ends before element `m` leaves no aligned 8-byte word half written (R153). -/
def Job.cleanCut (j : Job) (m : Nat) : Bool :=
  let a := trec j.recA
  let d := trec j.recB
  let later := elemWords a d m d.elems
  (elemWords a d j.elems m).all fun w => !later.contains w

/-- Where the next step ends (R153, R209): the element after the next 4,096 bytes of the destination, or the first after it at which no
8-byte word is torn; none where less than a whole step is left. -/
def Job.nextCut (j : Job) : Option Nat :=
  let d := trec j.recB
  let k := j.elems * d.fmt.width / 32768 + 1
  let m := ceilDiv (32768 * k) d.fmt.width
  if m ≤ d.elems then ((List.range (d.elems + 1 - m)).map (m + ·)).find? j.cleanCut else none

/-- An element converted (R208, R219): equal types without scales move their bits; else the value is scaled and rounded once (R77). DESIGN CHOICE
(log 127): between equal integer types with a scale it rounds, saturates and raises flags as from a floating value (R70). -/
def copyValue (a d : TRec) (sA sD v : Nat) : Nat × Flags :=
  if a.fmt = d.fmt && a.sblk = 0 && d.sblk = 0 then (v, 0)
  else
    let x : Num × Flags := if a.sblk = 0 then (decNum a.fmt v, 0) else mulNum (decNum a.fmt v) (decNum .f32 sA)
    let y : Num × Flags := if d.sblk = 0 then (x.1, 0) else divNum x.1 (decNum .f32 sD)
    let r := encNum d.fmt .rne y.1
    (r.1, x.2 ||| y.2 ||| r.2)

/-- Copies element `n` (R208, R214); the spilled lines it reads are fetched back (R140). -/
def State.copyElem (s : State) (cl : Nat) (j : Job) (n : Nat) : Except EngErr (State × Flags) := do
  let a := trec j.recA
  let d := trec j.recB
  let t := j.thr cl j.core
  let (i0, i1, i2, i3) := a.index n
  let (k0, k1, _, _) := destIndex a d n
  let (sa, sb) := a.at i0 i1 i2 i3
  let blkA := i0 / (16 * Nat.max 1 a.sblk)
  let blkD := k0 / (16 * Nat.max 1 d.sblk)
  let raw ← s.engRead t a.place sa (ceilDiv (sb + a.fmt.width) 8)
  let sA ← s.engScale t a i1 blkA
  let sD ← s.engScale t d k1 blkD
  let s := ((s.engFetched t a.place sa (ceilDiv (sb + a.fmt.width) 8)).scaleFetched t a i1 blkA).scaleFetched t d k1 blkD
  let (v, fl) := copyValue a d sA sD (raw / 2 ^ sb % 2 ^ a.fmt.width)
  let (da, db) := d.at k0 k1 i2 i3
  let len := ceilDiv (db + d.fmt.width) 8
  let ps ← s.engCheckW t d.place da len
  let old := if d.fmt = .t6 then s.engPieces t ps else 0
  .ok (s.engWrite t ps (putField old db d.fmt.width v), fl)

/-- Copies elements up to `stop`. -/
def State.copyTo (s : State) (cl : Nat) (j : Job) (stop : Nat) : Except EngErr (State × Flags) :=
  ((List.range (stop - j.elems)).map (j.elems + ·)).foldlM (fun (x : State × Flags) n => do
    let r ← x.1.copyElem cl j n
    .ok (r.1, x.2 ||| r.2)) (s, 0)

/-- The bytes a copy job writes, by address. -/
def destBytes (a d : TRec) : List Word := (List.range a.elems).flatMap (elemBytes a d)

/-- A destination unit of a counted fill: its first byte's address, how many bytes it holds and how many of them are written. -/
structure FillUnit where
  addr  : Word
  bytes : Nat
  hit   : Nat
  unit  : CUnit
  deriving DecidableEq, Repr

/-- The destination units of a counted fill (R131, R210), with the rights that counting needs (R137). -/
def State.fillUnits (s : State) (cl : Nat) (j : Job) : Except FaultInfo (List FillUnit) := do
  let d := trec j.recB
  let t := j.thr cl j.core
  let bytes := (destBytes (trec j.recA) d).eraseDups
  match d.place with
  | .g =>
    let lines := (bytes.map fun b => b.toNat / 128).eraseDups
    lines.mapM fun l => do
      let ps ← s.resolveRuns t .g (if d.home then .armH else .arm) true (BitVec.ofNat 64 (l * 128)) 0 128 2
      let u := match ps with
        | p :: _ => (match p.place with | .glob x => CUnit.line x.tag (x.va / 128) (x.pa / 128) | .buf c la => .row c (rowOf la))
        | [] => .row 0 0
      .ok { addr := BitVec.ofNat 64 (l * 128), bytes := 128, hit := (bytes.filter fun b => b.toNat / 128 = l).length, unit := u }
  | sp =>
    let key (b : Word) : Nat × Nat := let p := localPlace t sp b.toNat; (p.1, rowOf p.2)
    let rows := (bytes.map key).eraseDups
    rows.mapM fun r =>
      .ok { addr := (CUnit.row r.1 r.2).addr .l, hit := (bytes.filter fun b => key b == r).length, unit := .row r.1 r.2
            bytes := Nat.min (rowBytes (r.2 / 4096)) (bufSize (r.2 / 4096) - r.2 % 4096 * rowBytes (r.2 / 4096)) }

/-- The faults of a counted fill (R132, R210 steps 2 and 3), looked at before every step. -/
def State.fillCheck (s : State) (cl : Nat) (j : Job) : Except FaultInfo Unit := do
  let us ← s.fillUnits cl j
  let t := j.thr cl j.core
  match us.find? fun u => decide (u.hit < u.bytes) with
  | some u => .error (mkFault .misalign 0 u.addr 0)
  | none =>
    match us.find? fun u =>
      match u.unit with
      | .row c r => decide ((s.core c).counts.getD r 0 ≠ 0)
      | .line tag v p => decide ((if (trec j.recB).home then s.homeCount tag p else s.clusterCount t tag v) ≠ 0) with
    | some u => .error (mkFault .permission 4 u.addr 0)
    | none => .ok ()

/-- A copy job's faults besides those of its elements. -/
def State.copyCheck (s : State) (cl : Nat) (j : Job) : Except FaultInfo Unit := if j.kind == .cpf then s.fillCheck cl j else .ok ()

/-- A piece that a copy job has written whole is damaged no longer where the job's stores have performed (R281): in the cluster's copy of a line,
else at home. -/
def State.mendPiece (s : State) (t : Thr) (p : Piece) : State :=
  match p.place with
  | .buf c la => { s with poison := mendRows s.poison c la p.n }
  | .glob x =>
    if x.ord ≠ 0 && (s.findLine t.cluster t.part x.tag (x.va / 128)).isSome then
      s.modCluster t.cluster fun c =>
        { c with lines := c.lines.map fun l => if l.part == t.part && l.asid.toNat == x.tag && l.vline == x.va / 128 then { l with bad := false } else l }
    else { s with poison := mendLines s.poison x.pa p.n }

/-- The units that a copy job has written whole are damaged no longer (R281). -/
def State.mended (s : State) (cl : Nat) (j : Job) : State :=
  if s.poison.isEmpty && ((s.cluster cl).lines.all fun l => !l.bad) then s
  else
    let d := trec j.recB
    let t := j.thr cl j.core
    let bytes := (destBytes (trec j.recA) d).eraseDups
    let whole (p : Piece) : Bool := (List.range p.n).all fun i => bytes.contains (p.addr + BitVec.ofNat 64 i)
    let pieces : List Piece :=
      match d.place with
      | .g => ((bytes.map fun b => b.toNat / 128).eraseDups).flatMap fun l =>
          match s.engRuns t .g .store (BitVec.ofNat 64 (l * 128)) 128 with
          | .ok ps => ps.filter whole
          | .error _ => []
      | sp =>
        let rows := (bytes.map fun b => let p := localPlace t sp b.toNat; (p.1, rowOf p.2)).eraseDups
        (rows.filter fun r =>
            decide ((bytes.filter fun b => let p := localPlace t sp b.toNat; p.1 == r.1 && rowOf p.2 == r.2).length = rowBytes (r.2 / 4096))).map
          fun r => { off := 0, n := rowBytes (r.2 / 4096), addr := 0, place := .buf r.1 (rowAddr r.2) }
    pieces.foldl (fun s p => s.mendPiece t p) s

/-- The counted ways a fill needs are there (R139, R210). -/
def State.fillRoom (s : State) (cl : Nat) (j : Job) : Bool :=
  match s.fillUnits cl j with
  | .ok us => s.armRoom (j.thr cl j.core) (trec j.recB).home (us.map FillUnit.unit)
  | .error _ => true

/-- The lines a fill reserves ways for. -/
def State.fillLines (s : State) (cl : Nat) (j : Job) : List (Nat × Nat × Nat) :=
  match s.fillUnits cl j with
  | .ok us => us.filterMap fun u => match u.unit with | .line tag v p => some (tag, v, p) | .row .. => none
  | .error _ => []

/-- A line that a fill has counted and for which a loss of ways has left no counted way meanwhile is spilled (R141). -/
def State.spillOver (s : State) (t : Thr) (home : Bool) : CUnit → State
  | .row .. => s
  | .line tag v p =>
    let k := (s.part t.part).cfg
    if home then
      if s.homeCountedIn t.part p ≤ k.hcways then s else s.spillHome t.part fun key _ => key == homeKey tag p
    else if s.countedIn t.cluster t.part (v % 2048) ≤ s.ccwaysIn t.cluster t.part then s
    else s.spillCluster t.cluster t.part fun l => l.asid.toNat == tag && l.vline == v

/-- A fill attaches its counts (R210 step 5). -/
def State.attachCounts (s : State) (cl : Nat) (j : Job) : State :=
  let d := trec j.recB
  match s.fillUnits cl j with
  | .ok us => us.foldl (fun s u => (s.armUnit (j.thr cl j.core) d.home d.count u.unit).spillOver (j.thr cl j.core) d.home u.unit) s
  | .error _ => s

/-! ### Ends (R205, R209, R221, R224) -/

/-- One update of a barrier word by a job (R186, R221), in the address space of the thread that named the word (R207); the Bool says that it was
refused. DESIGN CHOICE (log 126): one of a damaged word is refused too, since no job freezes then. -/
def State.jobArrive (s : State) (cl : Nat) (j : Job) (b : BarRef) (dT dB : Nat) : State × Bool :=
  let t := { j.thr cl b.core with asid := b.asid.toNat, priv := b.priv.toNat }
  match s.checkS t b.space .store b.addr 32 32 with
  | .error _ => (s, true)
  | .ok ps =>
    match s.undamaged t ps with
    | .error _ => (s, true)
    | .ok () =>
      let ps := subRuns 0 16 ps
      let s := ((s.release t (j.reach cl)).flushCopies t ps).fetchBackRuns ps
      (s.writePoints ps (barArrive (s.readPoints ps) dT dB), false)

def State.arriveAll (s : State) (cl : Nat) (j : Job) (dT dB : Nat) : State × Bool :=
  j.bars.foldl (fun (a : State × Bool) b => let r := a.1.jobArrive cl j b dT dB; (r.1, a.2 || r.2)) (s, false)

/-- A job withdraws its request for leave, or gives its grant back (R211, R326). -/
def State.dropLeave (s : State) (cl : Nat) (id : BitVec 32) (part : Nat) : State :=
  let d := dieOfCluster cl
  let had := (s.die d).granted.contains id
  let s := s.modDie d fun k => { k with waiting := k.waiting.filter (· != id), granted := k.granted.filter (· != id) }
  if had then s.boxAdd d 4 0 id.toNat 0 part else s

/-- A job ends (R221): the state changes, then each barrier word receives one thread and `dB` bytes. -/
def State.endJob (s : State) (cl e : Nat) (st : JobState) (fin : BitVec 4) (dB : Nat) : State :=
  match s.job? cl e with
  | none => s
  | some j =>
    let s := s.release (j.thr cl j.core) (j.reach cl)
    let s := s.modCluster cl fun c => { c with ended := c.ended.set e s.cycle }
    let s := (s.modJob cl e fun j => { j with state := st, claims := [], fill := [] }).dropLeave cl (j.id cl e) j.part
    let (s, bad) := s.arriveAll cl j 1 dB
    s.modJob cl e fun k => { k with fin := if bad || k.refused then 4 else fin }

/-- A running job's shadow goes back over C, and its claims are released (R205, R224). -/
def State.undoJob (s : State) (cl e : Nat) (j : Job) : State :=
  let s := if j.kind.isMatrix && j.kind != .mxlb then s.putShadow (j.regionC cl) else s
  s.modJob cl e fun j => { j with claims := [], fill := [] }

/-- A damaged panel is given up, to be loaded again (R202, R281; log 100). -/
def State.dropPanel (s : State) (cl : Nat) : State :=
  { s.modCluster cl fun c => { c with panel := none } with poison := s.poison.filter (· != .panel cl) }

/-- A running job freezes (R205): stopped, undone, and its packet sent (R280, R307). -/
def State.freezeJob (s : State) (cl e : Nat) (fault : JobErr) : State :=
  match s.job? cl e with
  | none => s
  | some j =>
    let id := j.id cl e
    let s := (s.undoJob cl e j).dropLeave cl id j.part
    let s := s.modJob cl e fun j => { j with state := .frozen, wasFrozen := true, elems := 0, loaded := false }
    let s := if fault.1.cls == .ecc && fault.1.cause == 5 then s.dropPanel cl else s
    let s := if j.kind.isMatrix && (fault.1.cls == .ecc || fault.1.cls == .redundant) then s.modCluster cl fun c => { c with testDue := true } else s
    let pkt := BitVec.ofNat 512 (packetNat fault.1 1 id.toNat j.task 0 fault.2 [])
    let s := s.boxPacket (dieOfCluster cl) j.part fault.1 id.toNat j.task
    s.sendPacket (.job cl e) j.part pkt

/-- A job is cancelled (R224): `fin` says whether before or after its start. -/
def State.cancelJob (s : State) (cl e : Nat) (sup : Bool) : State :=
  match s.job? cl e with
  | none => s
  | some j =>
    match j.state with
    | .queued | .awaitingLeave => s.endJob cl e .cancelled 2 0
    | .running => (s.undoJob cl e j).endJob cl e .cancelled 3 0
    | .frozen => if sup then (s.withdraw (.job cl e)).endJob cl e .cancelled 3 0 else s
    | .done | .cancelled => s

/-- The STATE code of R223. -/
def JobState.code : JobState → Nat
  | .queued => 0 | .awaitingLeave => 1 | .running => 2 | .frozen => 3 | .done => 4 | .cancelled => 5

/-- The job of a partition that an id names, by cluster and entry (R192, R223), or the STATE code of a failed lookup. DESIGN CHOICE (log 117):
an entry that holds no job of the partition answers 0xE whatever its GEN. -/
def State.findJob (s : State) (p : Nat) (id : BitVec 32) : Except Nat (Nat × Nat × Job) :=
  let n := id.toNat
  let cl := n / 256 % 256
  if cl > 143 || n / 64 % 4 ≠ 0 then .error 0xE
  else
    match s.job? cl (n % 64) with
    | none => .error 0xE
    | some j =>
      if j.part ≠ p then .error 0xE
      else if j.gen.toNat ≠ n / 2 ^ 16 then .error 0xF
      else .ok (cl, n % 64, j)

/-- A job's status word (R223). -/
def State.jobStatus (s : State) (p : Nat) (id : BitVec 32) : Word :=
  BitVec.ofNat 64 (id.toNat * 2 ^ 32 +
    (match s.findJob p id with
     | .error c => c * 2 ^ 28
     | .ok (_, _, j) =>
       j.state.code * 2 ^ 28 + (if j.ended then j.fin.toNat * 2 ^ 24 else 0) + j.flags.toNat * 2 ^ 16 + j.replays.toNat * 256))

/-! ### The queue's choices (R197, R207, R211, R261) -/

/-- The regions of a job (R196). -/
def Job.footprint (j : Job) (cl : Nat) : List Foot :=
  let at_ (c : Nat) := j.thr cl c
  match j.kind with
  | .cpq | .cpf => footOf (at_ j.core) (trec j.recA) false ++ footOf (at_ j.core) (trec j.recB) true
  | .mxlb => footOf (at_ j.core) (trec j.recB) false
  | _ =>
    footOf (at_ j.coreB) (trec j.recB) false ++
      j.slices.flatMap fun c => footOf (at_ c) (trec j.recA) false ++ footOf (at_ c) (trec j.recC) true

/-- An edge holds a job back (R197): an earlier job that has not ended, with an overlap one of them writes. -/
def State.heldBack (s : State) (cl : Nat) (j : Job) : Bool :=
  let f := j.footprint cl
  (s.cluster cl).jobs.any fun (e : Nat × Job) =>
    decide (e.2.order < j.order) && !e.2.ended && (let g := e.2.footprint cl; f.any fun x => g.any fun y => s.meets x y)

/-- A job is eligible for its engine (R261): QUEUED with every edge met, and a matrix job in its partition's order (R197). -/
def State.eligible (s : State) (cl : Nat) (matrix : Bool) (j : Job) : Bool :=
  j.state == .queued && j.kind.isMatrix == matrix && !(s.cluster cl).held.contains j.part &&
    (!matrix || j.wasFrozen ||
      !((s.cluster cl).jobs.any fun (e : Nat × Job) =>
        e.2.part == j.part && e.2.kind.isMatrix && e.2.state == .queued && !e.2.wasFrozen && decide (e.2.order < j.order))) &&
    !s.heldBack cl j

/-- The weights' credits before a choice: raised for each partition with an eligible job, 0 for the others (R261). -/
def State.credit (s : State) (cr : Table Int) (ps : List Nat) : Table Int :=
  ps.map fun p => (p, cr.getD p 0 + ((s.part p).cfg.weight : Int))

/-- The partition of the largest credit, the lowest number of several. -/
def bestCredit : Table Int → Option (Nat × Int)
  | [] => none
  | (p, c) :: r =>
    match bestCredit r with
    | some (q, d) => if d > c then some (q, d) else some (p, c)
    | none => some (p, c)

/-- The job taken within a partition (R261): the earliest matrix job, or the copy job of the next core in rotation. -/
def pickJob (last : Nat) (matrix : Bool) : Table Job → Option (Nat × Job)
  | [] => none
  | (e, j) :: r =>
    let rank (x : Job) : Nat := if matrix then x.order else ((coreIndex x.core + 15 - last) % 8) * 2 ^ 64 + x.order
    match pickJob last matrix r with
    | some (f, k) => if rank k < rank j then some (f, k) else some (e, j)
    | none => some (e, j)

/-- One choice of an engine (R261): the entry, and the state with the credits charged. -/
def State.chooseJob (s : State) (cl : Nat) (matrix : Bool) : Option (Nat × State) :=
  let c := s.cluster cl
  let ok := c.jobs.filter fun (e : Nat × Job) => s.eligible cl matrix e.2
  let ps := (List.range 16).filter fun p => ok.any fun (e : Nat × Job) => e.2.part == p
  let cr := s.credit (if matrix then c.credMat else c.credCopy) ps
  match bestCredit cr with
  | none => none
  | some (q, v) =>
    let total := ps.foldl (fun (n : Int) p => n + ((s.part p).cfg.weight : Int)) 0
    let cr := cr.set q (v - total)
    match pickJob (c.lastCopy.getD 0 7) matrix (ok.filter fun (e : Nat × Job) => e.2.part == q) with
    | none => none
    | some (e, _) =>
      some (e, s.modCluster cl fun c =>
        if matrix then { c with credMat := cr } else { c with credCopy := cr })

/-- The slots of a cluster. -/
def clusterSlots (cl : Nat) : List Nat := (coresOfCluster cl).flatMap fun c => (List.range 16).map (16 * c + ·)

/-- An STEST holds the starts of a cluster's matrix jobs (R204, R227), also one whose thread a slice change has switched out. -/
def State.testHolds (s : State) (cl : Nat) : Bool :=
  (clusterSlots cl).any fun n => (s.slot n).cont == .stest || (s.slot n).away.any fun (e : Nat × Away) => e.2.cont == .stest

/-- An engine is free (R197, R204): the matrix engine with no running job and no test, the copy unit below 16 running jobs. -/
def State.engineFree (s : State) (cl : Nat) (matrix : Bool) : Bool :=
  let c := s.cluster cl
  let n := (c.jobs.filter fun (e : Nat × Job) => e.2.state == .running && e.2.kind.isMatrix == matrix).length
  if matrix then n == 0 && !c.testDue && !s.testHolds cl else decide (n < 16)

/-- The job of an engine that holds a grant and waits for it, the oldest grant first (R195, R261). -/
def State.grantedJob (s : State) (cl : Nat) (matrix : Bool) : Option Nat :=
  (s.die (dieOfCluster cl)).granted.findSome? fun id =>
    ((s.cluster cl).jobs.find? fun (e : Nat × Job) =>
      e.2.id cl e.1 == id && e.2.state == .awaitingLeave && e.2.kind.isMatrix == matrix && !(s.cluster cl).held.contains e.2.part).map Prod.fst

/-- A matrix job finds its panel resident or loads it (R202); a load that fails leaves none. -/
def State.loadPanel (s : State) (cl : Nat) (j : Job) (l : Except JobErr Loaded) : State :=
  if j.resident (s.cluster cl).panel then s
  else
    let s := s.dropPanel cl
    match l with
    | .ok l => s.modCluster cl fun c => { c with panel := some (j.panelOf l) }
    | .error _ => s

/-- A copy job writes elements or masks of a resident panel's B (R202), whose cluster is that of its core. -/
def State.rewrites (s : State) (t : Thr) (j : Job) (p : Panel) : Bool :=
  let b := trec p.snap
  let u := { t with core := p.core, cluster := clusterOfCore p.core }
  (footElems u b false false :: footMasks u b false).any (s.meets (footElems t (trec j.recB) false true))

/-- A copy job that starts clears the tag of every panel whose source it writes, in its cluster or another (R202). -/
def State.clearTags (s : State) (t : Thr) (j : Job) : State :=
  { s with clusters := s.clusters.map fun (e : Nat × Cluster) =>
      (e.1, { e.2 with panel := e.2.panel.map fun p => if s.rewrites t j p then { p with tagged := false } else p }) }

/-- A job runs (R171, R202, R205, R206, R210): acquire, shadow copy, panel and claims, or a fill's reservation. -/
def State.runJob (s : State) (cl e : Nat) : State :=
  match s.job? cl e with
  | none => s
  | some j =>
    let t := j.thr cl j.core
    let s := (s.modJob cl e fun j => { j with state := .running }).acquire t (j.reach cl)
    if j.kind.isMatrix then
      let s := if j.kind == .mxlb then s else s.takeShadow (j.regionC cl)
      let r := s.operands cl j
      let s := s.loadPanel cl j (r.map fun x => x.1)
      match r with
      | .ok (_, _, claims) => s.modJob cl e fun j => { j with claims := claims, loaded := true }
      | .error _ => s.modJob cl e fun j => { j with loaded := false }
    else
      let s := (s.clearTags t j).modCluster cl fun c => { c with lastCopy := c.lastCopy.set 0 (coreIndex j.core) }
      if j.kind == .cpf then
        if !s.fillRoom cl j then s.endJob cl e .done 1 0 else s.modJob cl e fun k => { k with fill := s.fillLines cl j }
      else s

/-- What leave is asked for (R211): multiply-adds, or destination bytes. -/
def Job.size (j : Job) : Nat :=
  if j.kind == .mxlb then 0
  else if j.kind.isMatrix then j.slices.length * (trec j.recA).e 1 * (trec j.recB).e 1 * (trec j.recB).e 0
  else copyBytes (trec j.recB) (trec j.recB).elems

/-- The first fault a running job would meet next (R205): of a matrix job's whole run, of a copy job's next step. -/
def State.jobFault (s : State) (cl : Nat) (j : Job) : Option JobErr :=
  if j.kind.isMatrix then
    match s.product cl j with
    | .ok _ => none
    | .error e => some e
  else
    match s.copyCheck cl j with
    | .error e => some (e, 0)
    | .ok () =>
      match s.copyTo cl j (match j.nextCut with | some m => m | none => (trec j.recB).elems) with
      | .ok _ => none
      | .error e => some (e.1, 0)

/-- The self-test of R204: a free number of healthy rows is found failing and fenced (log 5), and the result goes to the black box. -/
def State.selfTest (s : State) (cl : Nat) : State × Word :=
  let c := s.cluster cl
  let n := Nat.min c.healthy (Config.failingRows s.freeCtr)
  let s := { s with freeCtr := s.freeCtr + 1 }
  let w := stestWord (c.fenced + n) (n != 0)
  let s := s.modCluster cl fun c => { c with fenced := c.fenced + n, testDue := false }
  (s.boxAdd (dieOfCluster cl) 7 cl w.toNat 0 0, w)

/-- The spilled lines whose scale words a matrix job has read are fetched back (R140). -/
def State.scalesBack (s : State) (cl : Nat) (j : Job) : State :=
  let a := trec j.recA
  let b := trec j.recB
  let s := (j.orderA a).foldl (fun (s : State) (ik : Nat × Nat) =>
    let (core, r) := j.rowOf a ik.1
    s.scaleFetched (j.thr cl core) a r ik.2) s
  (List.range (b.e 1)).foldl (fun (s : State) col =>
    (List.range b.stored).foldl (fun (s : State) k => s.scaleFetched (j.thr cl j.coreB) b col k) s) s

/-- A matrix job of a cluster is running. -/
def State.matrixRuns (s : State) (cl : Nat) : Bool :=
  (s.cluster cl).jobs.any fun (e : Nat × Job) => e.2.state == .running && e.2.kind.isMatrix

end Sys2Proof.Machine
end

