-- ==== Sys2Proof/Machine/Engines.lean ====
section
/-! DEFINITION. The meanings of the engine instructions (R212 to R227) and of the events of the engines (R195, R204, R205, R209, R221,
R260, R261, R326). -/

namespace Sys2Proof.Machine

/-! ### Enqueuing (R212, R216 to R220) -/

/-- ctl.TIDBASE with bits [5:0] taken as zero (R212). -/
def State.tidbase (s : State) : Word := ((s.slot s.cur).reg s.me.part).tidbase &&& 0x00FFFFFFFFFFFFC0

/-- Reads a record through the cluster's record cache (R194, R212, R228). -/
def State.readRecord (s : State) (tid : BitVec 16) : Except FaultInfo (State × BitVec 512) :=
  let t := s.me
  let base := s.tidbase
  let mine (e : RecEntry) : Bool := e.part == t.part && e.tidbase == base && e.tid == tid
  let keep (s : State) (e : RecEntry) : State :=
    s.modCluster t.cluster fun c => { c with records := (e :: c.records.filter fun x => !mine x).take 256 }
  match (s.cluster t.cluster).records.find? mine with
  | some e => .ok (keep s e, e.data)
  | none => do
    let ps ← s.check t .g .load false (base + BitVec.ofNat 64 (64 * tid.toNat)) 64 64 0
    let r := s.loadPieces t ps
    let d := BitVec.ofNat 512 r.2
    .ok (keep r.1 { part := t.part, tidbase := base, tid := tid, data := d }, d)

/-- A tensor id is bits [15:0] of its register (R212). -/
def State.tid (s : State) (r : Reg) : BitVec 16 := (s.getX r).setWidth 16

/-- JOB with cause 0x1 names the record and its id (R222, R281). -/
def State.recFault (s : State) (tid : BitVec 16) : FaultInfo := mkFault .job 1 (s.tidbase + BitVec.ofNat 64 (64 * tid.toNat)) tid.toNat

/-- Reads a record and checks it for its role, as core `core` names its .L addresses (R215, R220). -/
def State.readRoleAt (s : State) (core : Nat) (r : Reg) (role : Role) (gang : Bool) (sparse : Nat → Bool) : Except FaultInfo (State × BitVec 512) := do
  let x ← s.readRecord (s.tid r)
  if s.recOk { s.me with core := core } (trec x.2) role gang sparse then .ok x else .error (s.recFault (s.tid r))

/-- Reads a record and checks it for its role (R215). -/
def State.readRole (s : State) (r : Reg) (role : Role) (gang : Bool) (sparse : Nat → Bool) : Except FaultInfo (State × BitVec 512) :=
  s.readRoleAt s.me.core r role gang sparse

/-- The barrier word a descriptor names, checked as BARINIT would (R218). -/
def State.jobBar (s : State) (jd : JobDesc) : Except FaultInfo (List BarRef) :=
  if jd.breg = 0 then .ok []
  else do
    let _ ← s.checkBar .store jd.bpl (s.getX jd.breg)
    .ok [{ core := s.me.core, space := jd.bpl, addr := s.getX jd.breg, asid := BitVec.ofNat 11 s.me.asid, priv := BitVec.ofNat 2 s.me.priv }]

/-- The threads of a cluster, switched out or not, that a hand-over has given an entry (R260, R262). -/
def State.handed (s : State) (cl : Nat) (p : Option Nat) : Nat :=
  let mine (q : Option Nat) : Bool := match p with | some _ => q == p | none => true
  (clusterSlots cl).foldl (fun n i =>
    n + (if (s.slot i).cont == .jobEntry && mine (s.slotPart? i) then 1 else 0) +
      ((s.slot i).away.filter fun (e : Nat × Away) => e.2.cont == .jobEntry && mine (some e.1)).length) 0

/-- A queue entry is free (R191, R220). -/
def Cluster.entryFree (c : Cluster) (e : Nat) : Bool :=
  !(c.gangs.any fun g => g.entry == e) && (match c.jobs.get? e with | some j => j.ended | none => true)

/-- The entries a partition holds (R191). -/
def Cluster.entriesOf (c : Cluster) (p : Nat) : Nat :=
  (c.jobs.filter fun (e : Nat × Job) => e.2.part == p && !e.2.ended).length + (c.gangs.filter fun g => g.part == p).length

/-- A partition's share has an entry that no hand-over has promised (R191, R260). -/
def State.shareRoom (s : State) (cl p : Nat) : Bool :=
  let c := s.cluster cl
  decide (c.entriesOf p + s.handed cl (some p) < (s.part p).cfg.qshare) &&
    decide (s.handed cl none < ((List.range 64).filter c.entryFree).length)

/-- A slot stays on its instruction until an entry of a cluster frees. -/
def Run.waitsEntry (r : Run) (cl : Nat) : Bool := match r with | .stalled (.jobEntry c _) => c == cl | _ => false

/-- Waiters of a partition for an entry, by slot number. -/
def State.entryWaiters (s : State) (cl p : Nat) : List Nat :=
  (clusterSlots cl).filter fun n => (s.slot n).run.waitsEntry cl && s.slotPart? n == some p

/-- The free entry whose last job ended earliest, the lowest of several (R218). -/
def Cluster.takeEntry (c : Cluster) : Option Nat :=
  ((List.range 64).filter c.entryFree).foldl (fun (b : Option Nat) e =>
    match b with
    | none => some e
    | some f => if c.ended.getD e 0 < c.ended.getD f 0 then some e else some f) none

/-- The entry the current slot may take: its own after a hand-over, else one when no earlier enqueuer waits (R191, R260). -/
def State.entryFor (s : State) : Option Nat :=
  let t := s.me
  if (s.slot s.cur).cont == .jobEntry || (s.shareRoom t.cluster t.part && ((s.entryWaiters t.cluster t.part).filter (· != s.cur)).isEmpty) then
    (s.cluster t.cluster).takeEntry
  else none

/-- A job from its snapshot and the issuing thread (R193). -/
def State.newJob (s : State) (kind : JobKind) (jd : JobDesc) (dup : Bool) (ra rb rc : BitVec 512) (tids : BitVec 48) (bars : List BarRef)
    (members : List Nat) : Job :=
  let t := s.me
  { gen := 0, part := t.part, kind := kind, state := .queued, fin := 0, flags := 0, replays := 0, task := s.ctx.task, core := t.core,
    asid := BitVec.ofNat 11 t.asid, priv := BitVec.ofNat 2 t.priv, tidbase := s.tidbase, recA := ra, recB := rb, recC := rc, tids := tids,
    scope := jd.sc, rect := s.getX jd.sc.reg, bars := bars, dup := dup, members := members, order := 0, wasFrozen := false, leave := false,
    claims := [], fill := [], elems := 0, arrived := 0, refused := false, loaded := false, packet := none }

/-- A matrix job of more than 4 Mi multiply-adds or a copy job of more than 1 MiB asks leave (R211). -/
def Job.asksLeave (j : Job) : Bool := if j.kind.isMatrix then decide (j.size > 4 * 2 ^ 20) else decide (j.size > 2 ^ 20)

/-- A job enters entry `e` (R192, R218). -/
def State.putJob (s : State) (cl e : Nat) (j : Job) : State × BitVec 32 :=
  let gen := match s.job? cl e with | some o => o.gen + 1 | none => 1
  let s := s.modCluster cl fun c =>
    { c with jobs := c.jobs.set e { j with gen := gen, order := c.orders, leave := j.asksLeave }, orders := c.orders + 1 }
  (s, jobId cl e gen)

/-- ENQUEUE's end for the five instructions of one thread (R191, R218). -/
def State.enqueueJob (s : State) (k : Enc) (jd : JobDesc) (i : Instr) (j : Job) (d : Reg) : Except FaultInfo State := do
  s.checkScope jd.sc i
  let cl := s.me.cluster
  match s.entryFor with
  | none => .ok (s.stallOn (.jobEntry cl none))
  | some e =>
    let r := (s.release s.me (j.reach cl)).putJob cl e j
    .ok ((r.1.setX d (r.2.setWidth 64)).advance k)

def packTids (a b c : BitVec 16) : BitVec 48 := c ++ b ++ a

/-- MXQ and MXQS (R219). DESIGN CHOICE (log 118): an enqueue reads its records in the order a, b, c, which is the order the record cache ranks
them in. -/
def State.matrixEnqueue (s : State) (k : Enc) (kind : JobKind) (sparse : Nat → Bool) (jd : JobDesc) (dup : Bool) (i : Instr) (d a b c : Reg) :
    Except FaultInfo State := do
  let x ← s.readRole a .a false sparse
  let y ← x.1.readRole b .b false sparse
  let z ← y.1.readRole c .c false sparse
  if !matrixAgrees (trec x.2) (trec y.2) (trec z.2) then .error (s.recFault (s.tid a))
  else
    let bars ← s.jobBar jd
    z.1.enqueueJob k jd i (z.1.newJob kind jd dup x.2 y.2 z.2 (packTids (s.tid a) (s.tid b) (s.tid c)) bars []) d

def execMxq (k : Enc) (jd : JobDesc) (dup : Bool) (d : Reg) (a : Reg) (b : Reg) (c : Reg) (s : State) : Res :=
  s.finish (s.matrixEnqueue k .mxq (· == 0) jd dup (.mxq k jd dup d a b c) d a b c)
def execMxqs (k : Enc) (jd : JobDesc) (dup : Bool) (d : Reg) (a : Reg) (b : Reg) (c : Reg) (s : State) : Res :=
  s.finish (s.matrixEnqueue k .mxqs (· != 0) jd dup (.mxqs k jd dup d a b c) d a b c)

/-- MXLB (R219). -/
def execMxlb (k : Enc) (jd : JobDesc) (d : Reg) (a : Reg) (s : State) : Res :=
  s.finish do
    let x ← s.readRole a .b false (fun _ => true)
    let bars ← s.jobBar jd
    x.1.enqueueJob k jd (.mxlb k jd d a) (x.1.newJob .mxlb jd false 0 x.2 0 (packTids (s.tid a) 0 0) bars []) d

/-- CPQ and CPF (R208, R219). DESIGN CHOICE (log 116): the packet of overlapping records has ADDR 0. -/
def State.copyEnqueue (s : State) (k : Enc) (kind : JobKind) (jd : JobDesc) (i : Instr) (d a b : Reg) : Except FaultInfo State := do
  let x ← s.readRole a .src false (fun _ => true)
  let y ← x.1.readRole b .dst false (fun _ => true)
  if !copyAgrees (trec x.2) (trec y.2) (kind == .cpf) then .error (s.recFault (s.tid a))
  else
    let bars ← s.jobBar jd
    s.checkScope jd.sc i
    let t := s.me
    let fs := footOf t (trec x.2) false
    if (footOf t (trec y.2) true).any fun w => fs.any fun r => y.1.meets r w then .error (mkFault .job 5 0 0)
    else y.1.enqueueJob k jd i (y.1.newJob kind jd false x.2 y.2 0 (packTids (s.tid a) (s.tid b) 0) bars []) d

def execCpq (k : Enc) (jd : JobDesc) (d : Reg) (a : Reg) (b : Reg) (s : State) : Res :=
  s.finish (s.copyEnqueue k .cpq jd (.cpq k jd d a b) d a b)
def execCpf (k : Enc) (jd : JobDesc) (d : Reg) (a : Reg) (b : Reg) (s : State) : Res :=
  s.finish (s.copyEnqueue k .cpf jd (.cpf k jd d a b) d a b)

/-! ### Ganged issue (R207, R220) -/

/-- A gang register's faults (R220). -/
def gangOk (g : Word) (idx : Nat) : Bool := decide (g.toNat < 2 ^ 16) && decide (popc g.toNat 8 ≥ 2) && g.getLsbD idx

/-- Every member has joined. -/
def Gang.full (g : Gang) : Bool := (List.range 8).all fun i => !g.members.getLsbD i || g.joined.any fun j => j.1 == i

/-- The forming gang of a partition's members and tag. -/
def Gang.keyed (g : Gang) (p : Nat) (w : Word) : Bool := g.part == p && g.members == w.setWidth 8 && g.tag == (w >>> 8).setWidth 8

/-- The core whose W a .L B record names (R220): the lowest member's; the issuing core's own where the register names no gang, which ends in cause 4 (log 105). -/
def gangCore (cl : Nat) (w : Word) (own : Nat) : Nat :=
  match (List.range 8).find? fun i => gangOk w (coreIndex own) && w.getLsbD i with | some i => coreOfIndex cl i | none => own

/-- A partner that stays on its MXG for want of an entry issues it again once its gang forms (R191, R207). -/
def Run.calledTo (r : Run) (cl : Nat) (w : Word) : Run := if r = .stalled (.jobEntry cl (some w)) then .ready else r

/-- A gang forms: partners of its register that wait for an entry of their own, switched out or not, may join it (R207). -/
def State.callPartners (s : State) (cl p : Nat) (w : Word) : State :=
  (clusterSlots cl).foldl (fun (s : State) n =>
    let v := s.slot n
    let s := if s.slotPart? n = some p && v.run.calledTo cl w ≠ v.run then s.modSlot n fun v => { v with run := v.run.calledTo cl w } else s
    match v.away.get? p with
    | some a => if a.run.calledTo cl w = a.run then s else s.modSlot n fun v => { v with away := v.away.set p { a with run := a.run.calledTo cl w } }
    | none => s) s

/-- A partner that sleeps at its MXG learns the job's id, in its slot or where a slice change keeps it (R207, R263). -/
def State.tellPartner (s : State) (g : Gang) (cl n : Nat) (id : BitVec 32) : State :=
  let asleep (r : Run) : Bool := r == .sleeping (.gang cl g.entry)
  if s.slotPart? n = some g.part && asleep (s.slot n).run then s.modSlot n fun v => { v with cont := .gangJob id }
  else
    match (s.slot n).away.get? g.part with
    | some a => if asleep a.run then s.modSlot n fun v => { v with away := v.away.set g.part { a with cont := .gangJob id } } else s
    | none => s

/-- A partner joins; the last one's issue enqueues the job and gives every partner its id (R207, R307). DESIGN CHOICE (log 113): the job takes
ASID, privilege and ctl.TIDBASE from the last partner, as it takes TASK, and its entry's GEN rises when the gang forms. -/
def State.joinGang (s : State) (k : Enc) (jd : JobDesc) (g : Gang) (d : Reg) (bars : List BarRef) : State :=
  let t := s.me
  let cl := t.cluster
  let g := { g with joined := g.joined ++ [(coreIndex t.core, s.cur, bars.head?)] }
  let s := s.release t (Job.reach { s.newJob .mxg jd g.dup g.recA g.recB g.recC g.tids [] [] with rect := g.rect } cl)
  if !g.full then
    let s := s.modCluster cl fun c => { c with gangs := c.gangs.map fun x => if x.entry == g.entry then g else x }
    (s.modSlot s.cur fun v => { v with cont := .none }).sleepOn (.gang cl g.entry)
  else
    let order := (List.range 8).filterMap fun i => g.joined.find? fun j => j.1 == i
    let j := { s.newJob .mxg jd g.dup g.recA g.recB g.recC g.tids (order.filterMap fun x => x.2.2) (order.map fun x => coreOfIndex cl x.1) with
      rect := g.rect }
    let s := s.modCluster cl fun c => { c with gangs := c.gangs.filter fun x => x.entry != g.entry }
    let r := s.putJob cl g.entry j
    let s := g.joined.foldl (fun (s : State) (x : Nat × Nat × Option BarRef) => s.tellPartner g cl x.2.1 r.2) r.1
    (s.setX d (r.2.setWidth 64)).advance k

/-- MXG (R207, R219, R220). DESIGN CHOICE (log 114): the job's snapshot is what the first partner read of the records. -/
def execMxg (k : Enc) (jd : JobDesc) (dup : Bool) (g : Reg) (d : Reg) (a : Reg) (b : Reg) (c : Reg) (s : State) : Res :=
  s.finish do
    match (s.slot s.cur).cont with
    | .gangJob id => .ok ((s.setX d (id.setWidth 64)).advance k)
    | _ =>
      let t := s.me
      let x ← s.readRole a .a true (fun _ => true)
      let y ← x.1.readRoleAt (gangCore t.cluster (s.getX g) t.core) b .b true (fun _ => true)
      let z ← y.1.readRole c .c true (fun _ => true)
      if !matrixAgrees (trec x.2) (trec y.2) (trec z.2) then .error (s.recFault (s.tid a))
      else
        let bars ← s.jobBar jd
        s.checkScope jd.sc (.mxg k jd dup g d a b c)
        let w := s.getX g
        let bad : Except FaultInfo State := .error (mkFault .job 4 0 0)
        if !gangOk w (coreIndex t.core) then bad
        else
          let s := z.1
          let tids := packTids (s.tid a) (s.tid b) (s.tid c)
          match (s.cluster t.cluster).gangs.find? fun e => e.keyed t.part w with
          | some e =>
            if (e.joined.any fun j => j.1 == coreIndex t.core) || e.dup != dup || e.scope != jd.sc || e.greg != g || e.tids != tids then bad
            else .ok (s.joinGang k jd e d bars)
          | none =>
            match s.entryFor with
            | none => .ok (s.stallOn (.jobEntry t.cluster (some w)))
            | some e =>
              let n : Gang :=
                { part := t.part, members := w.setWidth 8, tag := (w >>> 8).setWidth 8, entry := e, dup := dup, scope := jd.sc,
                  rect := s.getX jd.sc.reg, greg := g, recA := x.2, recB := y.2, recC := z.2, tids := tids, joined := [] }
              let s := (s.modCluster t.cluster fun u => { u with gangs := u.gangs ++ [n] }).callPartners t.cluster t.part w
              .ok (s.joinGang k jd n d bars)

/-! ### Watching, cancelling, fencing and testing (R223 to R227) -/

/-- A status result (R224, R225): a job that has ended makes it an acquire at the job's scope. -/
def State.putStatus (s : State) (k : Enc) (d : Reg) (id : BitVec 32) : State :=
  let t := s.me
  let w := s.jobStatus t.part id
  let s := match s.findJob t.part id with
    | .ok (cl, _, j) =>
      if j.ended then s.acquire t (if cl = t.cluster then j.reach cl else if j.scope = Scope.fabric then .fabric else .package) else s
    | .error _ => s
  (s.reqX d w).advance k

def execJtest (k : Enc) (d : Reg) (a : Reg) (s : State) : Res := .next (s.putStatus k d ((s.getX a).setWidth 32))

/-- JWAIT (R224): it sleeps while the job has not ended. -/
def execJwait (k : Enc) (d : Reg) (a : Reg) (s : State) : Res :=
  let id : BitVec 32 := (s.getX a).setWidth 32
  match s.findJob s.me.part id with
  | .ok (_, _, j) => if j.ended then .next (s.putStatus k d id) else .next (s.sleepOn (.job id))
  | .error _ => .next (s.putStatus k d id)

def execJcancel (k : Enc) (d : Reg) (a : Reg) (s : State) : Res :=
  let id : BitVec 32 := (s.getX a).setWidth 32
  match s.findJob s.me.part id with
  | .ok (cl, e, _) => .next ((s.cancelJob cl e (s.me.priv != 0)).putStatus k d id)
  | .error _ => .next (s.putStatus k d id)

/-- TIDFENCE (R226): earlier stores have performed (log 12). -/
def execTidfence (k : Enc) (a : Reg) (s : State) : Res :=
  let t := s.me
  let base := s.tidbase
  let tid := s.tid a
  .next ((s.modCluster t.cluster fun c =>
    { c with records := c.records.filter fun e => !(e.part == t.part && e.tidbase == base && e.tid == tid) }).advance k)

def execTidfenceAll (k : Enc) (s : State) : Res :=
  let t := s.me
  .next ((s.modCluster t.cluster fun c => { c with records := c.records.filter fun e => e.part != t.part }).advance k)

/-- STEST (R204, R227): matrix jobs stop starting, the running one ends, then the one test. -/
def execStest (k : Enc) (d : Reg) (s : State) : Res :=
  s.finish do
    s.needPriv 1 (.stest k d)
    let cl := s.me.cluster
    if s.matrixRuns cl then .ok ((s.modSlot s.cur fun v => { v with cont := .stest }).sleepOn (.engine cl))
    else
      let r := s.selfTest cl
      .ok ((r.1.reqX d r.2).advance k)

/-! ### Events of the engines -/

/-- JOB_START (R195, R211, R261): a granted job takes its engine before any choice; the job chosen runs or asks leave. With no eligible job
every partition's credit is 0. -/
def State.startJob (s : State) (cl : Nat) (matrix : Bool) : Option State :=
  if !s.engineFree cl matrix then none
  else
    match s.grantedJob cl matrix with
    | some e => some (s.runJob cl e)
    | none =>
      match s.chooseJob cl matrix with
      | none =>
        let c := s.cluster cl
        if (if matrix then c.credMat else c.credCopy).isEmpty then none
        else some (s.modCluster cl fun c => if matrix then { c with credMat := [] } else { c with credCopy := [] })
      | some (e, s) =>
        match s.job? cl e with
        | none => none
        | some j =>
          if j.leave then
            some ((s.modJob cl e fun j => { j with state := .awaitingLeave }).modDie (dieOfCluster cl) fun d =>
              { d with waiting := d.waiting ++ [j.id cl e] })
          else some (s.runJob cl e)

def execJobStart (cluster : Nat) (matrix : Bool) (s : State) : Res := .next ((s.startJob cluster matrix).getD s)

/-- The jobs that may hold a grant on a die in its thermal state (R326). -/
def grantLimit (thermal : BitVec 2) : Nat := if thermal = 0 then 24 else if thermal = 1 then 12 else if thermal = 2 then 4 else 0

/-- LEAVE_GRANT (R326). -/
def State.grantLeave (s : State) (die : Nat) : Option State :=
  let d := s.die die
  match d.waiting with
  | [] => none
  | id :: rest =>
    if d.granted.length ≥ grantLimit d.thermal then none
    else
      let cl := id.toNat / 256 % 256
      let s := s.modDie die fun d => { d with waiting := rest, granted := d.granted ++ [id] }
      match s.job? cl (id.toNat % 64) with
      | some j => some (s.boxAdd die 3 0 id.toNat j.size j.part)
      | none => some s

def execLeaveGrant (die : Nat) (s : State) : Res := .next ((s.grantLeave die).getD s)

/-- JOB_COMPLETE (R205, R206, R209, R210, R221) of a running job that no fault stops. -/
def State.completeJob (s : State) (cl e : Nat) : Option State :=
  match s.job? cl e with
  | none => none
  | some j =>
    if j.state != .running then none
    else if j.kind.isMatrix then
      match s.product cl j with
      | .error _ => none
      | .ok p =>
        let s := (if j.loaded then s else s.loadPanel cl j (.ok p.loaded)).scalesBack cl j
        let s := p.rows.foldl (fun (s : State) (r : List Piece × Nat) => s.engWrite (j.thr cl j.core) r.1 r.2) s
        let s := s.modJob cl e fun j => { j with flags := j.flags ||| p.flags, claims := [] }
        let s := p.claims.foldl (fun (s : State) (c : Claim) => s.decrement (j.thr cl j.core) 1 false (.row c.core c.row)) s
        some (s.endJob cl e .done 0 0)
    else
      match j.nextCut with
      | some _ => none
      | none =>
        match s.copyCheck cl j with
        | .error _ => none
        | .ok () =>
          let d := trec j.recB
          match s.copyTo cl j d.elems with
          | .error _ => none
          | .ok (s, fl) =>
            let s := (s.modJob cl e fun j => { j with flags := j.flags ||| fl, elems := d.elems }).mended cl j
            let s := if j.kind == .cpf then s.attachCounts cl j else s
            some (s.endJob cl e .done 0 (copyBytes d d.elems - j.arrived))

def execJobComplete (cluster : Nat) (entry : Nat) (s : State) : Res := .next ((s.completeJob cluster entry).getD s)

/-- COPY_BYTE_ARRIVAL (R209): the next whole 4,096 bytes are written, and each 4,096 arrive unless they arrived before a replay. -/
def State.copyStep (s : State) (cl e : Nat) : Option State :=
  match s.job? cl e with
  | none => none
  | some j =>
    if j.state != .running || j.kind.isMatrix then none
    else
      match j.nextCut with
      | none => none
      | some m =>
        match s.copyCheck cl j with
        | .error _ => none
        | .ok () =>
          match s.copyTo cl j m with
          | .error _ => none
          | .ok (s, fl) =>
            let upto := 4096 * (m * (trec j.recB).fmt.width / 32768)
            let s := s.modJob cl e fun j => { j with flags := j.flags ||| fl, elems := m }
            some ((List.range ((upto - j.arrived) / 4096)).foldl (fun (s : State) _ =>
              let (s, bad) := s.arriveAll cl j 0 4096
              s.modJob cl e fun k => { k with arrived := k.arrived + 4096, refused := k.refused || bad }) s)

def execCopyByteArrival (cluster : Nat) (entry : Nat) (s : State) : Res := .next ((s.copyStep cluster entry).getD s)

/-- INFO of a REDUNDANT packet (R281) from a free number: an eight-row group, a K-row and two different macro rows (R203). DESIGN CHOICE (log 6):
with a sparse B too the K-row is a logical one of A, in 5 bits. -/
def redundantInfo (v rows kRows : Nat) : Nat :=
  let row := 8 * (v % 512 % Nat.max 1 (ceilDiv rows 8))
  let m := v / 2 ^ 20 % 18
  row + v / 2 ^ 12 % Nat.max 1 kRows % 32 * 2 ^ 12 + m * 2 ^ 17 + (m + 1 + v / 2 ^ 30 % 17) % 18 * 2 ^ 22

/-- JOB_FREEZE (R205): the fault a running job meets; a redundant job that meets none is one whose comparator found a mismatch (R203), on
a free choice of rows (log 6), whose slice's core AUX names (R280). -/
def State.stopJob (s : State) (cl e : Nat) : Option State :=
  match s.job? cl e with
  | none => none
  | some j =>
    if j.state != .running then none
    else
      match s.jobFault cl j with
      | some f => some (s.freezeJob cl e f)
      | none =>
        if j.kind.isMatrix && j.dup then
          let w := redundantInfo (Config.redundantRow s.freeCtr) (j.slices.length * (trec j.recA).e 1) (trec j.recA).kRows
          some (({ s with freeCtr := s.freeCtr + 1 }).freezeJob cl e (mkFault .redundant 0 0 w, j.aux (j.rowOf (trec j.recA) (w % 4096)).1))
        else none

def execJobFreeze (cluster : Nat) (entry : Nat) (s : State) : Res := .next ((s.stopJob cluster entry).getD s)

/-- MACRO_SELF_TEST (R204): a due test runs once no matrix job runs. -/
def State.dueTest (s : State) (cl : Nat) : Option State :=
  if (s.cluster cl).testDue && !s.matrixRuns cl then some (s.selfTest cl).1 else none

def execMacroSelfTest (cluster : Nat) (s : State) : Res := .next ((s.dueTest cluster).getD s)

/-- JOB_ENTRY_HANDOFF (R260): the next core in rotation, and on it the slot that has waited longest, gets the freed entry. -/
def State.handEntry (s : State) (cl p : Nat) : Option State :=
  if !s.shareRoom cl p then none
  else
    let last := (s.cluster cl).lastHand.getD p 7
    let rank (n : Nat) : Nat := ((coreIndex (coreOfSlot n) + 15 - last) % 8) * 2 ^ 64 + (s.slot n).waitFrom
    match (s.entryWaiters cl p).foldl (fun (b : Option Nat) n =>
        match b with | none => some n | some m => if rank n < rank m then some n else some m) none with
    | none => none
    | some n =>
      let s := s.modSlot n fun v => { v with run := .ready, cont := .jobEntry }
      some (s.modCluster cl fun c => { c with lastHand := c.lastHand.set p (coreIndex (coreOfSlot n)) })

def execJobEntryHandoff (cluster : Nat) (part : Nat) (s : State) : Res := .next ((s.handEntry cluster part).getD s)

end Sys2Proof.Machine
end

