-- ==== Sys2Proof/Machine/Slices.lean ====
section
/-! DEFINITION. Slice changes (R254, R262, R263), the loss of a cluster cache's ways (R141), and the masters a partition's slots are. -/

namespace Sys2Proof.Machine

/-- The privilege of a slot while a partition holds it (R282, R333). -/
def State.privOf (s : State) (p n : Nat) : BitVec 2 := if (s.part p).cfg.supSlot = n then (if p = 0 then 2 else 1) else 0

/-- The slots of a core that a partition's mask names (R254). -/
def PartCfg.slotsOn (k : PartCfg) (c : Nat) : List Nat := ((List.range 16).filter fun i => k.slots.getLsbD i).map (16 * c + ·)

/-! ### Lost ways (R141) -/

/-- A partition keeps `left` counted ways of a cluster cache (R141): its uncounted lines there leave, written back (log 25), and the counted
lines of each set beyond those ways are spilled. -/
def State.loseCluster (s : State) (cl p left : Nat) : State :=
  let s := s.flush cl true fun l => l.part == p
  let here := (s.cluster cl).lines.filter fun l => l.part == p && l.count ≠ 0 && l.spill.isNone
  s.spillCluster cl p fun l =>
    decide (((here.filter fun x => x.vline % 2048 == l.vline % 2048).findIdx fun x => x.asid == l.asid && x.vline == l.vline) ≥ left)

/-! ### Slice changes (R262, R263) -/

/-- Another member's slice comes into force on a core, or none's (R254). -/
def State.setInForce (s : State) (c ring : Nat) (p : Option Nat) : State :=
  (s.catchUp c).modCore c fun k =>
    { k with sliceOf := match p with | some q => k.sliceOf.set ring q | none => k.sliceOf.erase ring, sliceFrom := k.sliceFrom.set ring s.cycle }

/-- SLICE_END (R262): the slice in force on a core has lasted its length, and another partition of the ring follows. -/
def State.endSlice (s : State) (c ring : Nat) : Option State :=
  match (s.core c).sliceOf.get? ring with
  | none => none
  | some p =>
    if s.cycle < (s.core c).sliceFrom.getD ring 0 + (s.part p).cfg.sliceLen then none
    else (s.nextInRing p c).map fun q => s.setInForce c ring (some q)

/-- Why a frame cannot lie at a physical address (R118, R262, R308): its first byte that is no byte of HBM4 (log 101). -/
def areaFault (a : Nat) : Option FaultInfo :=
  if a + frameBytes ≤ hbmSize then none
  else
    let x := Nat.max a hbmSize
    some (if x < 2 ^ 56 then mkFault .permission 2 (BitVec.ofNat 64 x) 0 else mkFault .translation 3 (BitVec.ofNat 64 x) 0)

/-- The fault of a frame's first damaged line, where a restore reads it from the switch area (R262, R281). -/
def State.areaEcc (s : State) (a : Nat) : Option FaultInfo :=
  ((List.range ((a + frameBytes - 1) / 128 - a / 128 + 1)).map (a / 128 + ·)).findSome? fun l =>
    (s.lineDamage l).map fun c => mkFault .ecc c.toNat (BitVec.ofNat 64 (Nat.max a (l * 128))) 0

/-- A fault of a slice change (R262): the slot freezes, and the packet goes to partition 0's supervisor. -/
def State.sliceFault (s : State) (n : Nat) (fi : FaultInfo) : State :=
  let s := s.stopSlot n .fault
  let v := s.slot n
  let t := s.thr n
  let pkt := BitVec.ofNat 512 (packetNat fi 0 n v.ctx.task v.ctx.pc 0 v.levels)
  (s.boxPacket (dieOfCore t.core) t.part fi n v.ctx.task).sendPacket (.slot n t.part) 0 pkt

/-- What a switched-out partition keeps of a slot (R262). -/
def Slot.keep (v : Slot) : Away :=
  { run := v.run, levels := v.levels, cont := v.cont, stepArmed := v.stepArmed, waitFrom := v.waitFrom, packet := v.packet, stands := v.stands }

/-- A slot passes to a partition, whose registers and saved chain it takes; it may not issue until that context has been read (R262). -/
def State.incoming (s : State) (n q : Nat) : State :=
  s.modSlot n fun v =>
    let w := v.away.getD q (Away.idle s.cycle)
    let top : TaskId := match w.levels with | l :: _ => l.task | [] => 0
    { v with
      run := w.run, levels := w.levels, cont := w.cont, ctx := { Ctx.zero with task := top }, priv := s.privOf q n, holder := some q,
      restoring := (v.away.get? q).isSome, away := v.away.erase q, pending := [], stepArmed := w.stepArmed, packet := w.packet,
      stands := w.stands, waitFrom := if w.run == .idle then s.cycle else w.waitFrom }

/-- A slot that no partition holds any more passes to a partition that owns it and has a context saved for it, first of all to the one whose
slice is in force. -/
def State.reassign (s : State) (n : Nat) : State :=
  if (s.slot n).holder.isSome then s
  else
    let saved := (List.range 16).filter fun q => s.owns q n && ((s.slot n).away.get? q).isSome
    match saved.find? (fun q => s.inForce q (coreOfSlot n) == some q) <|> saved.head? with
    | some q => s.incoming n q
    | none => s

/-- SLOT_HANDOVER (R262, R263): at its turn, with every requested result returned, the slot's context goes to the switch area, unless it
still lies there, and the slot to the partition whose slice is in force. -/
def State.handOver (s : State) (n : Nat) : Option State :=
  match s.slotPart? n with
  | none => none
  | some p =>
    let v := s.slot n
    if !s.sliceOver n || s.cycle % 16 ≠ n % 16 || !v.pending.isEmpty then none
    else
      match s.inForce p (coreOfSlot n) with
      | none => none
      | some q =>
        let a := s.switchAddr p n
        match areaFault a with
        | some fi => if v.run.isFrozen then none else some (s.sliceFault n fi)
        | none =>
          let s := if v.restoring then s else s.homeStore a frameBytes v.frame
          let s := (s.modSlot n fun v => { v with away := v.away.set p v.keep }).incoming n q
          let cl := clusterOfCore (coreOfSlot n)
          let left (c : Nat) : Bool := ((s.part p).cfg.slotsOn c).any fun i => s.slotPart? i == some p
          some (if (coresOfCluster cl).any left then s else s.spillCluster cl p fun _ => true)

/-- CONTEXT_RESTORE (R262): the incoming context is read, and the slot takes its saved state; an invalid frame is an idle slot (R285). A slot
that an area freezes reads it once it has been resumed. -/
def State.restoreSlot (s : State) (n : Nat) : Option State :=
  match s.slotPart? n with
  | none => none
  | some q =>
    let v := s.slot n
    if !v.restoring then none
    else
      let a := s.switchAddr q n
      if v.levels.isEmpty then some (s.modSlot n fun v => { v with restoring := false, waitFrom := s.cycle })
      else
      match areaFault a <|> s.areaEcc a with
      | some fi => if v.run.isFrozen then none else some (s.sliceFault n fi)
      | none =>
        let f := s.homeRead a frameBytes
        let s := s.modSlot n fun v => { v with restoring := false }
        if !frameValid f then some ((s.wreck n v.levels).modSlot n fun v => { v with stepArmed := false })
        else some (s.modSlot n fun v => { v with ctx := { ctxOfFrame f with task := v.ctx.task } })

/-- A partition's slice in force ends with its hold on these cores: the next slice of its ring counts from now (R254). -/
def State.endTurn (s : State) (p : Nat) (cores : List Nat) : State :=
  cores.foldl (fun (s : State) c =>
    if s.inForce p c = some p then s.setInForce c (s.part p).cfg.ring.toNat (s.nextInRing p c) else s) s

/-- A partition's thread that is switched out with slot `n` stops (R279, R290): its wait is undone, and the stop is a release at package
(R295). -/
def State.stopAway (s : State) (p n : Nat) (k : FreezeKind) : State :=
  let v := s.slot n
  let w := v.away.getD p (Away.idle s.cycle)
  if w.run.isFrozen then s
  else
    let top : TaskId := match w.levels with | l :: _ => l.task | [] => 0
    let s := s.leaveWaitsOf n p top w.run w.cont
    let w := { w with run := .frozen k w.run.meetHold, cont := w.cont.keep, stepArmed := false }
    (s.modSlot n fun v => { v with away := v.away.set p w }).release (areaThr (coreOfSlot n) p (v.reg p).asid.toNat) .package

/-- A slot whose incoming context has been read, where it was not yet: what a stop or a command waits for. -/
def State.restored (s : State) (n : Nat) : State := (s.restoreSlot n).getD s

end Sys2Proof.Machine
end

