-- ==== Sys2Proof/Machine/Supervise.lean ====
section
/-! DEFINITION. What the supervisor does to stopped masters (R245, R283, R299), vacates (R286, R287), consistent cuts (R290, R301) and the
delivery of waiting packets (R282). -/

namespace Sys2Proof.Machine

/-! ### Acting on a frozen slot (R283, R299) -/

/-- The base task of the vacated chain that a frozen slot stands for (R286). -/
def State.heldChain (s : State) (n : Nat) : Option Task :=
  ((s.slot n).stands.bind (s.findTask (s.thr n).part)).filter fun k => k.state == .parked && !k.chain.isEmpty && k.holdBack.isSome

/-- The depth of a frozen slot's top task: its chain's, or that of the vacated chain it stands for; none for an idle slot. -/
def State.frozenDepth (s : State) (n : Nat) : Option Nat :=
  match s.heldChain n with
  | some k => some (k.chain.length - 1)
  | none => if (s.slot n).levels.isEmpty then none else some ((s.slot n).levels.length - 1)

/-- A slot is given up by a partition that no longer has its core (R286). -/
def State.giveUp (s : State) (n : Nat) : State :=
  let p := (s.thr n).part
  if s.owns p n then s else (s.modSlot n fun v => { v with holder := none }).reassign n

/-- The saved frame of a vacated chain's new top takes the status of a POPB or STEAL whose task has failed (R244, R247). -/
def State.statusInFrame (s : State) (t : Thr) (k : Task) (len : Nat) (status : Option Reg) : State :=
  match status with
  | none => s
  | some r =>
    match s.checkFrame t .store (k.whereTo + BitVec.ofNat 64 (frameBytes * (len - 1))) with
    | .error _ => s
    | .ok ps =>
      let f := s.readPoints ps
      let f := if r = 0 then f else putField f (64 * r.toNat) 64 4
      (s.atPoint t ps).writePoints ps (putField f 18944 64 (f / 2 ^ 18944 % 2 ^ 64 + 8))

/-- Fails the task at a depth of a vacated chain and every task above it (R245): the Bool says that a future was not written. -/
def State.failHeld (s : State) (n : Nat) (k : Task) (depth : Nat) : State × Bool :=
  let p := (s.thr n).part
  let gone := k.chain.take (k.chain.length - depth)
  let rest := k.chain.drop gone.length
  let (s, bad) := gone.foldl (fun (a : State × Bool) (l : Level) => let r := a.1.failLevel n l; (r.1, a.2 || r.2)) (s, false)
  if rest.isEmpty then (s, bad)
  else
    let s := s.modTask p k.id fun m => { m with chain := rest }
    (s.statusInFrame (areaThr (coreOfSlot n) p k.asid.toNat) k rest.length (gone.getLast?.bind Level.status), bad)

/-- Commands 0x01 to 0x03 of R299 on a frozen slot; the Bool says that a future was not written (R245). -/
def State.command (s : State) (n cmd depth : Nat) : State × Bool :=
  let p := (s.thr n).part
  let s := (s.restored n).withdraw (.slot n p)
  match s.heldChain n with
  | some k =>
    let (s, bad) := if cmd = 1 then (s, false) else s.failHeld n k (if cmd = 2 then depth else 0)
    let s := match s.findTask p k.id with
      | some m => if m.state == TaskState.parked && !s.topParked p m then s.pushResume p m else s
      | none => s
    (((s.liftHold n p).modSlot n fun v => { v with run := .idle, stands := none, waitFrom := s.cycle }).giveUp n, bad)
  | none =>
    let (s, bad) :=
      if cmd = 1 || (s.slot n).levels.isEmpty then (s, false)
      else s.failFrom n (if cmd = 2 then depth else 0)
    ((s.restart n).giveUp n, bad)

/-- Why a command on a slot is refused (R299), or none; the caller has found the slot frozen. -/
def State.commandRefusal (s : State) (n cmd depth : Nat) : Option Nat :=
  let bad := !(cmd == 1 || cmd == 3 || (cmd == 2 && (match s.frozenDepth n with | some d => decide (depth ≤ d) | none => false)))
  if bad then some 3
  else
    match (s.slot n).run with
    | .frozen .cut _ => if (s.part (s.thr n).part).cut.isSome then some 5 else none
    | _ => none

/-- A frozen job is replayed (R205, R299); an arrival refused before the freeze stays refused (R221). -/
def State.replayJob (s : State) (cl e : Nat) : State :=
  s.modJob cl e fun j =>
    { j with state := .queued, replays := if j.replays = 255 then 255 else j.replays + 1, elems := 0 }

/-! ### Waiting packets (R282) -/

/-- PENDING_PACKET_DELIVERY: the oldest packet waiting for a partition's inbox enters it once an entry is free; its master's holder then shows
the master's next waiting packet. -/
def State.deliverPending (s : State) (p : Nat) : Option State :=
  match (s.part p).waiting with
  | [] => none
  | (m, pkt) :: rest =>
    if s.inboxFull p then none
    else
      let s := s.modPart p fun k => { k with waiting := rest }
      let next := (rest.find? fun e => e.1 == m).map fun e => pendPacket e.2
      some ((s.setHolder m next).enterInbox p (pendPacket pkt))

/-! ### Vacates (R286, R287, R300) -/

/-- The slots of a partition on a core: those it holds, and those whose context its switch area keeps (R262). -/
def State.slotsHeld (s : State) (p c : Nat) : List Nat :=
  ((s.part p).cfg.slotsOn c).filter fun n => s.slotPart? n == some p || ((s.slot n).away.get? p).isSome

/-- A slot of a partition holds a chain, in itself or in the switch area. -/
def State.chainIn (s : State) (p n : Nat) : List Level :=
  if s.slotPart? n = some p then (s.slot n).levels else ((s.slot n).away.get? p |>.map Away.levels).getD []

/-- The save frame a vacate needs for a slot (R286 step 2). -/
def State.vacateFrame (s : State) (p n : Nat) : Except FaultInfo (List Piece) :=
  let v := s.slot n
  s.checkFrame (areaThr (coreOfSlot n) p (v.reg p).asid.toNat) .store
    ((v.reg p).savebase + BitVec.ofNat 64 (frameBytes * ((s.chainIn p n).length - 1)))

/-- A slot stopped by a vacate is saved (R286 steps 2 to 4): `frame` is its top context, `run` the state it was stopped in. A released
survivor passes its MEET here, with that acquire (R175). -/
def State.saveChain (s : State) (p n : Nat) (ps : List Piece) (frame : Nat) (run : Run) (levels : List Level) (byFault : Bool) : State :=
  let v := s.slot n
  let t := areaThr (coreOfSlot n) p (v.reg p).asid.toNat
  let frame := match run with
    | .frozen _ (.released m ms) => releaseFrame frame m.toNat ms 12
    | .frozen _ .passed => putField frame 18944 64 (frame / 2 ^ 18944 % 2 ^ 64 + 12)
    | _ => frame
  let s := (s.atPoint t ps).writePoints ps frame
  match levels.getLast?, levels.head? with
  | some b, some top =>
    let s := match run with
      | .frozen _ (.released ..) | .frozen _ .passed => s.groupAcquire t (((s.findTask p top.task).map Task.group).getD 0)
      | _ => s
    let parkedAt := match run with | .frozen _ (.parked cl) => some cl | _ => none
    let s := s.modTask p top.task fun k => { k with meet := parkedAt }
    let s := s.modTask p b.task fun k =>
      { k with state := .parked, whereTo := (v.reg p).savebase, asid := (v.reg p).asid, chain := levels, frames := some n, holdBack := some t.core, origin := t.cluster }
    if byFault || parkedAt.isSome then s
    else match s.findTask p b.task with
      | some k => s.pushResume p k
      | none => s
  | _, _ => s

/-- The state of a slot's thread of a partition, in the slot or in the switch area. -/
def State.runIn (s : State) (p n : Nat) : Run :=
  if s.slotPart? n = some p then (s.slot n).run else ((s.slot n).away.get? p |>.map Away.run).getD .idle

/-- A fault stopped this slot (R286). -/
def Run.byFault : Run → Bool
  | .frozen .fault _ => true
  | _ => false

/-- The vacated chain that a slot's part of a partition stands for (R286). -/
def State.standsIn (s : State) (p n : Nat) : Option TaskId :=
  if s.slotPart? n = some p then (s.slot n).stands else ((s.slot n).away.get? p).bind Away.stands

/-- A vacated slot leaves its partition (R286 step 6): idle, or frozen, with its packet, where a chain's record waits for the supervisor. -/
def State.leaveSlot (s : State) (p n : Nat) (levels : List Level) (keep : Bool) : State :=
  let base := levels.getLast?.map Level.task
  let run : Run := if keep then .frozen .fault .none else .idle
  let stands := if keep then base <|> s.standsIn p n else none
  if s.slotPart? n = some p then
    (s.modSlot n fun v =>
      { v with
        run := run, levels := [], ctx := Ctx.zero, pending := [], cont := .none, stepArmed := false, restoring := false
        waitFrom := s.cycle, holder := if keep then some p else none, stands := stands }).reassign n
  else
    s.modSlot n fun v =>
      let w := v.away.getD p (Away.idle s.cycle)
      { v with
        away := if keep then v.away.set p { w with run := run, levels := [], cont := .none, stepArmed := false, stands := stands }
          else v.away.erase p }

/-- One slot of a vacated core (R286). -/
def State.vacateSlot (s : State) (p n : Nat) : State :=
  let here := s.slotPart? n = some p
  let s := if here then s.restored n else s
  let levels := s.chainIn p n
  let run := s.runIn p n
  let s := if run.isFrozen || (levels.isEmpty && run == .idle) then s else if here then s.stopSlot n .freeze else s.stopAway p n .freeze
  let s :=
    if levels.isEmpty then s
    else match s.vacateFrame p n with
      | .error _ => s
      | .ok ps =>
        let frame := if here then (s.slot n).frame else s.homeRead (s.switchAddr p n) frameBytes
        s.saveChain p n ps frame (s.runIn p n) levels run.byFault
  s.leaveSlot p n levels (run.byFault && (!levels.isEmpty || (s.standsIn p n).isSome))

/-- A record moves from the top of one deque to the bottom of another, with its WHERE (R287). -/
def State.moveRecord (s : State) (p c dst : Nat) (r : TaskRecord) : State :=
  let pos := s.pushPos p dst
  let s := ((s.noteRequest p c dst).takeTop p c).push p dst r
  match s.findTask p r.taskid with
  | some k => if k.state = .unstarted then s.modTask p k.id fun m => { m with whereTo := whereDeque dst pos } else s
  | none => s

/-- A vacated core's live records move, oldest first, while there is room (R287). -/
def moveDeque (p c : Nat) : Nat → State → State
  | 0, s => s
  | fuel + 1, s =>
    let s := s.trimT p c
    match s.topRec p c with
    | none => s
    | some r =>
      match s.moveTarget p c (r.group != 0) with
      | none => s
      | some dst => if s.dequeFull p dst then s else moveDeque p c fuel (s.moveRecord p c dst r)

/-- A vacated core's inbox entries of a partition move in order, while they fit (R286 step 5). -/
def moveInbox (p c : Nat) : Nat → State → State
  | 0, s => s
  | fuel + 1, s =>
    match (s.core c).inbox.find? fun m => m.part == p, s.moveTarget p c false with
    | some m, some dst =>
      let r := (s.noteRequest p c dst).arrive { m with target := dst }
      if r.2 ≠ 0 then s
      else
        let u := r.1.modCore c fun k =>
          let left := k.inbox.erase m
          { k with inbox := left, waited := if left.any (fun e => e.part == p) then k.waited else k.waited.erase p }
        let u := if m.hasId then
            match u.findTask p m.record.taskid with
            | some k => if k.state = .unstarted then u.modTask p k.id fun e => { e with whereTo := whereInbox dst } else u
            | none => u
          else u
        moveInbox p c fuel u
    | _, _ => s

/-- The cores of a partition's set in a rectangle. -/
def State.coresIn (s : State) (p : Nat) (rect : Word) : List Nat :=
  (List.range 1152).filter fun c => (s.part p).cfg.cores.getLsbD c && inRect rect c

/-- The status of a VACATE before it acts (R300): 0 when nothing refuses it. -/
def State.vacateRefusal (s : State) (p : Nat) (named : List Nat) : Nat :=
  let k := (s.part p).cfg
  let rest := (List.range 1152).filter fun c => k.cores.getLsbD c && !named.contains c
  let lost := (named.map clusterOfCore).eraseDups.filter fun cl => !(rest.any fun c => clusterOfCore c == cl)
  let slots := named.flatMap fun c => (s.slotsHeld p c).filter fun n => !(s.chainIn p n).isEmpty
  if named.isEmpty then 2
  else if rest.isEmpty then 3
  else if named.contains (coreOfSlot k.supSlot) then 5
  else if lost.any fun cl => (s.cluster cl).groups.any fun (g : Nat × Group) => g.2.part == p && g.2.count ≠ 0 then 1
  else if slots.any fun n => (match s.vacateFrame p n with | .ok _ => false | .error _ => true) then 6
  else 0

/-- VACATE's action on a partition's named cores (R286, R287). With its last core in a cluster the partition loses its ways there (R141, R315). -/
def State.vacate (s : State) (p : Nat) (named : List Nat) : State :=
  let s := s.endTurn p named
  let slots := named.flatMap fun c => s.slotsHeld p c
  let s := slots.foldl (fun (s : State) n => if s.slotPart? n = some p then s.modSlot n fun v => { v with holder := some p } else s) s
  let s := s.modPart p fun k =>
    { k with cfg := { k.cfg with cores := named.foldl (fun b c => b &&& ~~~(BitVec.ofNat 1152 (2 ^ c))) k.cfg.cores } }
  let s := slots.foldl (fun s n => s.vacateSlot p n) s
  let s := (named.map clusterOfCore).eraseDups.foldl (fun (s : State) cl => if (s.part p).cfg.inCluster cl then s else s.loseCluster cl p 0) s
  named.foldl (fun s c => moveInbox p c ((s.core c).inbox.length + 1) (moveDeque p c 600 s)) s

/-! ### Consistent cuts (R289, R290, R301) -/

/-- A cut stops one slot of its partition, which the partition may hold in turn only (R262, R290). -/
def State.cutSlot (s : State) (p n : Nat) : State :=
  if n = s.cur then s
  else if s.slotPart? n ≠ some p then s.stopAway p n .cut
  else
    let s := s.restored n
    if (s.slot n).run.isFrozen then s else s.stopSlot n .cut

/-- Opens a cut: each core stops its partition's slots, the issuing one apart, and flips its colour; job starts are held (R290). -/
def State.openCut (s : State) (p : Nat) (cores : List Nat) : State :=
  let s := cores.foldl (fun (s : State) c =>
    let s := ((s.part p).cfg.slotsOn c).foldl (fun (s : State) n => s.cutSlot p n) s
    s.modCore c fun k => { k with colour := if k.colour.contains p then k.colour.filter (· != p) else p :: k.colour }) s
  let s := (cores.map clusterOfCore).eraseDups.foldl (fun (s : State) cl => s.modCluster cl fun k => { k with held := p :: k.held.filter (· != p) }) s
  s.modPart p fun k => { k with cut := some { cores := cores, issuer := s.cur } }

/-- The sum of a counter over a cut's cores. -/
def State.cutSum (s : State) (p : Nat) (cores : List Nat) (f : Core → Table (BitVec 32)) : BitVec 32 :=
  cores.foldl (fun n c => n + (f (s.core c)).getD p 0) 0

/-- A slot stopped by a cut that has closed is frozen as by a FREEZE (R299). -/
def Run.cutClosed : Run → Run
  | .frozen .cut h => .frozen .freeze h
  | r => r

/-- A slot after a cut of partition `p` has closed, `here` where the partition holds it: `sum` goes to the STOPCUT that sleeps there. -/
def Slot.cutClosed (v : Slot) (p : Nat) (here issuer : Bool) (sum : Nat) : Slot :=
  let told (r : Run) (c : Cont) : Cont := if issuer && r == .sleeping (.cut p) then .cutSum sum else c
  { v with
    run := if here then v.run.cutClosed else v.run
    cont := told v.run v.cont
    away := v.away.map fun (e : Nat × Away) =>
      (e.1, { e.2 with run := if e.1 = p then e.2.run.cutClosed else e.2.run, cont := told e.2.run e.2.cont }) }

/-- CUT_CLOSE (R290, R301): SENT and RECV agree and no job of the partition runs there; the issuer learns the sum, and both counters fall
to zero. -/
def State.closeCut (s : State) (p : Nat) : Option State :=
  match (s.part p).cut with
  | none => none
  | some k =>
    let sent := s.cutSum p k.cores Core.sent
    let runs := (k.cores.map clusterOfCore).eraseDups.any fun cl =>
      (s.cluster cl).jobs.any fun (e : Nat × Job) => e.2.part == p && e.2.state == .running
    if sent ≠ s.cutSum p k.cores Core.recv || runs then none
    else
      let s := k.cores.foldl (fun (s : State) c => s.modCore c fun m => { m with sent := m.sent.erase p, recv := m.recv.erase p }) s
      let s := s.modPart p fun m => { m with cut := none }
      some { s with slots := s.slots.map fun (e : Nat × Slot) =>
        (e.1, e.2.cutClosed p (s.slotPart? e.1 == some p) (e.1 == k.issuer) sent.toNat) }

end Sys2Proof.Machine
end

