-- ==== Sys2Proof/Machine/System.lean ====
section
/-! DEFINITION. The meanings of the system instructions (R291 to R306), and of the events of faults and cuts (R282, R290, R298, R299). -/

namespace Sys2Proof.Machine

/-! ### SVC and BRK (R294) -/

/-- A stop whose instruction has completed with no effect beyond it (R279, R294): PC names the next instruction, INFO the code. -/
def State.stopWith (s : State) (k : Enc) (cls : FaultClass) (code : BitVec 24) : State :=
  s.takeFaultAt s.cur (s.pc + BitVec.ofNat 64 k.len.bytes) (mkFault cls 0 s.pc code.toNat)

def execSvc (k : Enc) (code : BitVec 24) (s : State) : Res := .next (s.stopWith k .svc code)
def execBrk (k : Enc) (code : BitVec 24) (s : State) : Res := .next (s.stopWith k .brk code)

/-! ### Control registers (R292, R293) -/

/-- A control register's value (R241, R265, R266, R292). -/
def State.ctlRead (s : State) (r : CtlReg) : Word :=
  let c := s.ctx
  let v := s.slot s.cur
  let p := s.me.part
  match r with
  | .task => c.task.setWidth 64
  | .mult => c.mult.setWidth 64
  | .mstat => c.mstat
  | .group => c.group.setWidth 64
  | .fgroup => c.fgroup.setWidth 64
  | .stealdom => c.stealdom.setWidth 64
  | .fstat => c.fstatWord
  | .tidbase => (v.reg p).tidbase
  | .adoptmax => (v.reg p).adoptmax.setWidth 64
  | .savebase => (v.reg p).savebase
  | .deqbase => ((s.core s.me.core).deqbase.getD p 0).setWidth 64
  | .asid => (v.reg p).asid.setWidth 64
  | .priv => v.priv.setWidth 64
  | .slot => BitVec.ofNat 64 s.cur
  | .part => BitVec.ofNat 64 p

/-- CTLR (R293): task privilege reads every register (R292). -/
def execCtlr (k : Enc) (d : Reg) (r : CtlReg) (s : State) : Res := .next ((s.reqX d (s.ctlRead r)).advance k)

/-- The registers whose write needs supervisor privilege (R292). -/
def CtlReg.needsSup : CtlReg → Bool
  | .adoptmax | .savebase | .deqbase | .asid => true
  | _ => false

/-- Bits [55:6] (R241, R292). -/
def baseBits (w : Word) : Word := w &&& 0x00FFFFFFFFFFFFC0
/-- ADOPTMAX as written: 0 stores 1 (R241). -/
def adoptmaxOf (w : Word) : BitVec 3 := if (w.setWidth 3 : BitVec 3) = 0 then 1 else w.setWidth 3
/-- DEQBASE as written (R241). -/
def deqbaseOf (w : Word) : BitVec 16 := w.setWidth 16 &&& 0xFFC0

/-- A control register takes a value (R293); MULT is checked by the caller. -/
def State.ctlWrite (s : State) (r : CtlReg) (w : Word) : State :=
  let n := s.cur
  let p := s.me.part
  let ctx (f : Ctx → Ctx) : State := s.modSlot n fun v => v.modCtx f
  let reg (f : SlotRegs → SlotRegs) : State := s.modSlot n fun v => v.modReg p f
  match r with
  | .mult => ctx fun c => { c with mult := w.setWidth 32 }
  | .fgroup => ctx fun c => { c with fgroup := w.setWidth 16 }
  | .stealdom => ctx fun c => { c with stealdom := w.setWidth 2 }
  | .fstat => ctx fun c => { c with fstat := fstatOf w }
  | .tidbase => reg fun g => { g with tidbase := baseBits w }
  | .adoptmax => reg fun g => { g with adoptmax := adoptmaxOf w }
  | .savebase => reg fun g => { g with savebase := baseBits w }
  | .asid => reg fun g => { g with asid := w.setWidth 11 }
  | .deqbase => s.modCore s.me.core fun c => { c with deqbase := c.deqbase.set p (deqbaseOf w) }
  | .mstat | .group | .task | .priv | .slot | .part => s

/-- CTLW (R265, R293). -/
def execCtlw (k : Enc) (a : Reg) (r : CtlReg) (s : State) : Res :=
  s.finish do
    if CtlReg.needsSup r then s.needPriv 1 (.ctlw k a r)
    let w := s.getX a
    if r = .mult && (w = 0 || w.toNat ≥ 2 ^ 32) then .error (mkFault .mult 3 w s.mult)
    else .ok ((s.ctlWrite r w).advance k)

/-! ### FREEZE and RESUME (R295, R299) -/

/-- The black-box record of FREEZE, RESUME, VACATE and STOPCUT (R328). -/
def State.boxCommand (s : State) (opcode : Nat) (target : Word) (d part : Nat) : State :=
  s.boxAdd (dieOfCore s.me.core) 2 opcode target.toNat d part

/-- A status goes to d, with the black-box record. -/
def State.commandDone (s : State) (k : Enc) (opcode : Nat) (target : Word) (part : Nat) (d : Reg) (v : Nat) : State :=
  ((s.boxCommand opcode target v part).reqX d (BitVec.ofNat 64 v)).advance k

/-- FREEZE (R299); a slot whose context a slice change is still reading stops once it has been read. -/
def execFreeze (k : Enc) (d : Reg) (a : Reg) (s : State) : Res :=
  s.finish do
    s.needPriv 1 (.freeze k d a)
    let n := (s.getX a).toNat % 2 ^ 15
    let t := s.me
    let done (s : State) (v : Nat) : Except FaultInfo State := .ok (s.commandDone k 0xE4 (BitVec.ofNat 64 n) t.part d v)
    if n ≥ slotCount || n = s.cur || (t.priv < 2 && s.slotPart? n ≠ some t.part) then done s 2
    else if (s.slot n).run.isFrozen then done (s.acquire t .package) 1
    else
      let s := s.restored n
      done ((s.stopSlot n .freeze).acquire t .package) 0

/-- RESUME.S (R283, R295, R299). -/
def State.resumeS (s : State) (k : Enc) (d a b : Reg) : State :=
  let t := s.me
  let s := s.release t .package
  let n := (s.getX a).toNat
  let cmd := (s.getX b).toNat % 256
  let depth := (s.getX b).toNat / 256 % 256
  let done (s : State) (v : Nat) : State := s.commandDone k 0xE5 (s.getX a) t.part d v
  if n ≥ slotCount || s.slotPart? n ≠ some t.part then done s 2
  else if !(s.slot n).run.isFrozen then done s 1
  else
    match s.commandRefusal n cmd depth with
    | some v => done s v
    | none =>
      let r := s.command n cmd depth
      done r.1 (if r.2 then 6 else 0)

def execResumeSResume (k : Enc) (d : Reg) (a : Reg) (b : Reg) (s : State) : Res :=
  s.finish do
    s.needPriv 1 (.resumeSResume k d a b)
    .ok (s.resumeS k d a b)
def execResumeSFail (k : Enc) (d : Reg) (a : Reg) (b : Reg) (s : State) : Res :=
  s.finish do
    s.needPriv 1 (.resumeSFail k d a b)
    .ok (s.resumeS k d a b)
def execResumeSKill (k : Enc) (d : Reg) (a : Reg) (b : Reg) (s : State) : Res :=
  s.finish do
    s.needPriv 1 (.resumeSKill k d a b)
    .ok (s.resumeS k d a b)

/-- RESUME.J (R205, R299). -/
def execResumeJReplay (k : Enc) (d : Reg) (a : Reg) (b : Reg) (s : State) : Res :=
  s.finish do
    s.needPriv 1 (.resumeJReplay k d a b)
    let t := s.me
    let done (s : State) (v : Nat) : Except FaultInfo State := .ok (s.commandDone k 0xE5 (s.getX a) t.part d v)
    match s.findJob t.part ((s.getX a).setWidth 32) with
    | .error _ => done s 2
    | .ok (cl, e, j) =>
      if j.state != .frozen then done s 1
      else if (s.getX b).toNat % 256 ≠ 1 then done s 3
      else if j.packet.isSome then done s 4
      else done (s.replayJob cl e) 0

/-- RESUME.H (R278, R299). -/
def execResumeHRelease (k : Enc) (d : Reg) (a : Reg) (b : Reg) (s : State) : Res :=
  s.finish do
    s.needPriv 2 (.resumeHRelease k d a b)
    let f := (s.getX a).toNat % 2 ^ 16
    let done (s : State) (v : Nat) : Except FaultInfo State := .ok (s.commandDone k 0xE5 (s.getX a) s.me.part d v)
    if f ≥ 16 then done s 2
    else if !(s.hostFn f).frozen then done s 1
    else if (s.getX b).toNat % 256 ≠ 1 then done s 3
    else done (s.modHostFn f fun h => { h with frozen := false }) 0

/-- RESUME.P (R278, R299): the link is a[4:0], and the die a[15:5] one of the six (log 22). -/
def execResumePRelease (k : Enc) (d : Reg) (a : Reg) (b : Reg) (s : State) : Res :=
  s.finish do
    s.needPriv 2 (.resumePRelease k d a b)
    let l := (s.getX a).toNat % 32
    let done (s : State) (v : Nat) : Except FaultInfo State := .ok (s.commandDone k 0xE5 (s.getX a) s.me.part d v)
    if l ≥ 24 || (s.getX a).toNat / 32 % 2 ^ 11 ≥ 6 then done s 2
    else if !(s.link l).frozen then done s 1
    else if (s.getX b).toNat % 256 ≠ 1 then done s 3
    else done (s.modLink l fun h => { h with frozen := false }) 0

/-! ### VACATE and STOPCUT (R286, R300, R301) -/

/-- The rectangle of VACATE and STOPCUT (R160). -/
def State.checkRect (s : State) (a : Reg) (i : Instr) : Except FaultInfo Unit :=
  if rectOk (s.getX a) then .ok () else .error (mkFault .illegal 8 (firstWord i) a.toNat)

/-- VACATE (R300). -/
def execVacate (k : Enc) (d : Reg) (a : Reg) (b : Reg) (s : State) : Res :=
  s.finish do
    s.needPriv 1 (.vacate k d a b)
    s.checkRect a (.vacate k d a b)
    let t := s.me
    let p := (s.getX b).toNat % 16
    let done (s : State) (v : Nat) : Except FaultInfo State := .ok (s.commandDone k 0xE6 (s.getX a) p d v)
    if p ≠ t.part && t.priv < 2 then done s 4
    else
      let named := s.coresIn p (s.getX a)
      match s.vacateRefusal p named with
      | 0 => done (s.vacate p named) 0
      | v => done s v

/-- STOPCUT (R290, R301): it opens the cut and sleeps until it closes; while another cut of the partition is open it waits for that one. -/
def execStopcut (k : Enc) (d : Reg) (a : Reg) (b : Reg) (s : State) : Res :=
  s.finish do
    s.needPriv 1 (.stopcut k d a b)
    s.checkRect a (.stopcut k d a b)
    let t := s.me
    let p := (s.getX b).toNat % 16
    let done (s : State) (v : Nat) : Except FaultInfo State := .ok (s.commandDone k 0xE7 (s.getX a) p d v)
    match (s.slot s.cur).cont with
    | .cutSum n => done s n
    | _ =>
      if p ≠ t.part && t.priv < 2 then done s 4
      else
        let named := s.coresIn p (s.getX a)
        if named.isEmpty then done s 2
        else if (s.part p).cut.isSome then .ok (s.sleepOn (.cut p))
        else .ok ((s.openCut p named).sleepOn (.cut p))

/-! ### Translation, events, time and the black box (R302 to R306) -/

/-- Removes TLB entries from every micro-TLB and cluster TLB of the package (R302). -/
def State.dropTlb (s : State) (sel : TlbEntry → Bool) : State :=
  { s with
    cores := s.cores.map fun (e : Nat × Core) => (e.1, { e.2 with utlb := e.2.utlb.filter fun x => !sel x })
    clusters := s.clusters.map fun (e : Nat × Cluster) => (e.1, { e.2 with tlb := e.2.tlb.filter fun x => !sel x }) }

/-- An ASID of the thread's partition (R302, R310). -/
def State.ownsAsid (s : State) (a : Nat) : Bool :=
  let c := (s.part s.me.part).cfg
  decide (c.asidFirst ≤ a) && decide (a ≤ c.asidLast)

def execTlbinvAsid (k : Enc) (d : Reg) (a : Reg) (b : Reg) (s : State) : Res :=
  s.finish do
    s.needPriv 1 (.tlbinvAsid k d a b)
    let s := s.release s.me .package
    let n := (s.getX b).toNat % 2 ^ 11
    if !s.ownsAsid n then .ok ((s.reqX d 1).advance k)
    else .ok (((s.dropTlb fun e => e.asid.toNat == n).reqX d 0).advance k)

/-- TLBINV.PAGE: the page holding a[55:0], at each page's own size (R127, R302). -/
def execTlbinvPage (k : Enc) (d : Reg) (a : Reg) (b : Reg) (s : State) : Res :=
  s.finish do
    s.needPriv 1 (.tlbinvPage k d a b)
    let s := s.release s.me .package
    let n := (s.getX b).toNat % 2 ^ 11
    let va := (s.getX a).toNat % 2 ^ 56
    if !s.ownsAsid n then .ok ((s.reqX d 1).advance k)
    else
      let hit (e : TlbEntry) : Bool := (e.asid.toNat == n || e.asid == 0) && e.vpage == va / 2 ^ pageBits e.level
      .ok (((s.dropTlb hit).reqX d 0).advance k)

def execTlbinvPart (k : Enc) (d : Reg) (a : Reg) (b : Reg) (s : State) : Res :=
  s.finish do
    s.needPriv 1 (.tlbinvPart k d a b)
    let s := s.release s.me .package
    let p := s.me.part
    .ok (((s.dropTlb fun e => e.part == p).reqX d 0).advance k)

/-- The events of a WAITEV mask that hold (R304). -/
def State.eventsHeld (s : State) (p : Nat) (mask : BitVec 2) (time : Nat) : BitVec 2 :=
  (if mask.getLsbD 0 && decide (s.inboxTail p ≠ s.inboxHead p) then 1 else 0) |||
    (if mask.getLsbD 1 && decide (s.cycle ≥ time) then 2 else 0)

/-- WAITEV (R304): bit 0 is ignored at task privilege. -/
def execWaitev (k : Enc) (d : Reg) (a : Reg) (b : Reg) (s : State) : Res :=
  let t := s.me
  let mask : BitVec 2 := (s.getX a).setWidth 2 &&& (if t.priv = 0 then 2 else 3)
  let held := s.eventsHeld t.part mask (s.getX b).toNat
  if mask ≠ 0 && held = 0 then .next (s.sleepOn (.event mask (s.getX b).toNat (t.priv != 0)))
  else .next (((if held.getLsbD 0 then s.acquire t .package else s).reqX d (held.setWidth 64)).advance k)

/-- TIME (R305). -/
def execTime (k : Enc) (d : Reg) (s : State) : Res := .next ((s.reqX d (BitVec.ofNat 64 s.cycle)).advance k)

/-- BBOX (R306, R328). -/
def execBbox (k : Enc) (d : Reg) (a : Reg) (b : Reg) (s : State) : Res :=
  s.finish do
    s.needPriv 1 (.bbox k d a b)
    let die := dieOfCore s.me.core
    let seq := (s.die die).head
    let s := s.boxAdd die 0x10 ((s.getX a).toNat % 2 ^ 16) s.cur (s.getX b).toNat s.me.part
    .ok ((s.reqX d (seq.setWidth 64)).advance k)

/-! ### Events -/

/-- A command through a debug window (R298, R299): ignored with LOST unless the slot is frozen. -/
def State.windowCommand (s : State) (n cmd depth : Nat) : State :=
  if sstate (s.slot n) ≠ 4 then s.modSlot n fun v => { v with lost := true }
  else
    match s.commandRefusal n cmd depth with
    | some _ => s
    | none => (s.command n cmd depth).1

def execDebugCommandResume (slot : Nat) (s : State) : Res := .next (s.windowCommand slot 1 0)
def execDebugCommandFail (slot : Nat) (depth : Nat) (s : State) : Res := .next (s.windowCommand slot 2 depth)
def execDebugCommandKill (slot : Nat) (s : State) : Res := .next (s.windowCommand slot 3 0)

def execPendingPacketDelivery (part : Nat) (s : State) : Res := .next ((s.deliverPending part).getD s)
def execCutClose (part : Nat) (s : State) : Res := .next ((s.closeCut part).getD s)
def execSliceEnd (core : Nat) (ring : Nat) (s : State) : Res := .next ((s.endSlice core ring).getD s)
def execSlotHandover (slot : Nat) (s : State) : Res := .next ((s.handOver slot).getD s)
def execContextRestore (slot : Nat) (s : State) : Res := .next ((s.restoreSlot slot).getD s)

end Sys2Proof.Machine
end

