-- ==== Sys2Proof/Machine/Wakes.lean ====
section
/-! DEFINITION. What happens to threads between their instructions: results return (R21), sleepers wake (R19, R36), stalled senders go on
(R33, R237), meets meet their deadlines (R273), survivors go on (R274), lines are evicted (R172), and work reaches idle slots by message
(R32), dispatch (R256) and theft (R257). Each event is an operation that is absent where the event cannot happen. -/

namespace Sys2Proof.Machine

/-! ### Issue (R20, R22) -/

/-- A slot may issue in a cycle (R20, R262, R314). -/
def State.mayIssue (s : State) (c n : Nat) : Bool :=
  let v := s.slot n
  v.run == .ready && !v.restoring && !s.turnOver n c && Config.coresEnabled.getLsbD (coreOfSlot n) && (s.slotPart? n).isSome &&
    (match v.lastIssue with | some t => decide (t + 16 ≤ c) | none => true)

/-- The slot of a core that issues in a cycle (R20): the turn's, or the next of the same partition that may. -/
def State.turn (s : State) (core c : Nat) : Option Nat :=
  let own := 16 * core + c % 16
  match s.slotPart? own with
  | none => none
  | some p =>
    ((List.range 16).map fun i => 16 * core + (c % 16 + i) % 16).find? fun n => s.slotPart? n == some p && s.mayIssue c n

/-- A core issues at most one instruction per cycle (R17). -/
def State.issues (s : State) (core c : Nat) : Option Nat := if (s.core core).lastIssue = some c then none else s.turn core c

/-- The cores whose slots the state lists. -/
def State.busyCores (s : State) : List Nat := (s.slots.map fun (e : Nat × Slot) => coreOfSlot e.1).eraseDups

/-- A slot that issues in a cycle, on the lowest core that has one. -/
def State.issueIn (s : State) (c : Nat) : Option Nat := s.busyCores.findSome? fun k => s.issues k c

/-! ### Results (R21) -/

/-- MEMORY_RESULT_RETURN: result `i` of a slot returns; a parked slot with none left becomes ready. -/
def State.returnResult (s : State) (n i : Nat) : Option State :=
  let v := s.slot n
  if i < v.pending.length then
    let w := v.deliver i
    some (s.setSlot n { w with run := if w.run == .parked && w.pending.isEmpty then .ready else w.run })
  else none

def execMemoryResultReturn (slot : Nat) (idx : Nat) (s : State) : Res := .next ((s.returnResult slot idx).getD s)

/-! ### Wakes (R19, R36, R240) -/

/-- The state of a wait's owner lets the waiter go on (R240): it has ended, or the waiter may adopt it. -/
def State.ownerWakes (s : State) (n : Nat) (owner : TaskId) : Bool :=
  match s.ownerTask owner with
  | none => true
  | some k =>
    match k.state with
    | .done | .failed | .merged => true
    | .unstarted | .parked => owner.toNat / 2 ^ 28 == (s.thr n).part && s.adoptable n k
    | .running => false

/-- A slot that waits for a lock (R190) may go on: LKREL has handed it the lock, or the word names its task, no task, or an owner that lets it. -/
def State.lockWakes (s : State) (n : Nat) (l : Loc) (tag : Nat) : Bool :=
  let w : TaskId := BitVec.ofNat 32 (s.locRead l tag 4)
  let me := (s.slot n).ctx.task
  (s.lockQ.any fun e => e.loc == l && e.task == me && e.given) || w.toNat % 2 ^ 28 == 0 || w == me || s.ownerWakes n w

/-- The condition a sleeping slot waits for holds. -/
def State.wakeDue (s : State) (n : Nat) (w : Wait) : Bool :=
  let v := s.slot n
  let p := (s.thr n).part
  let me := v.ctx.task
  match w with
  | .future l tag owner => futureState (s.locRead l tag 16) != 0 || s.ownerWakes n owner
  | .barrier l tag gen _ => decide ((barOf (s.locRead l tag 16)).gen ≠ gen.toNat)
  | .lock l tag _ => s.lockWakes n l tag
  | .reserve l => match s.resvAt l with | some r => r.queue.head? == some me | none => true
  | .job id => match s.findJob p id with | .ok (_, _, j) => j.ended | .error _ => true
  | .group g => match s.groupOf p (g.setWidth 64) with | some e => decide (e.count = 0) | none => true
  | .queueEmpty pa tag =>
    decide (s.spaceRead tag pa 8 ≠ s.spaceRead tag (pa + 8) 8) &&
      (match s.queueQ.find? fun e => e.1 == pa with | some e => e.2 == me | none => true)
  | .queueEntry pa tag n' owner => decide (s.spaceRead tag pa 8 ≠ entryWord owner n' 1) || s.ownerWakes n owner
  | .event mask time sup => s.eventsHeld p (if sup then mask else mask &&& 2) time != 0
  | .gang _ _ => match v.cont with | .gangJob _ => true | _ => false
  | .cut q => match v.cont with | .cutSum _ => true | _ => (s.part q).cut.isNone
  | .claim c r => s.claimsOn c r == 0
  | .engine cl => !s.matrixRuns cl
  | .meet _ | .released => false

/-- WAKE: the slot is ready and reads its condition again. -/
def State.wake (s : State) (n : Nat) : Option State :=
  match (s.slot n).run with
  | .sleeping w => if !(s.slot n).restoring && s.wakeDue n w then some (s.modSlot n fun v => { v with run := .ready }) else none
  | _ => none

def execWake (slot : Nat) (s : State) : Res := .next ((s.wake slot).getD s)

/-- BARWTT_TIMEOUT (R185). -/
def State.barTimeout (s : State) (n : Nat) : Option State :=
  match (s.slot n).run with
  | .sleeping (.barrier _ _ _ (some d)) => if d ≤ s.cycle then some (s.modSlot n fun v => { v with run := .ready }) else none
  | _ => none

def execBarwttTimeout (slot : Nat) (s : State) : Res := .next ((s.barTimeout slot).getD s)

/-- INBOX_ROOM (R33): the sender issues its instruction again once the core takes its message. -/
def State.inboxGoes (s : State) (n : Nat) : Option State :=
  match (s.slot n).run with
  | .stalled (.inbox c) => if s.wouldTake (s.thr n).part c false (coreOfSlot n) then some (s.modSlot n fun v => { v with run := .ready }) else none
  | _ => none

def execInboxRoom (slot : Nat) (s : State) : Res := .next ((s.inboxGoes slot).getD s)

/-- DIRECTORY_ROOM (R237): a FORK.AT issues again. A message that waits in an inbox starts by R256. -/
def State.directoryGoes (s : State) (n : Nat) : Option State :=
  match (s.slot n).run with
  | .stalled .directory => if s.dirRoom (s.thr n).part then some (s.modSlot n fun v => { v with run := .ready }) else none
  | _ => none

def execDirectoryRoom (slot : Nat) (s : State) : Res := .next ((s.directoryGoes slot).getD s)

/-! ### Meets (R273, R274) -/

/-- MEET_DEADLINE: an entry whose DEADLINE's cycle has passed is released. It so comes after every other request of that cycle, and
`step` serves it before anything of the next (R273). -/
def State.meetTimeout (s : State) (cl i : Nat) : Option State :=
  match (s.cluster cl).meets[i]? with
  | some e =>
    match e.deadline with
    | some d => if d < s.cycle then some (s.releaseMeets cl (fun x => x == e) 1) else none
    | none => none
  | none => none

def execMeetDeadline (cluster : Nat) (idx : Nat) (s : State) : Res := .next ((s.meetTimeout cluster idx).getD s)

/-- SURVIVOR_READY: the survivor goes on after its 12-byte MEET, with an acquire at its group's cluster (R175). -/
def State.survivorGoes (s : State) (n : Nat) : Option State :=
  match (if (s.slot n).restoring then .idle else (s.slot n).run) with
  | .sleeping .released =>
    let pc := (s.slot n).ctx.pc
    let s := (s.groupAcquire (s.thr n) (s.slot n).ctx.group).modSlot n fun v => { v with run := .ready, cont := .none, ctx := { v.ctx with pc := pc + 12 } }
    some (s.afterStep n pc)
  | _ => none

def execSurvivorReady (slot : Nat) (s : State) : Res := .next ((s.survivorGoes slot).getD s)

/-! ### Evictions (R172) -/

/-- CACHE_EVICTION: an uncounted line leaves its cluster cache, its dirty bytes written back. -/
def State.evictLine (s : State) (cl i : Nat) : Option State :=
  match (s.cluster cl).lines[i]? with
  | some l =>
    if l.count = 0 then some (s.flush cl true fun x => x.part == l.part && x.asid == l.asid && x.vline == l.vline) else none
  | none => none

def execCacheEviction (cluster : Nat) (idx : Nat) (s : State) : Res := .next ((s.evictLine cluster idx).getD s)

/-! ### Messages (R32) -/

/-- ACTIVE_MESSAGE_ARRIVAL: a message that is taken counts as performed where it carries the colour being cut (R289); a refused one changes
nothing. -/
def execActiveMessageArrival (msg : Message) (s : State) : Res :=
  let r := s.arrive msg
  if r.2 ≠ 0 then .next s
  else .next (if msg.counted then r.1.notePerformed msg.part msg.target msg.colour else r.1)

/-! ### The dispatcher (R256) -/

/-- A claimed task starts in an idle slot; a parked task whose frames cannot be read leaves the slot idle and fails (log 19). -/
def State.startIdle (s : State) (n : Nat) (k : Task) (r : TaskRecord) (onCore : Nat) : State :=
  let s := s.catchUp (coreOfSlot n)
  match s.planRestore n k 0 with
  | .ok plan => s.startTask n k r plan [] false none (some onCore)
  | .error _ =>
    let s := s.claim (s.thr n).part k.id n (some onCore)
    let own : Level := { task := k.id, inline := false, adopted := false, status := none, fplace := 0, future := 0 }
    s.wreck n (if k.chain.isEmpty then [own] else k.chain)

/-- The messages of a partition in a core's inbox, in order. -/
def State.share (s : State) (p c : Nat) : List Message := (s.core c).inbox.filter fun m => m.part == p

/-- The head of an inbox share that can start now: a message takes its task id only while the directory has room (R32). -/
def State.inboxHeadRec (s : State) (p c : Nat) : Option Message :=
  match s.share p c with
  | m :: _ => if m.hasId || s.dirRoom p then some m else none
  | [] => none

/-- The head of an inbox share starts (R32, R256): WAITED falls to 0. -/
def State.startHead (s : State) (p c n : Nat) (m : Message) : State :=
  let s := s.modCore c fun k => { k with inbox := k.inbox.erase m, waited := k.waited.erase p }
  s.startMessage n m

/-- WAITED as it reads: zero when the share is empty (R256). -/
def State.waitedOf (s : State) (p c : Nat) : Nat := if (s.share p c).isEmpty then 0 else (s.core c).waited.getD p 0

/-- After a start from the deque, WAITED rises while the inbox share is not empty (R256). -/
def State.noteWait (s : State) (p c : Nat) : State :=
  if (s.share p c).isEmpty then s else s.modCore c fun k => { k with waited := k.waited.set p (k.waited.getD p 0 + 1) }

/-- Starts the bottom live record of a trimmed deque, removing it. -/
def State.startBottom (s : State) (p c n : Nat) (r : TaskRecord) : Option State :=
  (s.findTask p r.taskid).map fun k => (s.takeBottom p c).startIdle n k r c

/-- Starts a record above the bottom one, which stays behind as stale; SKIPS rises, and at 16 the partition drains (R256). -/
def State.startSkipping (s : State) (p c n : Nat) (r : TaskRecord) : Option State :=
  (s.findTask p r.taskid).map fun k =>
    let s := s.startIdle n k r c
    match s.deque p c with
    | none => s
    | some d =>
      let s := s.setEnds d d.top d.bottom (d.skips + 1)
      if d.skips + 1 = 16 then (s.catchUp c).modCore c fun m => { m with draining := p :: m.draining } else s

/-- A record may start on a core (R31): a group's member in its group's cluster only. DESIGN CHOICE (log 129): one that software has put into a
deque elsewhere is passed over like a record too large for the budget (R256). -/
def State.startsOn (s : State) (p c : Nat) (r : TaskRecord) : Bool :=
  match s.findTask p r.taskid with
  | some k => groupNear k.group (clusterOfCore c)
  | none => false

/-- An idle slot that consumes damaged data in its search for work freezes with ECC (R281; log 126). -/
def State.idleStop (s : State) (n : Nat) (fi : FaultInfo) : State := (s.catchUp (coreOfSlot n)).takeFault n fi

/-- The first damaged record that a search above the bottom live one reads (R256, R281): down to the record it takes, or to the eighth. -/
def State.skipEcc (s : State) (c : Nat) (d : Deque) (last : Option Nat) : Option FaultInfo :=
  (match last with | some pos => d.down.take (d.down.idxOf pos + 1) | none => d.down).findSome? fun pos => s.rowEcc c (d.recAddr pos)

/-- The bottom live record waits for room (R256): the nearest of the eight live records above it that fits starts, and SKIPS rises; none where none
does. -/
def State.skipFor (s : State) (p c n : Nat) (above : List (Nat × TaskRecord)) : Option State :=
  let eight := above.take 8
  let found := eight.find? fun (e : Nat × TaskRecord) => s.fits p c e.2 && s.startsOn p c e.2
  match (s.deque p c).bind fun d => s.skipEcc c d (match found with | some e => some e.1 | none => (eight[7]?).map Prod.fst) with
  | some fi => some (s.idleStop n fi)
  | none => found.bind fun e => (s.startSkipping p c n e.2).map fun s => s.noteWait p c

/-- dispatch(P) of R256, for a partition with an idle slot `n` on the core, without its theft; none where nothing starts. -/
def State.dispatchFor (s : State) (p c n : Nat) : Option State :=
  let inboxStep (s : State) : Option State := (s.inboxHeadRec p c).map fun m => s.startHead p c n m
  let draining := (s.core c).draining.contains p
  if !draining && (s.inboxHeadRec p c).isSome && s.waitedOf p c ≥ 16 then inboxStep s
  else
    match s.searchEcc p c true with
    | some fi => some (s.idleStop n fi)
    | none =>
      let s := s.trimB p c
      match (match s.deque p c with | some d => s.liveDown p d | none => []) with
      | [] => if draining then none else inboxStep s
      | (_, d) :: above =>
        if s.fits p c d && s.startsOn p c d then
          (s.startBottom p c n d).map fun s =>
            if draining then s.modCore c fun m => { m with draining := m.draining.filter (· != p) } else s.noteWait p c
        else if draining then none
        else if d.lreq.toNat ≤ (s.part p).cfg.lbudget && s.startsOn p c d then s.skipFor p c n above <|> inboxStep s
        else inboxStep s

/-- DISPATCH (R256): at most one start in a cycle, for the next partition in rotation with an idle slot and something to start. -/
def State.dispatch (s : State) (c : Nat) : Option State :=
  if (s.core c).lastStart = some s.cycle then none
  else
    ((List.range 16).map fun i => ((s.core c).lastServed + 1 + i) % 16).findSome? fun p =>
      match s.idleSlot p c with
      | none => none
      | some n =>
        (s.dispatchFor p c n).map fun s => (s.started c).modCore c fun k => { k with lastServed := p }

def execDispatch (core : Nat) (s : State) : Res := .next ((s.dispatch core).getD s)

/-! ### Theft (R257, R258) -/

/-- The thief of slot `n` may claim a record at the top of a victim's deque (R257). -/
def State.stealable (s : State) (p c victim : Nat) (r : TaskRecord) (k : Task) : Bool :=
  domReaches r.dom victim c && !r.pin && !k.pin && groupNear k.group (clusterOfCore c) && s.fits p c r &&
    k.holdBack.isNone && k.meet.isNone

/-- Visits victims of one ring until one gives its top live record; the Bool says that it did. -/
def stealFrom (p c n ring : Nat) (victims : List Nat) : Nat → State → State × Bool
  | 0, s => (s, false)
  | fuel + 1, s =>
    let i := (s.core c).ringPtr ring p % Nat.max 1 victims.length
    match victims[i]? with
    | none => (s, false)
    | some x =>
      let s := s.modCore c fun k => k.setRing ring p ((i + 1) % victims.length)
      match s.searchEcc p x false with
      | some fi => (s.idleStop n fi, true)
      | none =>
      let s := s.trimT p x
      match s.topRec p x with
      | none => stealFrom p c n ring victims fuel s
      | some r =>
        match s.findTask p r.taskid with
        | none => stealFrom p c n ring victims fuel s
        | some k =>
          if s.stealable p c x r k then ((((s.noteRequest p x c).takeTop p x).startIdle n k r c), true)
          else stealFrom p c n ring victims fuel s

/-- One attempt: the three rings in order, up to 7, 8 and 8 victims, until the first success. -/
def State.attempt (s : State) (p c n : Nat) : State × Bool :=
  [1, 2, 3].foldl (fun (a : State × Bool) ring =>
    if a.2 then a
    else
      let v := a.1.ringCores p c ring
      stealFrom p c n ring v (ringVisits v.length) a.1) (s, false)

/-- An idle slot's attempts fall on this cycle (R257). -/
def State.attemptFalls (s : State) (n : Nat) : Bool :=
  let w := (s.slot n).waitFrom
  decide (w ≤ s.cycle) && (s.cycle - w) % 64 == 0

/-- THEFT_ATTEMPT: an idle slot whose dispatcher finds nothing to start, at once and then every 64 cycles. -/
def State.theft (s : State) (n : Nat) : Option State :=
  match s.slotPart? n with
  | none => none
  | some p =>
    let c := coreOfSlot n
    if !s.slotFree p n || (s.core c).draining.contains p || !s.attemptFalls n || (s.core c).lastStart == some s.cycle ||
        (s.dispatchFor p c n).isSome then none
    else
      let r := (s.catchUp c).attempt p c n
      if r.2 then some (r.1.started c)
      else some (r.1.modSlot n fun v => { v with waitFrom := s.cycle + 64 })

def execTheftAttempt (slot : Nat) (s : State) : Res := .next ((s.theft slot).getD s)

end Sys2Proof.Machine
end

