-- ==== Sys2Proof/Machine/Outside.lean ====
section
/-! DEFINITION. The outside of the device: the host port and its launch windows (R320 to R325), the fabric (R317), device registers
(R7, R296 to R298, R310, R314), power (R326), the management port (R331, R334), resets and start-up (R332, R333), and a fetch or decode
that fails (R60). -/

namespace Sys2Proof.Machine

/-! ### Failing fetches and links -/

/-- ILLEGAL_ENCODING (R60): the slot stops precisely. -/
def execIllegalEncoding (cls : FaultClass) (cause : BitVec 8) (addr : Word) (info : BitVec 32) (s : State) : Res :=
  .next (s.takeFault s.cur { cls := cls, cause := cause, addr := addr, info := info })

/-- FABRIC_LINK_TRAINING (R314): only an enabled link trains. -/
def execFabricLinkTraining (link : Nat) (s : State) : Res :=
  if link < 24 && Config.linksEnabled.getLsbD link then .next (s.modLink link fun l => { l with trained := true }) else .next s

/-- The die whose black box takes a link's records (log 23). -/
def dieOfLink (l : Nat) : Nat := l / 4

/-- LINK_CRC_ERROR (R317, R328). -/
def execLinkCrcError (link : Nat) (retries : Nat) (s : State) : Res :=
  if link < 24 then .next (s.boxAdd (dieOfLink link) 6 link retries 0 0) else .next s

/-- The running partition with a key (R317). -/
def State.keyed (s : State) (key : Word) : Option Nat :=
  (List.range 16).find? fun p => (s.part p).cfg.running && (s.part p).cfg.key == key

/-- A packet stops its port with PARTITION-KEY (R278, R281, R282, R317). -/
def State.stopLink (s : State) (l : Nat) (key : Word) : State :=
  let fi := mkFault .partitionKey 0 0 (key.toNat % 2 ^ 32)
  let s := (s.modLink l fun k => { k with frozen := true }).boxPacket (dieOfLink l) 0 fi l 0
  s.sendPacket (.link l) 0 (BitVec.ofNat 512 (packetNat fi 3 l 0 0 0 []))

/-- A remote access may write bytes of this package's memory: it lies there, and holds no counted line or task directory (R136, R229). -/
def State.remoteWrites (s : State) (pa n : Nat) : Bool :=
  decide (pa + n ≤ hbmSize) && !s.dirMeets pa n &&
    !(s.home.any fun (e : Nat × HomeLine) => decide (pa / 128 ≤ e.1 / 2 ^ 11) && decide (e.1 / 2 ^ 11 ≤ (pa + n - 1) / 128))

/-- What a remote atomic of multiplicity `m` leaves of an element (R178, R179). -/
def fabricOp (op : FabricOp) (t : Elem) (m arg v : Nat) : Nat :=
  match op with
  | .add => v + m * arg
  | .and => v &&& arg
  | .or => v ||| arg
  | .xor => v ^^^ arg
  | .min => (laneMinMax t false v arg).1
  | .max => (laneMinMax t true v arg).1
  | .swap => arg
  | .cas new => if v = arg then elemOfX t new else v
  | .fadd => faddOf m arg v

/-- A good packet is delivered whole (R173, R317): another package has checked its rights, and the access performs at the home slice. Its
reads carry no ASID (log 97). -/
def State.deliver (s : State) (p l : Nat) (pkt : FabricPacket) : State :=
  match pkt with
  | .message pkg c m => (s.arrive { m with part := p, source := .package pkg c }).1
  | .store pa n v => if n ≤ 128 && s.remoteWrites pa n then s.homeStore pa n v.toNat else s
  | .load pa n => if pa + n > hbmSize then s else s.modLink l fun k => { k with reply := BitVec.ofNat 1024 (s.homeRead pa n) }
  | .atomic op t pa m arg =>
    let n := Elem.size t
    if n = 0 || pa % n ≠ 0 || !s.remoteWrites pa n then s
    else
      let v := s.homeRead pa n
      (s.homeWrite pa n (fabricOp op t m.toNat (elemOfX t arg) v % 2 ^ t.width)).modLink l fun k => { k with reply := BitVec.ofNat 1024 v }

/-- FABRIC_PACKET_ARRIVAL (R278, R317). -/
def execFabricPacketArrival (link : Nat) (key : Word) (pkt : FabricPacket) (s : State) : Res :=
  let l := s.link link
  if link ≥ 24 || !l.trained || l.frozen then .next s
  else
    match s.keyed key with
    | none => .next (s.stopLink link key)
    | some p => .next (s.deliver p link pkt)

/-! ### The host port (R320 to R325) -/

/-- HOST_LINK_TRAINING (R320): `far` has bit i set where the host supports the i-th protocol of the order, and the port trains at the
first; nothing trains before phase 0x05 has passed (R333). -/
def execHostLinkTraining (far : Nat) (width : Nat) (s : State) : Res :=
  let order : List HostProtocol := [.cxl4, .cxl3, .pcie6, .pcie5]
  if s.phase < 6 || s.failed || !(width == 16 || width == 8 || width == 4) then .next s
  else
    match (List.range 4).find? far.testBit with
    | none => .next s
    | some i => .next { s with hostPort := order.getD i .down, hostWidth := width }

/-- The running partition a host function serves (R321). -/
def State.hostPart (s : State) (f : Nat) : Option Nat :=
  (List.range 16).find? fun p => (s.part p).cfg.running && (s.part p).cfg.hostFn == f

/-- A host function's accesses are made under its partition's host ASID at task privilege, outside every cluster (R321): core 1,152 and
cluster 144 do not exist. -/
def State.hostThr (s : State) (p : Nat) : Thr :=
  { slot := slotCount, core := 1152, cluster := 144, part := p, asid := (s.part p).cfg.hostAsid, priv := 0 }

/-- Translations of host accesses are kept in no core's TLB. -/
def State.dropHost (s : State) : State := { s with cores := s.cores.erase 1152, clusters := s.clusters.erase 144 }

/-- A host function freezes (R278, R280, R282). -/
def State.stopHost (s : State) (f p : Nat) (fi : FaultInfo) : State :=
  let s := (s.modHostFn f fun h => { h with frozen := true }).boxPacket 0 p fi f 0
  s.sendPacket (.hostFn f) p (BitVec.ofNat 512 (packetNat fi 2 f 0 0 0 []))

/-- How a host request completes (R321): 0 successfully, 1 Unsupported Request, 2 Completer Abort, 3 with poison, 4 dropped. -/
def State.hostDone (s : State) (f code : Nat) (reply : Word) : State := s.modHostFn f fun h => { h with completed := code, reply := reply }

/-- Under CXL device memory is reached by CXL.mem (R320). -/
def HostProtocol.isCxl : HostProtocol → Bool
  | .cxl4 | .cxl3 => true
  | _ => false

/-- A request that a stopped function does not serve (R321). -/
def State.hostRefused (s : State) (f : Nat) (path : HostPath) (write : Bool) : State :=
  s.hostDone f (if write then 4 else if path = .mem then 3 else 2) 0

/-- A request written to a launch window ends with its status (R324). -/
def State.launched (s : State) (f : Nat) (op : Bool) (code : Nat) : State :=
  s.modHostFn f fun h => { h with op := op, code := BitVec.ofNat 8 code, accepted := if code = 0 then h.accepted + 1 else h.accepted }

/-- The record of a launch (R32, R323). -/
def launchRecord (h : HostFn) : TaskRecord :=
  { lreq := 0, group := 0, det := true, pin := true, dom := 0, fplace := 0, future := 0, mult := 1, owner := 0, taskid := 0, arg3 := 0,
    arg2 := 0, arg1 := h.arg1, arg0 := h.arg0, entry := h.entry }

/-- A launch-window access of a wrong format (R323). -/
def badFormat (f off : Nat) : FaultInfo := mkFault .permission 2 (BitVec.ofNat 64 (launchBase + 4096 * f + off)) 0

/-- GO (R323, R324, R325). -/
def execGo (fn : Nat) (val : Word) (s : State) : Res :=
  match s.hostPart fn with
  | none => .next (s.hostDone fn 1 0)
  | some p =>
    let c := val.toNat
    if (s.hostFn fn).frozen then .next (s.launched fn false 5)
    else if c ≥ 2 ^ 11 then .next (s.stopHost fn p (badFormat fn 0x18))
    else if c > 1151 || !Config.coresEnabled.getLsbD c then .next (s.launched fn false 3)
    else
      let r := s.arrive { target := c, source := .host fn, part := p, record := launchRecord (s.hostFn fn), hasId := false, colour := false, counted := false }
      match r.2 with
      | 0 => .next (r.1.launched fn false 0)
      | 1 => .next (s.launched fn false 1)
      | _ => .next (s.launched fn false 2)

/-- QGO (R250, R251, R323, R324, R325). A queue address that is no multiple of 64 is a wrong format (log 24). -/
def execQgo (fn : Nat) (val : Word) (s : State) : Res :=
  match s.hostPart fn with
  | none => .next (s.hostDone fn 1 0)
  | some p =>
    if (s.hostFn fn).frozen then .next (s.launched fn true 5)
    else if val.toNat ≥ 2 ^ 56 || val.toNat % 64 ≠ 0 then .next (s.stopHost fn p (badFormat fn 0x80))
    else
      match s.enqueue (s.hostThr p) val 0 (s.hostFn fn).item with
      | .error fi => .next (s.stopHost fn p fi)
      | .ok (t, some _) => .next (t.dropHost.launched fn true 0)
      | .ok (_, none) => .next (s.launched fn true 4)

/-- A write to a launch window, GO and QGO apart (R321, R323): a function that no running partition names or that is frozen takes none, and a
wrong format freezes it. -/
def State.launchWrite (s : State) (f off : Nat) (val : Word) : State :=
  let set (g : HostFn → HostFn) : State := s.modHostFn f g
  match s.hostPart f with
  | none => s.hostDone f 1 0
  | some p =>
    if (s.hostFn f).frozen then s
    else if off % 8 ≠ 0 then s.stopHost f p (badFormat f off)
    else if off = 0 then set fun h => { h with entry := val }
    else if off = 8 then set fun h => { h with arg0 := val }
    else if off = 0x10 then set fun h => { h with arg1 := val }
    else if 0x40 ≤ off && off < 0x80 then set fun h => { h with item := setBits h.item (8 * (off - 0x40)) 64 val.toNat }
    else s

/-- An access to a launch window that is not 8 bytes wide and aligned freezes its function (R323). -/
def State.misuse (s : State) (f off : Nat) : State :=
  match s.hostPart f with
  | none => s.hostDone f 1 0
  | some p => if (s.hostFn f).frozen then s else s.stopHost f p (badFormat f off)

/-- A host's request to a launch window at an offset (R323). DESIGN CHOICE (log 104): a frozen function's window is still read. -/
def execHostWindow (fn : Nat) (write : Bool) (off n : Nat) (val : Word) (s : State) : Res :=
  if (s.hostPart fn).isNone then .next (s.hostDone fn 1 0)
  else if n ≠ 8 || off % 8 ≠ 0 then .next (s.misuse fn off)
  else if !write then .next (s.hostDone fn 0 (BitVec.ofNat 64 (s.launchRead (4096 * fn + off))))
  else if off = 0x18 then execGo fn val s
  else if off = 0x80 then execQgo fn val s
  else .next (s.launchWrite fn off val)

/-- HOST_ACCESS (R320, R321): a read or write of up to 8 bytes of device memory, performed at the home slice, or a request to the launch
window. CXL.mem is there only under CXL. -/
def execHostAccess (fn : Nat) (req : HostReq) (va : Word) (n : Nat) (val : Word) (s : State) : Res :=
  if s.hostPort == .down || fn ≥ 16 || n = 0 || n > 8 || (req.path == .mem && !s.hostPort.isCxl) || (req.path == .window && decide (va.toNat ≥ 4096)) then .next s
  else if req.path = .window then execHostWindow fn req.write va.toNat n val s
  else
    match s.hostPart fn with
    | none => .next (s.hostDone fn 1 0)
    | some p =>
      if (s.hostFn fn).frozen then .next (s.hostRefused fn req.path req.write)
      else
        let t := s.hostThr p
        match s.check t .g (if req.write then .store else .load) false va n 1 0 with
        | .error fi => .next ((s.hostRefused fn req.path req.write).stopHost fn p fi)
        | .ok ps =>
          let s := s.fetchBackRuns ps
          if req.write then .next ((s.writePoints ps val.toNat).hostDone fn 0 0)
          else .next (s.hostDone fn 0 (BitVec.ofNat 64 (s.readPoints ps)))

/-! ### Configuration (R310 to R313) -/

/-- A descriptor's fields, read from the words written (R310). -/
def cfgOf (t : Table Word) : PartCfg :=
  let w (off : Nat) : Nat := (t.getD off 0).toNat
  { running := w 0 % 2 = 1, sliced := (w 0).testBit 1, ring := BitVec.ofNat 2 (bits (w 0) 3 2), sliceLen := bits (w 0) 56 32
    slots := BitVec.ofNat 16 (bits (w 8) 15 0), supSlot := bits (w 8) 30 16
    asidFirst := bits (w 0x10) 10 0, asidLast := bits (w 0x10) 26 16, hostFn := bits (w 0x10) 35 32, hostAsid := bits (w 0x10) 58 48
    key := t.getD 0x18 0, roots := w 0x20, ranktab := w 0x28, finbox := w 0x30, dirbase := w 0x38, dirsize := w 0x40, spillbase := w 0x48
    spillsize := w 0x50, switchbase := w 0x58
    ranges := (List.range 4).map fun i => (bits (w (0x60 + 8 * i)) 16 0, bits (w (0x60 + 8 * i)) 48 32)
    lbudget := bits (w 0x80) 15 0
    qshare := bits (w 0x88) 5 0, weight := bits (w 0x88) 11 8, meetshare := bits (w 0x88) 23 16, cways := bits (w 0x88) 27 24
    ccways := bits (w 0x88) 31 28, gshare := bits (w 0x88) 38 32, lshare := bits (w 0x88) 44 40
    hways := bits (w 0x90) 3 0, hcways := bits (w 0x90) 7 4, floor := bits (w 0x90) 25 16
    cores := BitVec.ofNat 1152 ((List.range 18).foldr (fun i n => w (0x100 + 8 * i) + 2 ^ 64 * n) 0) }

/-- Two partitions share a core. -/
def PartCfg.shares (c d : PartCfg) : Bool := decide (c.cores &&& d.cores ≠ 0)

/-- Two ranges of bytes overlap. -/
def rangesMeet (x y : Nat × Nat) : Bool := decide (x.1 < y.2) && decide (y.1 < x.2) && decide (x.1 < x.2) && decide (y.1 < y.2)

/-- Two partitions' masks or slice rings do not fit (R254, R311 code 0x01). -/
def ringClash (c d : PartCfg) : Bool :=
  let same := c.slots == d.slots && c.cores == d.cores && c.ring == d.ring
  let overlap := c.shares d && c.slots &&& d.slots != 0
  (overlap && !(c.sliced && d.sliced && same)) || (c.sliced && d.sliced && c.ring == d.ring && !same)

/-- The fields a commit may change while RUN is 1, taken from the other descriptor (R312); RUN is judged by R313. -/
def PartCfg.fixedLike (c d : PartCfg) : PartCfg :=
  { c with
    running := d.running, cores := d.cores, cways := d.cways, ccways := d.ccways, hways := d.hways, hcways := d.hcways, floor := d.floor
    weight := d.weight, qshare := d.qshare, meetshare := d.meetshare, gshare := d.gshare, lshare := d.lshare, lbudget := d.lbudget }

/-- A slot's state holds no running thread (R311 code 0x0D). -/
def Run.quiet (r : Run) : Bool := r == .idle || r.isFrozen

/-- Every slot of a partition is idle or frozen, those switched out included (R311 code 0x0D). -/
def State.allQuiet (s : State) (p : Nat) : Bool :=
  s.slots.all fun (e : Nat × Slot) =>
    (s.slotPart? e.1 != some p || (e.2.run.quiet && !e.2.restoring)) && (match e.2.away.get? p with | some a => a.run.quiet | none => true)

/-- The outcomes of R311 that a new descriptor of partition `p` meets, whether it sets RUN or not. -/
def State.commitFails (s : State) (p : Nat) (t : Table Word) : List Nat :=
  let c := cfgOf t
  let old := (s.part p).cfg
  let others := (((List.range 16).filter (· != p)).map fun q => (s.part q).cfg).filter PartCfg.running
  let clusters := (List.range 144).filter c.inCluster
  let sumIn (cl : Nat) (f : PartCfg → Nat) : Nat := ((c :: others.filter fun d => d.inCluster cl).map f).foldl (· + ·) 0
  let sum (f : PartCfg → Nat) : Nat := ((c :: others).map f).foldl (· + ·) 0
  let stoppedGroups (cl : Nat) : Nat := ((s.cluster cl).groups.filter fun (e : Nat × Group) => e.2.part != p && !(s.part e.2.part).cfg.running).length
  let inRange (a : Nat) (d : PartCfg) : Bool := decide (d.asidFirst ≤ a) && decide (a ≤ d.asidLast)
  let check (code : Nat) (b : Bool) : List Nat := if b then [code] else []
  check 0x01 (others.any (ringClash c)) ++
  check 0x02 (decide (c.ccways > c.cways) || clusters.any fun cl => decide (sumIn cl PartCfg.cways > 12)) ++
  check 0x03 (decide (c.hcways > c.hways) || decide (sum PartCfg.hways > 12)) ++
  check 0x04 (clusters.any fun cl =>
    decide (sumIn cl PartCfg.qshare > 64) || decide (sumIn cl PartCfg.meetshare > 256) || decide (sumIn cl PartCfg.lshare > 16) ||
      decide (sumIn cl PartCfg.gshare + stoppedGroups cl > 64)) ++
  check 0x05 (decide (sum PartCfg.floor > 512)) ++
  check 0x06 (decide (c.spillsize < c.ccways * 2048 * clusters.length + c.hcways * 256 * 768)) ++
  check 0x07 ((List.range 4).any fun i =>
    (decide ((c.range i).1 < (c.range i).2) && decide ((c.range i).2 > bufSize i)) ||
      others.any fun d => c.shares d && rangesMeet (c.range i) (d.range i)) ++
  check 0x08 (inRange 0 c || !inRange c.hostAsid c || others.any fun d => decide (c.asidFirst ≤ d.asidLast) && decide (d.asidFirst ≤ c.asidLast)) ++
  check 0x09 (decide (c.cores &&& ~~~Config.coresEnabled ≠ 0)) ++
  check 0x0A (!(c.slots.getLsbD (c.supSlot % 16) && c.cores.getLsbD (coreOfSlot c.supSlot))) ++
  check 0x0B (others.any fun d => d.hostFn == c.hostFn) ++
  (if old.running && (c.fixedLike old != old || old.cores &&& ~~~c.cores != 0) then [0x0C] else []) ++
  (if old.running && !c.running && !s.allQuiet p then [0x0D] else []) ++
  (if t.any (fun (e : Nat × Word) => e.2.toNat &&& cfgMask e.1 != e.2.toNat) ||
      !((List.range 64).any fun i => c.dirsize == 2 ^ i && decide (10 ≤ i)) || c.weight = 0 ||
      decide (c.sliceLen < 1024) || decide (c.sliceLen > 2 ^ 24) then [0x0E] else [])

/-- Lost ways give up their lines (R141): uncounted lines leave, written back (log 25), and counted lines without a way are spilled. -/
def State.loseWays (s : State) (p : Nat) (old new : PartCfg) : State :=
  let s := (List.range 144).foldl (fun (s : State) cl =>
    if !old.inCluster cl || (new.cways ≥ old.cways && new.ccways ≥ old.ccways) then s else s.loseCluster cl p new.ccways) s
  if new.hcways ≥ old.hcways then s
  else
    let here := s.home.filter fun (e : Nat × HomeLine) => e.2.part == p && e.2.spill.isNone
    s.spillHome p fun k _ =>
      decide (((here.filter fun (e : Nat × HomeLine) => sameHomeSet e.1 (k / 2 ^ 11)).findIdx fun (e : Nat × HomeLine) => e.1 == k) ≥ new.hcways)

/-- A partition takes the slots of its cores that no partition holds (R254): each with the privilege of R282. A slice that comes into force so
counts from now. -/
def State.takeSlots (s : State) (p : Nat) : State :=
  let c := (s.part p).cfg
  let cores := (List.range 1152).filter c.cores.getLsbD
  let s := (cores.flatMap c.slotsOn).foldl (fun (s : State) n =>
    match (s.slot n).holder with
    | some _ => s
    | none => s.modSlot n fun v => { v with holder := some p, priv := s.privOf p n, waitFrom := s.cycle }) s
  if !c.sliced then s
  else cores.foldl (fun (s : State) k => if ((s.core k).sliceOf.get? c.ring.toNat).isSome then s else s.setInForce k c.ring.toNat (some p)) s

/-- A commit stops a partition (R313). Its frozen slots that hold a chain, or stand for one, stay its own (log 26). -/
def State.stopPart (s : State) (p : Nat) : State :=
  let s := s.clusters.foldl (fun (s : State) (e : Nat × Cluster) =>
    e.2.jobs.foldl (fun (s : State) (j : Nat × Job) => if j.2.part = p then s.cancelJob e.1 j.1 true else s) s) s
  let s := s.clusters.foldl (fun (s : State) (e : Nat × Cluster) => s.releaseMeets e.1 (fun m => m.part == p) 2) s
  let s := s.clusters.foldl (fun (s : State) (e : Nat × Cluster) =>
    s.modCluster e.1 fun c =>
      { c with
        gangs := c.gangs.filter fun g => g.part != p
        counters := c.counters.map fun (k : Nat × Counter) => if k.2.holder = p then (k.1, { k.2 with next := k.2.last }) else k }) s
  let s := s.clusters.foldl (fun (s : State) (e : Nat × Cluster) => s.flush e.1 true fun l => l.part == p) s
  let s := s.clusters.foldl (fun (s : State) (e : Nat × Cluster) => s.spillCluster e.1 p fun _ => true) s
  let s := (s.spillHome p fun _ _ => true).dropTlb fun e => e.part == p
  let s := s.endTurn p (s.cores.map Prod.fst)
  s.slots.foldl (fun (s : State) (e : Nat × Slot) =>
    if e.2.holder = some p && e.2.levels.isEmpty && e.2.stands.isNone then (s.modSlot e.1 fun v => { v with holder := none, run := .idle, priv := 0 }).reassign e.1
    else s) s

/-- Memory with the bytes that a directory shows there (R229, R230). -/
def State.dirBytes (s : State) (p : Nat) (m : Memory) : Memory :=
  let c := (s.part p).cfg
  let m := m.without c.dirbase (16 * c.dirsize)
  if c.dirsize = 0 then m else (s.part p).tasks.foldl (fun m (e : Nat × Task) => m.writeN (c.dirbase + 16 * e.1) 16 (s.dirEntry e.2)) m

/-- A task as a directory entry in memory names it (R230). DESIGN CHOICE (log 102): what a directory keeps beside its entries it does not
find again at another place. -/
def taskOf (n : Nat) : Task :=
  let st : TaskState := match n / 2 ^ 93 % 8 with | 0 => .unstarted | 1 => .running | 2 => .parked | 4 => .failed | 5 => .merged | _ => .done
  { id := BitVec.ofNat 32 (n / 2 ^ 96), state := st, pin := n.testBit 92, whereTo := BitVec.ofNat 64 n, asid := 0, det := true, fplace := 0,
    future := 0, group := 0, dom := 0, parent := 0, attach := [], locks := [], entries := [], children := 0, chain := [], frames := none, meet := none,
    holdBack := none, late := none, lreq := 0, onCore := none, origin := 144, ended := 0 }

/-- The tasks of a directory that lies in memory. -/
def dirTasks (m : Memory) (base size : Nat) : Table Task :=
  ((m.filter fun e => decide (base ≤ e.1) && decide (e.1 < base + 16 * size)).map fun e => (e.1 - base) / 16).eraseDups.filterMap fun i =>
    let n := m.readN (base + 16 * i) 16
    if n / 2 ^ 96 % 2 ^ 28 = 0 then none else some (i, taskOf n)

/-- A partition that has not been running takes another region for its directory (R313): the old one stays in memory as it was left. -/
def State.moveDir (s : State) (p : Nat) (c : PartCfg) : State :=
  let old := (s.part p).cfg
  if old.dirbase = c.dirbase && old.dirsize = c.dirsize then s
  else
    let m := s.dirBytes p s.mem
    ({ s with mem := m }).modPart p fun k => { k with tasks := dirTasks m c.dirbase c.dirsize }

/-- The bytes that a fault inbox shows past HEAD (R303). -/
def Part.inboxNat (k : Part) : Nat := (List.range (inboxBytes - 8)).foldr (fun i n => (k.inboxByte (i + 8)).toNat + 256 * n) 0

/-- A commit gives a partition another place for its inbox (R303, R310). DESIGN CHOICE (log 106): HEAD, TAIL and the packets stay the
partition's, with HEAD 0 at the first place, and the old place keeps the bytes it showed. -/
def State.moveFinbox (s : State) (p : Nat) (c : PartCfg) : State :=
  let k := s.part p
  if k.last.isNone then s.homeWrite c.finbox 8 0
  else if k.cfg.finbox = c.finbox then s
  else (s.homeWrite (k.cfg.finbox + 8) (inboxBytes - 8) k.inboxNat).homeWrite c.finbox 8 (s.homeRead k.cfg.finbox 8)

/-- A descriptor is applied whole (R311 to R313). Copies at home slices leave (log 81), so that its areas show their own views. -/
def State.applyCfg (s : State) (p : Nat) (c : PartCfg) : State :=
  let old := (s.part p).cfg
  let s := if old.running && c.running then s.loseWays p old c else if old.running then s.stopPart p else s
  let s := ({ (s.moveFinbox p c).moveDir p c with copies := [] }).modPart p fun k => { k with cfg := c, last := some c }
  if c.running then s.takeSlots p else s

/-- COMMIT (R311): all of the descriptor is applied or none; of several outcomes a free choice is reported (log 3). One that is written while
BUSY is 1 is ignored; the step is whole, so it leaves BUSY 0 (log 74). -/
def State.commit (s : State) (p : Nat) : State :=
  if (s.part p).status.getLsbD 8 then s
  else
  let fails := s.commitFails p (s.part p).staged
  let (code, s) :=
    match fails with
    | [] => (0, s.applyCfg p (cfgOf (s.part p).staged))
    | [c] => (c, s)
    | l => let (i, s) := s.choose l.length; (l.getD i 0, s)
  (s.modPart p fun k => { k with status := BitVec.ofNat 9 code }).boxAdd 0 0x0A code p 0 p

def execCommit (part : Nat) (s : State) : Res := if part < 16 then .next (s.commit part) else .next s

/-! ### Register writes (R7, R297, R298, R310, R314, R323) -/

/-- A write to FRAME of a frozen slot's debug window (R298): TASK, DEPTH, INLINE and VALID stay. The fields take what is written, and are
corrected at the restore. -/
def Slot.editFrame (v : Slot) (off : Nat) (val : Word) : Slot :=
  v.modCtx fun c => { rawCtx (putField (frameNat false false 0 c) (8 * off) 64 val.toNat) with task := c.task }

/-- A write to a slot's debug window, COMMAND apart (R296 to R298): ignored with LOST unless the slot is frozen, the LOST bit excepted. -/
def State.windowWrite (s : State) (n off : Nat) (val : Word) : State :=
  let p := (s.slotPart? n).getD 0
  if sstate (s.slot n) ≠ 4 then s.modSlot n fun v => { v with lost := !(off == 0x9C0 && val.getLsbD 2) }
  else if off < 0x980 then s.modSlot n fun v => v.editFrame off val
  else if off = 0x9C0 then s.modSlot n fun v => { v with step := val.getLsbD 3, lost := v.lost && !val.getLsbD 2 }
  else if off = 0x9D0 then s.modSlot n fun v => v.modReg p fun g => { g with savebase := baseBits val }
  else if off = 0x9D8 then s.modSlot n fun v => v.modReg p fun g => { g with adoptmax := adoptmaxOf val }
  else if off = 0x9E0 then s.modSlot n fun v => v.modReg p fun g => { g with tidbase := baseBits val }
  else if off = 0x9E8 then s.modSlot n fun v => v.modReg p fun g => { g with asid := val.setWidth 11 }
  else if off = 0x9F0 then s.modCore (coreOfSlot n) fun c => { c with deqbase := c.deqbase.set p (deqbaseOf val) }
  else s

/-- A write to configuration space, COMMIT apart (R310, R314). -/
def State.cfgWrite (s : State) (off : Nat) (val : Word) : State :=
  if off < 0x10000 then
    if off % 4096 = 0x98 || off % 4096 = 0xA0 then s else s.modPart (off / 4096) fun k => { k with staged := k.staged.set (off % 4096) val }
  else if off = 0x10000 then { s with pkgnum := val.setWidth 11 }
  else s

/-- A register or window field takes a write by its access code. -/
def State.registerWrite (s : State) (pa : Nat) (val : Word) : State :=
  match regionOf pa with
  | .cfg => s.cfgWrite (pa - cfgBase) val
  | .dbg => s.windowWrite ((pa - dbgBase) / 4096) ((pa - dbgBase) % 4096) val
  | .launch => s.launchWrite ((pa - launchBase) / 4096) ((pa - launchBase) % 4096) val
  | _ => s

def execRegisterWrite (pa : Nat) (val : Word) (s : State) : Res := .next (s.registerWrite pa val)

/-- A store reaches a device register (R308, R310, R323, R298): COMMIT, GO, QGO and COMMAND act, every other field takes the value. -/
def State.deviceStore (s : State) (pa : Nat) (val : Word) : Res :=
  match regionOf pa with
  | .cfg =>
    let off := pa - cfgBase
    if off < 0x10000 && off % 4096 = 0x98 then (if val = 1 then execCommit (off / 4096) s else .next s) else execRegisterWrite pa val s
  | .launch =>
    let off := pa - launchBase
    if off % 4096 = 0x18 then execGo (off / 4096) val s
    else if off % 4096 = 0x80 then execQgo (off / 4096) val s
    else execRegisterWrite pa val s
  | .dbg =>
    let off := pa - dbgBase
    let n := off / 4096
    if off % 4096 = 0x9C8 then
      match val.toNat % 256 with
      | 1 => execDebugCommandResume n s
      | 2 => execDebugCommandFail n (val.toNat / 256 % 256) s
      | 3 => execDebugCommandKill n s
      | _ => .next (if sstate (s.slot n) ≠ 4 then s.modSlot n fun v => { v with lost := true } else s)
    else execRegisterWrite pa val s
  | _ => .next s

/-! ### Power (R326) -/

/-- THERMAL_STATE_CHANGE (R326, R328). -/
def execThermalStateChange (die : Nat) (state : BitVec 2) (s : State) : Res :=
  let old := (s.die die).thermal
  if die ≥ 6 || old = state then .next s
  else .next ((s.modDie die fun d => { d with thermal := state, since := s.cycle }).boxAdd die 5 state.toNat old.toNat 0 0)

/-- 10 ms at 3 GHz (R14, R326). -/
def alarmCycles : Nat := 30000000

/-- THERMAL_ALARM (R326). -/
def State.alarmDue (s : State) (die : Nat) : Bool :=
  let d := s.die die
  d.thermal == 3 && decide (d.since + alarmCycles ≤ s.cycle) && !s.thermAlarm

def execThermalAlarm (die : Nat) (s : State) : Res := if s.alarmDue die then .next { s with thermAlarm := true } else .next s

/-! ### Resets (R332, R333) -/

/-- HBM4 as it shows at a reset (R332): with every directory's entries and every fault inbox's packets where they lie, and the inboxes'
headers as R303 resets them. -/
def State.memShown (s : State) : Memory :=
  (List.range 16).foldl (fun (m : Memory) p =>
    let k := s.part p
    let m := s.dirBytes p m
    if k.last.isSome && k.cfg.finbox + inboxBytes ≤ hbmSize then
      (m.writeN (k.cfg.finbox + 8) (inboxBytes - 8) k.inboxNat).without k.cfg.finbox 64
    else m) s.mem

/-- Partition 0's areas at a start-up (R303, R333): its inbox is reset, and its directory is empty (log 103). -/
def bootMem (m : Memory) : Memory :=
  (m.without Config.dirbase0 (16 * Config.dirsize0)).without Config.finbox0 inboxBytes

/-- A reset and its start-up. Its self-tests find a free number of failing rows in each cluster, and a free phase may fail (log 5). -/
def State.restartDevice (s : State) (cycle : Nat) (warm : Bool) (mem : Memory) (dies : Table Die) (pkgnum : BitVec 11) : State :=
  let found (cl : Nat) : Nat × Nat :=
    let old := if warm then (s.cluster cl).fenced else Config.fencedRows cl
    (old, Nat.min (18 - old) (Config.failingRows (s.freeCtr + 1 + cl)))
  let b : Boot :=
    { cycle := cycle, warm := warm, mem := bootMem mem, dies := dies, pkgnum := pkgnum
      clusters := (List.range 144).map fun cl => (cl, { Cluster.empty with fenced := (found cl).1 + (found cl).2 })
      tests := (List.range 144).map fun cl => (cl, stestWord ((found cl).1 + (found cl).2) ((found cl).2 != 0))
      fail := Config.failingPhase s.freeCtr }
  { State.afterReset b with
    freeCtr := s.freeCtr + 145, remote := s.remote, hostMem := s.hostMem
    agenda := s.agenda.filter fun m => !m.ofStore }

/-- POWER_ON_RESET (R332): nothing is kept. -/
def execPowerOnReset (s : State) : Res := .next (s.restartDevice 0 false [] [] 0x7FF)
/-- A cold reset (R332) keeps the black boxes and memory. -/
def State.coldReset (s : State) : State := s.restartDevice 0 false s.memShown s.dies 0x7FF
/-- A warm reset (R332) also keeps fenced rows and PKGNUM; TIME goes on (R305). -/
def State.warmReset (s : State) : State := s.restartDevice s.cycle true s.memShown s.dies s.pkgnum
def execColdReset (s : State) : Res := .next s.coldReset
def execWarmReset (s : State) : Res := .next s.warmReset

/-! ### The management port (R331, R334) -/

/-- The low `n` bytes of a number, little-endian. -/
def bytesOf (v n : Nat) : List Byte := (List.range n).map (byteOf v)

def State.answer (s : State) (r : List Byte) : State := { s with mgmtReply := r }

/-- BBHEAD: the die's HEAD. -/
def execBbhead (die : Nat) (s : State) : Res := .next (s.answer (bytesOf (s.die die).head.toNat 4))

/-- The records of sequence numbers from `seq`, up to `n`, that lie below HEAD (R329). -/
def Die.records (d : Die) (seq n : Nat) : List Byte :=
  ((List.range n).filter fun i => decide ((d.head.toNat + 2 ^ 32 - (seq + i) % 2 ^ 32 - 1) % 2 ^ 32 < 2 ^ 31)).flatMap fun i =>
    match d.box.get? ((seq + i) % 2048) with
    | some r => bytesOf (boxRecNat r) 32
    | none => bytesOf 0 32

/-- BBREAD: at most 64 records. -/
def execBbread (die : Nat) (seq : Nat) (n : Nat) (s : State) : Res := .next (s.answer ((s.die die).records seq (Nat.min n 64)))

/-- The bytes of a descriptor as last committed (R331). -/
def PartCfg.bytes (c : PartCfg) : List Byte := c.words.flatMap fun (e : Nat × Word) => bytesOf e.2.toNat 8

/-- A report but for its signature (R331): digests and key are free bytes (log 4). -/
def State.report (s : State) (nonce : BitVec 256) (p : Nat) : List Byte :=
  let of (obj : Nat) (data : List Byte) (n : Nat) : List Byte := (List.range n).map (Config.cryptoByte obj data)
  bytesOf nonce.toNat 32 ++ of 3 [] 57 ++ of 0 [] 64 ++ of 1 [] 64 ++
    (match (s.part p).last with | some c => of 2 c.bytes 64 | none => List.replicate 64 0) ++
    [BitVec.ofNat 8 p] ++ List.replicate 116 0

/-- ATTEST (R331): 512 bytes, the last 114 the signature over the 398 before them. -/
def execAttest (nonce : BitVec 256) (part : Nat) (s : State) : Res :=
  if part ≥ 16 then .next (s.answer [])
  else
    let r := s.report nonce part
    .next (s.answer (r ++ (List.range 114).map (Config.cryptoByte 4 r)))

/-- PHASE: the last start-up phase, then 0 for a pass or 1 for a failure. -/
def execPhase (s : State) : Res := .next (s.answer [BitVec.ofNat 8 s.phase, if s.failed then 1 else 0])

/-- THERMAL: THERM (R314). -/
def execThermal (s : State) : Res := .next (s.answer (bytesOf (s.cfgRead 0x10010) 8))

/-- RESET: a cold or warm reset (R332). -/
def execReset (cold : Bool) (s : State) : Res := .next (if cold then s.coldReset else s.warmReset)

end Sys2Proof.Machine
end

