-- ==== Sys2Proof/Machine/Dispatch.lean ====
section
/-! DEFINITION. The dispatch of every instruction and device event to its meaning, one arm per row of the opcode table. -/

namespace Sys2Proof.Machine

def exec (i : Instr) (s : State) : Host.Outcome State Fault Refusal :=
  match i with
  | .nop k => Sys2Proof.Machine.execNop k s
  | .exit k => Sys2Proof.Machine.execExit k s
  | .j k imm => Sys2Proof.Machine.execJ k imm s
  | .jr k a off => Sys2Proof.Machine.execJr k a off s
  | .call k imm => Sys2Proof.Machine.execCall k imm s
  | .callr k a off => Sys2Proof.Machine.execCallr k a off s
  | .ret k => Sys2Proof.Machine.execRet k s
  | .br k cc a b imm => Sys2Proof.Machine.execBr k cc a b imm s
  | .bbld k d a w => Sys2Proof.Machine.execBbld k d a w s
  | .bbget k d w => Sys2Proof.Machine.execBbget k d w s
  | .bbgetSx k d w => Sys2Proof.Machine.execBbgetSx k d w s
  | .bbpeek k d w => Sys2Proof.Machine.execBbpeek k d w s
  | .bbpeekSx k d w => Sys2Proof.Machine.execBbpeekSx k d w s
  | .bbskip k d w => Sys2Proof.Machine.execBbskip k d w s
  | .bbpos k d => Sys2Proof.Machine.execBbpos k d s
  | .bbposClr k d => Sys2Proof.Machine.execBbposClr k d s
  | .loopinit k d a b ctr p mc => Sys2Proof.Machine.execLoopinit k d a b ctr p mc s
  | .chunk k d ctr => Sys2Proof.Machine.execChunk k d ctr s
  | .add k d a b => Sys2Proof.Machine.execAdd k d a b s
  | .sub k d a b => Sys2Proof.Machine.execSub k d a b s
  | .mul k d a b => Sys2Proof.Machine.execMul k d a b s
  | .mulh k d a b => Sys2Proof.Machine.execMulh k d a b s
  | .mulhU k d a b => Sys2Proof.Machine.execMulhU k d a b s
  | .mulhSu k d a b => Sys2Proof.Machine.execMulhSu k d a b s
  | .div k d a b => Sys2Proof.Machine.execDiv k d a b s
  | .divU k d a b => Sys2Proof.Machine.execDivU k d a b s
  | .rem k d a b => Sys2Proof.Machine.execRem k d a b s
  | .remU k d a b => Sys2Proof.Machine.execRemU k d a b s
  | .and k d a b => Sys2Proof.Machine.execAnd k d a b s
  | .or k d a b => Sys2Proof.Machine.execOr k d a b s
  | .xor k d a b => Sys2Proof.Machine.execXor k d a b s
  | .sll k d a b => Sys2Proof.Machine.execSll k d a b s
  | .srl k d a b => Sys2Proof.Machine.execSrl k d a b s
  | .sra k d a b => Sys2Proof.Machine.execSra k d a b s
  | .rot k d a b => Sys2Proof.Machine.execRot k d a b s
  | .min k d a b => Sys2Proof.Machine.execMin k d a b s
  | .minU k d a b => Sys2Proof.Machine.execMinU k d a b s
  | .max k d a b => Sys2Proof.Machine.execMax k d a b s
  | .maxU k d a b => Sys2Proof.Machine.execMaxU k d a b s
  | .setc k cc d a b => Sys2Proof.Machine.execSetc k cc d a b s
  | .addi k d a imm => Sys2Proof.Machine.execAddi k d a imm s
  | .muli k d a imm => Sys2Proof.Machine.execMuli k d a imm s
  | .andi k d a imm => Sys2Proof.Machine.execAndi k d a imm s
  | .ori k d a imm => Sys2Proof.Machine.execOri k d a imm s
  | .xori k d a imm => Sys2Proof.Machine.execXori k d a imm s
  | .slli k d a n => Sys2Proof.Machine.execSlli k d a n s
  | .srli k d a n => Sys2Proof.Machine.execSrli k d a n s
  | .srai k d a n => Sys2Proof.Machine.execSrai k d a n s
  | .roti k d a n => Sys2Proof.Machine.execRoti k d a n s
  | .setci k cc d a imm => Sys2Proof.Machine.execSetci k cc d a imm s
  | .clz k d a => Sys2Proof.Machine.execClz k d a s
  | .ctz k d a => Sys2Proof.Machine.execCtz k d a s
  | .popc k d a => Sys2Proof.Machine.execPopc k d a s
  | .sel k d a b c => Sys2Proof.Machine.execSel k d a b c s
  | .mov k d a => Sys2Proof.Machine.execMov k d a s
  | .li k d imm => Sys2Proof.Machine.execLi k d imm s
  | .la k d imm => Sys2Proof.Machine.execLa k d imm s
  | .bfx k d a p w => Sys2Proof.Machine.execBfx k d a p w s
  | .bfxSx k d a p w => Sys2Proof.Machine.execBfxSx k d a p w s
  | .bfi k d a p w => Sys2Proof.Machine.execBfi k d a p w s
  | .sext k t d a => Sys2Proof.Machine.execSext k t d a s
  | .fadd k t rm d a b => Sys2Proof.Machine.execFadd k t rm d a b s
  | .fsub k t rm d a b => Sys2Proof.Machine.execFsub k t rm d a b s
  | .fmul k t rm d a b => Sys2Proof.Machine.execFmul k t rm d a b s
  | .fma k t rm d a b c => Sys2Proof.Machine.execFma k t rm d a b c s
  | .fdiv k t rm d a b => Sys2Proof.Machine.execFdiv k t rm d a b s
  | .fsqrt k t rm d a => Sys2Proof.Machine.execFsqrt k t rm d a s
  | .fmin k t d a b => Sys2Proof.Machine.execFmin k t d a b s
  | .fmax k t d a b => Sys2Proof.Machine.execFmax k t d a b s
  | .feq k t d a b => Sys2Proof.Machine.execFeq k t d a b s
  | .flt k t d a b => Sys2Proof.Machine.execFlt k t d a b s
  | .fle k t d a b => Sys2Proof.Machine.execFle k t d a b s
  | .fcvt k dst src rm d a => Sys2Proof.Machine.execFcvt k dst src rm d a s
  | .fclass k t d a => Sys2Proof.Machine.execFclass k t d a s
  | .fsgn k t d a b => Sys2Proof.Machine.execFsgn k t d a b s
  | .fsgnN k t d a b => Sys2Proof.Machine.execFsgnN k t d a b s
  | .fsgnX k t d a b => Sys2Proof.Machine.execFsgnX k t d a b s
  | .vadd k t sub m d a b => Sys2Proof.Machine.execVadd k t sub m d a b s
  | .vsub k t sub m d a b => Sys2Proof.Machine.execVsub k t sub m d a b s
  | .vmul k t sub m d a b => Sys2Proof.Machine.execVmul k t sub m d a b s
  | .vfma k t sub m d a b c => Sys2Proof.Machine.execVfma k t sub m d a b c s
  | .vdiv k t sub m d a b => Sys2Proof.Machine.execVdiv k t sub m d a b s
  | .vsqrt k t sub m d a => Sys2Proof.Machine.execVsqrt k t sub m d a s
  | .vmin k t m d a b => Sys2Proof.Machine.execVmin k t m d a b s
  | .vmax k t m d a b => Sys2Proof.Machine.execVmax k t m d a b s
  | .vand k t m d a b => Sys2Proof.Machine.execVand k t m d a b s
  | .vor k t m d a b => Sys2Proof.Machine.execVor k t m d a b s
  | .vxor k t m d a b => Sys2Proof.Machine.execVxor k t m d a b s
  | .vsll k t m d a b => Sys2Proof.Machine.execVsll k t m d a b s
  | .vsrl k t m d a b => Sys2Proof.Machine.execVsrl k t m d a b s
  | .vsra k t m d a b => Sys2Proof.Machine.execVsra k t m d a b s
  | .vabs k t sub m d a => Sys2Proof.Machine.execVabs k t sub m d a s
  | .vneg k t sub m d a => Sys2Proof.Machine.execVneg k t sub m d a s
  | .vcmp k cc t m d a b => Sys2Proof.Machine.execVcmp k cc t m d a b s
  | .vsel k t m d a b => Sys2Proof.Machine.execVsel k t m d a b s
  | .vcvt k dst src mode rm p m d a b => Sys2Proof.Machine.execVcvt k dst src mode rm p m d a b s
  | .vdot k t sub m d a b c => Sys2Proof.Machine.execVdot k t sub m d a b c s
  | .vredsum k t sub m d a => Sys2Proof.Machine.execVredsum k t sub m d a s
  | .vredmax k t m d a => Sys2Proof.Machine.execVredmax k t m d a s
  | .vredmin k t m d a => Sys2Proof.Machine.execVredmin k t m d a s
  | .vargmax k t m d a => Sys2Proof.Machine.execVargmax k t m d a s
  | .vperm k t m d a b => Sys2Proof.Machine.execVperm k t m d a b s
  | .vslideup k t m d a n => Sys2Proof.Machine.execVslideup k t m d a n s
  | .vslidedn k t m d a n => Sys2Proof.Machine.execVslidedn k t m d a n s
  | .vcompress k t m d a => Sys2Proof.Machine.execVcompress k t m d a s
  | .vexpand k t m d a => Sys2Proof.Machine.execVexpand k t m d a s
  | .vbcast k t m d a => Sys2Proof.Machine.execVbcast k t m d a s
  | .vext k t d a n => Sys2Proof.Machine.execVext k t d a n s
  | .vins k t d a n => Sys2Proof.Machine.execVins k t d a n s
  | .mand k d a b => Sys2Proof.Machine.execMand k d a b s
  | .mor k d a b => Sys2Proof.Machine.execMor k d a b s
  | .mxor k d a b => Sys2Proof.Machine.execMxor k d a b s
  | .mnot k d a => Sys2Proof.Machine.execMnot k d a s
  | .mpopc k d a => Sys2Proof.Machine.execMpopc k d a s
  | .mfirst k d a => Sys2Proof.Machine.execMfirst k d a s
  | .mset k d a => Sys2Proof.Machine.execMset k d a s
  | .mget k d a => Sys2Proof.Machine.execMget k d a s
  | .viota k t m d => Sys2Proof.Machine.execViota k t m d s
  | .vmov k t m d a => Sys2Proof.Machine.execVmov k t m d a s
  | .ld k t o d => Sys2Proof.Machine.execLd k t o d s
  | .ldC k t o d => Sys2Proof.Machine.execLdC k t o d s
  | .st k t o d => Sys2Proof.Machine.execSt k t o d s
  | .vld k t o m d => Sys2Proof.Machine.execVld k t o m d s
  | .vldC k t o m d => Sys2Proof.Machine.execVldC k t o m d s
  | .vst k t o m d => Sys2Proof.Machine.execVst k t o m d s
  | .vgather k t o m d b => Sys2Proof.Machine.execVgather k t o m d b s
  | .vscatter k t o m d b => Sys2Proof.Machine.execVscatter k t o m d b s
  | .arm k o d b c => Sys2Proof.Machine.execArm k o d b c s
  | .armH k o d b c => Sys2Proof.Machine.execArmH k o d b c s
  | .retire k o d b => Sys2Proof.Machine.execRetire k o d b s
  | .retireForce k o d b => Sys2Proof.Machine.execRetireForce k o d b s
  | .cinv k sc o b => Sys2Proof.Machine.execCinv k sc o b s
  | .cwb k sc o b => Sys2Proof.Machine.execCwb k sc o b s
  | .pref k o b => Sys2Proof.Machine.execPref k o b s
  | .ldq k o d => Sys2Proof.Machine.execLdq k o d s
  | .stq k o d => Sys2Proof.Machine.execStq k o d s
  | .vlds k t o m d b => Sys2Proof.Machine.execVlds k t o m d b s
  | .vsts k t o m d b => Sys2Proof.Machine.execVsts k t o m d b s
  | .amoadd k t ord sc o d b => Sys2Proof.Machine.execAmoadd k t ord sc o d b s
  | .amoand k t ord sc o d b => Sys2Proof.Machine.execAmoand k t ord sc o d b s
  | .amoor k t ord sc o d b => Sys2Proof.Machine.execAmoor k t ord sc o d b s
  | .amoxor k t ord sc o d b => Sys2Proof.Machine.execAmoxor k t ord sc o d b s
  | .amomin k t ord sc o d b => Sys2Proof.Machine.execAmomin k t ord sc o d b s
  | .amomax k t ord sc o d b => Sys2Proof.Machine.execAmomax k t ord sc o d b s
  | .amoswap k t ord sc o d b => Sys2Proof.Machine.execAmoswap k t ord sc o d b s
  | .amoswapOnce k t ord sc o d b => Sys2Proof.Machine.execAmoswapOnce k t ord sc o d b s
  | .amocas k t ord sc o d b => Sys2Proof.Machine.execAmocas k t ord sc o d b s
  | .amocasOnce k t ord sc o d b => Sys2Proof.Machine.execAmocasOnce k t ord sc o d b s
  | .amofadd k t ord sc o d b => Sys2Proof.Machine.execAmofadd k t ord sc o d b s
  | .redAdd k t ord sc o b => Sys2Proof.Machine.execRedAdd k t ord sc o b s
  | .redAnd k t ord sc o b => Sys2Proof.Machine.execRedAnd k t ord sc o b s
  | .redOr k t ord sc o b => Sys2Proof.Machine.execRedOr k t ord sc o b s
  | .redXor k t ord sc o b => Sys2Proof.Machine.execRedXor k t ord sc o b s
  | .redMin k t ord sc o b => Sys2Proof.Machine.execRedMin k t ord sc o b s
  | .redMax k t ord sc o b => Sys2Proof.Machine.execRedMax k t ord sc o b s
  | .redFadd k t ord sc o b => Sys2Proof.Machine.execRedFadd k t ord sc o b s
  | .lrw k t ord sc o d => Sys2Proof.Machine.execLrw k t ord sc o d s
  | .sch k t ord sc o d b => Sys2Proof.Machine.execSch k t ord sc o d b s
  | .schDrop k t ord sc o d b => Sys2Proof.Machine.execSchDrop k t ord sc o d b s
  | .fence k ord sc => Sys2Proof.Machine.execFence k ord sc s
  | .lda k t sc o d => Sys2Proof.Machine.execLda k t sc o d s
  | .stl k t ord sc o d => Sys2Proof.Machine.execStl k t ord sc o d s
  | .barinit k ord sc o b c => Sys2Proof.Machine.execBarinit k ord sc o b c s
  | .bararv k ord sc o d b => Sys2Proof.Machine.execBararv k ord sc o d b s
  | .bararvB k ord sc o d b => Sys2Proof.Machine.execBararvB k ord sc o d b s
  | .barwt k ord sc o d b => Sys2Proof.Machine.execBarwt k ord sc o d b s
  | .bartst k ord sc o d b => Sys2Proof.Machine.execBartst k ord sc o d b s
  | .barwtt k ord sc o d b c => Sys2Proof.Machine.execBarwtt k ord sc o d b c s
  | .barexit k ord sc o => Sys2Proof.Machine.execBarexit k ord sc o s
  | .lkacq k sc o d => Sys2Proof.Machine.execLkacq k sc o d s
  | .lkrel k ord sc o d => Sys2Proof.Machine.execLkrel k ord sc o d s
  | .mxq k jd dup d a b c => Sys2Proof.Machine.execMxq k jd dup d a b c s
  | .mxqs k jd dup d a b c => Sys2Proof.Machine.execMxqs k jd dup d a b c s
  | .mxg k jd dup g d a b c => Sys2Proof.Machine.execMxg k jd dup g d a b c s
  | .mxlb k jd d a => Sys2Proof.Machine.execMxlb k jd d a s
  | .cpq k jd d a b => Sys2Proof.Machine.execCpq k jd d a b s
  | .cpf k jd d a b => Sys2Proof.Machine.execCpf k jd d a b s
  | .tidfence k a => Sys2Proof.Machine.execTidfence k a s
  | .tidfenceAll k => Sys2Proof.Machine.execTidfenceAll k s
  | .jtest k d a => Sys2Proof.Machine.execJtest k d a s
  | .jwait k d a => Sys2Proof.Machine.execJwait k d a s
  | .jcancel k d a => Sys2Proof.Machine.execJcancel k d a s
  | .stest k d => Sys2Proof.Machine.execStest k d s
  | .fork k pl imm lreq a b c => Sys2Proof.Machine.execFork k pl imm lreq a b c s
  | .forkD k imm lreq b c => Sys2Proof.Machine.execForkD k imm lreq b c s
  | .forkAt k pl imm lreq kr a b c => Sys2Proof.Machine.execForkAt k pl imm lreq kr a b c s
  | .join k pl d a b => Sys2Proof.Machine.execJoin k pl d a b s
  | .yield k d a => Sys2Proof.Machine.execYield k d a s
  | .steal k d a => Sys2Proof.Machine.execSteal k d a s
  | .popb k d => Sys2Proof.Machine.execPopb k d s
  | .gnew k d => Sys2Proof.Machine.execGnew k d s
  | .gjoin k a => Sys2Proof.Machine.execGjoin k a s
  | .gfree k d a => Sys2Proof.Machine.execGfree k d a s
  | .qenq k d a c => Sys2Proof.Machine.execQenq k d a c s
  | .qdeq k d a b => Sys2Proof.Machine.execQdeq k d a b s
  | .qres k d a => Sys2Proof.Machine.execQres k d a s
  | .qfil k d a b c => Sys2Proof.Machine.execQfil k d a b c s
  | .amsg k imm kr b c => Sys2Proof.Machine.execAmsg k imm kr b c s
  | .meet k a tmo decl => Sys2Proof.Machine.execMeet k a tmo decl s
  | .mclose k d a => Sys2Proof.Machine.execMclose k d a s
  | .svc k code => Sys2Proof.Machine.execSvc k code s
  | .brk k code => Sys2Proof.Machine.execBrk k code s
  | .ctlr k d r => Sys2Proof.Machine.execCtlr k d r s
  | .ctlw k a r => Sys2Proof.Machine.execCtlw k a r s
  | .freeze k d a => Sys2Proof.Machine.execFreeze k d a s
  | .resumeSResume k d a b => Sys2Proof.Machine.execResumeSResume k d a b s
  | .resumeSFail k d a b => Sys2Proof.Machine.execResumeSFail k d a b s
  | .resumeSKill k d a b => Sys2Proof.Machine.execResumeSKill k d a b s
  | .resumeJReplay k d a b => Sys2Proof.Machine.execResumeJReplay k d a b s
  | .resumeHRelease k d a b => Sys2Proof.Machine.execResumeHRelease k d a b s
  | .resumePRelease k d a b => Sys2Proof.Machine.execResumePRelease k d a b s
  | .vacate k d a b => Sys2Proof.Machine.execVacate k d a b s
  | .stopcut k d a b => Sys2Proof.Machine.execStopcut k d a b s
  | .tlbinvAsid k d a b => Sys2Proof.Machine.execTlbinvAsid k d a b s
  | .tlbinvPage k d a b => Sys2Proof.Machine.execTlbinvPage k d a b s
  | .tlbinvPart k d a b => Sys2Proof.Machine.execTlbinvPart k d a b s
  | .waitev k d a b => Sys2Proof.Machine.execWaitev k d a b s
  | .time k d => Sys2Proof.Machine.execTime k d s
  | .bbox k d a b => Sys2Proof.Machine.execBbox k d a b s
  | .activeMessageArrival msg => Sys2Proof.Machine.execActiveMessageArrival msg s
  | .dispatch core => Sys2Proof.Machine.execDispatch core s
  | .theftAttempt slot => Sys2Proof.Machine.execTheftAttempt slot s
  | .memoryResultReturn slot idx => Sys2Proof.Machine.execMemoryResultReturn slot idx s
  | .wake slot => Sys2Proof.Machine.execWake slot s
  | .inboxRoom slot => Sys2Proof.Machine.execInboxRoom slot s
  | .jobEntryHandoff cluster part => Sys2Proof.Machine.execJobEntryHandoff cluster part s
  | .directoryRoom slot => Sys2Proof.Machine.execDirectoryRoom slot s
  | .cacheEviction cluster idx => Sys2Proof.Machine.execCacheEviction cluster idx s
  | .barwttTimeout slot => Sys2Proof.Machine.execBarwttTimeout slot s
  | .meetDeadline cluster idx => Sys2Proof.Machine.execMeetDeadline cluster idx s
  | .survivorReady slot => Sys2Proof.Machine.execSurvivorReady slot s
  | .jobStart cluster matrix => Sys2Proof.Machine.execJobStart cluster matrix s
  | .leaveGrant die => Sys2Proof.Machine.execLeaveGrant die s
  | .jobComplete cluster entry => Sys2Proof.Machine.execJobComplete cluster entry s
  | .jobFreeze cluster entry => Sys2Proof.Machine.execJobFreeze cluster entry s
  | .copyByteArrival cluster entry => Sys2Proof.Machine.execCopyByteArrival cluster entry s
  | .macroSelfTest cluster => Sys2Proof.Machine.execMacroSelfTest cluster s
  | .sliceEnd core ring => Sys2Proof.Machine.execSliceEnd core ring s
  | .slotHandover slot => Sys2Proof.Machine.execSlotHandover slot s
  | .contextRestore slot => Sys2Proof.Machine.execContextRestore slot s
  | .cutClose part => Sys2Proof.Machine.execCutClose part s
  | .pendingPacketDelivery part => Sys2Proof.Machine.execPendingPacketDelivery part s
  | .hostAccess fn req va n val => Sys2Proof.Machine.execHostAccess fn req va n val s
  | .hostLinkTraining far width => Sys2Proof.Machine.execHostLinkTraining far width s
  | .go fn val => Sys2Proof.Machine.execGo fn val s
  | .qgo fn val => Sys2Proof.Machine.execQgo fn val s
  | .commit part => Sys2Proof.Machine.execCommit part s
  | .registerWrite pa val => Sys2Proof.Machine.execRegisterWrite pa val s
  | .debugCommandResume slot => Sys2Proof.Machine.execDebugCommandResume slot s
  | .debugCommandFail slot depth => Sys2Proof.Machine.execDebugCommandFail slot depth s
  | .debugCommandKill slot => Sys2Proof.Machine.execDebugCommandKill slot s
  | .fabricPacketArrival link key pkt => Sys2Proof.Machine.execFabricPacketArrival link key pkt s
  | .linkCrcError link retries => Sys2Proof.Machine.execLinkCrcError link retries s
  | .thermalStateChange die state => Sys2Proof.Machine.execThermalStateChange die state s
  | .thermalAlarm die => Sys2Proof.Machine.execThermalAlarm die s
  | .powerOnReset => Sys2Proof.Machine.execPowerOnReset s
  | .coldReset => Sys2Proof.Machine.execColdReset s
  | .warmReset => Sys2Proof.Machine.execWarmReset s
  | .bbhead die => Sys2Proof.Machine.execBbhead die s
  | .bbread die seq n => Sys2Proof.Machine.execBbread die seq n s
  | .attest nonce part => Sys2Proof.Machine.execAttest nonce part s
  | .phase => Sys2Proof.Machine.execPhase s
  | .thermal => Sys2Proof.Machine.execThermal s
  | .reset cold => Sys2Proof.Machine.execReset cold s
  | .illegalEncoding cls cause addr info => Sys2Proof.Machine.execIllegalEncoding cls cause addr info s
  | .fabricLinkTraining link => Sys2Proof.Machine.execFabricLinkTraining link s

end Sys2Proof.Machine
end

