-- ==== Sys2Proof/Machine/Fetch.lean ====
section
/-! DEFINITION. Fetching and decoding at a slot's pc (R41 to R43, R60), and the row of RESUME.S that its command selects (R299). -/

namespace Sys2Proof.Machine

/-- The 32-byte fetch block that holds an address (R43). -/
def fetchBlock (pc : Word) : Word := pc &&& ~~~31

/-- The bytes from pc to the end of its fetch block, read as a plain load with execute rights (R42, R43); a fault names pc. DESIGN
CHOICE (log 84): the bytes are those that such a load finds in the step that issues, where R63 lets each 8-byte word be older. -/
def State.fetch (s : State) (t : Thr) (pc : Word) : Except FaultInfo (State × List Byte) :=
  if pc.toNat ≥ 2 ^ 56 then .error (mkFault .fetchBoundary 1 pc 0)
  else if pc.toNat % 4 ≠ 0 then .error (mkFault .misalign 0 pc 0)
  else
    match s.check t .g .fetch false (fetchBlock pc) 32 1 0 with
    | .error fi => .error { fi with addr := pc }
    | .ok ps =>
      let r := s.loadPieces t ps
      .ok (r.1, (bytesOf r.2 32).drop (pc.toNat % 32))

/-- The instruction a slot's bytes hold, or the stop of R60: bytes that end before the instruction cross the block (R43). DESIGN CHOICE (log 128): an
illegal packet whose first word is cut by the block's end names it with zeros above the four bytes it has. -/
def decodeAt (pc : Word) (bs : List Byte) : Except FaultInfo Instr :=
  match decode bs with
  | .ok i => .ok i
  | .error .tooShort => .error (mkFault .fetchBoundary 2 pc 0)
  | .error e => .error (mkFault .illegal e.cause.toNat (BitVec.ofNat 64 (leNat (bs.take 8))) 0)

/-- Fetches and decodes at the pc of the current slot (R60). -/
def State.fetchDecode (s : State) : Except FaultInfo (State × Instr) :=
  match s.fetch (s.thr s.cur) s.pc with
  | .error fi => .error fi
  | .ok (s, bs) =>
    match decodeAt s.pc bs with
    | .error fi => .error fi
    | .ok i => .ok (s, i)

/-- The three RESUME.S rows share one encoding; the command in xb selects among them (R299). -/
def State.pick (s : State) (i : Instr) : Instr :=
  match i with
  | .resumeSResume k d a b =>
    if (s.getX b).toNat % 256 = 2 then .resumeSFail k d a b
    else if (s.getX b).toNat % 256 = 3 then .resumeSKill k d a b
    else i
  | i => i

end Sys2Proof.Machine
end

