-- ==== Sys2Proof/Machine/Schedule.lean ====
section
/-! DEFINITION. What happens next where the agenda names nothing (log 1): each event of the device that is due, in a fixed order; else the
slot whose turn it is issues (R20); else time passes to the next moment at which something can happen. -/

namespace Sys2Proof.Machine

/-! ### Issue (R20, R22) -/

/-- The first cycle from `c` on in which some slot issues, within `fuel` cycles, and that slot. -/
def State.nextIssue (s : State) (c : Nat) : Nat → Option (Nat × Nat)
  | 0 => none
  | fuel + 1 =>
    match s.issueIn c with
    | some n => some (c, n)
    | none => State.nextIssue s (c + 1) fuel

/-- A slot begins an instruction in a cycle. -/
def State.begin (s : State) (n c : Nat) : State :=
  (({ s with cycle := c, cur := n }).modSlot n fun v => { v with lastIssue := some c }).modCore (coreOfSlot n) fun k => { k with lastIssue := some c }

/-- An instruction at `addr` of slot `n` has issued: the step bit (R284) and the groups' quiescence (R272) are looked at. -/
def State.settle (s : State) (n : Nat) (addr : Word) : State := (s.afterStep n addr).quiesce

/-! ### Events that are due -/

/-- The first event due among some. -/
def firstDue {α : Type} (l : List α) (f : α → Option State) : Option State := l.findSome? f

/-- The first due event of a slot. -/
def State.slotDue (s : State) (n : Nat) : Option State :=
  s.returnResult n 0 <|> s.restoreSlot n <|> s.survivorGoes n <|> s.wake n <|> s.barTimeout n <|> s.inboxGoes n <|> s.directoryGoes n <|>
    s.handOver n

/-- A running job meets its fault (R205). -/
def State.faultJob (s : State) (cl e : Nat) : Option State :=
  match s.job? cl e with
  | some j => if j.state == .running then (s.jobFault cl j).map fun f => s.freezeJob cl e f else none
  | none => none

/-- A line that has stood in its cache for 4,096 cycles leaves it (R172). -/
def State.oldLine (s : State) (cl : Nat) : Option State :=
  match (s.cluster cl).lines.findIdx? fun l => decide (l.count = 0) && decide (l.filled + 4096 ≤ s.cycle) with
  | some i => s.evictLine cl i
  | none => none

/-- The first due event of a cluster, deadlines apart. -/
def State.clusterDue (s : State) (cl : Nat) : Option State :=
  let c := s.cluster cl
  firstDue c.jobs (fun (e : Nat × Job) => s.copyStep cl e.1 <|> s.completeJob cl e.1 <|> s.faultJob cl e.1) <|>
    s.dueTest cl <|> s.startJob cl true <|> s.startJob cl false <|>
    firstDue (List.range 16) (fun p => if (s.entryWaiters cl p).isEmpty then none else s.handEntry cl p) <|>
    s.oldLine cl

/-- The first due event of a core. -/
def State.coreDue (s : State) (c : Nat) : Option State := firstDue (List.range 4) (fun r => s.endSlice c r) <|> s.dispatch c

/-- Some deque of a partition holds a record; otherwise attempts of theft come to nothing but their pointers' advance, which
`State.catchUp` accounts for. -/
def State.worthStealing (s : State) (p : Nat) : Bool :=
  (s.part p).cfg.running && s.cores.any fun (e : Nat × Core) => match s.deque p e.1 with | some d => d.size != 0 | none => false

/-- The next attempt of theft that is due (R257). -/
def State.theftDue (s : State) : Option State :=
  firstDue ((List.range 16).filter s.worthStealing) fun p =>
    firstDue ((List.range 1152).filter (s.part p).cfg.cores.getLsbD) fun c =>
      firstDue ((s.part p).cfg.slotsOn c) fun n => if s.slotPart? n == some p then s.theft n else none

/-- A meet entry whose DEADLINE's cycle has passed (R273). -/
def State.deadlineDue (s : State) : Option State :=
  firstDue s.clusters fun (e : Nat × Cluster) => firstDue (List.range e.2.meets.length) (fun i => s.meetTimeout e.1 i)

/-- The first event of the device that is due. -/
def State.due (s : State) : Option State :=
  firstDue s.slots (fun (e : Nat × Slot) => s.slotDue e.1) <|>
    firstDue s.clusters (fun (e : Nat × Cluster) => s.clusterDue e.1) <|>
    firstDue (List.range 6) (fun d => s.grantLeave d <|> (if s.alarmDue d then some { s with thermAlarm := true } else none)) <|>
    firstDue s.parts (fun (e : Nat × Part) => s.deliverPending e.1 <|> s.closeCut e.1 <|> s.pushLate e.1) <|>
    firstDue s.cores (fun (e : Nat × Core) => s.coreDue e.1) <|>
    s.theftDue

/-! ### Time -/

/-- A cycle may pass (R20, R172, R256, R257, R262, R273): every core with a slot that may issue in it has issued, no slice end, hand-over,
start or attempt of theft falls in it, and no line is overdue. -/
def State.mayPass (s : State) : Bool :=
  (s.issueIn s.cycle).isNone && (s.slots.all fun (e : Nat × Slot) => (s.handOver e.1).isNone) &&
    (s.cores.all fun (e : Nat × Core) => (s.coreDue e.1).isNone) && s.theftDue.isNone &&
    s.clusters.all fun (e : Nat × Cluster) => e.2.lines.all fun l => l.count ≠ 0 || decide (s.cycle < l.filled + 4096)

/-- The least number above `c` of a list, if any. -/
def leastAbove (c : Nat) (l : List Nat) : Option Nat :=
  l.foldl (fun (b : Option Nat) x => if x ≤ c then b else match b with | some y => some (Nat.min x y) | none => some x) none

/-- The next cycle after `now` on which an idle slot's attempts fall (R257). -/
def Slot.nextAttempt (v : Slot) (now : Nat) : Nat :=
  if now < v.waitFrom then v.waitFrom else v.waitFrom + 64 * ((now - v.waitFrom) / 64 + 1)

/-- The later cycles at which an event of a slot becomes due. -/
def State.slotTimes (s : State) (n : Nat) : List Nat :=
  let v := s.slot n
  match v.run with
  | .sleeping (.barrier _ _ _ (some d)) => [d]
  | .sleeping (.event m t _) => if m.getLsbD 1 then [t] else []
  | .idle => match s.slotPart? n with | some p => if s.worthStealing p then [v.nextAttempt s.cycle] else [] | none => []
  | _ => []

/-- The later cycles at which some event becomes due: deadlines (R185, R273, R304), evictions (R172), slices (R262), thefts (R257), those of
slots that the state does not list among them. -/
def State.times (s : State) : List Nat :=
  s.slots.flatMap (fun (e : Nat × Slot) =>
    s.slotTimes e.1 ++ if s.sliceOver e.1 then [s.cycle + 1] else []) ++
  (if (List.range 16).any s.worthStealing then [Slot.empty.nextAttempt s.cycle] else []) ++
  s.clusters.flatMap (fun (e : Nat × Cluster) =>
    (e.2.meets.filterMap MeetEntry.deadline).map (· + 1) ++ (e.2.lines.filter fun l => decide (l.count = 0)).map fun l => l.filled + 4096) ++
  s.cores.flatMap (fun (e : Nat × Core) => (List.range 4).filterMap fun r =>
    (e.2.sliceOf.get? r).map fun p => e.2.sliceFrom.getD r 0 + (s.part p).cfg.sliceLen) ++
  s.dies.map fun (e : Nat × Die) => if e.2.thermal = 3 then e.2.since + alarmCycles else 0

/-- What comes next: an event that is due, the issue of a slot in a cycle, or a later cycle. -/
inductive Next where
  | event (s : State)
  | issue (n c : Nat)
  | later (c : Nat)

/-- The next thing, where the agenda is empty. No slot waits more than 31 cycles for its turn (R22). -/
def State.nextUp (s : State) : Next :=
  match s.due with
  | some t => .event t
  | none =>
    match s.nextIssue s.cycle 32, leastAbove s.cycle s.times with
    | some (c, n), some d => if c < d then .issue n c else .later d
    | some (c, n), none => .issue n c
    | none, some d => .later d
    | none, none => .later (s.cycle + 1)

/-- The outside can bring an event about (log 1): the host reaches launch windows through a trained port; registers below root's
privilege, decoding faults and commands are no events of the outside. -/
def State.fromOutside (s : State) (i : Instr) : Bool :=
  match i with
  | .illegalEncoding .. | .commit _ | .debugCommandResume _ | .debugCommandFail .. | .debugCommandKill _ => false
  | .go .. | .qgo .. => s.hostPort != .down
  | .registerWrite pa _ => s.hostPort != .down && regionOf pa == .launch
  | i => i.isEvent

/-- What a device whose start-up has failed still serves (R333, R334). -/
def served (i : Instr) : Bool :=
  match i with
  | .bbhead _ | .bbread .. | .attest .. | .phase | .thermal | .reset _ | .powerOnReset | .coldReset | .warmReset => true
  | _ => false

end Sys2Proof.Machine
end

