-- ==== Sys2Proof/Machine/Step.lean ====
section
/-! DEFINITION. One step of the package: the next move of the agenda, or what comes next by itself (log 1); and the placing of one
instruction where the next step fetches. -/

namespace Sys2Proof.Machine

/-- An outcome after which the groups' quiescence is looked at (R272). -/
def quiesced (o : Host.Outcome State Fault Refusal) : Host.Outcome State Fault Refusal :=
  match o with
  | .next t => .next t.quiesce
  | o => o

/-- The outcome of an issued instruction, after which its step bit (R284) and the groups' quiescence (R272) are looked at. -/
def settled (n : Nat) (addr : Word) (o : Host.Outcome State Fault Refusal) : Host.Outcome State Fault Refusal :=
  match o with
  | .next t => .next (t.settle n addr)
  | o => o

/-- Slot `n` issues in cycle `c`: it fetches, decodes and executes (R60). -/
def issueStep (n c : Nat) (s : State) : Host.Outcome State Fault Refusal :=
  let b := s.begin n c
  match b.fetchDecode with
  | .error fi => settled n b.pc (Sys2Proof.Machine.execIllegalEncoding fi.cls fi.cause fi.addr fi.info b)
  | .ok (t, i) => settled n b.pc (Sys2Proof.Machine.exec (t.pick i) t)

/-- A unit that holds data the ECC can give up (R281). -/
def State.canDamage (s : State) (d : Damaged) : Bool :=
  match d with
  | .row c r => decide (c < 1152) && decide (r < 4 * 4096)
  | .cached cl i => decide (i < (s.cluster cl).lines.length)
  | .line l _ => decide (l * 128 < hbmSize)
  | .panel cl => (s.cluster cl).panel.isSome

/-- A unit's data is given up: a line of a cluster cache bears the mark, any other unit is listed. -/
def State.setDamage (s : State) (d : Damaged) : State :=
  match d with
  | .cached cl i => s.modCluster cl fun c => { c with lines := c.lines.modify i fun l => { l with bad := true } }
  | d => if s.poison.contains d then s else { s with poison := s.poison ++ [d] }

/-- A partition's address space may hold a copy of a line at its home slice (R126, R315): a G page's tag or one of its own, in a set of which it has a
way for it, of memory that the hardware shows no view of its own of, and no line that is counted there. -/
def State.mayCopy (s : State) (p tag pline : Nat) : Bool :=
  let k := (s.part p).cfg
  decide (p < 16) && k.running && (tag == 0 || (decide (k.asidFirst ≤ tag) && decide (tag ≤ k.asidLast))) && decide (tag < 2 ^ 11) &&
    decide (0 < s.homeWaysLeft p pline) && decide (pline * 128 + 128 ≤ hbmSize) && !s.dirMeets (pline * 128) 128 &&
    ((List.range 128).all fun i => (s.inboxOwner (pline * 128 + i)).isNone) && (s.home.get? (homeKey tag pline)).isNone

/-- One move of the agenda; a cycle passes by itself only where nothing is left to do in it. A device whose start-up has failed serves its management port and resets only (R333). -/
def moveStep (m : Move) (s : State) : Host.Outcome State Fault Refusal :=
  match m with
  | .event i =>
    if s.failed && !served i then .fault (.startUpFailed s.phase)
    else if s.fromOutside i then quiesced (Sys2Proof.Machine.exec i s)
    else .next s
  | .issue n => if s.failed then .fault (.startUpFailed s.phase) else if s.issues (coreOfSlot n) s.cycle = some n then issueStep n s.cycle s else .next s
  | .write pa v => if s.failed then .fault (.startUpFailed s.phase) else quiesced (s.deviceStore pa v)
  | .misuse f off => if s.failed then .fault (.startUpFailed s.phase) else quiesced (.next (s.misuse f off))
  | .corrected die cause addr =>
    if s.failed || die ≥ 6 || !(cause == 1 || cause == 2 || cause == 3 || cause == 4 || cause == 5) then .next s
    else .next (s.boxAdd die 8 cause.toNat addr.toNat 0 0)
  | .damaged d => if s.failed || !s.canDamage d then .next s else .next (s.setDamage d)
  | .keepCopy p tag l =>
    if s.failed || !s.mayCopy p tag l || (s.copies.get? (homeKey tag l)).isSome then .next s
    else
      let t := trimCopies p l (s.homeWaysLeft p l - 1) (s.copiesIn p l).length s
      .next { t with copies := t.copies.set (homeKey tag l) { part := p, data := BitVec.ofNat 1024 (s.homeRead (l * 128) 128) } }
  | .dropCopy tag l => .next { s with copies := s.copies.erase (homeKey tag l) }
  | .tick => if s.mayPass then .next { s with cycle := s.cycle + 1 } else .next s

/-- A step. Meet entries whose DEADLINE's cycle has passed are released before anything else of the cycle that follows (R273). -/
def step (s : State) : Host.Outcome State Fault Refusal :=
  match s.deadlineDue with
  | some t => .next t.quiesce
  | none =>
    match s.agenda with
    | m :: rest => moveStep m { s with agenda := rest }
    | [] =>
      if s.failed then .fault (.startUpFailed s.phase)
      else
        match s.nextUp with
        | .event t => .next t.quiesce
        | .issue n c => issueStep n c s
        | .later c => .next { s with cycle := c }

/-- Where `State.withFetchWord` puts its page tables and its 2 MiB page: in the top 1 GiB of stack 11, clear of partition 0's areas. -/
def fetchTables : Nat := 0xBFD0000000
def fetchPage : Nat := 0xBFE0000000

/-- `s` with an instruction stored where the slot that executes (`cur`) fetches: its partition's first address space is given a page table
whose one leaf, readable, writable and executable, maps the 2 MiB around its pc, and the slot is put into that address space. -/
def State.withFetchWord (s : State) (nbits w : Nat) : State :=
  let n := s.cur
  let t := s.thr n
  let c := (s.part t.part).cfg
  let pc := (s.slot n).ctx.pc.toNat
  let m := s.mem.writeN c.roots 8 fetchTables
  let m := m.writeN (fetchTables + 8 * tableIndex 3 pc) 8 (fetchTables + 0x10000 + 1)
  let m := m.writeN (fetchTables + 0x10000 + 8 * tableIndex 2 pc) 8 (fetchTables + 0x20000 + 1)
  let m := m.writeN (fetchTables + 0x20000 + 8 * tableIndex 1 pc) 8 (fetchPage + 0x5F)
  let m := m.writeN (fetchPage + pc % 2 ^ 21) 16 (w % 2 ^ nbits)
  let s := { s with mem := m }
  let s := s.modSlot n fun v => v.modReg t.part fun g => { g with asid := BitVec.ofNat 11 c.asidFirst }
  let s := s.modCore t.core fun k => { k with utlb := [] }
  s.modCluster t.cluster fun k => { k with tlb := [], lines := k.lines.filter fun l => l.part != t.part }

end Sys2Proof.Machine
end

