-- ==== Sys2Proof/Safety.lean ====
section
/-! DEFINITION. The words claims are stated in: the form every memory keeps, how an instruction goes on, and what it leaves alone. -/

namespace Sys2Proof.Machine

/-- A core's buffers are in canonical form. -/
def Core.memOk (c : Core) : Bool := c.buf.wf && c.shadow.wf

/-- Every memory of the package is in canonical form. -/
def State.memOk (s : State) : Bool := s.mem.wf && s.remote.wf && s.hostMem.wf && s.cores.all fun e => Core.memOk e.2

/-- The value a register reads as once `v` is written to it: x0 reads as zero (R12, R48). -/
def readBack (d : Reg) (v : Word) : Word := if d = 0 then 0 else v

/-- The next sequential address (R44). -/
def State.after (s : State) (k : Enc) : Word := s.pc + BitVec.ofNat 64 k.len.bytes

/-- The current slot has ended its instruction and goes on at `target`: with the switch mark and a requested result outstanding it is
parked, else ready (R21, R44, R46). -/
structure Goes (s t : State) (k : Enc) (target : Word) : Prop where
  pc   : t.pc = target
  cont : (t.slot s.cur).cont = .none
  run  : (t.slot s.cur).run = if k.mark && !(t.slot s.cur).pending.isEmpty then .parked else .ready

/-- No slot but the current one changes, and of that one nothing but the scalar registers `xs`, the vector registers `vs`, the mask
registers `ms`, the flags, the pc, the requested results and how it goes on. -/
structure SlotFrame (s t : State) (xs vs : List Reg) (ms : List MReg) : Prop where
  cur    : t.cur = s.cur
  others : ∀ n, n ≠ s.cur → t.slot n = s.slot n
  x      : ∀ r, r ∉ xs → t.getX r = s.getX r
  v      : ∀ r, r ∉ vs → t.getV r = s.getV r
  m      : ∀ r, r ∉ ms → t.getM r = s.getM r
  rest   : t.slot s.cur =
    { s.slot s.cur with
      run := (t.slot s.cur).run, cont := (t.slot s.cur).cont, pending := (t.slot s.cur).pending
      ctx := { s.ctx with x := t.ctx.x, v := t.ctx.v, m := t.ctx.m, pc := t.pc, fstat := t.ctx.fstat } }

/-- Nothing outside the slots changes: every byte of memory and of every core's buffers reads as before, and every other piece of state
is as before. -/
structure OutsideSame (s t : State) : Prop where
  byte  : ∀ a, t.mem.read a = s.mem.read a
  buf   : ∀ c a, (t.core c).buf.read a = (s.core c).buf.read a
  state : t = { s with slots := t.slots }

/-- The requested results that a write of the registers `xs` and `vs` leaves (R46). -/
def leftPending (xs vs : List Reg) (l : List Result) : List Result :=
  l.filter fun e => if e.isVec then !vs.contains e.reg else !xs.contains e.reg

/-- An instruction that only computes has completed: it goes on at `target`, has added the flags `fl` to ctl.FSTAT (R69), and has
changed no state but the registers of the three lists. -/
structure Computed (s t : State) (k : Enc) (target : Word) (fl : Flags) (xs vs : List Reg) (ms : List MReg) : Prop where
  goes    : Goes s t k target
  fstat   : t.ctx.fstat = s.ctx.fstat ||| fl
  pending : (t.slot s.cur).pending = leftPending xs vs (s.slot s.cur).pending
  frame   : SlotFrame s t xs vs ms
  outside : OutsideSame s t

/-- A memory instruction has completed: it goes on at the next address with the results `rs` requested (R21), and has written no
register of any slot. -/
structure Requested (s t : State) (k : Enc) (rs : List Result) : Prop where
  goes    : Goes s t k (s.after k)
  fstat   : t.ctx.fstat = s.ctx.fstat
  pending : (t.slot s.cur).pending = (s.slot s.cur).pending ++ rs
  frame   : SlotFrame s t [] [] []

/-- The requested result of a scalar register. -/
def resX (d : Reg) (v : Word) : Result := { isVec := false, reg := d, val := v.setWidth 512 }
/-- The requested result of a vector register. -/
def resV (d : Reg) (v : Vec) : Result := { isVec := true, reg := d, val := v }

/-! ### Bytes -/

/-- The byte that lies at a physical address below every cache and view: this package's memory, host memory, or another package's. -/
def State.rawByte (s : State) (a : Nat) : Byte :=
  if a ≥ 2 ^ 55 then s.remote.read a else if a ≥ hostBase then s.hostMem.read a else s.mem.read a

/-- Byte `i` of a cached line. -/
def CLine.byte (l : CLine) (i : Nat) : Byte := l.data.extractLsb' (8 * i) 8

/-- A plain access to this page goes to the home slice, past the cluster cache (R156, R322). -/
def Xlat.uncached (x : Xlat) : Bool := regionOf x.pa == .host || decide (x.ord = 0)

/-- The line of a thread's cluster cache that its access to byte `j` of a translated run hits (R124, R126). -/
def State.hitLine (s : State) (t : Thr) (x : Xlat) (j : Nat) : Option CLine :=
  (s.cluster t.cluster).lines.find? fun l => l.part == t.part && l.asid.toNat == x.tag && l.vline == (x.va + j) / 128

/-- The byte of an address space's uncounted copy at its home slice, or of memory (R126). -/
def State.belowByte (s : State) (tag pa : Nat) : Byte :=
  match s.copies.get? (homeKey tag (pa / 128)) with
  | some k => k.data.extractLsb' (8 * (pa % 128)) 8
  | none => s.homeByte pa

/-- The byte an access of an address space finds at its home slice: a line counted there is fetched back from a spill record that still
counts it, and is gone with one that does not (R125, R126, R140). -/
def State.foundByte (s : State) (tag pa : Nat) : Byte :=
  match s.home.get? (homeKey tag (pa / 128)) with
  | some h => if h.spill.isSome && s.homeLineCount h = 0 then s.belowByte tag pa else s.spaceByte tag pa
  | none => s.belowByte tag pa

/-- The byte a plain load of a thread finds at byte `j` of a translated run before anything is brought in (R140, R145, R152). -/
def State.viewByte (s : State) (t : Thr) (x : Xlat) (j : Nat) : Byte :=
  if (regionOf x.pa).isDevice then BitVec.ofNat 8 (s.devWord ((x.pa + j) / 8 * 8) / 2 ^ (8 * ((x.pa + j) % 8)))
  else if x.uncached then s.foundByte x.tag (x.pa + j)
  else
    match s.hitLine t x j with
    | some l => if l.spill.isSome && s.lineCount l = 0 then s.foundByte x.tag (x.pa + j) else s.lineByte l ((x.va + j) % 128)
    | none => s.foundByte x.tag (x.pa + j)

/-- The line that a thread's access to byte `j` of a run hits, or the line counted at its home slice, lies in a spill record (R140). -/
def State.spilledAt (s : State) (t : Thr) (x : Xlat) (j : Nat) : Prop :=
  (∃ l, s.hitLine t x j = some l ∧ l.spill ≠ none) ∨ ∃ h, s.home.get? (homeKey x.tag ((x.pa + j) / 128)) = some h ∧ h.spill ≠ none

/-- The byte a plain store of a thread has left at byte `j` of a translated run: in the line it hits, or below the caches (R152). -/
def State.placedByte (s : State) (t : Thr) (x : Xlat) (j : Nat) : Byte :=
  if x.uncached then s.rawByte (x.pa + j)
  else
    match s.hitLine t x j with
    | some l => l.byte ((x.va + j) % 128)
    | none => s.rawByte (x.pa + j)

/-- A line of a partition in a cluster holds byte `a` of memory dirty, with value `b`. -/
def State.dirtyAt (s : State) (cl p a : Nat) (b : Byte) : Prop :=
  ∃ l ∈ (s.cluster cl).lines, l.part = p ∧ l.pline = a / 128 ∧ l.dirty.getLsbD (a % 128) = true ∧ l.byte (a % 128) = b

/-- Byte 12 or 13 of some partition's spill record, which hold VALID and the count (R140). -/
def State.spillFlag (s : State) (a : Nat) : Prop :=
  ∃ p i, a = spillAddr (s.part p).cfg i + 12 ∨ a = spillAddr (s.part p).cfg i + 13

/-- A byte of a spill record that holds a line (R140). -/
def State.recordByte (s : State) (a : Nat) : Prop :=
  ∃ p i k, i ∈ s.spillUsed p ∧ k < 144 ∧ a = spillAddr (s.part p).cfg i + k

/-- The spill records in use lie in this package's plain memory, one for each line and apart from each other (R140, R311). -/
def State.recordsApart (s : State) : Prop :=
  ∀ p, (s.spillUsed p).Nodup ∧ ∀ i, i ∈ s.spillUsed p →
    (∀ k, k < 144 → spillAddr (s.part p).cfg i + k < hbmSize ∧ s.dirOwner (spillAddr (s.part p).cfg i + k) = none ∧
      s.inboxOwner (spillAddr (s.part p).cfg i + k) = none) ∧
    ∀ q j, j ∈ s.spillUsed q → (q = p → j ≠ i) →
      spillAddr (s.part p).cfg i + 144 ≤ spillAddr (s.part q).cfg j ∨ spillAddr (s.part q).cfg j + 144 ≤ spillAddr (s.part p).cfg i

/-- The runs of an access cover a physical address. -/
def coverPhys (ps : List Piece) (a : Nat) : Prop := ∃ p ∈ ps, ∃ x, p.place = .glob x ∧ x.pa ≤ a ∧ a < x.pa + p.n
/-- The runs of an access cover a byte of a core's buffers. -/
def coverBuf (ps : List Piece) (c a : Nat) : Prop := ∃ p ∈ ps, ∃ la, p.place = .buf c la ∧ la ≤ a ∧ a < la + p.n

/-- An address space's copy of a line at its home slice (R126) has left it, or outside the runs `ps` it holds what it held, a dirty byte that the
accessing thread's partition has written back, or a flag of a spill record. -/
def CopiesKept (s t : State) (ps : List Piece) : Prop :=
  ∀ k d, t.copies.get? k = some d → ∃ e, s.copies.get? k = some e ∧ ∀ j, j < 128 → ¬ coverPhys ps (k / 2 ^ 11 * 128 + j) →
    let b : Byte := d.data.extractLsb' (8 * j) 8
    b = e.data.extractLsb' (8 * j) 8 ∨ s.dirtyAt (s.thr s.cur).cluster (s.thr s.cur).part (k / 2 ^ 11 * 128 + j) b ∨ s.spillFlag (k / 2 ^ 11 * 128 + j)

/-- The bytes outside the runs `ps`: every byte of every core's buffers is as before, and every byte of memory is as before or has
received the dirty byte of a line that the accessing thread's partition held in its cluster (a write-back, R152), or is a flag of a
spill record (R140). -/
structure BytesKept (s t : State) (ps : List Piece) : Prop where
  buf : ∀ c a, ¬ coverBuf ps c a → (t.core c).buf.read a = (s.core c).buf.read a
  raw : ∀ a, ¬ coverPhys ps a →
    t.rawByte a = s.rawByte a ∨ s.dirtyAt (s.thr s.cur).cluster (s.thr s.cur).part a (t.rawByte a) ∨ s.spillFlag a
  copy : CopiesKept s t ps

/-- An access leaves every piece of state but storage, its caches and TLBs, reservations on the words it writes, the counts of requests
between cores (R289) and the model's choice of the next free value. -/
structure AccessOnly (s t : State) : Prop where
  state   : t = { s with slots := t.slots, cores := t.cores, clusters := t.clusters, mem := t.mem, remote := t.remote,
                         hostMem := t.hostMem, home := t.home, copies := t.copies, resv := t.resv, poison := t.poison, freeCtr := t.freeCtr, agenda := t.agenda }
  core    : ∀ c, t.core c =
    { s.core c with buf := (t.core c).buf, utlb := (t.core c).utlb, sent := (t.core c).sent, recv := (t.core c).recv, counts := (t.core c).counts }
  cluster : ∀ c, t.cluster c = { s.cluster c with lines := (t.cluster c).lines, tlb := (t.cluster c).tlb }

/-- Every byte that checked runs load is one that `seen` allows under .G, and the buffer's own byte under the other placements. -/
def LoadedFrom (s : State) (ps : List Piece) (v : Nat) (seen : Xlat → Nat → Byte → Prop) : Prop :=
  ∀ p ∈ ps, ∀ j, j < p.n →
    match p.place with
    | .buf c la => byteOf v (p.off + j) = (s.core c).buf.read (la + j)
    | .glob x => seen x j (byteOf v (p.off + j))

/-- A byte of a spill record that the load's own fills and fetches may have changed: a dirty byte sent home, or a flag (R140, R152). -/
def State.recordSeen (s : State) (b : Byte) : Prop :=
  ∃ a, s.recordByte a ∧ (s.dirtyAt (s.thr s.cur).cluster (s.thr s.cur).part a b ∨ s.spillFlag a)

/-- What one plain load may see (R145, R152): the thread's view, or the dirty byte of another line of its cluster that the load's own fill
has sent home. -/
def State.sees (s : State) (x : Xlat) (j : Nat) (b : Byte) : Prop :=
  let spilled := s.spilledAt (s.thr s.cur) x j
  b = s.viewByte (s.thr s.cur) x j ∨
    ((s.hitLine (s.thr s.cur) x j = none ∨ spilled) ∧ s.dirtyAt (s.thr s.cur).cluster (s.thr s.cur).part (x.pa + j) b) ∨
    (spilled ∧ s.recordSeen b)

/-- What a load of many lanes may see: as one plain load, or memory after other lanes' fills have sent lines home, or after a spilled line that
another lane has fetched back has taken the way of its copy at the home slice (R315). -/
def State.seesLate (s : State) (x : Xlat) (j : Nat) (b : Byte) : Prop :=
  b = s.viewByte (s.thr s.cur) x j ∨ b = s.foundByte x.tag (x.pa + j) ∨
    s.dirtyAt (s.thr s.cur).cluster (s.thr s.cur).part (x.pa + j) b ∨ s.spillFlag (x.pa + j) ∨
    ((s.copies.get? (homeKey x.tag ((x.pa + j) / 128))).isSome ∧ b = s.homeByte (x.pa + j)) ∨
    (s.spilledAt (s.thr s.cur) x j ∧ (b = s.belowByte x.tag (x.pa + j) ∨ s.recordSeen b))

/-- A load of a launch window in a wrong format leaves that its function freezes next (R323), and no other load leaves a device anything. -/
def LoadQueues (s t : State) (ps : List Piece) : Prop :=
  (∀ p ∈ ps, ∀ x, p.place = .glob x → launchMisuse x.pa p.n = true →
     Move.misuse ((x.pa - launchBase) / 4096) ((x.pa - launchBase) % 4096) ∈ t.agenda) ∧
  ((∀ p ∈ ps, ∀ x, p.place = .glob x → launchMisuse x.pa p.n = false) → t.agenda = s.agenda)

/-- Every byte that checked runs store has reached its place: the buffer, the line or memory; a device register's word is its next write, and
one of a launch window in a wrong format freezes its function next (R323). -/
def StoredTo (s t : State) (ps : List Piece) (v : Nat) : Prop :=
  ∀ p ∈ ps, ∀ j, j < p.n →
    match p.place with
    | .buf c la => (t.core c).buf.read (la + j) = byteOf v (p.off + j)
    | .glob x =>
      if launchMisuse x.pa p.n then Move.misuse ((x.pa - launchBase) / 4096) ((x.pa - launchBase) % 4096) ∈ t.agenda
      else if (regionOf x.pa).isDevice then
        ∃ w, Move.write ((x.pa + j) / 8 * 8) w ∈ t.agenda ∧ byteOf w.toNat ((x.pa + j) % 8) = byteOf v (p.off + j)
      else t.placedByte (s.thr s.cur) x j = byteOf v (p.off + j)

/-- A run lies in memory that no home slice counts for its address space and no directory and no fault inbox covers, and the partition's cluster cache holds a line of it under the
run's own name at most, once, uncounted and not spilled. -/
def State.plainRun (s : State) (p : Piece) : Prop :=
  match p.place with
  | .buf .. => True
  | .glob x =>
    (regionOf x.pa).isDevice = false ∧
    ∀ j, j < p.n →
      s.home.get? (homeKey x.tag ((x.pa + j) / 128)) = none ∧ s.dirOwner (x.pa + j) = none ∧ s.inboxOwner (x.pa + j) = none ∧
      ∀ l ∈ (s.cluster (s.thr s.cur).cluster).lines, l.part = (s.thr s.cur).part → l.pline = (x.pa + j) / 128 →
        l.asid.toNat = x.tag ∧ l.vline = (x.va + j) / 128 ∧ l.count = 0 ∧ l.spill = none ∧
        ∀ l' ∈ (s.cluster (s.thr s.cur).cluster).lines, l'.part = l.part → l'.pline = l.pline → l' = l

/-- The partition's lines in the thread's cluster cache that hold a byte of the runs bear the runs' own names. -/
def State.oneName (s : State) (ps : List Piece) : Prop :=
  ∀ p ∈ ps, ∀ x, p.place = .glob x → ∀ j, j < p.n → ∀ l ∈ (s.cluster (s.thr s.cur).cluster).lines, l.part = (s.thr s.cur).part →
    l.pline = (x.pa + j) / 128 → l.asid.toNat = x.tag ∧ l.vline = (x.va + j) / 128

/-- A run lies in this package's memory, and both TLBs of the thread hold its page. -/
def State.held (s : State) (p : Piece) : Prop :=
  ∀ x, p.place = .glob x → x.pa < 2 ^ 55 ∧
    (s.core (s.thr s.cur).core).utlb.any (fun e => TlbEntry.hits e (s.thr s.cur).part (s.thr s.cur).asid x.va) = true ∧
    (s.cluster (s.thr s.cur).cluster).tlb.any (fun e => TlbEntry.hits e (s.thr s.cur).part (s.thr s.cur).asid x.va) = true

/-- No cluster cache holds a dirty line. -/
def State.clean (s : State) : Prop := ∀ cl, ∀ l ∈ (s.cluster cl).lines, l.dirty = 0

/-- The byte an access at the serialisation point reads (R168, R176): the buffer's, or the dirty byte of the cluster's own copy, else memory's. -/
def State.pointByte (s : State) (p : Piece) (j : Nat) (b : Byte) : Prop :=
  match p.place with
  | .buf c la => b = (s.core c).buf.read (la + j)
  | .glob x =>
    s.dirtyAt (s.thr s.cur).cluster (s.thr s.cur).part (x.pa + j) b ∨
      ((∀ c, ¬ s.dirtyAt (s.thr s.cur).cluster (s.thr s.cur).part (x.pa + j) c) ∧ b = s.foundByte x.tag (x.pa + j))

/-- The byte that lies at the serialisation point. -/
def State.rawAt (s : State) (p : Piece) (j : Nat) : Byte :=
  match p.place with
  | .buf c la => (s.core c).buf.read (la + j)
  | .glob x => s.rawByte (x.pa + j)

end Sys2Proof.Machine
end

