-- ==== Sys2Proof/Certificates/Slice0/Obligations.lean ====
section
/-! DEFINITION. The statements for the provers. Each table below is written from the effect columns and the pseudocode of spec/ in whole
numbers, apart from the meanings of Machine/. -/

namespace Sys2Proof.Machine

/-! ### Notation (R86, R56) -/

/-- u(x) of R86. -/
def State.u (s : State) (r : Reg) : Nat := (s.getX r).toNat
/-- s(x) of R86. -/
def State.i (s : State) (r : Reg) : Int := (s.getX r).toInt

/-- The conditions of R56. -/
def condTrue (cc : Cond) (a b : Word) : Bool :=
  match cc with
  | .eq => decide (a.toNat = b.toNat)
  | .ne => decide (a.toNat ≠ b.toNat)
  | .lt => decide (a.toInt < b.toInt)
  | .ge => decide (b.toInt ≤ a.toInt)
  | .ltu => decide (a.toNat < b.toNat)
  | .geu => decide (b.toNat ≤ a.toNat)
  | .le => decide (a.toInt ≤ b.toInt)
  | .gt => decide (b.toInt < a.toInt)
  | .leu => decide (a.toNat ≤ b.toNat)
  | .gtu => decide (b.toNat < a.toNat)

/-! ### Scalar instructions (R87 to R101) -/

/-- The result, before it is taken modulo 2^64, of an instruction that computes with whole numbers (R87, R89, R90). -/
def arithResult (s : State) : Instr → Option (Enc × Reg × Int)
  | .add k d a b => some (k, d, s.u a + s.u b)
  | .sub k d a b => some (k, d, s.u a - s.u b)
  | .mul k d a b => some (k, d, s.i a * s.i b)
  | .mulh k d a b => some (k, d, s.i a * s.i b / 2 ^ 64)
  | .mulhU k d a b => some (k, d, (s.u a * s.u b / 2 ^ 64 : Nat))
  | .mulhSu k d a b => some (k, d, s.i a * s.u b / 2 ^ 64)
  | .sll k d a b => some (k, d, if s.u b < 64 then s.u a * 2 ^ s.u b else 0)
  | .srl k d a b => some (k, d, if s.u b < 64 then (s.u a / 2 ^ s.u b : Nat) else 0)
  | .sra k d a b => some (k, d, s.i a / 2 ^ Nat.min (s.u b) 63)
  | .min k d a b => some (k, d, if s.i a < s.i b then s.i a else s.i b)
  | .minU k d a b => some (k, d, if s.u a < s.u b then s.u a else s.u b)
  | .max k d a b => some (k, d, if s.i a > s.i b then s.i a else s.i b)
  | .maxU k d a b => some (k, d, if s.u a > s.u b then s.u a else s.u b)
  | .setc k cc d a b => some (k, d, if condTrue cc (s.getX a) (s.getX b) then 1 else 0)
  | .sel k d a b c => some (k, d, if s.u c ≠ 0 then s.u a else s.u b)
  | .addi k d a imm => some (k, d, s.u a + imm.toInt)
  | .muli k d a imm => some (k, d, s.i a * imm.toInt)
  | .slli k d a n => some (k, d, s.u a * 2 ^ n.toNat)
  | .srli k d a n => some (k, d, (s.u a / 2 ^ n.toNat : Nat))
  | .srai k d a n => some (k, d, s.i a / 2 ^ n.toNat)
  | .setci k cc d a imm => some (k, d, if condTrue cc (s.getX a) imm then 1 else 0)
  | .mov k d a => some (k, d, s.u a)
  | .li k d imm => some (k, d, imm.toInt)
  | .la k d imm => some (k, d, s.pc.toNat + imm.toInt)
  | .bfx k d a p w => some (k, d, (s.u a / 2 ^ p.toNat % 2 ^ (w.toNat + 1) : Nat))
  | .bfxSx k d a p w =>
    let f := s.u a / 2 ^ p.toNat % 2 ^ (w.toNat + 1)
    some (k, d, if f < 2 ^ w.toNat then f else (f : Int) - 2 ^ (w.toNat + 1))
  | .sext k t d a =>
    let f := s.u a % 2 ^ t.width
    some (k, d, if t.isSigned && decide (2 ^ (t.width - 1) ≤ f) then (f : Int) - 2 ^ t.width else f)
  | _ => none

/-- The quotients and remainders of R88. -/
def divResult (s : State) : Instr → Option (Enc × Reg × Int)
  | .div k d a b => some (k, d, if s.u b = 0 then -1 else if s.i a = -2 ^ 63 ∧ s.i b = -1 then -2 ^ 63 else (s.i a).tdiv (s.i b))
  | .divU k d a b => some (k, d, if s.u b = 0 then 2 ^ 64 - 1 else (s.u a / s.u b : Nat))
  | .rem k d a b => some (k, d, if s.u b = 0 then s.u a else if s.i a = -2 ^ 63 ∧ s.i b = -1 then 0 else s.i a - s.i b * (s.i a).tdiv (s.i b))
  | .remU k d a b => some (k, d, if s.u b = 0 then s.u a else ((s.u a : Int) - s.u b * (s.u a / s.u b : Nat)))
  | _ => none

/-- Bit `j` of the result of an instruction that moves or combines bits (R87, R89, R90). -/
def bitResult (s : State) : Instr → Option (Enc × Reg × (Nat → Bool))
  | .and k d a b => some (k, d, fun j => (s.u a).testBit j && (s.u b).testBit j)
  | .or k d a b => some (k, d, fun j => (s.u a).testBit j || (s.u b).testBit j)
  | .xor k d a b => some (k, d, fun j => (s.u a).testBit j != (s.u b).testBit j)
  | .andi k d a imm => some (k, d, fun j => (s.u a).testBit j && imm.toNat.testBit j)
  | .ori k d a imm => some (k, d, fun j => (s.u a).testBit j || imm.toNat.testBit j)
  | .xori k d a imm => some (k, d, fun j => (s.u a).testBit j != imm.toNat.testBit j)
  | .rot k d a b => some (k, d, fun j => (s.u a).testBit ((j + 64 - s.u b % 64) % 64))
  | .roti k d a n => some (k, d, fun j => (s.u a).testBit ((j + 64 - n.toNat) % 64))
  | .bfi k d a p w => some (k, d, fun j => if p.toNat ≤ j ∧ j ≤ p.toNat + w.toNat then (s.u a).testBit (j - p.toNat) else (s.u d).testBit j)
  | _ => none

/-- What the count an instruction writes satisfies (R87). -/
def countResult (s : State) : Instr → Option (Enc × Reg × (Nat → Prop))
  | .clz k d a => some (k, d, fun n => if s.u a = 0 then n = 64 else n < 64 ∧ 2 ^ (63 - n) ≤ s.u a ∧ s.u a < 2 ^ (64 - n))
  | .ctz k d a => some (k, d, fun n => if s.u a = 0 then n = 64 else s.u a % 2 ^ n = 0 ∧ s.u a / 2 ^ n % 2 = 1)
  | .popc k d a => some (k, d, fun n => n = ((List.range 64).filter (s.u a).testBit).length)
  | _ => none

/-- Where a control transfer goes, and the link it writes to x1 (R59, R95, R96). -/
def transfer (s : State) : Instr → Option (Enc × Word × Option Word)
  | .nop k => some (k, s.after k, none)
  | .j k imm => some (k, s.pc + 4 * imm, none)
  | .jr k a off => some (k, s.getX a + off, none)
  | .call k imm => some (k, s.pc + 4 * imm, some (s.after k))
  | .callr k a off => some (k, s.getX a + off, some (s.after k))
  | .ret k => some (k, s.getX 1, none)
  | .br k cc a b imm => some (k, if condTrue cc (s.getX a) (s.getX b) then s.pc + 4 * imm else s.after k, none)
  | _ => none

end Sys2Proof.Machine

open Sys2Proof Sys2Proof.Machine

/-- R87, R89, R90: every instruction that computes with whole numbers completes on every operand, writes its result modulo 2^64 to d (and
nothing where d is x0), sets no flag and changes nothing else. -/
def Obligations.IntegerArithmetic : Prop :=
  ∀ (i : Instr) (s : State) (k : Enc) (d : Reg) (v : Int), arithResult s i = some (k, d, v) →
    ∃ t, exec i s = .next t ∧ t.getX d = readBack d (BitVec.ofInt 64 v) ∧ Computed s t k (s.after k) 0 [d] [] []

/-- R88: DIV, DIV.U, REM and REM.U, with their outcomes for a zero divisor and for the overflow; the frame of each; and the word of SETC.LTU that
R88 works out. -/
def Obligations.Division : Prop :=
  (∀ (i : Instr) (s : State) (k : Enc) (d : Reg) (v : Int), divResult s i = some (k, d, v) →
    ∃ t, exec i s = .next t ∧ t.getX d = readBack d (BitVec.ofInt 64 v) ∧ Computed s t k (s.after k) 0 [d] [] []) ∧
  decode [0xF8, 0x28, 0xE6, 0, 0x10, 0, 0, 0] = .ok (.setc { len := .l64, mark := false } .ltu 5 6 7)

/-- R87, R89, R90: AND, OR, XOR, their immediate forms, ROT, ROTI and BFI, bit by bit; and CLZ, CTZ and POPC. Each completes on every operand. -/
def Obligations.BitOperations : Prop :=
  (∀ (i : Instr) (s : State) (k : Enc) (d : Reg) (f : Nat → Bool), bitResult s i = some (k, d, f) →
     ∃ t, exec i s = .next t ∧ (∀ j, j < 64 → (t.getX d).getLsbD j = (d != 0 && f j)) ∧ Computed s t k (s.after k) 0 [d] [] []) ∧
  (∀ (i : Instr) (s : State) (k : Enc) (d : Reg) (ok : Nat → Prop), countResult s i = some (k, d, ok) →
     ∃ t n, exec i s = .next t ∧ ok n ∧ t.getX d = readBack d (BitVec.ofNat 64 n) ∧ Computed s t k (s.after k) 0 [d] [] [])

/-- R59, R95, R96: NOP and the control transfers complete whatever their target; CALL and CALLR write the link to x1, CALLR after it has
read a; nothing else changes. -/
def Obligations.ControlTransfers : Prop :=
  ∀ (i : Instr) (s : State) (k : Enc) (target : Word) (link : Option Word), transfer s i = some (k, target, link) →
    ∃ t, exec i s = .next t ∧
      match link with
      | some w => t.getX 1 = w ∧ Computed s t k target 0 [1] [] []
      | none => Computed s t k target 0 [] [] []

namespace Sys2Proof.Machine

/-! ### The bit buffer and the iteration counters (R97 to R101) -/

/-- The width of a bit-buffer instruction (R98). -/
def State.taken (s : State) (w : BitCount) (cap : Nat) : Nat :=
  match w with
  | .imm n => n.toNat
  | .reg b => min (s.u b) cap

/-- An n-bit field as a signed number. -/
def signedField (n r : Nat) : Int := if 2 * r < 2 ^ n then r else (r : Int) - 2 ^ n

/-- What a bit-buffer instruction writes to d, and VALID and DATA after it; DATA is cut to VALID bits (R97, R98). -/
def bitBuffer (s : State) : Instr → Option (Enc × Reg × Int × Nat × Nat)
  | .bbld k d a w =>
    if s.bbValid + w.toNat > 128 then some (k, d, 0, s.bbValid, s.bbData)
    else some (k, d, (s.bbValid + w.toNat : Nat), s.bbValid + w.toNat, s.bbData + s.u a % 2 ^ w.toNat * 2 ^ s.bbValid)
  | .bbget k d w =>
    let n := s.taken w 64
    some (k, d, (s.bbData % 2 ^ n : Nat), s.bbValid - n, s.bbData / 2 ^ n % 2 ^ (s.bbValid - n))
  | .bbgetSx k d w =>
    let n := s.taken w 64
    some (k, d, signedField n (s.bbData % 2 ^ n), s.bbValid - n, s.bbData / 2 ^ n % 2 ^ (s.bbValid - n))
  | .bbpeek k d w =>
    let n := s.taken w 64
    some (k, d, (s.bbData % 2 ^ n : Nat), s.bbValid, s.bbData)
  | .bbpeekSx k d w =>
    let n := s.taken w 64
    some (k, d, signedField n (s.bbData % 2 ^ n), s.bbValid, s.bbData)
  | .bbskip k d w =>
    let n := s.taken w 128
    some (k, d, (s.bbValid - n : Nat), s.bbValid - n, s.bbData / 2 ^ n % 2 ^ (s.bbValid - n))
  | .bbpos k d => some (k, d, s.bbValid, s.bbValid, s.bbData)
  | .bbposClr k d => some (k, d, s.bbValid, 0, 0)
  | _ => none

/-- The state with another bit buffer in the current slot. -/
def State.withBuffer (s : State) (valid data : Nat) : State :=
  s.modSlot s.cur fun v => v.modCtx fun c => { c with bbData := BitVec.ofNat 128 data, bbValid := BitVec.ofNat 8 valid }

/-- A counter's four fields and its holder (R99). -/
def State.ctrOf (s : State) (cl n : Nat) : Counter := (s.cluster cl).counter n

/-! ### Scalar floating instructions (R91 to R94) -/

/-- The scalar floating instructions that round: the element type, the result's bits and its flags (R92, R93). -/
def floatResult (s : State) : Instr → Option (Enc × Elem × Reg × Nat × Flags)
  | .fadd k t rm d a b => let r := rounded t rm (addNum rm (decNum t (s.u a % 2 ^ t.width)) (decNum t (s.u b % 2 ^ t.width))); some (k, t, d, r.1, r.2)
  | .fsub k t rm d a b => let r := rounded t rm (addNum rm (decNum t (s.u a % 2 ^ t.width)) (negNum (decNum t (s.u b % 2 ^ t.width)))); some (k, t, d, r.1, r.2)
  | .fmul k t rm d a b => let r := rounded t rm (mulNum (decNum t (s.u a % 2 ^ t.width)) (decNum t (s.u b % 2 ^ t.width))); some (k, t, d, r.1, r.2)
  | .fma k t rm d a b c =>
    let p := mulNum (decNum t (s.u a % 2 ^ t.width)) (decNum t (s.u b % 2 ^ t.width))
    let q := addNum rm p.1 (decNum t (s.u c % 2 ^ t.width))
    let r := encNum t rm q.1
    some (k, t, d, r.1, p.2 ||| q.2 ||| r.2)
  | .fdiv k t rm d a b => let r := rounded t rm (divNum (decNum t (s.u a % 2 ^ t.width)) (decNum t (s.u b % 2 ^ t.width))); some (k, t, d, r.1, r.2)
  | .fsqrt k t rm d a => let r := rounded t rm (sqrtNum (decNum t (s.u a % 2 ^ t.width))); some (k, t, d, r.1, r.2)
  | .fmin k t d a b => let r := fMinMax t false (s.u a % 2 ^ t.width) (s.u b % 2 ^ t.width); some (k, t, d, r.1, r.2)
  | .fmax k t d a b => let r := fMinMax t true (s.u a % 2 ^ t.width) (s.u b % 2 ^ t.width); some (k, t, d, r.1, r.2)
  | .fcvt k dst src rm d a => let r := encNum dst rm (decNum src (s.u a % 2 ^ src.width)); some (k, dst, d, r.1, r.2)
  | _ => none

/-- What a register reads as that holds an element: an integer extended under its type, other bits below zeros (R64, R91). -/
def holdsElem (t : Elem) (v : Nat) : Int :=
  if t.isSigned && decide (2 ^ (t.width - 1) ≤ v % 2 ^ t.width) then ((v % 2 ^ t.width : Nat) : Int) - 2 ^ t.width else (v % 2 ^ t.width : Nat)

/-- The comparisons of R71 and the sign moves of R92 and the class word of R94, each a whole register. -/
def floatTest (s : State) : Instr → Option (Enc × Reg × Nat × Flags)
  | .feq k t d a b =>
    let x := decNum t (s.u a % 2 ^ t.width); let y := decNum t (s.u b % 2 ^ t.width)
    some (k, d, if !x.isNaN && !y.isNaN && !ltNum x y && !ltNum y x then 1 else 0, if x.isSig || y.isSig then 1 else 0)
  | .flt k t d a b =>
    let x := decNum t (s.u a % 2 ^ t.width); let y := decNum t (s.u b % 2 ^ t.width)
    some (k, d, if !x.isNaN && !y.isNaN && ltNum x y then 1 else 0, if x.isNaN || y.isNaN then 1 else 0)
  | .fle k t d a b =>
    let x := decNum t (s.u a % 2 ^ t.width); let y := decNum t (s.u b % 2 ^ t.width)
    some (k, d, if !x.isNaN && !y.isNaN && !ltNum y x then 1 else 0, if x.isNaN || y.isNaN then 1 else 0)
  | .fsgn k t d a b =>
    let w := 2 ^ (t.width - 1)
    some (k, d, s.u a % w + s.u b / w % 2 * w, 0)
  | .fsgnN k t d a b =>
    let w := 2 ^ (t.width - 1)
    some (k, d, s.u a % w + (1 - s.u b / w % 2) * w, 0)
  | .fsgnX k t d a b =>
    let w := 2 ^ (t.width - 1)
    some (k, d, s.u a % w + (s.u a / w + s.u b / w) % 2 * w, 0)
  | _ => none

/-- The rational number a finite value is. -/
def Num.rat : Num → ℚ
  | .fin neg m e => (if neg then -1 else 1) * m * (2 : ℚ) ^ e
  | _ => 0

/-- A finite value. -/
def Num.isFin : Num → Bool
  | .fin .. => true
  | _ => false

/-- Exponent and fraction bits of the binary floating formats (R66). -/
def binFormat : Elem → Option (Nat × Nat)
  | .f64 => some (11, 52)
  | .f32 => some (8, 23)
  | .f16 => some (5, 10)
  | .bf16 => some (8, 7)
  | .e4m3 => some (4, 3)
  | .e5m2 => some (5, 2)
  | _ => none

/-- A word of a binary floating format, with `eb` exponent and `fb` fraction bits, that holds a finite number (R66). -/
def binFinite (t : Elem) (eb fb y : Nat) : Prop := if t = .e4m3 then y % 128 ≠ 127 else y / 2 ^ fb % 2 ^ eb ≠ 2 ^ eb - 1

/-- The number such a word holds (R66). -/
def binValue (eb fb y : Nat) : ℚ :=
  let ex := y / 2 ^ fb % 2 ^ eb
  let emin : Int := 2 - 2 ^ (eb - 1)
  (if y / 2 ^ (eb + fb) % 2 = 1 then -1 else 1) *
    if ex = 0 then (y % 2 ^ fb : Nat) * (2 : ℚ) ^ (emin - fb) else ((2 ^ fb + y % 2 ^ fb : Nat) : ℚ) * (2 : ℚ) ^ (emin + ex - 1 - fb)

/-- `x` is what `v` rounds to in a set of numbers `fin`, of which `even` says that a tie may go there (R68). -/
def RoundsTo (rm : Rnd) (fin : ℚ → Prop) (even : Prop) (v x : ℚ) : Prop :=
  match rm with
  | .rne => ∀ y, fin y → |x - v| ≤ |y - v| ∧ (|y - v| = |x - v| → y ≠ x → even)
  | .rtz => 0 ≤ x * v ∧ |x| ≤ |v| ∧ ∀ y, fin y → 0 ≤ y * v → |y| ≤ |v| → |y| ≤ |x|
  | .rdn => x ≤ v ∧ ∀ y, fin y → y ≤ v → y ≤ x
  | .rup => v ≤ x ∧ ∀ y, fin y → v ≤ y → x ≤ y

/-- The rounding of a magnitude goes up, towards the next larger one (R68). -/
def awayFrom (rm : Rnd) (neg : Bool) : Bool :=
  match rm with
  | .rdn => neg
  | .rup => !neg
  | _ => false

/-- R66, R68 to R70 of the binary formats: a finite number is rounded once, with a tie to even and the directed roundings, beyond the range as IEEE
754 says or saturated, and NX, UF, OF and SAT as they say, tininess after rounding. -/
def BinaryRounding : Prop :=
  ∀ (t : Elem) (eb fb : Nat) (rm : Rnd), binFormat t = some (eb, fb) →
    let w := t.width
    let sat := t = .e4m3 ∨ t = .e5m2
    let top := if t = .e4m3 then 0x7E else (2 ^ eb - 1) * 2 ^ fb - 1
    let big := binValue eb fb top
    let ulp := big - binValue eb fb (top - 1)
    let least := (2 : ℚ) ^ (2 - 2 ^ (eb - 1) : Int)
    w = 1 + eb + fb ∧
    (∀ y, y < 2 ^ w → (((decNum t y).isFin = true ↔ binFinite t eb fb y) ∧
      (binFinite t eb fb y → (decNum t y).rat = binValue eb fb y ∧ (decNum t y).isNeg = y.testBit (w - 1)))) ∧
    (∀ neg e, encNum t rm (.fin neg 0 e) = (if neg then 2 ^ (w - 1) else 0, 0)) ∧
    ∀ (neg : Bool) (m : Nat) (e : Int), m ≠ 0 →
      let v := (Num.fin neg m e).rat
      let r := encNum t rm (.fin neg m e)
      let beyond : Prop := match rm with
        | .rne => big + ulp / 2 < |v| ∨ (|v| = big + ulp / 2 ∧ top % 2 = 1)
        | _ => if awayFrom rm neg then big < |v| else big + ulp ≤ |v|
      let tiny : Prop := match rm with
        | .rne => |v| < least * (1 - 1 / 2 ^ (fb + 2))
        | _ => if awayFrom rm neg then |v| ≤ least * (1 - 1 / 2 ^ (fb + 1)) else |v| < least
      encFloat t rm (.fin neg m e) = r ∧
      (beyond → r = ((if neg then 2 ^ (w - 1) else 0) + (if ¬ sat ∧ (rm = .rne ∨ awayFrom rm neg = true) then top + 1 else top),
        (if sat then flagSAT else flagOF) ||| flagNX)) ∧
      (¬ beyond →
        r.1 < 2 ^ w ∧ r.1.testBit (w - 1) = neg ∧ binFinite t eb fb r.1 ∧
        RoundsTo rm (fun y => ∃ c, c < 2 ^ w ∧ binFinite t eb fb c ∧ binValue eb fb c = y) (r.1 % 2 = 0) v (binValue eb fb r.1) ∧
        (binValue eb fb r.1 = v → r.2 = 0) ∧
        (binValue eb fb r.1 ≠ v → (tiny → r.2 = flagNX ||| flagUF) ∧ (¬ tiny → r.2 = flagNX)))

/-- The magnitude that an n-bit tapered word with `es` exponent bits holds in its lower n − 1 bits (R72). -/
def tapValue (n es mag : Nat) : ℚ :=
  let b := mag.testBit (n - 2)
  let k := ((List.range (n - 1)).takeWhile fun i => mag.testBit (n - 2 - i) == b).length
  let len := n - 2 - k
  let rest := mag % 2 ^ len * 2 ^ es
  let rg : Int := if b then (k : Int) - 1 else -(k : Int)
  (2 : ℚ) ^ (rg * 2 ^ es + (rest / 2 ^ len : Nat)) * (1 + (rest % 2 ^ len : Nat) / (2 : ℚ) ^ len)

/-- R72 to R74 of the tapered formats: what a word holds; and a number is encoded by clamping it to the range, or else by rounding the first n − 1
bits of its magnitude, on which the number halfway to the next code is the (n + 1)-bit magnitude that ends in one more 1. -/
def TaperedRounding : Prop :=
  ∀ (t : Elem) (n es : Nat) (rm : Rnd), (t = .t8 ∧ n = 8 ∧ es = 1) ∨ (t = .t6 ∧ n = 6 ∧ es = 0) →
    let top := 2 ^ (n - 1) - 1
    let tap (q : Nat) := tapValue n es q
    t.width = n ∧ decNum t 0 = .fin false 0 0 ∧ (decNum t (2 ^ (n - 1))).isNaN = true ∧
    (∀ y, 0 < y → y < 2 ^ n → y ≠ 2 ^ (n - 1) → (decNum t y).isFin = true ∧
      (decNum t y).rat = (if y.testBit (n - 1) then -1 else 1) * tap (y % 2 ^ (n - 1))) ∧
    (∀ neg e, encNum t rm (.fin neg 0 e) = (0, 0)) ∧ (∀ sig, encNum t rm (.nan sig) = (2 ^ (n - 1), if sig then flagNV else 0)) ∧
    (∀ neg, encNum t rm (.inf neg) = (2 ^ (n - 1), flagNV)) ∧
    ∀ (neg : Bool) (m : Nat) (e : Int), m ≠ 0 →
      let a := |(Num.fin neg m e).rat|
      let sign := if neg then 2 ^ (n - 1) else 0
      let r := encNum t rm (.fin neg m e)
      (tap top ≤ a → r = (sign + top, if a = tap top then 0 else flagSAT ||| flagNX)) ∧
      (a ≤ tap 1 → r = (sign + 1, if a = tap 1 then 0 else flagSAT ||| flagNX)) ∧
      (tap 1 < a → a < tap top → ∃ q, 1 ≤ q ∧ q < top ∧ tap q ≤ a ∧ a < tap (q + 1) ∧
        let half := tapValue (n + 1) es (2 * q + 1)
        let up : Prop := match rm with
          | .rne => half < a ∨ (a = half ∧ q % 2 = 1)
          | _ => awayFrom rm neg = true ∧ a ≠ tap q
        (up → r.1 = sign + q + 1) ∧ (¬ up → r.1 = sign + q) ∧ r.2 = if a = tap q then 0 else flagNX)

/-- R64, R65, R68, R70: an integer word is its signed or unsigned value; a number is converted to an integer type by one rounding to a whole number, and saturates with NV and SAT beyond the range; NaN
gives 0 with NV. -/
def IntegerRounding : Prop :=
  ∀ (t : Elem) (rm : Rnd), t.isInt = true →
    let lo : Int := if t.isSigned then -2 ^ (t.width - 1) else 0
    let hi : Int := if t.isSigned then 2 ^ (t.width - 1) - 1 else 2 ^ t.width - 1
    let code (i : Int) : Nat := (i % 2 ^ t.width).toNat
    (∀ v, v < 2 ^ t.width → (decNum t v).isFin = true ∧ (decNum t v).rat = if t.isSigned ∧ 2 ^ (t.width - 1) ≤ v then (v : ℚ) - 2 ^ t.width else v) ∧
    (∀ sig, encNum t rm (.nan sig) = (0, flagNV)) ∧ (∀ neg, encNum t rm (.inf neg) = (code (if neg then lo else hi), flagNV ||| flagSAT)) ∧
    ∀ (neg : Bool) (m : Nat) (e : Int), let v := (Num.fin neg m e).rat
      ∃ i : Int, RoundsTo rm (fun y => ∃ j : Int, (j : ℚ) = y) (i % 2 = 0) v i ∧
        encNum t rm (.fin neg m e) =
          if i < lo then (code lo, flagNV ||| flagSAT) else if hi < i then (code hi, flagNV ||| flagSAT)
          else (code i, if (i : ℚ) = v then 0 else flagNX)

/-- `x` carries the exact value `v` ≥ 0 as far as any rounding looks: it is v, or an odd multiple of a power of two with more than 64 bits and v lies
strictly between the multiples beside it. -/
def Carries (x : Num) (v : ℚ) (neg : Bool) : Prop :=
  ∃ m e, x = .fin neg m e ∧
    (m * (2 : ℚ) ^ e = v ∨ (m % 2 = 1 ∧ 2 ^ 64 < m ∧ ((m : ℚ) - 1) * 2 ^ e < v ∧ v < ((m : ℚ) + 1) * 2 ^ e))

/-- NV where one of two operands is a signalling NaN (R67, R69). -/
def sigNV (a b : Num) : Flags := if a.isSig || b.isSig then 1 else 0

/-- R67 to R69, R79, R92 of sums, products, quotients and roots before they are rounded: exact on finite numbers, a zero sum's sign, infinities, the
invalid cases, and a NaN where an operand is one. -/
def ExactArithmetic : Prop :=
  (∀ (rm : Rnd) (a b : Num), (a.isNaN = true ∨ b.isNaN = true) →
    (∀ r, r = addNum rm a b ∨ r = mulNum a b ∨ r = divNum a b → r = (.nan false, sigNV a b)) ∧
    (a.isNaN = true → sqrtNum a = (.nan false, if a.isSig then 1 else 0))) ∧
  (∀ (rm : Rnd) (a b : Num), a.isFin = true → b.isFin = true →
    ((addNum rm a b).1.isFin = true ∧ (addNum rm a b).1.rat = a.rat + b.rat ∧ (addNum rm a b).2 = 0 ∧
      (a.rat + b.rat = 0 → (addNum rm a b).1.isNeg = if a.isNeg = b.isNeg then a.isNeg else rm == .rdn)) ∧
    ((mulNum a b).1.isFin = true ∧ (mulNum a b).1.rat = a.rat * b.rat ∧ (mulNum a b).2 = 0 ∧ (mulNum a b).1.isNeg = (a.isNeg != b.isNeg)) ∧
    (b.rat ≠ 0 → Carries (divNum a b).1 (|a.rat| / |b.rat|) (a.isNeg != b.isNeg) ∧ (divNum a b).2 = 0) ∧
    (b.rat = 0 → divNum a b = if a.rat = 0 then (.nan false, 1) else (.inf (a.isNeg != b.isNeg), 2)) ∧
    (a.rat = 0 → (sqrtNum a).1.isFin = true ∧ (sqrtNum a).1.rat = 0 ∧ (sqrtNum a).1.isNeg = a.isNeg ∧ (sqrtNum a).2 = 0) ∧
    (0 < a.rat → (∃ m e, (sqrtNum a).1 = .fin false m e ∧
      (((m : ℚ) * 2 ^ e) ^ 2 = a.rat ∨ (m % 2 = 1 ∧ 2 ^ 64 < m ∧ (((m : ℚ) - 1) * 2 ^ e) ^ 2 < a.rat ∧ a.rat < (((m : ℚ) + 1) * 2 ^ e) ^ 2))) ∧
      (sqrtNum a).2 = 0) ∧
    (a.rat < 0 → sqrtNum a = (.nan false, 1))) ∧
  (∀ (rm : Rnd) (x y : Bool) (b : Num), b.isFin = true →
    addNum rm (.inf x) b = (.inf x, 0) ∧ addNum rm b (.inf x) = (.inf x, 0) ∧
    addNum rm (.inf x) (.inf y) = (if x = y then (.inf x, 0) else (.nan false, 1)) ∧
    mulNum (.inf x) b = (if b.rat = 0 then (.nan false, 1) else (.inf (x != b.isNeg), 0)) ∧
    mulNum b (.inf x) = (if b.rat = 0 then (.nan false, 1) else (.inf (b.isNeg != x), 0)) ∧ mulNum (.inf x) (.inf y) = (.inf (x != y), 0) ∧
    divNum (.inf x) (.inf y) = (.nan false, 1) ∧ divNum (.inf x) b = (.inf (x != b.isNeg), 0) ∧
    ((divNum b (.inf x)).1.isFin = true ∧ (divNum b (.inf x)).1.rat = 0 ∧ (divNum b (.inf x)).1.isNeg = (b.isNeg != x) ∧ (divNum b (.inf x)).2 = 0) ∧
    sqrtNum (.inf x) = (if x then (.nan false, 1) else (.inf false, 0))) ∧
  (∀ (t : Elem) (rm : Rnd), (binFormat t).isSome = true →
    (∀ sig, encNum t rm (.nan sig) = (Elem.canonNaN t, if sig then 1 else 0)) ∧
    ∀ neg, t ≠ .e4m3 → ∃ eb fb, binFormat t = some (eb, fb) ∧ encNum t rm (.inf neg) = ((if neg then 2 ^ (eb + fb) else 0) + (2 ^ eb - 1) * 2 ^ fb, 0)) ∧
  (∀ rm neg, encNum .e4m3 rm (.inf neg) = (0x7F, 1)) ∧
  [Elem.f64, .f32, .f16, .bf16, .e4m3, .e5m2].map Elem.canonNaN = [0x7FF8000000000000, 0x7FC00000, 0x7E00, 0x7FC0, 0x7F, 0x7E]

/-- R71: the order of numbers, in which an infinity lies beyond every finite one, and FMIN and FMAX, which put −0 below +0. -/
def NumberOrder : Prop :=
  (∀ a b : Num, a.isFin = true → b.isFin = true → (ltNum a b = true ↔ a.rat < b.rat)) ∧
  (∀ (a : Num) (x y : Bool), a.isFin = true → ltNum (.inf x) a = x ∧ ltNum a (.inf x) = !x ∧ ltNum (.inf x) (.inf y) = (x && !y)) ∧
  ∀ (t : Elem) (max : Bool) (a b : Nat), t.isInt = false → a < 2 ^ t.width → b < 2 ^ t.width →
    let x := decNum t a
    let y := decNum t b
    let below (p q : Num) : Prop := ltNum p q = true ∨ (ltNum q p = false ∧ p.isNeg = true ∧ q.isNeg = false)
    let r := fMinMax t max a b
    r.2 = sigNV x y ∧ (x.isNaN = true → y.isNaN = true → r.1 = Elem.canonNaN t) ∧ (x.isNaN = true → y.isNaN = false → r.1 = b) ∧
    (x.isNaN = false → y.isNaN = true → r.1 = a) ∧
    (x.isNaN = false → y.isNaN = false → (r.1 = a ∨ r.1 = b) ∧ (if max then below x y → r.1 = b else below y x → r.1 = b) ∧
      (if max then below y x → r.1 = a else below x y → r.1 = a))

/-! ### Vector instructions (R103 to R117) -/

/-- An integer lane's result: modulo 2^w, or clamped to the type's range with SAT (R65, R108). -/
def intResult (t : Elem) (sat : Bool) (x : Int) : Nat × Flags :=
  let lo : Int := if t.isSigned then -2 ^ (t.width - 1) else 0
  let hi : Int := if t.isSigned then 2 ^ (t.width - 1) - 1 else 2 ^ t.width - 1
  if sat && decide (x < lo) then ((lo % 2 ^ t.width).toNat, 32)
  else if sat && decide (hi < x) then ((hi % 2 ^ t.width).toNat, 32)
  else ((x % 2 ^ t.width).toNat, 0)

/-- The rounding of a sub-operation field (R68). -/
def roundOf (sub : BitVec 2) : Rnd := if sub = 1 then .rtz else if sub = 2 then .rdn else if sub = 3 then .rup else .rne

/-- Lane `i` of a vector register (R103). -/
def State.lane (s : State) (t : Elem) (r : Reg) (i : Nat) : Nat := (s.getV r).toNat / 2 ^ (t.width * i) % 2 ^ t.width
/-- Lane `i` of a b operand: a register's lane, or the low bits of the immediate (R107). -/
def State.laneB (s : State) (t : Elem) (b : VSrc) (i : Nat) : Nat :=
  match b with
  | .reg r => s.lane t r i
  | .imm w => w.toNat % 2 ^ t.width

/-- The lane arithmetic of R108: type, mask, destination, and what lane `i` becomes with its flags. -/
def laneArith (s : State) : Instr → Option (Enc × Elem × MReg × Reg × (Nat → Nat × Flags))
  | .vadd k t sub m d a b => some (k, t, m, d, fun i =>
      if t.isFloat then fAdd t (roundOf sub) (s.lane t a i) (s.laneB t b i)
      else intResult t (sub == 1) (intOf t (s.lane t a i) + intOf t (s.laneB t b i)))
  | .vsub k t sub m d a b => some (k, t, m, d, fun i =>
      if t.isFloat then fSub t (roundOf sub) (s.lane t a i) (s.laneB t b i)
      else intResult t (sub == 1) (intOf t (s.lane t a i) - intOf t (s.laneB t b i)))
  | .vmul k t sub m d a b => some (k, t, m, d, fun i =>
      if t.isFloat then fMul t (roundOf sub) (s.lane t a i) (s.laneB t b i)
      else
        let p := intOf t (s.lane t a i) * intOf t (s.laneB t b i)
        intResult t false (if sub = 1 then p / 2 ^ t.width else p))
  | .vfma k t sub m d a b c => some (k, t, m, d, fun i =>
      if t.isFloat then fFma t (roundOf sub) (s.lane t a i) (s.laneB t b i) (s.lane t c i)
      else intResult t false (intOf t (s.lane t a i) * intOf t (s.laneB t b i) + intOf t (s.lane t c i)))
  | .vdiv k t sub m d a b => some (k, t, m, d, fun i => fDiv t (roundOf sub) (s.lane t a i) (s.laneB t b i))
  | .vsqrt k t sub m d a => some (k, t, m, d, fun i => fSqrt t (roundOf sub) (s.lane t a i))
  | .vmin k t m d a b => some (k, t, m, d, fun i =>
      let x := s.lane t a i; let y := s.laneB t b i
      if t.isFloat then fMinMax t false x y else (if intOf t x ≤ intOf t y then x else y, 0))
  | .vmax k t m d a b => some (k, t, m, d, fun i =>
      let x := s.lane t a i; let y := s.laneB t b i
      if t.isFloat then fMinMax t true x y else (if intOf t y ≤ intOf t x then x else y, 0))
  | .vabs k t sub m d a => some (k, t, m, d, fun i =>
      if t.isFloat then (s.lane t a i % 2 ^ (t.width - 1), 0)
      else intResult t (sub == 1) (if intOf t (s.lane t a i) < 0 then -intOf t (s.lane t a i) else intOf t (s.lane t a i)))
  | .vneg k t sub m d a => some (k, t, m, d, fun i =>
      if t.isFloat then ((s.lane t a i + 2 ^ (t.width - 1)) % 2 ^ t.width, 0)
      else intResult t (sub == 1) (-intOf t (s.lane t a i)))
  | _ => none

/-- The count or index of a lane instruction (R115). -/
def State.counted (s : State) (n : LaneSrc) : Nat :=
  match n with
  | .imm j => j.toNat
  | .reg b => s.u b

/-- The active lanes below lane `i`. -/
def State.activeBefore (s : State) (m : MReg) (i : Nat) : Nat := ((List.range i).filter (s.getM m).getLsbD).length

/-- The lane instructions that only move or combine bits, and so raise no flag: what an active lane `i` becomes (R108, R110, R115,
R116). -/
def laneMove (s : State) : Instr → Option (Enc × Elem × MReg × Reg × (Nat → Nat))
  | .vand k t m d a b => some (k, t, m, d, fun i => s.lane t a i &&& s.laneB t b i)
  | .vor k t m d a b => some (k, t, m, d, fun i => s.lane t a i ||| s.laneB t b i)
  | .vxor k t m d a b => some (k, t, m, d, fun i => s.lane t a i ^^^ s.laneB t b i)
  | .vsll k t m d a b => some (k, t, m, d, fun i => if s.laneB t b i < t.width then s.lane t a i * 2 ^ s.laneB t b i % 2 ^ t.width else 0)
  | .vsrl k t m d a b => some (k, t, m, d, fun i => if s.laneB t b i < t.width then s.lane t a i / 2 ^ s.laneB t b i else 0)
  | .vsra k t m d a b => some (k, t, m, d, fun i =>
      (sInt t.width (s.lane t a i) / 2 ^ Nat.min (s.laneB t b i) (t.width - 1) % 2 ^ t.width).toNat)
  | .vmov k t m d a => some (k, t, m, d, fun i => s.lane t a i)
  | .vbcast k t m d a => some (k, t, m, d, fun _ => s.u a % 2 ^ t.width)
  | .vperm k t m d a b => some (k, t, m, d, fun i => if s.lane t b i < t.lanes then s.lane t a (s.lane t b i) else 0)
  | .vslideup k t m d a n =>
    let c := s.counted n
    some (k, t, m, d, fun i => if c ≤ i then s.lane t a (i - c) else s.lane t d i)
  | .vslidedn k t m d a n =>
    let c := s.counted n
    some (k, t, m, d, fun i => if i + c < t.lanes then s.lane t a (i + c) else 0)
  | .vexpand k t m d a => some (k, t, m, d, fun i => s.lane t a (s.activeBefore m i))
  | .viota k t m d => some (k, t, m, d, fun i => s.activeBefore m i)
  | _ => none

/-- The instructions that write every lane of d (R110, R115, R116): what lane `i` becomes. -/
def laneWhole (s : State) : Instr → Option (Enc × Elem × Reg × (Nat → Nat))
  | .vsel k t m d a b => some (k, t, d, fun i => if (s.getM m).getLsbD i then s.lane t a i else s.lane t b i)
  | .vcompress k t m d a => some (k, t, d, fun i =>
      match (List.range t.lanes).find? fun j => (s.getM m).getLsbD j && s.activeBefore m j == i with
      | some j => s.lane t a j
      | none => 0)
  | .vins k t d a n =>
    let c := s.counted n
    some (k, t, d, fun i => if i = c then s.u a % 2 ^ t.width else s.lane t d i)
  | _ => none

/-- The union of the flags that the active lanes raise (R69, R104). -/
def IsUnion (n : Nat) (on : Nat → Bool) (f : Nat → Flags) (fl : Flags) : Prop :=
  ∀ j, fl.getLsbD j = true ↔ ∃ i, i < n ∧ on i = true ∧ (f i).getLsbD j = true

/-- Bit `j` of what an instruction writes to a mask register (R117). -/
def maskResult (s : State) : Instr → Option (Enc × MReg × (Nat → Bool))
  | .mand k d a b => some (k, d, fun j => (s.getM a).getLsbD j && (s.getM b).getLsbD j)
  | .mor k d a b => some (k, d, fun j => (s.getM a).getLsbD j || (s.getM b).getLsbD j)
  | .mxor k d a b => some (k, d, fun j => (s.getM a).getLsbD j != (s.getM b).getLsbD j)
  | .mnot k d a => some (k, d, fun j => !(s.getM a).getLsbD j)
  | .mset k d a => some (k, d, fun j => (s.u a).testBit j)
  | _ => none

/-- What an instruction reads from a mask register, or from one lane, to a scalar register (R115, R117). -/
def maskRead (s : State) : Instr → Option (Enc × Reg × (Int → Prop))
  | .mpopc k d a => some (k, d, fun v => v = ((List.range 64).filter (s.getM a).getLsbD).length)
  | .mfirst k d a => some (k, d, fun v =>
      if s.getM a = 0 then v = 64 else ∃ n : Nat, v = n ∧ (s.getM a).getLsbD n = true ∧ ∀ j, j < n → (s.getM a).getLsbD j = false)
  | .mget k d a => some (k, d, fun v => v = (s.getM a).toNat)
  | .vext k t d a n =>
    let c := s.counted n
    some (k, d, fun v => v = if c < t.lanes then holdsElem t (s.lane t a c) else 0)
  | _ => none

/-- Lane `i` of VCMP's operands meets the condition, and the flags the comparison raises (R71, R109). -/
def laneTest (cc : Cond) (t : Elem) (a b : Nat) : Bool × Flags :=
  if t.isInt then
    (match cc with
      | .eq => decide (a = b) | .ne => decide (a ≠ b)
      | .lt => decide (sInt t.width a < sInt t.width b) | .ge => decide (sInt t.width b ≤ sInt t.width a)
      | .le => decide (sInt t.width a ≤ sInt t.width b) | .gt => decide (sInt t.width b < sInt t.width a)
      | .ltu => decide (a < b) | .geu => decide (b ≤ a) | .leu => decide (a ≤ b) | .gtu => decide (b < a), 0)
  else
    let x := decNum t a; let y := decNum t b
    let nan := x.isNaN || y.isNaN
    (match cc with
      | .eq => !nan && !ltNum x y && !ltNum y x | .ne => nan || ltNum x y || ltNum y x
      | .lt | .ltu => !nan && ltNum x y | .ge | .geu => !nan && !ltNum x y
      | .le | .leu => !nan && !ltNum y x | .gt | .gtu => !nan && ltNum y x,
     match cc with
      | .eq | .ne => if x.isSig || y.isSig then 1 else 0
      | _ => if nan then 1 else 0)

/-- A lane as an integer reduction widens it (R81). -/
def State.wide (s : State) (t : Elem) (r : Reg) (i : Nat) : Int := holdsElem t (s.lane t r i)

/-- The active lanes of a reduction: every lane of a .T6 source, else those of the mask (R104). -/
def State.activeOf (s : State) (t : Elem) (m : MReg) : List Nat := (List.range t.lanes).filter fun i => t == .t6 || (s.getM m).getLsbD i

/-- `x` comes before `y` as VARGMAX orders lanes: exact values, −0 below +0 (R114). -/
def laneBelow (t : Elem) (x y : Nat) : Bool :=
  if t.isInt then decide (intOf t x < intOf t y)
  else ltNum (decNum t x) (decNum t y) || (!ltNum (decNum t y) (decNum t x) && (decNum t x).isNeg && !(decNum t y).isNeg)

/-- A lane is a NaN; integers never are. -/
def laneNaN (t : Elem) (x : Nat) : Bool := !t.isInt && (decNum t x).isNaN

/-- What VARGMAX writes (R114). -/
def IsArgMax (s : State) (t : Elem) (m : MReg) (a : Reg) (w : Nat) : Prop :=
  let l := s.activeOf t m
  if l = [] then w = 2 ^ 64 - 1
  else if l.all (fun i => laneNaN t (s.lane t a i)) then l.head? = some w
  else
    w ∈ l ∧ laneNaN t (s.lane t a w) = false ∧
      ∀ i ∈ l, laneNaN t (s.lane t a i) = false → laneBelow t (s.lane t a w) (s.lane t a i) = false ∧
        (i < w → laneBelow t (s.lane t a i) (s.lane t a w) = true)

/-- The element of VCVT that destination lane `i` takes, with its source lane, when one does (R111). -/
def cvtOf (dst src : Elem) (p i : Nat) : Option (Nat × Nat) :=
  let n := Nat.min src.lanes dst.lanes
  let base := if src.lanes < dst.lanes then n * p else 0
  let e := i - base
  if base ≤ i ∧ e < n then some (e, if dst.lanes < src.lanes then n * p + e else e) else none

/-- Whether VCVT converts into destination lane `i` of a state, and the converted lane with its flags (R111). -/
def State.cvtLane (s : State) (dst src : Elem) (mode : ScaleMode) (rm : Rnd) (p m : Nat) (a b : Reg) (i : Nat) : Option (Nat × Flags) :=
  match cvtOf dst src p i with
  | none => none
  | some (e, j) =>
    if !(s.getM (BitVec.ofNat 3 m)).getLsbD e then none
    else
      let x := decNum src (if j < src.lanes then s.lane src a j else 0)
      let sc := decNum .f32 (s.u b % 2 ^ 32)
      some (match mode with
        | .none => encNum dst rm x
        | .mul => rounded dst rm (mulNum x sc)
        | .div => rounded dst rm (divNum x sc))

/-- A valid block scale (R76): a positive, finite, nonzero FP32 word. -/
def validScale (w : Nat) : Prop := ∃ m e, decNum .f32 w = .fin false m e ∧ m ≠ 0

/-- The pairwise sum tree of R81, `h` levels high, from leaf `i` on: an empty side gives the other, and two FP32 values their sum, rounded
once. The flags are those of all its nodes. -/
def treeSum (rm : Rnd) (leaf : Nat → Option Nat) : Nat → Nat → Option Nat × Flags
  | 0, i => (leaf i, 0)
  | h + 1, i =>
    let p := treeSum rm leaf h i
    let q := treeSum rm leaf h (i + 2 ^ h)
    match p.1, q.1 with
    | some x, some y => let r := rounded .f32 rm (addNum rm (decNum .f32 x) (decNum .f32 y)); (some r.1, p.2 ||| q.2 ||| r.2)
    | some x, none => (some x, p.2 ||| q.2)
    | none, y => (y, p.2 ||| q.2)

/-- VDOT's result lane `j` for integer types, before it wraps or saturates (R112). -/
def State.dotSum (s : State) (t : Elem) (a b c : Reg) (j : Nat) : Int :=
  let g := 32 / t.width
  intOf .s32 (s.lane .s32 c j) + ((List.range g).map fun i => intOf t (s.lane t a (g * j + i)) * intOf t (s.lane t b (g * j + i))).sum

end Sys2Proof.Machine

/-- R97, R98: every bit-buffer instruction completes on every value; d, VALID and DATA after it. A state is given another buffer by
withBuffer, and to that state the frame of an instruction that only computes applies. -/
def Obligations.BitBufferResults : Prop :=
  ∀ (i : Instr) (s : State) (k : Enc) (d : Reg) (v : Int) (valid data : Nat), bitBuffer s i = some (k, d, v, valid, data) →
    s.bbData < 2 ^ s.bbValid → s.bbValid ≤ 128 →
    ∃ t, exec i s = .next t ∧ t.getX d = readBack d (BitVec.ofInt 64 v) ∧ t.bbValid = valid ∧ t.bbData = data ∧
      data < 2 ^ valid ∧ valid ≤ 128 ∧ Computed (s.withBuffer valid data) t k (s.after k) 0 [d] [] []

/-- R99 to R101: LOOPINIT completes and requests its status as a memory result; it is refused where another partition holds the counter, or
where the partition would hold more than LSHARE, and then no counter changes; else the counter takes the range, with 1 for a zero count. CHUNK of a
thread of multiplicity at most 1 completes and hands out min(rem, max(MINC, ⌈rem ÷ PART⌉)) iterations of a counter of its partition, the empty range at
NEXT where none are left, and [0, 0) of another partition's counter; at a higher multiplicity it stops (Stops). -/
def Obligations.IterationCounters : Prop :=
  (∀ (s : State) (k : Enc) (d a b : Reg) (n : BitVec 4) (p : BitVec 8) (mc : BitVec 12),
     let cl := (s.thr s.cur).cluster
     let mine := (s.thr s.cur).part
     let held (j : Nat) : Prop := (s.ctrOf cl j).next.toNat < (s.ctrOf cl j).last.toNat
     let others := held n.toNat ∧ (s.ctrOf cl n.toNat).holder ≠ mine
     let full := ¬(held n.toNat ∧ (s.ctrOf cl n.toNat).holder = mine) ∧
       (s.part mine).cfg.lshare ≤ ((List.range 16).filter fun j => (s.ctrOf cl j).held && (s.ctrOf cl j).holder == mine).length
     ∃ t, exec (.loopinit k d a b n p mc) s = .next t ∧
       ((others ∨ full) → Requested s t k [resX d 1] ∧ t = { s with slots := t.slots }) ∧
       (¬(others ∨ full) →
         Requested s t k [resX d 0] ∧ t = { s with slots := t.slots, clusters := t.clusters } ∧
         (∀ c j, t.ctrOf c j =
           if c = cl ∧ j = n.toNat then
             { next := s.getX a, last := s.getX b, part := if p = 0 then 1 else p, minc := if mc = 0 then 1 else mc, holder := mine }
           else s.ctrOf c j) ∧
         (∀ c, { t.cluster c with counters := [] } = { s.cluster c with counters := [] }))) ∧
  (∀ (s : State) (k : Enc) (d : Reg) (n : BitVec 4), s.ctx.mult.toNat ≤ 1 →
     let cl := (s.thr s.cur).cluster
     let e := s.ctrOf cl n.toNat
     let rem := e.last.toNat - e.next.toNat
     let len := min rem (max e.minc.toNat ((rem + e.part.toNat - 1) / e.part.toNat))
     let first : Word := if e.holder = (s.thr s.cur).part then e.next else 0
     let size : Nat := if e.holder = (s.thr s.cur).part then len else 0
     ∃ t, exec (.chunk k d n) s = .next t ∧ Requested s t k [resX d first, resX (d + 1) (first + BitVec.ofNat 64 size)] ∧
       t = { s with slots := t.slots, clusters := t.clusters } ∧
       (∀ c j, t.ctrOf c j = if c = cl ∧ j = n.toNat then { e with next := e.next + BitVec.ofNat 64 size } else s.ctrOf c j) ∧
       (∀ c, { t.cluster c with counters := [] } = { s.cluster c with counters := [] }))

/-- R67 to R71, R91 to R93: every scalar floating instruction that rounds completes on every operand; d holds the exact result rounded
once, written as R91 and R64 say, and its flags join ctl.FSTAT. FEQ, FLT and FLE write 1 or 0 and set NV as R71 says; FSGN, FSGN.N and FSGN.X move a
sign bit and set no flag. (That FMA raises NV for zero times an infinity also beside a quiet NaN addend is log 37, the model's reading.) -/
def Obligations.ScalarFloat : Prop :=
  (∀ (i : Instr) (s : State) (k : Enc) (t : Elem) (d : Reg) (r : Nat) (fl : Flags), floatResult s i = some (k, t, d, r, fl) →
     ∃ s', exec i s = .next s' ∧ s'.getX d = readBack d (BitVec.ofInt 64 (holdsElem t r)) ∧ Computed s s' k (s.after k) fl [d] [] []) ∧
  (∀ (i : Instr) (s : State) (k : Enc) (d : Reg) (v : Nat) (fl : Flags), i.wf = true → floatTest s i = some (k, d, v, fl) →
     ∃ t, exec i s = .next t ∧ t.getX d = readBack d (BitVec.ofNat 64 v) ∧ Computed s t k (s.after k) fl [d] [] [])

/-- R94: FCLASS writes a word with exactly one of bits 0 to 6 set and bit 7 the encoding's sign bit, and sets no flag. -/
def Obligations.ClassWord : Prop :=
  ∀ (s : State) (k : Enc) (t : Elem) (d a : Reg), (Instr.fclass k t d a).wf = true →
    let v := s.u a % 2 ^ t.width
    let x := decNum t v
    ∃ s' w, exec (.fclass k t d a) s = .next s' ∧ s'.getX d = readBack d (BitVec.ofNat 64 w) ∧ Computed s s' k (s.after k) 0 [d] [] [] ∧
      w < 256 ∧ (w.testBit 7 = true ↔ 2 ^ (t.width - 1) ≤ v) ∧
      ((List.range 7).filter w.testBit).length = 1 ∧
      (w.testBit 6 = true ↔ x.isNaN = true ∧ (t = .t8 ∨ t = .t6)) ∧
      (w.testBit 5 = true ↔ x = .nan true) ∧
      (w.testBit 4 = true ↔ x = .nan false ∧ t ≠ .t8 ∧ t ≠ .t6) ∧
      (w.testBit 3 = true ↔ ∃ n, x = .inf n) ∧
      (w.testBit 0 = true ↔ ∃ n e, x = .fin n 0 e) ∧
      (w.testBit 1 = true ↔ x.isFin = true ∧ x.rat ≠ 0 ∧ t ≠ .t8 ∧ t ≠ .t6 ∧ |x.rat| < (2 : ℚ) ^ (1 - (Elem.bias t : Int))) ∧
      (w.testBit 2 = true ↔ x.isFin = true ∧ x.rat ≠ 0 ∧ (t = .t8 ∨ t = .t6 ∨ (2 : ℚ) ^ (1 - (Elem.bias t : Int)) ≤ |x.rat|))

/-- R65 to R74, R79, R92: every number format and every conversion to it, exactly: the value of each word, the one rounding to nearest with ties to
even or as a suffix names, the flags, overflow and saturation, the clamps of the tapered formats; sums, products, quotients and roots before that rounding; and
the order of numbers with FMIN and FMAX. (That a conversion to an integer raises NV together with SAT beyond the range, and NV alone for a NaN, is log 36, the
model's reading.) -/
def Obligations.NearestRounding : Prop :=
  BinaryRounding ∧ TaperedRounding ∧ IntegerRounding ∧ ExactArithmetic ∧ NumberOrder

/-- R103, R104, R107, R108: the lane arithmetic completes; an active lane takes its result, an inactive lane keeps its value, and the flags
of the active lanes join ctl.FSTAT. -/
def Obligations.LaneArithmetic : Prop :=
  ∀ (i : Instr) (s : State) (k : Enc) (t : Elem) (m : MReg) (d : Reg) (f : Nat → Nat × Flags), i.wf = true →
    laneArith s i = some (k, t, m, d, f) →
    ∃ s' fl, exec i s = .next s' ∧
      (∀ j, j < t.lanes → s'.lane t d j = if (s.getM m).getLsbD j then (f j).1 else s.lane t d j) ∧
      IsUnion t.lanes (s.getM m).getLsbD (fun j => (f j).2) fl ∧ Computed s s' k (s.after k) fl [] [d] []

/-- R108, R110, R115, R116: the lane instructions that move or combine bits complete, keep inactive lanes and set no flag; VSEL, VCOMPRESS and
VINS give every lane of d; VINS past the last lane changes none, and drops an earlier outstanding load of d as any write does (log 88, the model's choice). -/
def Obligations.LaneMoves : Prop :=
  (∀ (i : Instr) (s : State) (k : Enc) (t : Elem) (m : MReg) (d : Reg) (f : Nat → Nat), i.wf = true → laneMove s i = some (k, t, m, d, f) →
     ∃ s', exec i s = .next s' ∧ (∀ j, j < t.lanes → s'.lane t d j = if (s.getM m).getLsbD j then f j % 2 ^ t.width else s.lane t d j) ∧
       Computed s s' k (s.after k) 0 [] [d] []) ∧
  (∀ (i : Instr) (s : State) (k : Enc) (t : Elem) (d : Reg) (f : Nat → Nat), i.wf = true → laneWhole s i = some (k, t, d, f) →
     ∃ s', exec i s = .next s' ∧ (∀ j, j < t.lanes → s'.lane t d j = f j) ∧ Computed s s' k (s.after k) 0 [] [d] [])

/-- R104, R109: VCMP writes the condition's truth to the active lanes' bits, keeps the inactive lanes', zeroes the bits from L up (m0 takes
nothing, R48), and sets the flags of R71 for the active lanes. -/
def Obligations.LaneComparison : Prop :=
  ∀ (s : State) (k : Enc) (cc : Cond) (t : Elem) (m d : MReg) (a : Reg) (b : VSrc),
    let f (j : Nat) := laneTest cc t (s.lane t a j) (s.laneB t b j)
    ∃ s' fl, exec (.vcmp k cc t m d a b) s = .next s' ∧
      (d ≠ 0 → ∀ j, j < 64 → (s'.getM d).getLsbD j = (decide (j < t.lanes) && if (s.getM m).getLsbD j then (f j).1 else (s.getM d).getLsbD j)) ∧
      IsUnion t.lanes (s.getM m).getLsbD (fun j => (f j).2) fl ∧ Computed s s' k (s.after k) fl [] [] [d]

/-- R115, R117: the instructions that write a mask register, bit by bit (m0 takes nothing and reads as all ones); and MPOPC, MFIRST, MGET and VEXT. -/
def Obligations.MaskInstructions : Prop :=
  (∀ (i : Instr) (s : State) (k : Enc) (d : MReg) (f : Nat → Bool), maskResult s i = some (k, d, f) →
     ∃ t, exec i s = .next t ∧ (∀ j, j < 64 → (t.getM d).getLsbD j = (d == 0 || f j)) ∧ Computed s t k (s.after k) 0 [] [] [d]) ∧
  (∀ (i : Instr) (s : State) (k : Enc) (d : Reg) (ok : Int → Prop), maskRead s i = some (k, d, ok) →
     ∃ t v, exec i s = .next t ∧ ok v ∧ t.getX d = readBack d (BitVec.ofInt 64 v) ∧ Computed s t k (s.after k) 0 [d] [] [])

/-- R111: VCVT without a scale, or with a valid block scale, completes: each destination lane of an element whose mask bit is set takes the
value rounded once, every other lane keeps its value. Only elements with a destination lane set flags (log 87, the model's choice). -/
def Obligations.LaneConversion : Prop :=
  ∀ (s : State) (k : Enc) (dst src : Elem) (mode : ScaleMode) (rm : Rnd) (p : BitVec 4) (m : MReg) (d a b : Reg),
    (mode = .none ∨ validScale (s.u b % 2 ^ 32)) →
    let f (j : Nat) := s.cvtLane dst src mode rm p.toNat m.toNat a b j
    ∃ s' fl, exec (.vcvt k dst src mode rm p m d a b) s = .next s' ∧
      (∀ j, j < dst.lanes → s'.lane dst d j = match f j with | some r => r.1 | none => s.lane dst d j) ∧
      IsUnion dst.lanes (fun j => (f j).isSome) (fun j => match f j with | some r => r.2 | none => 0) fl ∧
      Computed s s' k (s.after k) fl [] [d] []

namespace Sys2Proof.Machine

/-- A product that R69 calls invalid: zero times an infinity. -/
def zeroTimesInf : Machine.Num → Machine.Num → Bool
  | .fin _ m _, .inf _ | .inf _, .fin _ m _ => m == 0
  | _, _ => false

end Sys2Proof.Machine

/-- R69, R112: VDOT completes; an integer result lane is the accumulator plus the exact products, wrapped or saturated to 32 bits, with SAT where
it saturated; a floating one is the exact sum of the accumulator and the products rounded once, with the flags of that rounding, and a NaN where R112
says so, with NV for a signalling operand, for zero times an infinity, and for infinities of both signs beside no NaN. The active lanes' flags join
ctl.FSTAT. (The sign of an exactly zero sum is left open here: log 85; that infinities of both signs beside a NaN raise no NV is the model's choice: log
86.) -/
def Obligations.LaneDotProduct : Prop :=
  ∀ (s : State) (k : Enc) (t : Elem) (sub : BitVec 2) (m : MReg) (d a b c : Reg), (Instr.vdot k t sub m d a b c).wf = true →
    let g := 32 / t.width
    let x (j i : Nat) : Machine.Num := decNum t (s.lane t a (g * j + i))
    let y (j i : Nat) : Machine.Num := decNum t (s.lane t b (g * j + i))
    let acc (j : Nat) : Machine.Num := decNum .f32 (s.lane .f32 c j)
    let q (j : Nat) : List Machine.Num := acc j :: (List.range g).map fun i => (mulNum (x j i) (y j i)).1
    let invalid (j : Nat) : Prop := (acc j).isSig = true ∨ (∃ i, i < g ∧ ((x j i).isSig = true ∨ (y j i).isSig = true ∨ zeroTimesInf (x j i) (y j i) = true)) ∨
      ((q j).any Machine.Num.isNaN = false ∧ (.inf true) ∈ q j ∧ (.inf false) ∈ q j)
    ∃ s' fl, ∃ f : Nat → Flags, exec (.vdot k t sub m d a b c) s = .next s' ∧ Computed s s' k (s.after k) fl [] [d] [] ∧
      IsUnion 16 (s.getM m).getLsbD f fl ∧
      (∀ j, j < 16 → (s.getM m).getLsbD j = false → s'.lane .f32 d j = s.lane .f32 d j) ∧
      (t.isInt = true → ∀ j, j < 16 → (s.getM m).getLsbD j = true → (s'.lane .s32 d j, f j) = intResult .s32 (sub == 1) (s.dotSum t a b c j)) ∧
      (t.isInt = false → ∀ j, j < 16 → (s.getM m).getLsbD j = true →
        ((q j).any Machine.Num.isNaN = true ∨ ((.inf true) ∈ q j ∧ (.inf false) ∈ q j) →
          s'.lane .f32 d j = 0x7FC00000 ∧ (invalid j → f j = 1) ∧ (¬ invalid j → f j = 0)) ∧
        (∀ n : Bool, (q j).any Machine.Num.isNaN = false → (.inf (!n)) ∉ q j → (.inf n) ∈ q j →
          s'.lane .f32 d j = (if n then 0xFF800000 else 0x7F800000) ∧ f j = 0) ∧
        ((q j).all Machine.Num.isFin = true → ∃ n v e, (Machine.Num.fin n v e).rat = ((q j).map Machine.Num.rat).sum ∧
          (s'.lane .f32 d j, f j) = encFloat .f32 (roundOf sub) (.fin n v e)))

/-- R81, R113: the reductions of integer lanes give the sum modulo 2^64, the maximum and the minimum of the active lanes, and the identity
where none is active; each completes and sets no flag. -/
def Obligations.IntegerReductions : Prop :=
  ∀ (s : State) (k : Enc) (t : Elem) (sub : BitVec 2) (m : MReg) (d a : Reg), t.isInt = true →
    let l := s.activeOf t m
    (∃ s', exec (.vredsum k t sub m d a) s = .next s' ∧ Computed s s' k (s.after k) 0 [d] [] [] ∧
      s'.getX d = readBack d (BitVec.ofInt 64 (l.map (s.wide t a)).sum)) ∧
    (∃ s' v, exec (.vredmax k t m d a) s = .next s' ∧ Computed s s' k (s.after k) 0 [d] [] [] ∧ s'.getX d = readBack d (BitVec.ofInt 64 v) ∧
      (l = [] → v = if t.isSigned then -2 ^ 63 else 0) ∧
      (l ≠ [] → (∃ i ∈ l, v = s.wide t a i) ∧ ∀ i ∈ l, s.wide t a i ≤ v)) ∧
    (∃ s' v, exec (.vredmin k t m d a) s = .next s' ∧ Computed s s' k (s.after k) 0 [d] [] [] ∧ s'.getX d = readBack d (BitVec.ofInt 64 v) ∧
      (l = [] → v = if t.isSigned then 2 ^ 63 - 1 else 2 ^ 64 - 1) ∧
      (l ≠ [] → (∃ i ∈ l, v = s.wide t a i) ∧ ∀ i ∈ l, v ≤ s.wide t a i))

/-- R67, R69, R71, R81: the reductions of floating and tapered lanes complete. VREDSUM is the pairwise tree of R81 over the widened active lanes, its flags
those of the tree's nodes and NV for a signalling lane; a NaN result is the canonical one, and without an active lane it is +0. VREDMAX and VREDMIN give the
widened value of an active lane that no other active lane exceeds, or a NaN where every active lane is one, and set NV for a signalling lane alone. -/
def Obligations.FloatReductions : Prop :=
  ∀ (s : State) (k : Enc) (t : Elem) (sub : BitVec 2) (m : MReg) (d a : Reg), (Instr.vredsum k t sub m d a).wf = true → t.isInt = false →
    let l := s.activeOf t m
    let w (i : Nat) : Nat := if t = .f32 then s.lane t a i else (convert .f32 t .rne (s.lane t a i)).1
    let nan (i : Nat) : Bool := (decNum .f32 (w i)).isNaN
    let sig : Flags := if l.any fun i => (decNum t (s.lane t a i)).isSig then 1 else 0
    let height := if t = .t6 then 7 else if t.width = 8 then 6 else if t.width = 16 then 5 else 4
    let sum := treeSum (roundOf sub) (fun i => if i ∈ l then some (w i) else none) height 0
    (∃ s', exec (.vredsum k t sub m d a) s = .next s' ∧ Computed s s' k (s.after k) (sum.2 ||| sig) [d] [] [] ∧
      s'.getX d = readBack d (BitVec.ofNat 64 (match sum.1 with
        | none => 0
        | some v => if (decNum .f32 v).isNaN then 0x7FC00000 else v))) ∧
    (∃ s' v, exec (.vredmax k t m d a) s = .next s' ∧ Computed s s' k (s.after k) sig [d] [] [] ∧
      s'.getX d = readBack d (BitVec.ofNat 64 v) ∧ (l.all nan = true → v = 0x7FC00000) ∧
      (l.all nan = false → (∃ i ∈ l, nan i = false ∧ v = w i) ∧ ∀ i ∈ l, nan i = false → laneBelow .f32 v (w i) = false)) ∧
    (∃ s' v, exec (.vredmin k t m d a) s = .next s' ∧ Computed s s' k (s.after k) sig [d] [] [] ∧
      s'.getX d = readBack d (BitVec.ofNat 64 v) ∧ (l.all nan = true → v = 0x7FC00000) ∧
      (l.all nan = false → (∃ i ∈ l, nan i = false ∧ v = w i) ∧ ∀ i ∈ l, nan i = false → laneBelow .f32 (w i) v = false))

/-- R114: VARGMAX completes with the index of the largest active lane, the lowest of equals, and sets NV where an active lane is a NaN. -/
def Obligations.LargestLane : Prop :=
  ∀ (s : State) (k : Enc) (t : Elem) (m : MReg) (d a : Reg),
    ∃ s' w, exec (.vargmax k t m d a) s = .next s' ∧ IsArgMax s t m a w ∧ s'.getX d = readBack d (BitVec.ofNat 64 w) ∧
      Computed s s' k (s.after k) (if (s.activeOf t m).any (fun i => laneNaN t (s.lane t a i)) then 1 else 0) [d] [] []

namespace Sys2Proof.Machine

/-! ### Stops (R278 to R282, R294) -/

/-- The fields of a packet (R280) that no chain decides. -/
def packetSays (pkt : BitVec 512) (fi : FaultInfo) (master source : Nat) (task : TaskId) (pc : Word) : Prop :=
  getBits pkt 0 8 = fi.cls.code.toNat ∧ getBits pkt 8 8 = fi.cause.toNat ∧ getBits pkt 16 3 = master ∧ getBits pkt 32 32 = task.toNat ∧
  getBits pkt 64 32 = source ∧ getBits pkt 128 64 = pc.toNat ∧ getBits pkt 192 64 = fi.addr.toNat ∧ getBits pkt 256 32 = fi.info.toNat

/-- A partition's fault inbox lies in this package's memory, no directory covers it, and no other inbox meets it: past HEAD it is the
partition's own. -/
def State.plainInbox (s : State) (p : Nat) : Prop :=
  ∀ j, j < 4160 → (s.part p).cfg.finbox + j < hbmSize ∧ s.dirOwner ((s.part p).cfg.finbox + j) = none ∧
    s.inboxOwner ((s.part p).cfg.finbox + j) = if j < 8 then none else some p

/-- A packet has entered a partition's inbox as its newest (R303), or waits with PEND in its master's holder behind all others (R282). -/
def Delivered (t : State) (m : Master) (p : Nat) (pkt : BitVec 512) : Prop :=
  (∃ k, t.inboxTail p = (k + 1) % 2 ^ 64 ∧ t.homeRead ((t.part p).cfg.finbox + 64 + 64 * (k % 64)) 64 = pkt.toNat) ∨
  (t.holder? m = some (pkt ||| BitVec.ofNat 512 (2 ^ 20)) ∧ (t.part p).waiting.getLast? = some (m, pkt))

/-- The next record of a die's black box (R327, R329). -/
def BoxNext (s t : State) (die : Nat) (ok : BoxRec → Prop) : Prop :=
  ∃ r, (t.die die).box.get? ((s.die die).head.toNat % 2048) = some r ∧ r.seq = (s.die die).head ∧ (t.die die).head = (s.die die).head + 1 ∧ ok r

/-- The current slot has stopped precisely with `pc` as its resume address (R278, R279): its requested results have returned, its context is
otherwise as before, its packet has gone to its partition's supervisor, to partition 0's for a supervisor, and to the management port for
partition 0's own, with one black-box record (R282). -/
structure Stopped (s t : State) (fi : FaultInfo) (pc : Word) : Prop where
  run    : ∃ h, (t.slot s.cur).run = .frozen .fault h
  slot   : t.slot s.cur =
    { s.slot s.cur with
      run := (t.slot s.cur).run, ctx := { (s.slot s.cur).deliverAll.ctx with pc := pc }, pending := [], stepArmed := false
      cont := (t.slot s.cur).cont, packet := (t.slot s.cur).packet, away := (t.slot s.cur).away }
  away   : s.slotPart? s.cur ≠ none → (t.slot s.cur).away = (s.slot s.cur).away
  others : ∀ n, n ≠ s.cur → t.slot n = s.slot n
  packet :
    let p := (s.thr s.cur).part
    let sup := (s.part p).cfg.supSlot = s.cur
    (sup → p = 0 → t.mgmtAlarm = true) ∧
    ∀ q, (¬ sup → q = p) → (sup → p ≠ 0 ∧ q = 0) → s.plainInbox q → s.slotPart? s.cur ≠ none →
      ∃ pkt, packetSays pkt fi 0 s.cur s.ctx.task pc ∧ Delivered t (.slot s.cur p) q pkt
  box    : BoxNext s t (dieOfCore (s.thr s.cur).core) fun r => r.kind = 1 ∧ r.word1 = fi.addr ∧
    r.code.toNat = fi.cls.code.toNat + 256 * fi.cause.toNat

/-! ### Memory instructions (R144 to R151) -/

/-- The addresses of the active lanes of a gather or scatter, and of a strided access, lowest lane first (R146, R147). -/
def State.indexed (s : State) (t : Elem) (o : MemOp) (m : MReg) (b : Reg) : List (Nat × Word) :=
  ((List.range t.lanes).filter (s.getM m).getLsbD).map fun i => (i, s.getX o.base + o.off + BitVec.ofInt 64 (sInt t.width (s.lane t b i)))
def State.strided (s : State) (t : Elem) (o : MemOp) (m : MReg) (b : Reg) : List (Nat × Word) :=
  ((List.range t.lanes).filter (s.getM m).getLsbD).map fun i => (i, s.getX o.base + o.off + BitVec.ofNat 64 i * s.getX b)

/-- A scalar load: its element type, operand, destination and scope (R145, R189). -/
def loadForm : Instr → Option (Enc × Elem × MemOp × Reg × Scope)
  | .ld k t o d => some (k, t, o, d, .thread)
  | .lda k t sc o d => some (k, t, o, d, sc)
  | _ => none

/-- A store: its operand, its bytes, the value it stores and its scope (R145, R189). -/
def storeForm (s : State) : Instr → Option (Enc × MemOp × Nat × Nat × Scope)
  | .st k t o d => some (k, o, t.width / 8, s.u d % 2 ^ t.width, .thread)
  | .stl k t _ sc o d => some (k, o, t.width / 8, s.u d % 2 ^ t.width, sc)
  | .stq k o d => some (k, o, 16, s.u d + 2 ^ 64 * s.u (d + 1), .thread)
  | _ => none

/-- The lane addresses of a vector instruction that gives each lane its own (R146, R147), with its type, placement and register. -/
def laneLoads (s : State) : Instr → Option (Enc × Elem × Space × Reg × List (Nat × Word))
  | .vgather k t o m d b => some (k, t, o.pl, d, s.indexed t o m b)
  | .vlds k t o m d b => some (k, t, o.pl, d, s.strided t o m b)
  | _ => none
def laneStores (s : State) : Instr → Option (Enc × Elem × Space × Reg × List (Nat × Word))
  | .vscatter k t o m d b => some (k, t, o.pl, d, s.indexed t o m b)
  | .vsts k t o m d b => some (k, t, o.pl, d, s.strided t o m b)
  | _ => none

/-- The runs of a list of lanes. -/
def laneRuns (ls : List (Nat × List Piece)) : List Piece := ls.flatMap Prod.snd

/-- The lines that the runs hit in the thread's cluster cache hold the physical bytes the runs now translate to. -/
def State.linesAgree (s : State) (ps : List Piece) : Prop :=
  ∀ p ∈ ps, ∀ x, p.place = .glob x → ∀ j, j < p.n → ∀ l ∈ (s.cluster (s.thr s.cur).cluster).lines,
    l.part = (s.thr s.cur).part → l.asid.toNat = x.tag → l.vline = (x.va + j) / 128 → l.pline = (x.pa + j) / 128

/-- The runs name each line of memory in one way, and the thread's partition holds no dirty line of those that no cache takes. -/
def State.oneView (s : State) (ps : List Piece) : Prop :=
  (∀ p ∈ ps, ∀ q ∈ ps, ∀ x y, p.place = .glob x → q.place = .glob y → ∀ i j, i < p.n → j < q.n → (x.pa + i) / 128 = (y.pa + j) / 128 →
    x.tag = y.tag ∧ x.pte = y.pte ∧ (x.va + i) / 128 = (y.va + j) / 128) ∧
  ∀ p ∈ ps, ∀ x, p.place = .glob x → x.uncached = true → ∀ j, j < p.n →
    ∀ l ∈ (s.cluster (s.thr s.cur).cluster).lines, l.part = (s.thr s.cur).part → l.pline = (x.pa + j) / 128 → l.dirty = 0

/-- A loaded vector: the checked lanes hold what they load, every other lane the register's latest value (R104, R146). -/
def LanesLoaded (s : State) (t : Elem) (d : Reg) (ls : List (Nat × List Piece)) (v : Vec) (seen : Xlat → Nat → Byte → Prop) : Prop :=
  ∀ j, j < t.lanes →
    match ls.find? fun l => l.1 == j with
    | some l => LoadedFrom s l.2 (laneAt t v j) seen
    | none => laneAt t v j = laneAt t ((s.slot s.cur).latestV d) j

/-- A unit's count as an instruction of the current slot finds it at the place that serves it (R131, R142). -/
def State.rowCount (s : State) (c r : Nat) : Nat := (s.core c).counts.getD r 0

/-- The counts after `m` consuming reads of every unit of some runs, at the level where each is counted (R133, R137, R142); of a spilled line, where
the records that lines lie in are apart (R140). No row outside the runs changes. -/
def CountsLowered (s t : State) (ps : List Piece) (m : Nat) : Prop :=
  let me := s.thr s.cur
  (∀ c r, t.rowCount c r = if (.row c r) ∈ ps.flatMap Piece.units then s.rowCount c r - m else s.rowCount c r) ∧
  (∀ p ∈ ps, ∀ x, p.place = .glob x → ∀ j, j < p.n → (s.spilledAt me x j → s.recordsApart) →
    let v := (x.va + j) / 128
    let l := (x.pa + j) / 128
    if s.clusterCount me x.tag v ≠ 0 ∧ x.ord ≠ 0 then t.clusterCount me x.tag v = s.clusterCount me x.tag v - m
    else t.homeCount x.tag l = s.homeCount x.tag l - m)

/-- The byte a consuming load receives: that of the place where the unit is counted (R137, R142); of a spilled line, where the records that lines
lie in are apart (R140). -/
def State.countedByte (s : State) (x : Xlat) (j : Nat) (b : Byte) : Prop :=
  let me := s.thr s.cur
  (s.spilledAt me x j ∧ ¬ s.recordsApart) ∨
    if s.clusterCount me x.tag ((x.va + j) / 128) ≠ 0 ∧ x.ord ≠ 0 then ∃ l, s.hitLine me x j = some l ∧ b = s.lineByte l ((x.va + j) % 128)
    else b = s.spaceByte x.tag (x.pa + j)

/-- A request to a core's buffers changes nothing but the slot that sends it and what the cores count for a cut (R289). -/
def RequestCounted (s t : State) : Prop :=
  t = { s with slots := t.slots, cores := t.cores } ∧ ∀ c, t.core c = { s.core c with sent := (t.core c).sent, recv := (t.core c).recv }

/-- The whole effect of consuming reads on storage (R133, R134): counts fall, rows at zero read 0, and every other byte of every buffer and of memory
stays, apart from the flags of spill records and the dirty bytes of lines that give way to a spilled line's return (R140). -/
def Consumed (s t : State) (ps : List Piece) (m : Nat) : Prop :=
  let shed (c r : Nat) : Prop := (.row c r) ∈ ps.flatMap Piece.units ∧ t.rowCount c r = 0
  CountsLowered s t ps m ∧ AccessOnly s t ∧ CopiesKept s t [] ∧
  (∀ a, t.rawByte a = s.rawByte a ∨ s.dirtyAt (s.thr s.cur).cluster (s.thr s.cur).part a (t.rawByte a) ∨ s.spillFlag a) ∧
  (∀ c a, ¬ shed c (rowOf a) → (t.core c).buf.read a = (s.core c).buf.read a) ∧
  (∀ c a, a < 2 ^ 19 → a % 2 ^ 17 < bufSize (bufOf a) → shed c (rowOf a) → (t.core c).buf.read a = 0)

/-! ### Atomic and synchronising instructions (R176 to R190) -/

/-- An atomic or RED form that its multiplicity admits: type, ordering, scope, operand, destination, and the new value from the old (R178
to R180). -/
def atomicForm (s : State) : Instr → Option (Enc × Elem × Sys2Proof.Ordering × Scope × MemOp × Option Reg × (Nat → Nat))
  | .amoadd k t ord sc o d b => some (k, t, ord, sc, o, some d, fun v => v + s.ctx.mult.toNat * (s.u b % 2 ^ t.width))
  | .amoand k t ord sc o d b => some (k, t, ord, sc, o, some d, fun v => v &&& (s.u b % 2 ^ t.width))
  | .amoor k t ord sc o d b => some (k, t, ord, sc, o, some d, fun v => v ||| (s.u b % 2 ^ t.width))
  | .amoxor k t ord sc o d b => some (k, t, ord, sc, o, some d, fun v => v ^^^ (s.u b % 2 ^ t.width))
  | .amomin k t ord sc o d b => some (k, t, ord, sc, o, some d, fun v => if intOf t v ≤ intOf t (s.u b % 2 ^ t.width) then v else s.u b % 2 ^ t.width)
  | .amomax k t ord sc o d b => some (k, t, ord, sc, o, some d, fun v => if intOf t (s.u b % 2 ^ t.width) ≤ intOf t v then v else s.u b % 2 ^ t.width)
  | .amoswap k t ord sc o d b => if s.ctx.mult.toNat ≤ 1 then some (k, t, ord, sc, o, some d, fun _ => s.u b % 2 ^ t.width) else none
  | .amoswapOnce k t ord sc o d b => some (k, t, ord, sc, o, some d, fun _ => s.u b % 2 ^ t.width)
  | .amocas k t ord sc o d b =>
    if s.ctx.mult.toNat ≤ 1 then
      some (k, t, ord, sc, o, some d, fun v => if v = s.u b % 2 ^ t.width then s.u (b + 1) % 2 ^ t.width else v)
    else none
  | .amocasOnce k t ord sc o d b => some (k, t, ord, sc, o, some d, fun v => if v = s.u b % 2 ^ t.width then s.u (b + 1) % 2 ^ t.width else v)
  | .amofadd k t ord sc o d b => some (k, t, ord, sc, o, some d, fun v =>
      (encNum .f32 .rne (addNum .rne (decNum .f32 v) (mulNum (decNum .f32 (s.u b % 2 ^ 32)) (.fin false s.ctx.mult.toNat 0)).1).1).1)
  | .redAdd k t ord sc o b => some (k, t, ord, sc, o, none, fun v => v + s.ctx.mult.toNat * (s.u b % 2 ^ t.width))
  | .redAnd k t ord sc o b => some (k, t, ord, sc, o, none, fun v => v &&& (s.u b % 2 ^ t.width))
  | .redOr k t ord sc o b => some (k, t, ord, sc, o, none, fun v => v ||| (s.u b % 2 ^ t.width))
  | .redXor k t ord sc o b => some (k, t, ord, sc, o, none, fun v => v ^^^ (s.u b % 2 ^ t.width))
  | .redMin k t ord sc o b => some (k, t, ord, sc, o, none, fun v => if intOf t v ≤ intOf t (s.u b % 2 ^ t.width) then v else s.u b % 2 ^ t.width)
  | .redMax k t ord sc o b => some (k, t, ord, sc, o, none, fun v => if intOf t (s.u b % 2 ^ t.width) ≤ intOf t v then v else s.u b % 2 ^ t.width)
  | .redFadd k t ord sc o b => some (k, t, ord, sc, o, none, fun v =>
      (encNum .f32 .rne (addNum .rne (decNum .f32 v) (mulNum (decNum .f32 (s.u b % 2 ^ 32)) (.fin false s.ctx.mult.toNat 0)).1).1).1)
  | _ => none

/-- The low 16 bytes of a barrier word from its fields (R184). -/
def barWord (expt arrt expb arrb phase gen : Nat) (ovf : Prop) [Decidable ovf] : Nat :=
  expt + 2 ^ 16 * arrt + 2 ^ 32 * expb + 2 ^ 64 * arrb + 2 ^ 96 * phase + (if ovf then 2 ^ 97 else 0) + 2 ^ 98 * gen

/-- The check of R185 on the fields of a word: at most one completion. -/
def barChecked (expt arrt expb arrb phase gen : Nat) (ovf : Prop) [Decidable ovf] : Nat :=
  if expt ≤ arrt ∧ expb ≤ arrb then
    barWord expt (arrt - expt) expb (arrb - expb) (1 - phase) ((gen + 1) % 2 ^ 30) (ovf ∨ expt < arrt ∨ expb < arrb)
  else barWord expt arrt expb arrb phase gen ovf

/-- An arrival of `dT` threads and `dB` bytes at a word (R185). -/
def barUpdated (n dT dB : Nat) : Nat :=
  barChecked (n % 2 ^ 16) (min (n / 2 ^ 16 % 2 ^ 16 + dT) (2 ^ 16 - 1)) (n / 2 ^ 32 % 2 ^ 32) (min (n / 2 ^ 64 % 2 ^ 32 + dB) (2 ^ 32 - 1))
    (n / 2 ^ 96 % 2) (n / 2 ^ 98 % 2 ^ 30)
    (n / 2 ^ 97 % 2 = 1 ∨ 2 ^ 16 ≤ n / 2 ^ 16 % 2 ^ 16 + dT ∨ 2 ^ 32 ≤ n / 2 ^ 64 % 2 ^ 32 + dB)

/-- A withdrawal of `m` expected threads (R185). -/
def barExited (n m : Nat) : Nat :=
  barChecked (n % 2 ^ 16 - m) (n / 2 ^ 16 % 2 ^ 16) (n / 2 ^ 32 % 2 ^ 32) (n / 2 ^ 64 % 2 ^ 32) (n / 2 ^ 96 % 2) (n / 2 ^ 98 % 2 ^ 30)
    (n / 2 ^ 97 % 2 = 1 ∨ n % 2 ^ 16 < m)

/-- GEN of a barrier word, and its ticket (R184). -/
def barGen (n : Nat) : Nat := n / 2 ^ 98 % 2 ^ 30
def ticketOf (n : Nat) : Nat := n / 2 ^ 96 % 2 ^ 32

/-- The task of the current slot and what its directory entry records of it. -/
def State.myTask (s : State) : Option Task := s.findTask (s.thr s.cur).part s.ctx.task

/-- The current slot sleeps on its instruction: its pc is the instruction's, and no register changes (R19). -/
structure Sleeps (s t : State) (w : Wait) : Prop where
  run   : (t.slot s.cur).run = .sleeping w
  pc    : t.pc = s.pc
  fstat : t.ctx.fstat = s.ctx.fstat
  frame : SlotFrame { s with slots := s.slots.set s.cur { s.slot s.cur with waitFrom := s.cycle } } t [] [] []

/-- A register's result that is requested. -/
def requestOf (d : Option Reg) (v : Word) : List Result :=
  match d with
  | some d => [resX d v]
  | none => []

end Sys2Proof.Machine

/-- R144, R145, R152, R189: LD and LDA complete where every check of R144 passes. The register's result is requested: the element at the
address, extended under its type. No byte changes but by write-back, and no register but that a load of a launch window in a wrong format leaves its
function to freeze (R323). LDQ is one 16-byte access that requests its low half for d and its high half for the
next register. -/
def Obligations.ScalarLoads : Prop :=
  (∀ (i : Instr) (s : State) (k : Enc) (t : Elem) (o : MemOp) (d : Reg) (sc : Scope) (ps : List Piece), i.wf = true →
     s.memOk = true → loadForm i = some (k, t, o, d, sc) → s.checkScope sc i = .ok () →
     s.check (s.thr s.cur) o.pl .load false (s.getX o.base + o.off) (t.width / 8) (t.width / 8) 0 = .ok ps →
     ∃ s' v, exec i s = .next s' ∧ v < 2 ^ t.width ∧ LoadedFrom s ps v s.sees ∧
       Requested s s' k [resX d (BitVec.ofInt 64 (holdsElem t v))] ∧ BytesKept s s' [] ∧ AccessOnly s s' ∧ LoadQueues s s' ps) ∧
  (∀ (s : State) (k : Enc) (o : MemOp) (d : Reg) (ps : List Piece), s.memOk = true →
     s.check (s.thr s.cur) o.pl .load false (s.getX o.base + o.off) 16 16 0 = .ok ps →
     ∃ s' v, exec (.ldq k o d) s = .next s' ∧ v < 2 ^ 128 ∧ LoadedFrom s ps v s.sees ∧
       Requested s s' k [resX d (BitVec.ofNat 64 v), resX (d + 1) (BitVec.ofNat 64 (v / 2 ^ 64))] ∧
       BytesKept s s' [] ∧ AccessOnly s s' ∧ LoadQueues s s' ps)

/-- R144, R145, R152, R189: ST, STL and STQ complete where every check passes; the bytes at the address take the register's low bytes, in
the cluster cache or below it, and no other byte changes but by write-back. -/
def Obligations.ScalarStores : Prop :=
  ∀ (i : Instr) (s : State) (k : Enc) (o : MemOp) (n v : Nat) (sc : Scope) (ps : List Piece), i.wf = true →
    s.memOk = true → storeForm s i = some (k, o, n, v, sc) → s.checkScope sc i = .ok () →
    s.check (s.thr s.cur) o.pl .store false (s.getX o.base + o.off) n n 0 = .ok ps →
    ∃ t, exec i s = .next t ∧ StoredTo s t ps v ∧ Requested s t k [] ∧ BytesKept s t ps ∧ AccessOnly s t

/-- R75, R104, R146, R147: VLD completes where the checks of its 64 bytes, or of its active lanes, pass, a .T6 register's upper two bits being zero; VGATHER and VLDS where the checks of every
active lane's access pass; other lanes keep the register's latest value. -/
def Obligations.VectorLoads : Prop :=
  (∀ (s : State) (k : Enc) (t : Elem) (o : MemOp) (m : MReg) (d : Reg) (r : VecRuns), (Instr.vld k t o m d).wf = true →
     s.memOk = true → s.checkVec t o.pl .load (s.getM m) (s.getX o.base + o.off) = .ok r →
     ∃ s' v, exec (.vld k t o m d) s = .next s' ∧ Requested s s' k [resV d v] ∧ BytesKept s s' [] ∧ AccessOnly s s' ∧
       match r with
       | .whole ps => LoadQueues s s' ps ∧ ∃ n, n < 2 ^ 512 ∧ LoadedFrom s ps n s.seesLate ∧ v.toNat = if t = .t6 then n % 2 ^ 510 else n
       | .lanes ls => LoadQueues s s' (laneRuns ls) ∧ LanesLoaded s t d ls v s.seesLate) ∧
  (∀ (i : Instr) (s : State) (k : Enc) (t : Elem) (sp : Space) (d : Reg) (as : List (Nat × Word)) (ls : List (Nat × List Piece)), i.wf = true →
     s.memOk = true → laneLoads s i = some (k, t, sp, d, as) → s.checkEach (s.thr s.cur) t sp .load as = .ok ls →
     ∃ s' v, exec i s = .next s' ∧ Requested s s' k [resV d v] ∧ LanesLoaded s t d ls v s.seesLate ∧
       BytesKept s s' [] ∧ AccessOnly s s' ∧ LoadQueues s s' (laneRuns ls))

/-- R75, R146, R147: VST, VSCATTER and VSTS complete where their checks pass, and store the bytes of the active lanes and no others; of a .T6 register the
upper two bits are stored as zero. Where lanes of a scatter name one byte, the highest lane's value stays: in a buffer; and in memory, where the runs lie
in plain memory that bears one name in the cluster's cache. -/
def Obligations.VectorStores : Prop :=
  (∀ (s : State) (k : Enc) (t : Elem) (o : MemOp) (m : MReg) (d : Reg) (r : VecRuns), (Instr.vst k t o m d).wf = true →
    s.memOk = true → s.checkVec t o.pl .store (s.getM m) (s.getX o.base + o.off) = .ok r →
    (match r with | .whole ps => s.oneName ps | .lanes ls => s.oneName (laneRuns ls)) →
    ∃ s', exec (.vst k t o m d) s = .next s' ∧ Requested s s' k [] ∧ AccessOnly s s' ∧
      match r with
      | .whole ps => StoredTo s s' ps (if t = .t6 then (s.getV d).toNat % 2 ^ 510 else (s.getV d).toNat) ∧ BytesKept s s' ps
      | .lanes ls => (∀ l ∈ ls, StoredTo s s' l.2 (s.lane t d l.1)) ∧ BytesKept s s' (laneRuns ls)) ∧
  (∀ (i : Instr) (s : State) (k : Enc) (t : Elem) (sp : Space) (d : Reg) (as : List (Nat × Word)) (ls : List (Nat × List Piece)), i.wf = true →
    s.memOk = true → laneStores s i = some (k, t, sp, d, as) → s.checkEach (s.thr s.cur) t sp .store as = .ok ls → s.linesAgree (laneRuns ls) →
    ∃ s', exec i s = .next s' ∧ Requested s s' k [] ∧ BytesKept s s' (laneRuns ls) ∧ AccessOnly s s' ∧
      (∀ c a l, l ∈ ls → coverBuf l.2 c a → (∀ l' ∈ ls, l.1 < l'.1 → ¬ coverBuf l'.2 c a) →
        ∃ p ∈ l.2, ∃ la, p.place = .buf c la ∧ la ≤ a ∧ a < la + p.n ∧ (s'.core c).buf.read a = byteOf (s.lane t d l.1) (p.off + (a - la))) ∧
      ((∀ p ∈ laneRuns ls, s.plainRun p) → s.oneView (laneRuns ls) →
        ∀ l ∈ ls, ∀ p ∈ l.2, ∀ x, p.place = .glob x → ∀ j, j < p.n → (∀ l' ∈ ls, l.1 < l'.1 → ¬ coverPhys l'.2 (x.pa + j)) →
          s'.placedByte (s.thr s.cur) x j = byteOf (s.lane t d l.1) (p.off + j)))

/-- R75, R133 to R135, R137, R142, R145, R146: LD.C and VLD.C complete where the checks of a consuming read at the thread's multiplicity pass: they
receive the counted bytes, and every unit they touch gives one read per merged thread. Every byte of a row whose count reaches zero reads 0, and no
other byte of a buffer changes. -/
def Obligations.ConsumingLoads : Prop :=
  (∀ (s : State) (k : Enc) (t : Elem) (o : MemOp) (d : Reg) (ps : List Piece), (Instr.ldC k t o d).wf = true → s.memOk = true →
    s.check (s.thr s.cur) o.pl .consume false (s.getX o.base + o.off) (t.width / 8) (t.width / 8) s.ctx.mult.toNat = .ok ps →
    ∃ s' v, exec (.ldC k t o d) s = .next s' ∧ v < 2 ^ t.width ∧ LoadedFrom s ps v s.countedByte ∧
      Requested s s' k [resX d (BitVec.ofInt 64 (holdsElem t v))] ∧ Consumed s s' ps s.ctx.mult.toNat) ∧
  (∀ (s : State) (k : Enc) (t : Elem) (o : MemOp) (m : MReg) (d : Reg) (ps : List Piece), (Instr.vldC k t o m d).wf = true → s.memOk = true →
    localLayout o.pl (s.getX o.base + o.off) 64 = .ok () → (s.getX o.base + o.off).toNat % vecAlign t = 0 →
    portNarrow o.pl (s.getX o.base + o.off) = false →
    s.checkRuns (s.thr s.cur) o.pl .consume true (s.getX o.base + o.off) 64 s.ctx.mult.toNat = .ok ps →
    ∃ s' n w, exec (.vldC k t o m d) s = .next s' ∧ n < 2 ^ 512 ∧ LoadedFrom s ps n s.countedByte ∧ Requested s s' k [resV d w] ∧
      (t = .t6 → w.toNat = n % 2 ^ 510) ∧
      (t ≠ .t6 → ∀ j, j < t.lanes →
        laneAt t w j = if (s.getM m).getLsbD j then n / 2 ^ (t.width * j) % 2 ^ t.width else laneAt t ((s.slot s.cur).latestV d) j) ∧
      Consumed s s' ps s.ctx.mult.toNat)

/-- R132, R139, R148: ARM and ARM.H complete where their region's checks pass. The result is 3 for a zero count, else 0 for an empty region, else 2
where a unit is counted already, else 1 without room; on 0 every unit of the region carries the count, and otherwise nothing changes. -/
def Obligations.Arming : Prop :=
  ∀ (s : State) (k : Enc) (high : Bool) (o : MemOp) (d b c : Reg) (ps : List Piece), s.memOk = true →
    s.checkRegion o.pl (if high then .armH else .arm) (s.getX o.base + o.off) (s.u b) = .ok ps →
    let us := ps.flatMap Piece.units
    let n := s.u c % 256
    let taken := ∃ u ∈ us, s.countAt high u ≠ 0
    ∃ t r, exec (if high then .armH k o d b c else .arm k o d b c) s = .next t ∧ Requested s t k [resX d r] ∧
      BytesKept s t [] ∧ AccessOnly s t ∧
      (n = 0 → r = 3) ∧ (n ≠ 0 → s.u b = 0 → r = 0) ∧ (n ≠ 0 → s.u b ≠ 0 → taken → r = 2) ∧
      (n ≠ 0 → s.u b ≠ 0 → ¬ taken → r = if s.armRoom (s.thr s.cur) high us then 0 else 1) ∧
      (r = 0 → s.u b ≠ 0 → ∀ u ∈ us, t.countAt high u = n) ∧
      (r ≠ 0 ∨ s.u b = 0 → RequestCounted s t)

/-- R134, R138, R149, R206: RETIRE completes with 0 where no unit of its region is counted or claimed, and RETIRE.FORCE sheds every unit of an unclaimed
region, row or line, at every level, and returns the reads that were left: a shed row reads 0, and every other byte stays. Where a running job has claimed a
unit both sleep, and RETIRE stops with UNDER-READ at the first counted unit (its cluster's count first: log 89). -/
def Obligations.Retiring : Prop :=
  ∀ (s : State) (k : Enc) (o : MemOp) (d b : Reg) (ps : List Piece), s.memOk = true → s.cur < slotCount →
    let us := ps.flatMap Piece.units
    (s.checkRegion o.pl .retire (s.getX o.base + o.off) (s.u b) = .ok ps →
      (∀ c r, s.firstClaim us = some (c, r) → ∃ t, exec (.retire k o d b) s = .next t ∧ Sleeps s t (.claim c r)) ∧
      (s.firstClaim us = none → (∀ u ∈ us, s.retireCounts u = (0, 0)) →
        ∃ t, exec (.retire k o d b) s = .next t ∧ Requested s t k [resX d 0] ∧ RequestCounted s t) ∧
      (s.firstClaim us = none → ∀ (before after : List CUnit) (u : CUnit), us = before ++ u :: after → (∀ w ∈ before, s.retireCounts w = (0, 0)) →
        s.retireCounts u ≠ (0, 0) →
        ∃ t, exec (.retire k o d b) s = .next t ∧
          Stopped s t (mkFault .underRead 0 (u.addr o.pl) (if (s.retireCounts u).1 ≠ 0 then (s.retireCounts u).1 else (s.retireCounts u).2)) s.pc)) ∧
    (s.checkRegion o.pl .retireForce (s.getX o.base + o.off) (s.u b) = .ok ps →
      (∀ c r, s.firstClaim us = some (c, r) → ∃ t, exec (.retireForce k o d b) s = .next t ∧ Sleeps s t (.claim c r)) ∧
      (s.firstClaim us = none →
        let shed (c r : Nat) : Prop := (.row c r) ∈ us ∧ s.rowCount c r ≠ 0
        ∃ t, exec (.retireForce k o d b) s = .next t ∧ AccessOnly s t ∧
          Requested s t k [resX d (BitVec.ofNat 64 ((us.map fun u => (s.retireCounts u).1 + (s.retireCounts u).2).sum))] ∧
          (∀ c r, t.rowCount c r = if (.row c r) ∈ us then 0 else s.rowCount c r) ∧
          (∀ tag v l, (.line tag v l) ∈ us → t.clusterCount (s.thr s.cur) tag v = 0 ∧ t.homeCount tag l = 0) ∧
          (∀ c a, ¬ shed c (rowOf a) → (t.core c).buf.read a = (s.core c).buf.read a) ∧
          (∀ c a, a < 2 ^ 19 → a % 2 ^ 17 < bufSize (bufOf a) → shed c (rowOf a) → (t.core c).buf.read a = 0) ∧
          ∀ a, t.rawByte a = s.rawByte a ∨ s.spillFlag a))

/-- R150, R151, R162 to R164, R174: CINV, CWB and FENCE complete where their scope and range pass, and PREF always. Beyond the cluster, CINV leaves no uncounted
line of the range in the thread's cluster, CWB no dirty one, those homed on other packages at fabric scope only, and FENCE none of its address space; a range
names the lines of mapped pages. Every dirty byte that such a line alone holds has reached memory, and every other byte stays. (That a byte written back to a line counted at home goes to the
memory below it is log 15, and that a release covers the issuing partition's lines only log 122: both the model's choices.) -/
def Obligations.CacheControl : Prop :=
  ∀ (s : State) (k : Enc) (sc : Scope) (o : MemOp) (b : Reg) (ord : Sys2Proof.Ordering), s.memOk = true →
    let me := s.thr s.cur
    let a := (s.getX o.base + o.off).toNat
    let near (l : CLine) : Prop := s.reachOf sc = .fabric ∨ l.pline < 2 ^ 48
    let ranged (l : CLine) : Prop := l.part = me.part ∧ 0 < s.u b ∧ a / 128 ≤ l.vline ∧ l.vline ≤ (a + s.u b - 1) / 128 ∧ l.count = 0 ∧
      ∃ pte lv, s.lookup me (BitVec.ofNat 64 (l.vline * 128)) = .ok (pte, lv) ∧ l.asid.toNat = if pte.testBit 9 then 0 else me.asid
    let mine (l : CLine) : Prop := l.part = me.part ∧ (l.asid.toNat = me.asid ∨ l.asid = 0) ∧ near l ∧ l.count = 0
    let sent (t : State) (which : CLine → Prop) : Prop := ∀ l ∈ (s.cluster me.cluster).lines, which l →
      (∀ x ∈ (s.cluster me.cluster).lines, x.pline = l.pline → x = l) → ∀ j, j < 128 → l.dirty.getLsbD j = true → t.rawByte (l.pline * 128 + j) = l.byte j
    (s.checkScope sc (.cinv k sc o b) = .ok () → localLayout .g (s.getX o.base + o.off) (s.u b) = .ok () →
      ∃ t, exec (.cinv k sc o b) s = .next t ∧ Requested s t k [] ∧ BytesKept s t [] ∧ AccessOnly s t ∧
        (s.reachOf sc = .inside → t = { s with slots := t.slots }) ∧
        (s.reachOf sc ≠ .inside → sent t ranged ∧ ∀ l, l ∈ (t.cluster me.cluster).lines ↔ l ∈ (s.cluster me.cluster).lines ∧ ¬ ranged l)) ∧
    (s.checkScope sc (.cwb k sc o b) = .ok () → localLayout .g (s.getX o.base + o.off) (s.u b) = .ok () →
      ∃ t, exec (.cwb k sc o b) s = .next t ∧ Requested s t k [] ∧ BytesKept s t [] ∧ AccessOnly s t ∧
        (s.reachOf sc = .inside → t = { s with slots := t.slots }) ∧
        (s.reachOf sc ≠ .inside → sent t (fun l => ranged l ∧ near l) ∧
          ∀ l, l ∈ (t.cluster me.cluster).lines ↔
            (l ∈ (s.cluster me.cluster).lines ∧ ¬ (ranged l ∧ near l)) ∨
              ∃ x ∈ (s.cluster me.cluster).lines, ranged x ∧ near x ∧ l = { x with dirty := 0 })) ∧
    (s.checkScope sc (.fence k ord sc) = .ok () →
      ∃ t, exec (.fence k ord sc) s = .next t ∧ Requested s t k [] ∧ BytesKept s t [] ∧ AccessOnly s t ∧
        (s.reachOf sc = .inside → t = { s with slots := t.slots }) ∧
        (s.reachOf sc ≠ .inside → sent t mine ∧ ∀ l ∈ (t.cluster me.cluster).lines, ¬ mine l)) ∧
    (∃ t, exec (.pref k o b) s = .next t ∧ Requested s t k [] ∧ BytesKept s t [] ∧ AccessOnly s t ∧ t.agenda = s.agenda)

/-- R176 to R181: every atomic and RED form that its multiplicity admits completes where its checks pass. The word is read and written in one step at
its serialisation point: the old value is requested for d, the new value is the operation's modulo 2^w, and no other byte changes but by
write-back. (The runs lie in plain memory; a counted unit, the directory and a device are elsewhere.) -/
def Obligations.Atomics : Prop :=
  ∀ (i : Instr) (s : State) (k : Enc) (t : Elem) (ord : Sys2Proof.Ordering) (sc : Scope) (o : MemOp) (d : Option Reg) (f : Nat → Nat) (ps : List Piece),
    i.wf = true → s.memOk = true → atomicForm s i = some (k, t, ord, sc, o, d, f) → s.checkScope sc i = .ok () →
    s.check (s.thr s.cur) o.pl .atomic false (s.getX o.base + o.off) (t.width / 8) (t.width / 8) 0 = .ok ps → (∀ p ∈ ps, s.plainRun p) →
    ∃ s' old, exec i s = .next s' ∧ old < 2 ^ t.width ∧ (∀ p ∈ ps, ∀ j, j < p.n → s.pointByte p j (byteOf old (p.off + j))) ∧
      (∀ p ∈ ps, ∀ j, j < p.n → s'.rawAt p j = byteOf (f old % 2 ^ t.width) (p.off + j)) ∧
      Requested s s' k (requestOf d (BitVec.ofInt 64 (holdsElem t old))) ∧ BytesKept s s' ps ∧ AccessOnly s s'

/-- R182: LRW at multiplicity 1 joins the word's queue and leaves every other; as its head it completes with the word's value and holds the
reservation unbroken, also where it held or queued already (log 90), and behind another task it sleeps. Its checks are a load's (log 47); both are the model's choices. -/
def Obligations.LoadReserved : Prop :=
  ∀ (s : State) (k : Enc) (t : Elem) (ord : Sys2Proof.Ordering) (sc : Scope) (o : MemOp) (d : Reg) (ps : List Piece),
    (Instr.lrw k t ord sc o d).wf = true → s.memOk = true → s.ctx.mult.toNat ≤ 1 → s.checkScope sc (.lrw k t ord sc o d) = .ok () →
    s.checkS (s.thr s.cur) o.pl .load (s.getX o.base + o.off) (t.width / 8) (t.width / 8) = .ok ps → (∀ p ∈ ps, s.plainRun p) →
    let l := firstLoc8 ps
    let q : List TaskId := match s.resvAt l with | some r => r.queue | none => []
    ((q = [] ∨ q.head? = some s.ctx.task) →
      ∃ s' v, exec (.lrw k t ord sc o d) s = .next s' ∧ v < 2 ^ t.width ∧ (∀ p ∈ ps, ∀ j, j < p.n → s.pointByte p j (byteOf v (p.off + j))) ∧
        Requested s s' k [resX d (BitVec.ofInt 64 (holdsElem t v))] ∧ BytesKept s s' [] ∧ AccessOnly s s' ∧
        (∃ r, s'.resvAt l = some r ∧ r.queue.head? = some s.ctx.task ∧ r.granted = true ∧ r.broken = false) ∧
        ∀ r ∈ s'.resv, r.loc ≠ l → s.ctx.task ∉ r.queue) ∧
    (∀ a, q.head? = some a → a ≠ s.ctx.task →
      ∃ s', exec (.lrw k t ord sc o d) s = .next s' ∧ Sleeps s s' (.reserve l) ∧ s' = { s with slots := s'.slots, resv := s'.resv } ∧
        (∃ r, s'.resvAt l = some r ∧ s.ctx.task ∈ r.queue ∧ r.queue.head? = some a) ∧ ∀ r ∈ s'.resv, r.loc ≠ l → s.ctx.task ∉ r.queue)

/-- R183: SCH at multiplicity 1 stores b and returns 0 where the task holds an unbroken reservation of the word, and stores nothing and returns 1
otherwise; SCH.DROP stores nothing and returns 1; a held reservation passes on. -/
def Obligations.StoreConditional : Prop :=
  ∀ (s : State) (k : Enc) (drop : Bool) (t : Elem) (ord : Sys2Proof.Ordering) (sc : Scope) (o : MemOp) (d b : Reg) (ps : List Piece),
    let i : Instr := if drop then .schDrop k t ord sc o d b else .sch k t ord sc o d b
    i.wf = true → s.memOk = true → s.ctx.mult.toNat ≤ 1 → s.checkScope sc i = .ok () →
    s.check (s.thr s.cur) o.pl .atomic false (s.getX o.base + o.off) (t.width / 8) (t.width / 8) 0 = .ok ps → (∀ p ∈ ps, s.plainRun p) →
    (∀ l ∈ (s.cluster (s.thr s.cur).cluster).lines, l.dirty = 0) →
    let held := s.resv.find? fun r => r.loc == firstLoc8 ps && r.granted && r.queue.head? == some s.ctx.task
    ∃ s', exec i s = .next s' ∧ AccessOnly s s' ∧
      (match held with
        | none => Requested s s' k [resX d 1] ∧ BytesKept s s' []
        | some r =>
          (∀ q ∈ s'.resv, s.ctx.task ∉ q.queue) ∧
          if drop = false ∧ r.broken = false then
            Requested s s' k [resX d 0] ∧ BytesKept s s' ps ∧ ∀ p ∈ ps, ∀ j, j < p.n → s'.rawAt p j = byteOf (s.u b % 2 ^ t.width) (p.off + j)
          else Requested s s' k [resX d 1] ∧ BytesKept s s' [])

/-- R184, R185, R188, R281: BARINIT, BARARV, BARARV.B and BAREXIT complete where their checks pass, the last three of a word that is not damaged, and
stop with ECC at a damaged one. The word's low half takes the fields R185 gives, its reserved half stays; an arrival returns the ticket it found, scaled by
the thread's multiplicity; BARARV attaches the task and BAREXIT detaches it. (That an update needs the rights of a store, and a word in the host memory window is updated as by stores, is log 91, the model's choice.) -/
def Obligations.BarrierUpdates : Prop :=
  ∀ (s : State) (k : Enc) (ord : Sys2Proof.Ordering) (sc : Scope) (o : MemOp) (d b c : Reg) (ps : List Piece), (Instr.barexit k ord sc o).wf = true → s.memOk = true →
    s.checkScope sc (.barexit k ord sc o) = .ok () →
    s.checkS (s.thr s.cur) o.pl .store (s.getX o.base + o.off) 32 32 = .ok ps → (∀ p ∈ ps, s.plainRun p) →
    let m := s.ctx.mult.toNat
    let found (n : Nat) : Prop := n < 2 ^ 128 ∧ ∀ p ∈ ps, ∀ j, j < 16 → s.pointByte p j (byteOf n j)
    let written (t : State) (n : Nat) : Prop :=
      (∀ p ∈ ps, ∀ j, j < 16 → t.rawAt p j = byteOf n j) ∧ (∀ p ∈ ps, ∀ j, 16 ≤ j → j < 32 → ∀ b, s.pointByte p j b → t.pointByte p j b) ∧ BytesKept s t ps
    let listed (t : State) : Prop := ∃ e, t.myTask = some e ∧ ∃ a ∈ e.attach, a.loc = firstLoc ps
    let sound := s.undamaged (s.thr s.cur) ps
    (∃ t, exec (.barinit k ord sc o b c) s = .next t ∧ Requested s t k [] ∧ AccessOnly s t ∧ BytesKept s t ps ∧
      ∀ p ∈ ps, ∀ j, j < 32 → t.rawAt p j = byteOf (s.u b % 2 ^ 16 + 2 ^ 32 * (s.u c % 2 ^ 32)) j) ∧
    (sound = .ok () → ∃ t n, exec (.bararv k ord sc o d b) s = .next t ∧ found n ∧ written t (barUpdated n m (m * (s.u b % 2 ^ 32))) ∧
      Requested s t k [resX d (BitVec.ofNat 64 (ticketOf n))] ∧ AccessOnly s { t with parts := s.parts } ∧ (s.myTask.isSome = true → listed t)) ∧
    (sound = .ok () → ∃ t n, exec (.bararvB k ord sc o d b) s = .next t ∧ found n ∧ written t (barUpdated n 0 (m * (s.u b % 2 ^ 32))) ∧
      Requested s t k [resX d (BitVec.ofNat 64 (ticketOf n))] ∧ AccessOnly s t) ∧
    (sound = .ok () → ∃ t n, exec (.barexit k ord sc o) s = .next t ∧ found n ∧ written t (barExited n m) ∧ Requested s t k [] ∧
      AccessOnly s { t with parts := s.parts } ∧ ¬ listed t) ∧
    (∀ fi, sound = .error fi → s.cur < slotCount → ∀ i : Instr, i = .bararv k ord sc o d b ∨ i = .bararvB k ord sc o d b ∨ i = .barexit k ord sc o →
      ∃ t, exec i s = .next t ∧ Stopped s t fi s.pc)

/-- R185, R187: BARTST, BARWT and BARWTT change nothing in the word. Where GEN differs from the ticket's, each completes, with 1, the current ticket and 0; else
BARTST completes with 0, BARWT sleeps, and BARWTT completes with 1 once its timeout has passed and sleeps until then. BARWTT with a timeout of 0 behaves as
BARTST. (That one issued again after a wake keeps the deadline of its first issue is log 38, the model's reading; that a wait needs the rights of a load is log 91, its choice.) -/
def Obligations.BarrierWaits : Prop :=
  ∀ (s : State) (k : Enc) (ord : Sys2Proof.Ordering) (sc : Scope) (o : MemOp) (d b c : Reg) (ps : List Piece), (Instr.barexit k ord sc o).wf = true → s.memOk = true →
    s.checkScope sc (.barexit k ord sc o) = .ok () →
    s.checkS (s.thr s.cur) o.pl .load (s.getX o.base + o.off) 32 32 = .ok ps → (∀ p ∈ ps, s.plainRun p) →
    let g := s.u b % 2 ^ 32 / 4
    let end_ := match (s.slot s.cur).cont with | .timed n => n | _ => s.cycle + s.u c % 2 ^ 40
    ∃ n, n < 2 ^ 128 ∧ (∀ p ∈ ps, ∀ j, j < 16 → s.pointByte p j (byteOf n j)) ∧
      (∃ t, exec (.bartst k ord sc o d b) s = .next t ∧ Requested s t k [resX d (if barGen n ≠ g then 1 else 0)] ∧ BytesKept s t [] ∧ AccessOnly s t) ∧
      (∃ t, exec (.barwt k ord sc o d b) s = .next t ∧ BytesKept s t [] ∧ AccessOnly s t ∧
        if barGen n ≠ g then Requested s t k [resX d (BitVec.ofNat 64 (ticketOf n))] else (t.slot s.cur).run = .sleeping (.barrier (firstLoc ps) (firstTag ps) (BitVec.ofNat 30 g) none) ∧ t.pc = s.pc) ∧
      (∃ t, exec (.barwtt k ord sc o d b c) s = .next t ∧ BytesKept s t [] ∧ AccessOnly s t ∧
        if s.u c % 2 ^ 40 = 0 then Requested s t k [resX d (if barGen n ≠ g then 1 else 0)]
        else if barGen n ≠ g then Requested s t k [resX d 0]
        else if end_ ≤ s.cycle then Requested s t k [resX d 1]
        else (t.slot s.cur).run = .sleeping (.barrier (firstLoc ps) (firstTag ps) (BitVec.ofNat 30 g) (some end_)) ∧ t.pc = s.pc)

namespace Sys2Proof.Machine

/-! ### Tasks, groups, queues and meets (R27 to R33, R235 to R276) -/

/-- The current slot has ended its instruction at the next address with results requested, and is otherwise as before (R21, R44); of other
slots this says nothing. -/
def Advanced (s t : State) (k : Enc) (rs : List Result) : Prop :=
  t.cur = s.cur ∧
  t.slot s.cur =
    { s.slot s.cur with
      ctx := { s.ctx with pc := s.after k }, cont := .none, pending := (s.slot s.cur).pending ++ rs
      run := if k.mark && !((s.slot s.cur).pending ++ rs).isEmpty then .parked else .ready }

/-- The current slot has no thread any more (R19). -/
def SlotIdle (s t : State) : Prop :=
  (t.slot s.cur).run = .idle ∧ (t.slot s.cur).levels = [] ∧ (t.slot s.cur).pending = [] ∧ (t.slot s.cur).ctx = Ctx.zero

/-- A deque's bytes lie clear of an access's runs (R233). -/
def clearOf (d : Deque) (ps : List Piece) : Prop := ∀ a, d.addr ≤ a → a < d.addr + 64 + 64 * d.cap → ¬ coverBuf ps d.core a

/-- A record has been pushed on a partition's deque of a core (R234): it lies at BOTTOM, which has risen, and SKIPS is 0 (R256). -/
def Pushed (s t : State) (p c : Nat) (r : TaskRecord) : Prop :=
  ∀ d, s.deque p c = some d →
    t.bufRead c (d.addr + 64 + 64 * (d.bottom % d.cap)) 64 = recNat r ∧
    t.deque p c = some { d with bottom := (d.bottom + 1) % 2 ^ 32, skips := 0 }

/-- A new task's directory entry (R230): its id was no live task's. -/
def NewTask (s t : State) (p : Nat) (id : TaskId) (e : Task) : Prop :=
  t.findTask p id = some e ∧ e.id = id ∧ ∀ x ∈ (s.part p).tasks, x.2.state.live = true → x.2.id ≠ id

/-- The start of a record's thread in a slot as its only level or above `below` (R26). -/
def StartedIn (t : State) (n : Nat) (r : TaskRecord) (lvl : Level) (below : List Level) : Prop :=
  (t.slot n).levels = lvl :: below ∧ (t.slot n).run = .ready ∧ (t.slot n).pending = [] ∧
  (t.slot n).ctx =
    { Ctx.zero with
      x := ((((Vector.replicate 32 0).set 2 r.arg0).set 3 r.arg1).set 4 r.arg2).set 5 r.arg3
      pc := r.entry, task := lvl.task, mult := if r.mult = 0 then 1 else r.mult, group := r.group, fgroup := r.group, stealdom := r.dom }

/-- The fork's record with its task id (R237). -/
def State.childRecord (s : State) (imm : Word) (lreq : BitVec 16) (b c : Reg) (id : TaskId) : TaskRecord :=
  { lreq := lreq, group := 0, det := false, pin := false, dom := s.ctx.stealdom, fplace := 0, future := 0, mult := s.ctx.mult,
    owner := s.ctx.task, taskid := id, arg3 := 0, arg2 := 0, arg1 := s.getX c, arg0 := s.getX b, entry := s.pc + 4 * imm }

/-- The current slot has gone on with a child as an inline call above its parent (R238): the child runs under the parent's task. -/
def InlineCall (s t : State) (imm : Word) (b c : Reg) (l : Level) : Prop :=
  (t.slot s.cur).levels = l :: (s.slot s.cur).levels ∧ l.inline = true ∧ l.task = s.ctx.task ∧ (t.slot s.cur).run = .ready ∧
  t.pc = s.pc + 4 * imm ∧ t.getX 2 = s.getX b ∧ t.getX 3 = s.getX c ∧ (∀ r, r ≠ 2 → r ≠ 3 → t.getX r = 0) ∧ t.ctx.task = s.ctx.task ∧
  t.ctx.mult = s.ctx.mult ∧ t.ctx.fstat = 0

/-- The current slot sleeps on its instruction. -/
def AsleepOn (s t : State) (w : Wait) : Prop := (t.slot s.cur).run = .sleeping w ∧ t.pc = s.pc ∧ ∀ n, n ≠ s.cur → t.slot n = s.slot n

/-- The current slot runs an unstarted task of its partition, adopted above its own, from a record (R241). -/
def Adopted (s t : State) (e : Task) (r : TaskRecord) (status : Option Reg) : Prop :=
  StartedIn t s.cur r { task := e.id, inline := false, adopted := true, status := status, fplace := 0, future := 0 } (s.slot s.cur).levels ∧
  ∀ x, t.findTask (s.thr s.cur).part e.id = some x → x.state = .running ∧ x.whereTo = BitVec.ofNat 64 s.cur

/-- A context that a frame of the layout of R285 restores. -/
structure FrameGives (c : Ctx) (f : Nat) : Prop where
  x     : ∀ r : Reg, r ≠ 0 → (c.getX r).toNat = f / 2 ^ (64 * r.toNat) % 2 ^ 64
  v     : ∀ r : Reg, (c.getV r).toNat = f / 2 ^ (2048 + 512 * r.toNat) % 2 ^ 512
  m     : ∀ r : MReg, r ≠ 0 → (c.getM r).toNat = f / 2 ^ (18432 + 64 * r.toNat) % 2 ^ 64
  pc    : c.pc.toNat = f / 2 ^ 18944 % 2 ^ 64
  valid : c.bbValid.toNat = min 128 (f / 2 ^ 19136 % 2 ^ 8)
  data  : c.bbData.toNat = f / 2 ^ 19008 % 2 ^ c.bbValid.toNat
  mult  : c.mult.toNat = max 1 (f / 2 ^ 19232 % 2 ^ 32)
  group : c.group.toNat = f / 2 ^ 19264 % 2 ^ 16 ∧ c.fgroup.toNat = f / 2 ^ 19280 % 2 ^ 16
  fstat : c.fstat.toNat = f / 2 ^ 19296 % 2 ^ 6
  dom   : c.stealdom.toNat = f / 2 ^ 19304 % 2 ^ 2
  mstat : c.mstat.toNat = f / 2 ^ 19328 % 2 ^ 64

/-- A slot has restored a frame to the level that now is its top, after a level above it has left (R244): the instruction of a POPB or STEAL that
had adopted that level, of 8 bytes, completes with a status. -/
def RestoredBelow (t : State) (n : Nat) (levels : List Level) (f : Nat) (status : Option Reg) (code : Nat) : Prop :=
  (t.slot n).levels = levels ∧ (t.slot n).run = .ready ∧ (t.slot n).pending = [] ∧ (t.slot n).cont = .none ∧
  ∃ c, FrameGives c f ∧ (∀ l, levels.head? = some l → c.task = l.task) ∧
    (t.slot n).ctx = match status with | none => c | some r => { c.setX r (BitVec.ofNat 64 code) with pc := c.pc + 8 }

/-- The current slot runs a parked task of its partition, adopted above its own with the levels of its vacated chain where it has one, from the
frame in its save area (R241, R288). -/
def AdoptedParked (s t : State) (e : Task) (f : Nat) (status : Option Reg) : Prop :=
  let levels := match e.chain.getLast? with
    | none => [{ task := e.id, inline := false, adopted := true, status := status, fplace := 0, future := 0 }]
    | some b => e.chain.dropLast ++ [{ b with adopted := true, status := status }]
  RestoredBelow t s.cur (levels ++ (s.slot s.cur).levels) f none 0 ∧
  ∀ x, t.findTask (s.thr s.cur).part e.id = some x → x.state = .running ∧ x.whereTo = BitVec.ofNat 64 s.cur

/-- The outcome with which a thread passes its MEET at once, in the order of R270: an inline call 7, another group than its own 6, a task that may not
merge 5. -/
def passOutcome (s : State) (a : Reg) : Option Nat :=
  if (s.slot s.cur).levels.head?.any Level.inline then some 7
  else if s.u a ≠ s.ctx.group.toNat || s.u a = 0 || (s.groupOf (s.thr s.cur).part (s.getX a)).isNone then some 6
  else
    match s.myTask with
    | none => some 5
    | some e =>
      if e.det = false || (s.resv.any fun r => r.granted && r.queue.head? == some s.ctx.task) || e.locks != [] || e.entries != [] || e.children ≠ 0 then some 5
      else none

/-- The three words of a work queue's entry lie apart from its header and from each other (R250). -/
def apart (l : List (List Piece)) : Prop := l.Pairwise fun a b => ∀ x, ¬ (coverPhys a x ∧ coverPhys b x)

/-- `n` is the number an access's runs hold at their serialisation points. -/
def pointsHold (s : State) (ps : List Piece) (n : Nat) : Prop := ∀ p ∈ ps, ∀ j, j < p.n → s.pointByte p j (byteOf n (p.off + j))
/-- A start of a parked task, whose frame `f` is valid, reads its save area in plain memory, apart from the bytes `fs` and the frames that it
writes, where no cache holds a dirty line (R241, R288). -/
def State.frameReady (u : State) (fs : List Piece) (plan : Restore) (f : Nat) : Prop :=
  u.clean ∧ (∀ q ∈ plan.top, u.plainRun q) ∧ (∀ w, (w = fs ∨ ∃ c ∈ plan.copies, w = c.2.1) → ∀ x, ¬ (coverPhys w x ∧ coverPhys plan.top x)) ∧
  pointsHold u plan.top f ∧ f < 2 ^ 19456 ∧ f.testBit 19396 = true

/-- The current slot adopts a task that state `a` holds, where the frames' checks pass there (R241): an unstarted one from its record, a parked one
from its save area. -/
def Takes (s a : State) (i : Instr) (e : Task) (r : TaskRecord) (status : Option Reg) (more : State → Prop) : Prop :=
  let d := (s.slot s.cur).levels.length - 1
  ∀ fs plan, a.checkFrame (s.thr s.cur) .store (a.frameAddr s.cur d) = .ok fs → a.planRestore s.cur e (d + 1) = .ok plan →
    (e.state = .unstarted → ∃ t, exec i s = .next t ∧ Adopted s t e r status ∧ more t) ∧
    (e.state = .parked → ∀ f, a.frameReady fs plan f → ∃ t, exec i s = .next t ∧ AdoptedParked s t e f status ∧ more t)

/-- An instruction stops with the fault of damaged data that it consumes (R281). -/
def EccStop (s : State) (i : Instr) (found : Option FaultInfo) : Prop :=
  ∀ fi, found = some fi → s.cur < slotCount → ∃ t, exec i s = .next t ∧ Stopped s t fi s.pc

/-- What a wait on a task comes to whose condition does not hold in state `u` (R240): an owner that has ended is `dead`; an unstarted or parked one
is adopted where it may be; of a running one the record that lies topmost on its core is, where it is the owner's own; else the slot is `asleep`. A
damaged record, or header, that it reads for this stops it with ECC (R281). -/
def Helps (s u : State) (i : Instr) (owner : TaskId) (dead asleep : Prop) : Prop :=
  let p := (s.thr s.cur).part
  let mine := owner.toNat / 2 ^ 28 = p
  ((∀ e, u.ownerTask owner = some e → e.state.live = false) → dead) ∧
  ∀ e, u.ownerTask owner = some e →
    let v := u.slot e.whereTo.toNat
    let c := coreOfSlot e.whereTo.toNat
    let near := mine ∧ v.run.isFrozen = false ∧ v.restoring = false ∧ (v.levels.any fun l => l.task == owner) = true ∧
      (u.slot u.cur).adoptions < ((u.slot u.cur).reg p).adoptmax.toNat
    let w := u.trimT p c
    (e.state = .unstarted ∨ e.state = .parked →
      (¬ (mine ∧ u.adoptable s.cur e = true) → asleep) ∧
      (mine → u.adoptable s.cur e = true →
        EccStop s i (u.recordEcc p e) ∧ (u.recordEcc p e = none → Takes s u i e (u.recordOf p e) none fun _ => True))) ∧
    (e.state = .running →
      (¬ near → asleep) ∧ (near → EccStop s i (u.searchEcc p c false)) ∧
      (near → u.searchEcc p c false = none → w.topRec p c = none → asleep) ∧
      (near → u.searchEcc p c false = none → ∀ r j, w.topRec p c = some r → w.findTask p r.taskid = some j →
        (¬ (r.owner = owner ∧ w.adoptable s.cur j = true) → asleep) ∧
        (r.owner = owner → w.adoptable s.cur j = true → Takes s (w.takeTop p c) i j r none fun _ => True)))

/-- `n` is the word that lies under 8 bytes of an access's runs. -/
def wordAt (t : State) (ps : List Piece) (off n : Nat) : Prop := ∀ p ∈ ps, ∀ j, j < 8 → t.rawAt p (off + j) = byteOf n j

/-- `n` is the number that lies under an access's runs. -/
def rawHolds (t : State) (ps : List Piece) (n : Nat) : Prop := ∀ p ∈ ps, ∀ j, j < p.n → t.rawAt p j = byteOf n (p.off + j)

end Sys2Proof.Machine

/-- R190, R240, R270: LKACQ at multiplicity 1 takes a free lock with 0 and a dead owner's with 1, and returns 2 for its own lock; of a lock that a live other
task holds it stands in the word's queue, helps the owner as R240 says, and sleeps where it can not; its task then holds what it takes. LKREL frees the word, or
writes the longest-waiting task's id and hands that task the lock, and returns 0, and returns 1 where the task is not its owner. An LKACQ that has been handed the lock completes
with 0 and repeats none of its tests. (That a waiter which helps meanwhile keeps its place, and that the hand-off is bound to the pc its task waits at, is log 48, the model's
reading.) -/
def Obligations.Locks : Prop :=
  (∀ (s : State) (k : Enc) (sc : Scope) (o : MemOp) (d : Reg), s.memOk = true → handedTo s.lockQ s.ctx.task s.pc = true →
    ∃ t, exec (.lkacq k sc o d) s = .next t ∧ Requested s t k [resX d 0] ∧ BytesKept s t [] ∧
      t.lockQ = s.lockQ.filter fun e => !(e.task == s.ctx.task && e.pc == s.pc && e.given)) ∧
  ∀ (s : State) (k : Enc) (ord : Sys2Proof.Ordering) (sc : Scope) (o : MemOp) (d : Reg) (ps : List Piece), (Instr.lkacq k sc o d).wf = true → s.memOk = true →
    s.checkScope sc (.lkacq k sc o d) = .ok () →
    s.check (s.thr s.cur) o.pl .atomic false (s.getX o.base + o.off) 8 8 0 = .ok ps → (∀ p ∈ ps, s.plainRun p) →
    let l := firstLoc ps
    let me := s.ctx.task
    let tries := handedTo s.lockQ me s.pc = false ∧ s.ctx.mult.toNat ≤ 1
    let holds (t : State) (w : Nat) : Prop := (∀ p ∈ ps, ∀ j, j < 8 → t.rawAt p j = byteOf w j) ∧ BytesKept s t ps
    let held (t : State) (w : TaskId) : Prop := ∀ e, t.findTask (w.toNat / 2 ^ 28) w = some e → l ∈ e.locks
    let took (t : State) : Prop := holds t me.toNat ∧ t.lockQ = (s.lockQ.filter fun e => !(e.loc == l && e.task == me)) ∧
      (me.toNat / 2 ^ 28 = (s.thr s.cur).part → held t me)
    ∃ n, n < 2 ^ 64 ∧ (∀ p ∈ ps, ∀ j, j < p.n → s.pointByte p j (byteOf n (p.off + j))) ∧
      let owner : TaskId := BitVec.ofNat 32 n
      let queue := if s.lockQ.any fun e => e.loc == l && e.task == me then s.lockQ else s.lockQ ++ [{ loc := l, task := me, pc := s.pc, given := false }]
      (tries → owner.toNat % 2 ^ 28 = 0 → ∃ t, exec (.lkacq k sc o d) s = .next t ∧ Requested s t k [resX d 0] ∧ took t) ∧
      (tries → owner.toNat % 2 ^ 28 ≠ 0 → owner = me → ∃ t, exec (.lkacq k sc o d) s = .next t ∧ Requested s t k [resX d 2] ∧ BytesKept s t []) ∧
      (tries → owner.toNat % 2 ^ 28 ≠ 0 → owner ≠ me →
        Helps s { (s.atomicRead (s.thr s.cur) ps).1 with lockQ := queue } (.lkacq k sc o d) owner
          (∃ t, exec (.lkacq k sc o d) s = .next t ∧ Requested s t k [resX d 1] ∧ took t)
          (∃ t, exec (.lkacq k sc o d) s = .next t ∧ AsleepOn s t (.lock l (firstTag ps) owner) ∧ t.lockQ = queue)) ∧
      (owner = me →
        ∃ t, exec (.lkrel k ord sc o d) s = .next t ∧ Requested s t k [resX d 0] ∧
          match s.lockQ.find? fun e => e.loc == l && e.task != me && !e.given with
          | none => holds t 0 ∧ t.lockQ = s.lockQ
          | some e => holds t e.task.toNat ∧ held t e.task ∧ t.lockQ = s.lockQ.map fun x => if x.loc == l && x.task == e.task then { x with given := true } else x) ∧
      (owner ≠ me → ∃ t, exec (.lkrel k ord sc o d) s = .next t ∧ Requested s t k [resX d 1] ∧ BytesKept s t [])

/-- R235 to R238, R281: FORK and FORK.D with room in the deque and the directory complete: a new unstarted task of the thread enters the directory
and its record the bottom of the core's deque, FORK's future is empty and owned by it, and FORK.D's task joins the thread's group. Without room the
child runs in the slot as an inline call above its parent. A damaged deque header stops both with ECC (log 126, the model's choice of what its packet names). -/
def Obligations.Forks : Prop :=
  ∀ (s : State) (k : Enc) (pl : Space) (imm : Word) (lreq : BitVec 16) (a b c : Reg) (ps : List Piece),
    let p := (s.thr s.cur).part
    let core := (s.thr s.cur).core
    (s.part p).tasks.length + 2 < 2 ^ 28 → s.memOk = true →
    EccStop s (.forkD k imm lreq b c) (s.headerEcc p core) ∧
    (s.checkS (s.thr s.cur) pl .store (s.getX a) 16 16 = .ok ps → EccStop s (.fork k pl imm lreq a b c) (s.headerEcc p core)) ∧
    (s.headerEcc p core = none →
    (s.checkS (s.thr s.cur) pl .store (s.getX a) 16 16 = .ok ps → (∀ q ∈ ps, s.plainRun q) →
      (∀ d, s.deque p core = some d → d.size < d.cap → clearOf d ps → s.dirRoom p = true →
        ∃ t id e f, exec (.fork k pl imm lreq a b c) s = .next t ∧ Advanced s t k [] ∧ NewTask s t p id e ∧
          e.state = .unstarted ∧ e.det = false ∧ e.pin = false ∧ e.parent = s.ctx.task ∧ e.whereTo = whereDeque core d.bottom ∧
          (f = if pl = .g then (3, (s.getX a).setWidth 56) else if pl = .n then (1, (s.getX a).setWidth 56)
            else (1, BitVec.ofNat 56 (core * 2 ^ 19 + s.u a % 2 ^ 19))) ∧
          Pushed s t p core { s.childRecord imm lreq b c id with fplace := f.1, future := f.2 } ∧
          rawHolds t ps (id.toNat * 2 ^ 32)) ∧
      (s.dequeFull p core = true ∨ s.dirRoom p = false →
        ∀ fs, s.checkFrame (s.thr s.cur) .store (s.frameAddr s.cur ((s.slot s.cur).levels.length - 1)) = .ok fs →
          ∃ t l, exec (.fork k pl imm lreq a b c) s = .next t ∧ InlineCall s t imm b c l ∧ l.fplace ≠ 0)) ∧
    (s.dequeFull p core = true ∨ s.dirRoom p = false →
      ∀ fs, s.checkFrame (s.thr s.cur) .store (s.frameAddr s.cur ((s.slot s.cur).levels.length - 1)) = .ok fs →
        ∃ t l, exec (.forkD k imm lreq b c) s = .next t ∧ InlineCall s t imm b c l ∧ l.fplace = 0 ∧ t.parts = s.parts ∧
          ∀ g, t.groupOf p g = s.groupOf p g) ∧
    (∀ d, s.deque p core = some d → d.size < d.cap → s.dirRoom p = true →
      let g := s.ctx.fgroup
      let own := (s.groupOf p (g.setWidth 64)).isSome ∧ groupCluster g = (s.thr s.cur).cluster
      ∃ t id e, exec (.forkD k imm lreq b c) s = .next t ∧ Advanced s t k [] ∧ NewTask s t p id e ∧
        e.state = .unstarted ∧ e.det = true ∧ e.parent = s.ctx.task ∧
        (own → e.group = g ∧ (∀ x, s.groupOf p (g.setWidth 64) = some x → t.groupOf p (g.setWidth 64) = some { x with count := x.count + 1 }) ∧
          Pushed s t p core { s.childRecord imm lreq b c id with det := true, group := g, dom := if s.ctx.stealdom.toNat > 1 then 1 else s.ctx.stealdom }) ∧
        (¬ own → e.group = 0 ∧ Pushed s t p core { s.childRecord imm lreq b c id with det := true })))

/-- R32, R33, R237: FORK.AT and AMSG complete where their target is a core of this package that takes the message, or a core of another package; at the
target a FORK.AT's pinned child starts in an idle slot or waits in the inbox under its own id, in the sender's own step (log 45). While the target or the
directory has no room they stay on their instruction, of which nothing has happened (log 44). FORK.AT's clauses speak of states whose caches hold no dirty line. -/
def Obligations.SentTasks : Prop :=
  ∀ (s : State) (k : Enc) (pl : Space) (imm : Word) (lreq : BitVec 16) (kr a b c : Reg) (core : Nat) (remote : Bool),
    let p := (s.thr s.cur).part
    s.target p (s.getX kr) = .ok (core, remote) → (s.slot s.cur).run ≠ .idle → (s.part p).tasks.length + 2 < 2 ^ 28 → s.memOk = true →
    (∀ ps, s.checkS (s.thr s.cur) pl .store (s.getX a) 16 16 = .ok ps → (∀ q ∈ ps, s.plainRun q) → s.clean →
      (s.dirRoom p = true → (remote = true ∨ s.wouldTake p core true (s.thr s.cur).core = true) →
        ∃ t id e, exec (.forkAt k pl imm lreq kr a b c) s = .next t ∧ Advanced s t k [] ∧ NewTask s t p id e ∧ e.pin = true ∧ e.det = false ∧
          e.parent = s.ctx.task ∧ rawHolds t ps (id.toNat * 2 ^ 32) ∧
          (remote = false →
            (∃ m ∈ (t.core core).inbox, m.record.taskid = id ∧ m.hasId = true ∧ m.part = p ∧ m.record.entry = s.pc + 4 * imm) ∨
            (e.state = .running ∧ ∃ n, coreOfSlot n = core ∧ (t.slot n).run = .ready ∧ (t.slot n).ctx.pc = s.pc + 4 * imm ∧ (t.slot n).ctx.task = id))) ∧
      (s.dirRoom p = false → ∃ t, exec (.forkAt k pl imm lreq kr a b c) s = .next t ∧ (t.slot s.cur).run = .stalled .directory ∧ t.pc = s.pc ∧
        t = { s with slots := t.slots }) ∧
      (s.dirRoom p = true → remote = false → s.wouldTake p core true (s.thr s.cur).core = false →
        ∃ t, exec (.forkAt k pl imm lreq kr a b c) s = .next t ∧ (t.slot s.cur).run = .stalled (.inbox core) ∧ t.pc = s.pc ∧
          t = { s with slots := t.slots })) ∧
    (s.ctx.mult.toNat ≤ 1 →
      (remote = true ∨ s.wouldTake p core false (s.thr s.cur).core = true →
        ∃ t, exec (.amsg k imm kr b c) s = .next t ∧ Advanced s t k [] ∧
          (remote = false → 
            (∃ m ∈ (t.core core).inbox, m.part = p ∧ m.hasId = false ∧ m.record.entry = s.pc + 4 * imm ∧ m.record.arg0 = s.getX b ∧ m.record.arg1 = s.getX c) ∨
            (∃ n, coreOfSlot n = core ∧ (t.slot n).run = .ready ∧ (t.slot n).ctx.pc = s.pc + 4 * imm ∧ (t.slot n).ctx.getX 2 = s.getX b ∧ (t.slot n).ctx.getX 3 = s.getX c))) ∧
      (remote = false → s.wouldTake p core false (s.thr s.cur).core = false →
        ∃ t, exec (.amsg k imm kr b c) s = .next t ∧ (t.slot s.cur).run = .stalled (.inbox core) ∧ t.pc = s.pc ∧ t = { s with slots := t.slots }))

/-- R30, R239, R240, R248: JOIN of a future that is not empty completes with its value, and 0 where it is full and 1 where it failed; of an empty one whose
owner has ended with 2. While its owner lives the waiter helps: it adopts an unstarted owner that it may adopt from its record, a parked one from its save
area (R241, R288), or the owner's own topmost record on the core where the owner runs, and sleeps where it can do neither. YIELD at the base of a chain with room parks the task in its save area, which memory then holds (log
18), its d zero and its pc the next address, and leaves the slot idle; on a longer chain, without room, or with a reservation held it returns 1. -/
def Obligations.JoinAndYield : Prop :=
  ∀ (s : State) (k : Enc) (pl : Space) (d a b : Reg), s.memOk = true →
    let p := (s.thr s.cur).part
    let core := (s.thr s.cur).core
    (∀ ps, s.checkS (s.thr s.cur) pl .load (s.getX a) 16 16 = .ok ps → (∀ q ∈ ps, s.plainRun q) →
      ∃ n, n < 2 ^ 128 ∧ pointsHold s ps n ∧
        (n % 4 ≠ 0 → ∃ t, exec (.join k pl d a b) s = .next t ∧ BytesKept s t [] ∧ AccessOnly s t ∧
          Requested s t k [resX d (BitVec.ofNat 64 (n / 2 ^ 64)), resX b (if n % 4 = 1 then 0 else 1)]) ∧
        (n % 4 = 0 →
          let owner : TaskId := BitVec.ofNat 32 (n / 2 ^ 32)
          Helps s (s.atomicRead (s.thr s.cur) ps).1 (.join k pl d a b) owner
            (∃ t, exec (.join k pl d a b) s = .next t ∧ BytesKept s t [] ∧ AccessOnly s t ∧ Requested s t k [resX d 0, resX b 2])
            (∃ t, exec (.join k pl d a b) s = .next t ∧ AsleepOn s t (.future (firstLoc ps) (firstTag ps) owner)))) ∧
    (∀ ps, s.check (s.thr s.cur) .g .store false (s.getX a) 2432 64 0 = .ok ps →
      EccStop s (.yield k d a) (s.headerEcc p core) ∧
      (s.headerEcc p core = none → (s.slot s.cur).levels.length > 1 ∨ s.dequeFull p core = true ∨ s.holdsResv s.ctx.task = true →
        ∃ t, exec (.yield k d a) s = .next t ∧ Requested s t k [resX d 1] ∧ t = { s with slots := t.slots }) ∧
      (s.headerEcc p core = none → (s.slot s.cur).levels.length ≤ 1 → s.dequeFull p core = false → s.holdsResv s.ctx.task = false → (∀ q ∈ ps, s.plainRun q) →
        ∀ e, s.findTask p s.ctx.task = some e →
        ∃ t e' r w, exec (.yield k d a) s = .next t ∧ SlotIdle s t ∧ t.findTask p s.ctx.task = some e' ∧
          e' = { e with state := .parked, whereTo := s.getX a, asid := BitVec.ofNat 11 (s.thr s.cur).asid, origin := (s.thr s.cur).cluster } ∧
          r.taskid = s.ctx.task ∧ r.entry = s.after k ∧ Pushed s t p core r ∧
          w = (s.slot s.cur).deliverAll ∧
          rawHolds t ps (Slot.frame { w with ctx := { w.ctx.setX d 0 with pc := s.after k } })))

/-- R233, R234, R241, R247, R288: POPB looks at the bottom live record of the core's own deque and STEAL at the top one of another core's, after stale records
there have been discarded. Without one they return 1, for a task that may not move 2, at the adoption limit 3, the first of these that holds (log 46); else the
slot adopts the task above its own, an unstarted one from its record and a parked one from its save area, and the record has left the deque: BOTTOM has fallen,
or TOP risen, by one. STEAL of a core in another package returns 2, and of a core outside the partition's core set 1 (log 108, the model's reading). A damaged record that the search
reads stops it with ECC (R281; what the packet names is log 126, the model's choice). -/
def Obligations.TakenWork : Prop :=
  ∀ (s : State) (k : Enc) (d a : Reg) (own : Bool) (core : Nat) (remote : Bool), s.memOk = true →
    let i : Instr := if own then .popb k d else .steal k d a
    let p := (s.thr s.cur).part
    let here := (s.thr s.cur).core
    let c := if own then here else core
    let u := if own then s.trimB p c else s.trimT p c
    let r := if own then u.bottomRec p c else u.topRec p c
    let v := s.slot s.cur
    (own = false → s.target p (s.getX a) = .ok (core, remote) →
      ((s.getX a).getLsbD 15 = true → ∃ t, exec i s = .next t ∧ Requested s t k [resX d 2] ∧ t = { s with slots := t.slots }) ∧
      ((s.getX a).getLsbD 15 = false → (s.part p).cfg.cores.getLsbD core = false →
        ∃ t, exec i s = .next t ∧ Requested s t k [resX d 1] ∧ t = { s with slots := t.slots })) ∧
    ((own = false → s.target p (s.getX a) = .ok (core, false) ∧ (s.getX a).getLsbD 15 = false ∧ (s.part p).cfg.cores.getLsbD core = true) →
      EccStop s i (s.searchEcc p c own) ∧
      (s.searchEcc p c own = none → r = none → ∃ t, exec i s = .next t ∧ Requested u t k [resX d 1] ∧ t = { u with slots := t.slots }) ∧
      (s.searchEcc p c own = none → ∀ x e, r = some x → u.findTask p x.taskid = some e →
        let still := e.pin = true ∨ (own = false ∧ domReaches x.dom c here = false) ∨ groupNear e.group (s.thr s.cur).cluster = false
        let full := v.adoptions + 1 + chainAdopted e > (v.reg p).adoptmax.toNat
        (still → ∃ t, exec i s = .next t ∧ Requested u t k [resX d 2] ∧ t = { u with slots := t.slots }) ∧
        (¬ still → full → ∃ t, exec i s = .next t ∧ Requested u t k [resX d 3] ∧ t = { u with slots := t.slots }) ∧
        (¬ still → ¬ full →
          Takes s (if own then u.takeBottom p c else (u.noteRequest p c here).takeTop p c) i e x (some d) fun t =>
            ∀ q, u.deque p c = some q → ∃ q', t.deque p c = some q' ∧ q'.cap = q.cap ∧ q'.addr = q.addr ∧
              (own = true → q'.bottom = (q.bottom + 2 ^ 32 - 1) % 2 ^ 32 ∧ q'.top = q.top) ∧
              (own = false → q'.top = (q.top + 1) % 2 ^ 32 ∧ q'.bottom = q.bottom))))

/-- R21, R31, R163, R241, R249, R253, R269, R276: GNEW takes the lowest free group of the cluster (log 95) within the partition's share, whose number d then holds, and gives 0 without
one or with all 64 taken; GFREE frees a group of count 0, and d holds 0, 1 or 2 at once, no memory result; GJOIN of such a group completes, and of no group too,
with an acquire at the group's cluster; GJOIN of another adopts the group's bottom record on its core, which leaves the deque, or sleeps; MCLOSE closes every open entry of the group and returns how many. -/
def Obligations.Groups : Prop :=
  ∀ (s : State) (k : Enc) (d a : Reg), s.memOk = true →
    let p := (s.thr s.cur).part
    let core := (s.thr s.cur).core
    let cl := (s.thr s.cur).cluster
    let mine := ((s.cluster cl).groups.filter fun e => e.2.part == p).length
    let none_ : Prop := ∃ t, exec (.gnew k d) s = .next t ∧ t.getX d = 0 ∧ Computed s t k (s.after k) 0 [d] [] []
    (∀ i, i < 64 → (s.cluster cl).groups.get? i = none → (∀ j, j < i → (s.cluster cl).groups.get? j ≠ none) → mine < (s.part p).cfg.gshare →
      cl < 144 → (s.cluster cl).groups.Pairwise (fun x y => x.1 < y.1) →
      ∃ t g, exec (.gnew k d) s = .next t ∧ g = 2 ^ 15 + 64 * cl + i ∧ t.getX d = readBack d (BitVec.ofNat 64 g) ∧ Goes s t k (s.after k) ∧
        (∀ r, r ≠ d → t.getX r = s.getX r) ∧ t.ctx.fgroup = BitVec.ofNat 16 g ∧ (t.slot s.cur).pending = leftPending [d] [] (s.slot s.cur).pending ∧
        t.groupOf p (BitVec.ofNat 64 g) = some { part := p, count := 0 } ∧ t = { s with slots := t.slots, clusters := t.clusters }) ∧
    ((s.part p).cfg.gshare ≤ mine → none_) ∧
    ((∀ i, i < 64 → (s.cluster cl).groups.get? i ≠ none) → (s.cluster cl).groups.Pairwise (fun x y => x.1 < y.1) → none_) ∧
    (∀ g, s.groupOf p (s.getX a) = some g → g.count ≠ 0 →
      let u := s.trimB p core
      let asleep : Prop := ∃ t, exec (.gjoin k a) s = .next t ∧ AsleepOn s t (.group ((s.getX a).setWidth 16)) ∧ t = { u with slots := t.slots }
      EccStop s (.gjoin k a) (s.searchEcc p core true) ∧
      (s.searchEcc p core true = none → u.bottomRec p core = none → asleep) ∧
      ∀ r e, s.searchEcc p core true = none → u.bottomRec p core = some r → u.findTask p r.taskid = some e →
        let may := e.group = (s.getX a).setWidth 16 ∧ u.adoptable s.cur e = true
        (¬ may → asleep) ∧
        (may → Takes s (u.takeBottom p core) (.gjoin k a) e r none fun t =>
          ∀ q, u.deque p core = some q → ∃ q', t.deque p core = some q' ∧ q'.top = q.top ∧ q'.bottom = (q.bottom + 2 ^ 32 - 1) % 2 ^ 32)) ∧
    (s.groupOf p (s.getX a) = none →
      (∃ t, exec (.gfree k d a) s = .next t ∧ t.getX d = readBack d 2 ∧ Computed s t k (s.after k) 0 [d] [] []) ∧
      (∃ t, exec (.gjoin k a) s = .next t ∧ Requested s t k [] ∧ t = { s with slots := t.slots }) ∧
      (∃ t, exec (.mclose k d a) s = .next t ∧ Requested s t k [resX d (BitVec.allOnes 64)] ∧ t = { s with slots := t.slots })) ∧
    (∀ g, s.groupOf p (s.getX a) = some g →
      (g.count ≠ 0 → ∃ t, exec (.gfree k d a) s = .next t ∧ t.getX d = readBack d 1 ∧ Computed s t k (s.after k) 0 [d] [] []) ∧
      (g.count = 0 →
        let at_ := groupCluster ((s.getX a).setWidth 16)
        let mine (l : CLine) : Prop := l.part = p ∧ (l.asid.toNat = (s.thr s.cur).asid ∨ l.asid = 0) ∧ l.pline < 2 ^ 48 ∧ l.count = 0
        (∃ t, exec (.gfree k d a) s = .next t ∧ t.getX d = 0 ∧ Goes s t k (s.after k) ∧ SlotFrame s t [d] [] [] ∧
          (t.slot s.cur).pending = leftPending [d] [] (s.slot s.cur).pending ∧ t.groupOf p (s.getX a) = none ∧
          t = { s with slots := t.slots, clusters := t.clusters }) ∧
        (∃ t, exec (.gjoin k a) s = .next t ∧ Requested s t k [] ∧ AccessOnly s t ∧ (at_ = cl → t = { s with slots := t.slots }) ∧
          (at_ ≠ cl → (∀ l ∈ (t.cluster cl).lines, ¬ mine l) ∧ (∀ l ∈ (t.cluster at_).lines, mine l → l.dirty = 0) ∧
            ∀ x, t.rawByte x = s.rawByte x ∨ s.dirtyAt at_ p x (t.rawByte x) ∨ s.dirtyAt cl p x (t.rawByte x)))) ∧
      (let sel (e : MeetEntry) : Bool := e.part == p && e.group == (s.getX a).setWidth 16
       ∃ t, exec (.mclose k d a) s = .next t ∧ t.pc = s.after k ∧
        resX d (BitVec.ofNat 64 ((s.cluster (groupCluster ((s.getX a).setWidth 16))).meets.filter sel).length) ∈ (t.slot s.cur).pending ∧
        ∀ e ∈ (t.cluster (groupCluster ((s.getX a).setWidth 16))).meets, sel e = false))

/-- R250, R251, R253: QRES, QFIL, QENQ and QDEQ at multiplicity 1, on a work queue whose header and words are checked and lie apart in plain memory. A
reservation takes the number TAIL, which rises, and its entry is reserved for the task; a fill stores the item and marks the entry full; without room the
result is all ones, and QFIL of an entry that the task has not reserved returns 1; QDEQ as the queue's first waiter takes a full entry's item and leaves it empty,
OWNER and SEQ kept (log 33). On an empty queue, or behind an earlier waiter, QDEQ sleeps in its turn; an entry that is still reserved it claims and then waits for
its owner as R240 says; a failed one, or one whose owner has ended, it leaves empty with status 1 and vd unchanged. (An entry found empty is taken as failed, the
model's choice: log 119.) -/
def Obligations.WorkQueues : Prop :=
  ∀ (s : State) (k : Enc) (d a b c : Reg) (hs ws is : List Piece) (n cap head tail w : Nat), s.ctx.mult.toNat ≤ 1 → s.memOk = true → s.clean →
    let me := s.thr s.cur
    let at_ (off : Nat) : Word := s.getX a + BitVec.ofNat 64 off
    s.check me .g .atomic false (s.getX a) 64 64 0 = .ok hs → pointsHold s hs (tail + 2 ^ 64 * head + 2 ^ 128 * cap) →
    tail < 2 ^ 64 → head < 2 ^ 64 → (∃ j, 3 ≤ j ∧ j ≤ 24 ∧ cap = 2 ^ j) →
    s.check me .g .atomic false (at_ (64 + 8 * (n % cap))) 8 8 0 = .ok ws → pointsHold s ws w → w < 2 ^ 64 →
    s.check me .g .atomic false (at_ (64 + 8 * cap + 64 * (n % cap))) 64 64 0 = .ok is →
    (∀ q ∈ hs ++ ws ++ is, s.plainRun q ∧ s.held q) → apart [hs, ws, is] →
    let room := (tail + 2 ^ 64 - head) % 2 ^ 64 < cap ∧ w % 4 = 0
    let own (st : Nat) : Nat := s.ctx.task.toNat * 2 ^ 32 + n % 2 ^ 30 * 4 + st
    let risen (t : State) : Prop := wordAt t hs 0 (tail + 1) ∧ pointsHold t hs ((tail + 1) % 2 ^ 64 + 2 ^ 64 * head + 2 ^ 128 * cap)
    (n = tail →
      (room →
        (∃ t, exec (.qres k d a) s = .next t ∧ Requested s t k [resX d (BitVec.ofNat 64 tail)] ∧ rawHolds t ws (own 1) ∧
          risen t) ∧
        (∃ t, exec (.qenq k d a c) s = .next t ∧ Requested s t k [resX d (BitVec.ofNat 64 tail)] ∧ rawHolds t ws (own 2) ∧
          rawHolds t is (s.getV c).toNat ∧ risen t)) ∧
      (¬ room →
        (∃ t, exec (.qres k d a) s = .next t ∧ Requested s t k [resX d (BitVec.allOnes 64)] ∧ BytesKept s t []) ∧
        (∃ t, exec (.qenq k d a c) s = .next t ∧ Requested s t k [resX d (BitVec.allOnes 64)] ∧ BytesKept s t []))) ∧
    (n = s.u b →
      (w = own 1 → ∃ t, exec (.qfil k d a b c) s = .next t ∧ Requested s t k [resX d 0] ∧ rawHolds t ws (own 2) ∧ rawHolds t is (s.getV c).toNat) ∧
      (w ≠ own 1 → ∃ t, exec (.qfil k d a b c) s = .next t ∧ Requested s t k [resX d 1] ∧ BytesKept s t [])) ∧
    (let pa := locPa (firstLoc hs)
     let mine := s.claimed pa s.ctx.task
     let first := ∀ x, (s.queueQ.find? fun e => e.1 == pa) = some x → x.2 = s.ctx.task
     let fresh := mine = none ∧ n = head ∧ head ≠ tail ∧ first
     let moved (t : State) : Prop := fresh → wordAt t hs 8 (head + 1) ∧ pointsHold t hs (tail + 2 ^ 64 * ((head + 1) % 2 ^ 64) + 2 ^ 128 * cap)
     let ended : Prop := ∃ t, exec (.qdeq k d a b) s = .next t ∧ Requested s t k [resX b 1] ∧ rawHolds t ws (w - w % 4) ∧ moved t ∧
       t.claimed pa s.ctx.task = none
     (mine = none → head = tail ∨ ¬ first →
       ∃ t, exec (.qdeq k d a b) s = .next t ∧ AsleepOn s t (.queueEmpty pa (firstTag hs)) ∧ BytesKept s t [] ∧
         t.queueQ = if (pa, s.ctx.task) ∈ s.queueQ then s.queueQ else s.queueQ ++ [(pa, s.ctx.task)]) ∧
     (fresh ∨ mine = some n →
       (w % 4 = 2 →
         ∃ t item, exec (.qdeq k d a b) s = .next t ∧ pointsHold s is item ∧ Requested s t k [resV d (BitVec.ofNat 512 item), resX b 0] ∧
           rawHolds t ws (w - 2) ∧ moved t ∧ t.claimed pa s.ctx.task = none) ∧
       (w % 4 = 0 ∨ w % 4 = 3 → ended) ∧
       (w % 4 = 1 →
         let owner : TaskId := BitVec.ofNat 32 (w / 2 ^ 32)
         let r := (s.atomicRead me hs).1
         let q : Queue := { ps := hs, addr := s.getX a, cap := cap, head := head, tail := tail }
         let c := if mine.isSome then r
           else
             { ({ r with queueQ := r.queueQ.filter fun e => e != (pa, s.ctx.task) } : State).setHead q (head + 1) with
               claimQ := r.claimQ ++ [(pa, s.ctx.task, head)] }
         Helps s (c.atomicRead me ws).1 (.qdeq k d a b) owner ended
           (∃ t, exec (.qdeq k d a b) s = .next t ∧ AsleepOn s t (.queueEntry (locPa (firstLoc ws)) (firstTag ws) n owner) ∧ t.claimed pa s.ctx.task = some n ∧
             moved t))))

/-- R27, R188, R238, R244, R265 to R276, R281: EXIT of a task that is the whole chain ends it: its directory entry is done, its future full with x2's value, OWNER kept (log 40), and
the slot idle, where no attached barrier word, read at the place where the arrival found it (log 92, the model's choice), still expects the task, and stops with
BARRIER-ABANDON where one does, with ECC at a damaged one; the EXIT of an inline level looks at no attachment (log 39, the model's reading); of an adopted task or an inline call it restores the frame below, whose adopting POPB or STEAL completes with 0, and an inline call's future is full.
MEET where a case of R270 holds, where its timeout is 0 and no entry has its key, or where the cluster or its share has no room for an entry,
passes with the outcome in MSTAT. With an entry of its key that is in time it merges: its task ends merged, the entry's MULT takes its multiplicity and ARRIVALS
one more, and the entry stays open or, its group quiescent, leaves with its survivor released with that MULT; a sum beyond 2^32 − 1 stops it with MULT cause 2.
Else it opens an entry as survivor. -/
def Obligations.ExitAndMeet : Prop :=
  ∀ (s : State) (k : Enc) (a : Reg) (tmo : Timeout) (decl : BitVec 32), s.memOk = true → s.cur < slotCount →
    let p := (s.thr s.cur).part
    let c := (s.slot s.cur).deliverAll.ctx
    let cl := groupCluster c.group
    (∀ l e, (s.slot s.cur).levels = [l] → l.inline = false → s.findTask p l.task = some e → EccStop s (.exit k) (s.attachEcc e.attach)) ∧
    (∀ l e a ticket, (s.slot s.cur).levels = [l] → l.inline = false → s.findTask p l.task = some e → s.attachEcc e.attach = none →
      s.abandoned e.attach = some (a, ticket) → ∃ t, exec (.exit k) s = .next t ∧ Stopped s t (mkFault .barrierAbandon 0 a.addr ticket) s.pc) ∧
    (∀ l e, (s.slot s.cur).levels = [l] → l.inline = false → s.findTask p l.task = some e → s.attachEcc e.attach = none → s.abandoned e.attach = none →
      (hasFuture e.fplace = false →
        ∃ t, exec (.exit k) s = .next t ∧ SlotIdle s t ∧ (∀ x, t.findTask p l.task = some x → x.state = .done) ∧ (t.findTask p l.task).isSome = true) ∧
      (hasFuture e.fplace = true → ∀ ps, s.futureCheck (s.thr s.cur) e.fplace e.future = .ok ps → (∀ q ∈ ps, s.plainRun q) →
        ∃ t n, exec (.exit k) s = .next t ∧ SlotIdle s t ∧ (∀ x, t.findTask p l.task = some x → x.state = .done) ∧
          pointsHold s ps n ∧ (e.entries = [] → e.group = 0 ∨ groupCluster e.group = (s.thr s.cur).cluster ∨ s.clean →
            rawHolds t ps (n % 2 ^ 64 - n % 4 + 1 + 2 ^ 64 * (c.getX 2).toNat)))) ∧
    (∀ l next rest fs f, (s.slot s.cur).levels = l :: next :: rest → s.checkFrame (s.thr s.cur) .load (s.frameAddr s.cur rest.length) = .ok fs →
      s.clean → s.poison = [] → (∀ q ∈ fs, s.plainRun q ∧ s.held q) → pointsHold s fs f → f < 2 ^ 19456 → f.testBit 19396 = true →
      let below (t : State) : Prop := RestoredBelow t s.cur (next :: rest) f l.status 0
      let full (t : State) (ps : List Piece) : Prop := ∃ n, pointsHold s ps n ∧ rawHolds t ps (n % 2 ^ 64 - n % 4 + 1 + 2 ^ 64 * (c.getX 2).toNat)
      let room (ps : List Piece) : Prop := (∀ q ∈ ps, s.plainRun q ∧ s.held q) ∧ apart [ps, fs]
      (l.inline = true →
        (hasFuture l.fplace = false → ∃ t, exec (.exit k) s = .next t ∧ below t) ∧
        (hasFuture l.fplace = true → ∀ ps, s.futureCheck (s.thr s.cur) l.fplace l.future = .ok ps → room ps →
          ∃ t, exec (.exit k) s = .next t ∧ below t ∧ full t ps)) ∧
      (l.inline = false → ∀ e, s.findTask p l.task = some e → s.abandoned e.attach = none →
        let done (t : State) : Prop := (t.findTask p l.task).isSome = true ∧ ∀ x, t.findTask p l.task = some x → x.state = .done
        (hasFuture e.fplace = false → ∃ t, exec (.exit k) s = .next t ∧ below t ∧ done t) ∧
        (hasFuture e.fplace = true → ∀ ps, s.futureCheck (s.thr s.cur) e.fplace e.future = .ok ps → room ps →
          ∃ t, exec (.exit k) s = .next t ∧ below t ∧ full t ps ∧ done t))) ∧
    (let s0 := s.modSlot s.cur Slot.deliverAll
     let vals := s0.declared decl
     let inTime := (s.cluster cl).meets.filter fun e => match e.deadline with | some d => decide (s.cycle ≤ d) | none => true
     let found := inTime.find? fun e => e.part == p && e.group == c.group && e.addr == c.pc && e.asid.toNat == (s.thr s.cur).asid && e.vals == vals
     let full := 256 ≤ inTime.length ∨ (s.part p).cfg.meetshare ≤ (inTime.filter fun e => e.part == p).length
     let near := cl = (s.thr s.cur).cluster
     let pass (o : Nat) (only : Prop) : Prop := ∃ t, exec (.meet k a tmo decl) s = .next t ∧ t.pc = s.after k ∧ t.ctx.mstat = BitVec.ofNat 64 (8 + o) ∧
       (t.slot s.cur).run = (if k.mark && !(t.slot s.cur).pending.isEmpty then .parked else .ready) ∧ (only → t = { s with slots := t.slots })
     (∀ o, passOutcome s0 a = some o → pass o True) ∧
     (passOutcome s0 a = none → found = none → s0.timeout tmo = some 0 → pass 4 near) ∧
     (passOutcome s0 a = none → found = none → s0.timeout tmo ≠ some 0 → full → pass 3 near) ∧
     (passOutcome s0 a = none → found = none → s0.timeout tmo ≠ some 0 → ¬ full → s.slotOfTop c.task = some s.cur →
        ∃ t e, exec (.meet k a tmo decl) s = .next t ∧
          e = { part := p, group := c.group, addr := c.pc, asid := BitVec.ofNat 11 (s.thr s.cur).asid, vals := vals, survivor := c.task,
                mult := c.mult.toNat, arrivals := 0, deadline := (s0.timeout tmo).map (s.cycle + ·) } ∧
          ((e ∈ (t.cluster cl).meets ∧ (t.slot s.cur).run = .sleeping (.meet cl)) ∨ (t.slot s.cur).run = .sleeping .released)) ∧
     (∀ e, passOutcome s0 a = none → found = some e →
        (e.mult + c.mult.toNat < 2 ^ 32 → (∀ l ∈ (s.slot s.cur).levels.drop 1, l.task ≠ c.task) → (∀ l ∈ (s.slot s.cur).levels, l.task ≠ e.survivor) →
          (∀ q, ∀ x ∈ (s.cluster q).meets, x.survivor = e.survivor → q = cl ∧ x = e) → 
          let after := { e with mult := e.mult + c.mult.toNat, arrivals := min (e.arrivals + 1) (2 ^ 32 - 1) }
          ∃ t, exec (.meet k a tmo decl) s = .next t ∧ (∀ x, t.findTask p c.task = some x → x.state = .merged) ∧
            ((s.slot s.cur).levels.length ≤ 1 → (t.slot s.cur).levels = []) ∧
            (after ∈ (t.cluster cl).meets ∨
              ((∀ x ∈ (t.cluster cl).meets, x.survivor ≠ e.survivor) ∧
                ∀ n cl', s.slotOfTop e.survivor = some n → (s.slot n).restoring = false → (s.slot n).run = .sleeping (.meet cl') →
                  (t.slot n).run = .sleeping .released ∧ (t.slot n).ctx.mult.toNat = after.mult ∧
                  (t.slot n).ctx.mstat.toNat = after.arrivals % 2 ^ 32 * 2 ^ 32))) ∧
        (2 ^ 32 ≤ e.mult + c.mult.toNat → ∃ t, exec (.meet k a tmo decl) s = .next t ∧ Stopped s t (mkFault .mult 2 0 c.mult.toNat) s.pc)))

namespace Sys2Proof.Machine

/-! ### Privileges, scopes and forms -/

/-- The privilege an instruction needs (R291 to R306, R227). -/
def privNeed : Instr → Nat
  | .ctlw _ _ r => if r = .adoptmax ∨ r = .savebase ∨ r = .deqbase ∨ r = .asid then 1 else 0
  | .stest .. | .freeze .. | .resumeSResume .. | .resumeSFail .. | .resumeSKill .. | .resumeJReplay .. | .vacate .. | .stopcut ..
  | .tlbinvAsid .. | .tlbinvPage .. | .tlbinvPart .. | .bbox .. => 1
  | .resumeHRelease .. | .resumePRelease .. => 2
  | _ => 0

/-- The instructions that a merged task may not issue, and that check nothing before (R101, R180, R252). -/
def onceOnly : Instr → Bool
  | .chunk .. | .amoswap .. | .amocas .. | .lrw .. | .sch .. | .schDrop .. | .lkacq .. | .qres .. | .qfil .. | .qenq .. | .qdeq .. => true
  | _ => false

/-- The scope operand of an instruction that checks it before its access (R160). -/
def scopeOf : Instr → Option Scope
  | .cinv _ sc _ _ | .cwb _ sc _ _ | .fence _ _ sc | .lda _ _ sc _ _ | .stl _ _ _ sc _ _ => some sc
  | .amoadd _ _ _ sc _ _ _ | .amoand _ _ _ sc _ _ _ | .amoor _ _ _ sc _ _ _ | .amoxor _ _ _ sc _ _ _ | .amomin _ _ _ sc _ _ _
  | .amomax _ _ _ sc _ _ _ | .amoswap _ _ _ sc _ _ _ | .amoswapOnce _ _ _ sc _ _ _ | .amocas _ _ _ sc _ _ _ | .amocasOnce _ _ _ sc _ _ _
  | .amofadd _ _ _ sc _ _ _ | .sch _ _ _ sc _ _ _ | .schDrop _ _ _ sc _ _ _ => some sc
  | .redAdd _ _ _ sc _ _ | .redAnd _ _ _ sc _ _ | .redOr _ _ _ sc _ _ | .redXor _ _ _ sc _ _ | .redMin _ _ _ sc _ _ | .redMax _ _ _ sc _ _
  | .redFadd _ _ _ sc _ _ | .lrw _ _ _ sc _ _ => some sc
  | .barinit _ _ sc _ _ _ | .bararv _ _ sc _ _ _ | .bararvB _ _ sc _ _ _ | .barwt _ _ sc _ _ _ | .bartst _ _ sc _ _ _
  | .barwtt _ _ sc _ _ _ _ | .barexit _ _ sc _ => some sc
  | .lkacq _ sc _ _ | .lkrel _ _ sc _ _ => some sc
  | _ => none

/-- A plain scalar access: its operand and its size. -/
def plainForm : Instr → Option (MemOp × Nat)
  | .ld _ t o _ | .st _ t o _ => some (o, t.width / 8)
  | .ldq _ o _ | .stq _ o _ => some (o, 16)
  | _ => none

/-! ### Control registers and commands (R292, R295 to R301) -/

/-- A control register's number (R265, R292). -/
def ctlValue (s : State) : CtlReg → Nat
  | .task => s.ctx.task.toNat
  | .mult => s.ctx.mult.toNat
  | .mstat => s.ctx.mstat.toNat
  | .group => s.ctx.group.toNat
  | .fgroup => s.ctx.fgroup.toNat
  | .stealdom => s.ctx.stealdom.toNat
  | .fstat => s.ctx.fstat.toNat
  | .tidbase => ((s.slot s.cur).reg (s.thr s.cur).part).tidbase.toNat
  | .adoptmax => ((s.slot s.cur).reg (s.thr s.cur).part).adoptmax.toNat
  | .savebase => ((s.slot s.cur).reg (s.thr s.cur).part).savebase.toNat
  | .deqbase => ((s.core (s.thr s.cur).core).deqbase.getD (s.thr s.cur).part 0).toNat
  | .asid => ((s.slot s.cur).reg (s.thr s.cur).part).asid.toNat
  | .priv => (s.slot s.cur).priv.toNat
  | .slot => s.cur
  | .part => (s.thr s.cur).part

/-- What a writable control register holds after a write of `w` (R69, R241, R292). -/
def ctlWritten (w : Nat) : CtlReg → Option Nat
  | .mult => some w
  | .fgroup => some (w % 2 ^ 16)
  | .stealdom => some (w % 4)
  | .fstat => some (w % 64)
  | .tidbase | .savebase => some (w % 2 ^ 56 / 64 * 64)
  | .adoptmax => some (if w % 8 = 0 then 1 else w % 8)
  | .deqbase => some (w % 2 ^ 16 / 64 * 64)
  | .asid => some (w % 2 ^ 11)
  | _ => none

/-- A command has completed with status `v` for d and its black-box record (R299 to R301, R328). -/
structure CommandEnd (s t : State) (k : Enc) (op : Nat) (target : Word) (d : Reg) (v : Nat) : Prop where
  goes    : Goes s t k (s.after k)
  pending : (t.slot s.cur).pending = (s.slot s.cur).pending ++ [resX d (BitVec.ofNat 64 v)]
  regs    : ∀ r, t.getX r = s.getX r
  box     : BoxNext s t (dieOfCore (s.thr s.cur).core) fun r =>
    r.kind = 2 ∧ r.code = BitVec.ofNat 16 op ∧ r.word0 = target ∧ r.word1 = BitVec.ofNat 64 v

/-- Nothing but the issuing slot's and the black box's state has changed. -/
def OnlyReported (s t : State) : Prop := t = { s with slots := t.slots, dies := t.dies } ∧ ∀ n, n ≠ s.cur → t.slot n = s.slot n

/-- A core that a rectangle names (R159). -/
def named (rect : Word) (c : Nat) : Prop :=
  rect.toNat % 256 ≤ c % 48 ∧ c % 48 ≤ rect.toNat / 2 ^ 16 % 256 ∧ rect.toNat / 2 ^ 8 % 256 ≤ c / 48 ∧ c / 48 ≤ rect.toNat / 2 ^ 24 % 256

end Sys2Proof.Machine

/-- R60, R76, R101, R111, R144, R160, R180, R252, R278 to R282, R294: SVC and BRK stop their thread after the instruction. A privileged instruction below its
privilege is ILLEGAL with cause 7, a single-issue one of a merged task, CHUNK and AMSG of a valid target among them, MULT with cause 1, a bad rectangle ILLEGAL with
cause 8 (these before every check of R144: log 43), VCVT with an invalid scale SCALE with cause 2, and a misaligned plain access MISALIGN; each stops the thread on
its instruction. -/
def Obligations.Stops : Prop :=
  (∀ (s : State) (k : Enc) (code : BitVec 24), s.cur < slotCount → s.memOk = true →
    (∃ t, exec (.svc k code) s = .next t ∧ Stopped s t (mkFault .svc 0 s.pc code.toNat) (s.after k)) ∧
    (∃ t, exec (.brk k code) s = .next t ∧ Stopped s t (mkFault .brk 0 s.pc code.toNat) (s.after k))) ∧
  (∀ (i : Instr) (s : State), s.cur < slotCount → s.memOk = true →
    ((s.slot s.cur).priv.toNat < privNeed i →
      ∃ t, exec i s = .next t ∧ Stopped s t (mkFault .illegal 7 (firstWord i) 0) s.pc) ∧
    (onceOnly i = true → 1 < s.ctx.mult.toNat →
      ∃ t, exec i s = .next t ∧ Stopped s t (mkFault .mult 1 0 s.ctx.mult.toNat) s.pc) ∧
    (∀ k imm kr b c x, i = .amsg k imm kr b c → s.target (s.thr s.cur).part (s.getX kr) = .ok x → 1 < s.ctx.mult.toNat →
      ∃ t, exec i s = .next t ∧ Stopped s t (mkFault .mult 1 0 s.ctx.mult.toNat) s.pc) ∧
    (∀ k dst src mode rm p m d a b, i = .vcvt k dst src mode rm p m d a b → mode ≠ .none → ¬ validScale (s.u b % 2 ^ 32) →
      ∃ t, exec i s = .next t ∧ Stopped s t (mkFault .scale 2 (BitVec.ofNat 64 (s.u b % 2 ^ 32)) b.toNat) s.pc) ∧
    (∀ r, scopeOf i = some (.rect r) → rectOk (s.getX r) = false → s.ctx.mult.toNat ≤ 1 →
      ∃ t, exec i s = .next t ∧ Stopped s t (mkFault .illegal 8 (firstWord i) r.toNat) s.pc) ∧
    (∀ o n, plainForm i = some (o, n) → i.wf = true → localLayout o.pl (s.getX o.base + o.off) n = .ok () → (s.getX o.base + o.off).toNat % n ≠ 0 →
      ∃ t, exec i s = .next t ∧ Stopped s t (mkFault .misalign 0 (s.getX o.base + o.off) 0) s.pc))

/-- R69, R241, R265, R266, R292, R293: CTLR returns every control register; CTLW of a writable one stores the bits it has, ADOPTMAX at least 1, and changes no other
control register and no general one; one of MSTAT or GROUP is ignored. A MULT outside 1 to 2^32 − 1 stops with MULT cause 3. -/
def Obligations.ControlRegisters : Prop :=
  ∀ (s : State) (k : Enc) (d a : Reg) (r : CtlReg),
    (∃ t, exec (.ctlr k d r) s = .next t ∧ Requested s t k [resX d (BitVec.ofNat 64 (ctlValue s r))] ∧ t = { s with slots := t.slots }) ∧
    (∀ v, ctlWritten (s.u a) r = some v → privNeed (.ctlw k a r) ≤ (s.slot s.cur).priv.toNat → (r = .mult → 0 < s.u a ∧ s.u a < 2 ^ 32) →
      ∃ t, exec (.ctlw k a r) s = .next t ∧ Goes s t k (s.after k) ∧ ctlValue t r = v ∧ (∀ q, q ≠ r → ctlValue t q = ctlValue s q) ∧
        (∀ x, t.getX x = s.getX x) ∧ (∀ x, t.getV x = s.getV x) ∧ (∀ x, t.getM x = s.getM x) ∧
        (t.slot s.cur).levels = (s.slot s.cur).levels ∧ (t.slot s.cur).pending = (s.slot s.cur).pending ∧
        (∀ n, n ≠ s.cur → t.slot n = s.slot n) ∧ t = { s with slots := t.slots, cores := t.cores }) ∧
    (r = .mstat ∨ r = .group → ∃ t, exec (.ctlw k a r) s = .next t ∧ Requested s t k [] ∧ t = { s with slots := t.slots }) ∧
    (r = .mult → (s.u a = 0 ∨ 2 ^ 32 ≤ s.u a) → s.cur < slotCount → s.memOk = true →
      ∃ t, exec (.ctlw k a r) s = .next t ∧ Stopped s t (mkFault .mult 3 (s.getX a) s.ctx.mult.toNat) s.pc)

/-- R97, R205, R275, R278, R283, R298, R299, R301: FREEZE stops another slot of its partition as it stands and returns 0, 1 for a frozen one and 2 for none. RESUME.S
returns 2, 1 and 3 alike; its resume makes the slot ready, or a survivor's slot wait or go on from its meet, with its context corrected, forgets its packet and lifts the hold
of a cut, and its kill, or a fail at depth 0, fails every task of the chain and leaves the slot idle. RESUME.J queues a frozen job again; RESUME.H and RESUME.P release a
host function and a port. RESUME.S returns 3 for a depth beyond the chain and 5 while a cut of its partition is open; a fail at a depth above 0 fails the tasks from that depth
up, and the task below goes on from its frame, its POPB or STEAL with status 4 (R244, R247). That RESUME.S reads all of its register as the slot and RESUME.J the low 32 bits as the id is log 60, and RESUME.P's links 0 to 23 with any die 0 to
5 log 22. -/
def Obligations.Commands : Prop :=
  ∀ (s : State) (k : Enc) (d a b : Reg),
    let p := (s.thr s.cur).part
    let cmd := s.u b % 256
    let frozen (n : Nat) : Prop := ∃ f h, (s.slot n).run = .frozen f h
    let corrected (c : Ctx) : Ctx :=
      { c with
        bbValid := if 128 < c.bbValid.toNat then 128 else c.bbValid
        bbData := BitVec.ofNat 128 (c.bbData.toNat % 2 ^ c.bbValid.toNat)
        mult := if c.mult = 0 then 1 else c.mult }
    (1 ≤ (s.slot s.cur).priv.toNat →
      (let n := s.u a % 2 ^ 15
       let bad := slotCount ≤ n ∨ n = s.cur ∨ ((s.slot s.cur).priv.toNat < 2 ∧ s.slotPart? n ≠ some p)
       (bad → ∃ t, exec (.freeze k d a) s = .next t ∧ CommandEnd s t k 0xE4 (BitVec.ofNat 64 n) d 2 ∧ OnlyReported s t) ∧
       (¬ bad → frozen n → ∃ t, exec (.freeze k d a) s = .next t ∧ CommandEnd s t k 0xE4 (BitVec.ofNat 64 n) d 1 ∧
          ∀ m, m ≠ s.cur → t.slot m = s.slot m) ∧
       (¬ bad → ¬ frozen n → (s.slot n).restoring = false →
          ∃ t h, exec (.freeze k d a) s = .next t ∧ CommandEnd s t k 0xE4 (BitVec.ofNat 64 n) d 0 ∧ (t.slot n).run = .frozen .freeze h ∧
            (t.slot n).ctx = (s.slot n).deliverAll.ctx ∧ (t.slot n).levels = (s.slot n).levels ∧ ∀ m, m ≠ s.cur → m ≠ n → t.slot m = s.slot m)) ∧
      (∀ i : Instr, i = .resumeSResume k d a b ∨ i = .resumeSFail k d a b ∨ i = .resumeSKill k d a b →
        let n := s.u a
        let depth := s.u b / 256 % 256
        let mine := n < slotCount ∧ s.slotPart? n = some p
        (¬ mine → ∃ t, exec i s = .next t ∧ CommandEnd s t k 0xE5 (s.getX a) d 2 ∧ ∀ m, m ≠ s.cur → t.slot m = s.slot m) ∧
        (mine → ¬ frozen n → ∃ t, exec i s = .next t ∧ CommandEnd s t k 0xE5 (s.getX a) d 1 ∧ ∀ m, m ≠ s.cur → t.slot m = s.slot m) ∧
        (mine → frozen n → cmd = 0 ∨ 3 < cmd → ∃ t, exec i s = .next t ∧ CommandEnd s t k 0xE5 (s.getX a) d 3 ∧ ∀ m, m ≠ s.cur → t.slot m = s.slot m) ∧
        (mine → frozen n → (s.slot n).stands = none →
          let top := (s.slot n).levels.length - 1
          (cmd = 2 → (s.slot n).levels = [] ∨ top < depth →
            ∃ t, exec i s = .next t ∧ CommandEnd s t k 0xE5 (s.getX a) d 3 ∧ ∀ m, m ≠ s.cur → t.slot m = s.slot m) ∧
          ((∃ h, (s.slot n).run = .frozen .cut h) → (s.part p).cut ≠ none → cmd = 1 ∨ cmd = 3 ∨ (cmd = 2 ∧ (s.slot n).levels ≠ [] ∧ depth ≤ top) →
            ∃ t, exec i s = .next t ∧ CommandEnd s t k 0xE5 (s.getX a) d 5 ∧ ∀ m, m ≠ s.cur → t.slot m = s.slot m)) ∧
        (mine → n ≠ s.cur → (s.slot n).levels ≠ [] → (s.slot n).restoring = false → (s.slot n).stands = none → s.owns p n = true →
          ∀ f h, (s.slot n).run = .frozen f h → (f = .cut → (s.part p).cut = none) →
          (cmd = 1 →
            ∃ t, exec i s = .next t ∧ CommandEnd s t k 0xE5 (s.getX a) d 0 ∧ (∀ m, m ≠ s.cur → m ≠ n → t.slot m = s.slot m) ∧
              p ∉ (t.cluster (clusterOfCore (coreOfSlot n))).held ∧
              let c := corrected (s.slot n).ctx
              t.slot n = { s.slot n with
                packet := none, stepArmed := (s.slot n).step
                run := (match h with | .none => .ready | .parked cl => .sleeping (.meet cl) | .released _ _ | .passed => .sleeping .released)
                ctx := (match h with | .released m ms => { c with mult := m, mstat := ms } | _ => c) }) ∧
          (cmd = 3 ∨ (cmd = 2 ∧ depth = 0) →
            ∃ t v, exec i s = .next t ∧ CommandEnd s t k 0xE5 (s.getX a) d v ∧ (v = 0 ∨ v = 6) ∧ (t.slot n).run = .idle ∧ (t.slot n).levels = [] ∧
              (t.slot n).packet = none ∧ ∀ l ∈ (s.slot n).levels, l.inline = false → ∀ e, t.findTask p l.task = some e → e.state = .failed) ∧
          (cmd = 2 → ∀ gone l next rest fs x, (s.slot n).levels = gone ++ l :: next :: rest → rest.length + 1 = depth →
            (∀ g ∈ gone ++ [l], if g.inline then hasFuture g.fplace = false
              else ∀ e, s.findTask p g.task = some e → hasFuture e.fplace = false ∧ e.entries = []) →
            let w := { s with cur := n }
            s.clean → s.poison = [] → s.checkFrame (s.thr n) .load (s.frameAddr n rest.length) = .ok fs → (∀ q ∈ fs, w.plainRun q ∧ w.held q) →
            pointsHold w fs x → x < 2 ^ 19456 → x.testBit 19396 = true →
            ∃ t, exec i s = .next t ∧ CommandEnd s t k 0xE5 (s.getX a) d 0 ∧ RestoredBelow t n (next :: rest) x l.status 4 ∧
              (t.slot n).packet = none ∧
              ∀ g ∈ gone ++ [l], g.inline = false → ∀ e, t.findTask p g.task = some e → e.state = .failed))) ∧
      (let i : Instr := .resumeJReplay k d a b
       (∀ c, s.findJob p ((s.getX a).setWidth 32) = .error c → ∃ t, exec i s = .next t ∧ CommandEnd s t k 0xE5 (s.getX a) d 2 ∧ OnlyReported s t) ∧
       (∀ cl e j, s.findJob p ((s.getX a).setWidth 32) = .ok (cl, e, j) →
         (j.state ≠ .frozen → ∃ t, exec i s = .next t ∧ CommandEnd s t k 0xE5 (s.getX a) d 1 ∧ OnlyReported s t) ∧
         (j.state = .frozen → cmd ≠ 1 → ∃ t, exec i s = .next t ∧ CommandEnd s t k 0xE5 (s.getX a) d 3 ∧ OnlyReported s t) ∧
         (j.state = .frozen → cmd = 1 → j.packet ≠ none → ∃ t, exec i s = .next t ∧ CommandEnd s t k 0xE5 (s.getX a) d 4 ∧ OnlyReported s t) ∧
         (j.state = .frozen → cmd = 1 → j.packet = none →
           ∃ t, exec i s = .next t ∧ CommandEnd s t k 0xE5 (s.getX a) d 0 ∧
             t.job? cl e = some { j with state := .queued, replays := if j.replays = 255 then 255 else j.replays + 1, elems := 0 } ∧
             ∀ f, f ≠ e → t.job? cl f = s.job? cl f)))) ∧
    (2 ≤ (s.slot s.cur).priv.toNat →
      (let f := s.u a % 2 ^ 16
       let i : Instr := .resumeHRelease k d a b
       (16 ≤ f → ∃ t, exec i s = .next t ∧ CommandEnd s t k 0xE5 (s.getX a) d 2 ∧ OnlyReported s t) ∧
       (f < 16 → (s.hostFn f).frozen = false → ∃ t, exec i s = .next t ∧ CommandEnd s t k 0xE5 (s.getX a) d 1 ∧ OnlyReported s t) ∧
       (f < 16 → (s.hostFn f).frozen = true → cmd ≠ 1 → ∃ t, exec i s = .next t ∧ CommandEnd s t k 0xE5 (s.getX a) d 3 ∧ OnlyReported s t) ∧
       (f < 16 → (s.hostFn f).frozen = true → cmd = 1 →
         ∃ t, exec i s = .next t ∧ CommandEnd s t k 0xE5 (s.getX a) d 0 ∧ t.hostFn f = { s.hostFn f with frozen := false } ∧
           ∀ g, g ≠ f → t.hostFn g = s.hostFn g)) ∧
      (let l := s.u a % 32
       let ok := l < 24 ∧ s.u a / 32 % 2 ^ 11 < 6
       let i : Instr := .resumePRelease k d a b
       (¬ ok → ∃ t, exec i s = .next t ∧ CommandEnd s t k 0xE5 (s.getX a) d 2 ∧ OnlyReported s t) ∧
       (ok → (s.link l).frozen = false → ∃ t, exec i s = .next t ∧ CommandEnd s t k 0xE5 (s.getX a) d 1 ∧ OnlyReported s t) ∧
       (ok → (s.link l).frozen = true → cmd ≠ 1 → ∃ t, exec i s = .next t ∧ CommandEnd s t k 0xE5 (s.getX a) d 3 ∧ OnlyReported s t) ∧
       (ok → (s.link l).frozen = true → cmd = 1 →
         ∃ t, exec i s = .next t ∧ CommandEnd s t k 0xE5 (s.getX a) d 0 ∧ t.link l = { s.link l with frozen := false } ∧
           ∀ g, g ≠ l → t.link g = s.link g)))

/-- R286, R290, R300, R301: VACATE returns 4 for a partition that only root may name, 2 where it names no core of the partition, 3 where it would leave none, 5 where it
names the supervisor's core, 1 where a group with members would lose its cluster, 6 where a chain's frame can not be stored; where nothing refuses it, the partition's core set loses exactly the named cores. STOPCUT refuses alike, opens a cut of the named cores, whose
slots of the partition freeze while no other slot changes, and sleeps; once the cut has closed it returns the sum. That the issuing slot is not stopped by its own cut, and that a
second STOPCUT of the partition waits, is log 63. -/
def Obligations.VacatesAndCuts : Prop :=
  ∀ (s : State) (k : Enc) (d a b : Reg), 1 ≤ (s.slot s.cur).priv.toNat → rectOk (s.getX a) = true →
    let p := s.u b % 16
    let rect := s.getX a
    let has (c : Nat) : Prop := c < 1152 ∧ (s.part p).cfg.cores.getLsbD c = true
    let foreign := p ≠ (s.thr s.cur).part ∧ (s.slot s.cur).priv.toNat < 2
    (foreign →
      (∃ t, exec (.vacate k d a b) s = .next t ∧ CommandEnd s t k 0xE6 rect d 4 ∧ OnlyReported s t) ∧
      ((∀ n, (s.slot s.cur).cont ≠ .cutSum n) → ∃ t, exec (.stopcut k d a b) s = .next t ∧ CommandEnd s t k 0xE7 rect d 4 ∧ OnlyReported s t)) ∧
    (¬ foreign →
      ((∀ c, has c → ¬ named rect c) →
        (∃ t, exec (.vacate k d a b) s = .next t ∧ CommandEnd s t k 0xE6 rect d 2 ∧ OnlyReported s t) ∧
        ((∀ n, (s.slot s.cur).cont ≠ .cutSum n) → ∃ t, exec (.stopcut k d a b) s = .next t ∧ CommandEnd s t k 0xE7 rect d 2 ∧ OnlyReported s t)) ∧
      ((∃ c, has c) → (∀ c, has c → named rect c) → ∃ t, exec (.vacate k d a b) s = .next t ∧ CommandEnd s t k 0xE6 rect d 3 ∧ OnlyReported s t) ∧
      ((∃ c, has c ∧ ¬ named rect c) → has (coreOfSlot (s.part p).cfg.supSlot) → named rect (coreOfSlot (s.part p).cfg.supSlot) →
        ∃ t, exec (.vacate k d a b) s = .next t ∧ CommandEnd s t k 0xE6 rect d 5 ∧ OnlyReported s t) ∧
      ((∃ c, has c ∧ named rect c) → (∃ c, has c ∧ ¬ named rect c) →
        ¬ (has (coreOfSlot (s.part p).cfg.supSlot) ∧ named rect (coreOfSlot (s.part p).cfg.supSlot)) →
        let lost (cl : Nat) : Prop := (∃ c, has c ∧ clusterOfCore c = cl) ∧ ∀ c, has c → clusterOfCore c = cl → named rect c
        let members := ∃ cl, lost cl ∧ ∃ g ∈ (s.cluster cl).groups, g.2.part = p ∧ g.2.count ≠ 0
        let unsaved := ∃ c n, has c ∧ named rect c ∧ n ∈ s.slotsHeld p c ∧ s.chainIn p n ≠ [] ∧ ∀ ps, s.vacateFrame p n ≠ .ok ps
        (members → ∃ t, exec (.vacate k d a b) s = .next t ∧ CommandEnd s t k 0xE6 rect d 1 ∧ OnlyReported s t) ∧
        (¬ members → unsaved → ∃ t, exec (.vacate k d a b) s = .next t ∧ CommandEnd s t k 0xE6 rect d 6 ∧ OnlyReported s t)) ∧
      (s.vacateRefusal p (s.coresIn p rect) = 0 → ¬ named rect (coreOfSlot s.cur) → (s.slot s.cur).run ≠ .idle →
        ∃ t, exec (.vacate k d a b) s = .next t ∧ CommandEnd s t k 0xE6 rect d 0 ∧
          ∀ c, c < 1152 → ((t.part p).cfg.cores.getLsbD c = true ↔ has c ∧ ¬ named rect c)) ∧
      ((∃ c, has c ∧ named rect c) → (∀ n, (s.slot s.cur).cont ≠ .cutSum n) →
        ∃ t, exec (.stopcut k d a b) s = .next t ∧ (t.slot s.cur).run = .sleeping (.cut p) ∧ t.pc = s.pc ∧
          ((s.part p).cut.isSome = true → (t.part p).cut = (s.part p).cut ∧ ∀ m, m ≠ s.cur → t.slot m = s.slot m) ∧
          ((s.part p).cut = none →
            (∃ c, (t.part p).cut = some c ∧ c.issuer = s.cur ∧ ∀ x, x ∈ c.cores ↔ has x ∧ named rect x) ∧
            (∀ n, n ≠ s.cur → ¬ (has (coreOfSlot n) ∧ named rect (coreOfSlot n)) → t.slot n = s.slot n) ∧
            (∀ n, n ≠ s.cur → has (coreOfSlot n) → named rect (coreOfSlot n) → (s.part p).cfg.slots.getLsbD (n % 16) = true →
              (s.slotPart? n = some p → (s.slot n).restoring = false →
                (t.slot n).levels = (s.slot n).levels ∧
                ((∃ f h, (s.slot n).run = .frozen f h) → t.slot n = s.slot n) ∧
                ((∀ f h, (s.slot n).run ≠ .frozen f h) → (∃ h, (t.slot n).run = .frozen .cut h) ∧ (t.slot n).ctx = (s.slot n).deliverAll.ctx)) ∧
              (s.slotPart? n ≠ some p → (t.slot n).run = (s.slot n).run ∧ ∃ w f h, (t.slot n).away.get? p = some w ∧ w.run = .frozen f h)) ∧
            ∀ x, has x → named rect x → p ∈ (t.cluster (clusterOfCore x)).held))) ∧
    (∀ n, (s.slot s.cur).cont = .cutSum n → ∃ t, exec (.stopcut k d a b) s = .next t ∧ CommandEnd s t k 0xE7 rect d n ∧ OnlyReported s t)

/-- R302 to R306, R328: TLBINV drops exactly the named entries of every core and cluster and returns 0, and 1 for an ASID of another partition; WAITEV returns the events that
hold and sleeps where it waits for one and none does, its bit 0 ignored at task privilege; TIME returns the cycle; BBOX writes one record and returns its number. -/
def Obligations.SystemServices : Prop :=
  ∀ (s : State) (k : Enc) (d a b : Reg), s.memOk = true →
    let p := (s.thr s.cur).part
    let n := s.u b % 2 ^ 11
    let own := (s.part p).cfg.asidFirst ≤ n ∧ n ≤ (s.part p).cfg.asidLast
    let dropped (t : State) (gone : TlbEntry → Prop) : Prop :=
      (∀ c e, e ∈ (t.core c).utlb ↔ e ∈ (s.core c).utlb ∧ ¬ gone e) ∧ (∀ c e, e ∈ (t.cluster c).tlb ↔ e ∈ (s.cluster c).tlb ∧ ¬ gone e)
    (1 ≤ (s.slot s.cur).priv.toNat →
      (own →
        (∃ t, exec (.tlbinvAsid k d a b) s = .next t ∧ Requested s t k [resX d 0] ∧ BytesKept s t [] ∧ dropped t fun e => e.asid.toNat = n) ∧
        (∃ t, exec (.tlbinvPage k d a b) s = .next t ∧ Requested s t k [resX d 0] ∧ BytesKept s t [] ∧
          dropped t fun e => (e.asid.toNat = n ∨ e.asid = 0) ∧
            e.vpage = s.u a % 2 ^ 56 / 2 ^ (match e.level with | 2 => 30 | 1 => 21 | _ => 16))) ∧
      (¬ own → ∀ i : Instr, i = .tlbinvAsid k d a b ∨ i = .tlbinvPage k d a b →
        ∃ t, exec i s = .next t ∧ Requested s t k [resX d 1] ∧ BytesKept s t [] ∧ dropped t fun _ => False) ∧
      (∃ t, exec (.tlbinvPart k d a b) s = .next t ∧ Requested s t k [resX d 0] ∧ BytesKept s t [] ∧ dropped t fun e => e.part = p) ∧
      (∃ t, exec (.bbox k d a b) s = .next t ∧ Requested s t k [resX d ((s.die (dieOfCore (s.thr s.cur).core)).head.setWidth 64)] ∧
        t = { s with slots := t.slots, dies := t.dies } ∧
        BoxNext s t (dieOfCore (s.thr s.cur).core) fun r => r.kind = 0x10 ∧ r.code.toNat = s.u a % 2 ^ 16 ∧ r.word0 = BitVec.ofNat 64 s.cur ∧
          r.word1 = s.getX b ∧ r.part = BitVec.ofNat 4 p ∧ r.time = BitVec.ofNat 64 s.cycle)) ∧
    (let sup := (s.slot s.cur).priv ≠ 0
     let inbox := sup ∧ s.u a % 2 = 1
     let clock := s.u a / 2 % 2 = 1
     let full := s.inboxTail p ≠ s.inboxHead p
     let late := s.u b ≤ s.cycle
     ((inbox ∨ clock) → ¬ (inbox ∧ full) → ¬ (clock ∧ late) →
        ∃ t m, exec (.waitev k d a b) s = .next t ∧ Sleeps s t (.event m (s.u b) (decide sup)) ∧ t = { s with slots := t.slots }) ∧
     (¬ (inbox ∨ clock) ∨ (inbox ∧ full) ∨ (clock ∧ late) →
        ∃ t v, exec (.waitev k d a b) s = .next t ∧ Requested s t k [resX d (BitVec.ofNat 64 v)] ∧ BytesKept s t [] ∧ AccessOnly s t ∧ v < 4 ∧
          (v % 2 = 1 ↔ inbox ∧ full) ∧ (v / 2 = 1 ↔ clock ∧ late))) ∧
    (∃ t, exec (.time k d) s = .next t ∧ Requested s t k [resX d (BitVec.ofNat 64 s.cycle)] ∧ t = { s with slots := t.slots })

namespace Sys2Proof.Machine

/-! ### Jobs (R191 to R195, R211 to R227) -/

/-- A job has entered the queue of its cluster (R191, R192, R218): the free entry that has been free longest takes it with its generation one higher, d receives
its id, and no other entry changes. -/
structure JobEntered (s t : State) (k : Enc) (d : Reg) (e : Nat) (ok : Job → Prop) : Prop where
  free   : e < 64 ∧ (s.cluster (s.thr s.cur).cluster).entryFree e = true ∧
    ∀ f, f < 64 → (s.cluster (s.thr s.cur).cluster).entryFree f = true →
      (s.cluster (s.thr s.cur).cluster).ended.getD e 0 ≤ (s.cluster (s.thr s.cur).cluster).ended.getD f 0
  job    : ∃ j, t.job? (s.thr s.cur).cluster e = some j ∧ j.gen = (match s.job? (s.thr s.cur).cluster e with | some o => o.gen + 1 | none => 1) ∧
    t.getX d = readBack d (BitVec.ofNat 64 (j.gen.toNat * 2 ^ 16 + (s.thr s.cur).cluster * 2 ^ 8 + e)) ∧
    j.state = .queued ∧ j.part = (s.thr s.cur).part ∧ j.task = s.ctx.task ∧ j.core = (s.thr s.cur).core ∧ j.tidbase = s.tidbase ∧
    j.replays = 0 ∧ j.claims = [] ∧ j.fill = [] ∧ j.elems = 0 ∧ j.arrived = 0 ∧ j.refused = false ∧ j.loaded = false ∧ j.wasFrozen = false ∧ j.packet = none ∧ ok j
  others : ∀ f, f ≠ e → t.job? (s.thr s.cur).cluster f = s.job? (s.thr s.cur).cluster f
  goes   : Goes s t k (s.after k)
  regs   : ∀ r, r ≠ d → t.getX r = s.getX r
  bytes  : BytesKept s t []

/-- The current slot stays on its instruction until an entry is handed to it, or the gang its MXG names forms (R191, R207). -/
def StaysForEntry (s t : State) (gang : Option Word) : Prop :=
  (t.slot s.cur).run = .stalled (.jobEntry (s.thr s.cur).cluster gang) ∧ t.pc = s.pc ∧ (∀ r, t.getX r = s.getX r) ∧
  ∀ e, t.job? (s.thr s.cur).cluster e = s.job? (s.thr s.cur).cluster e

/-- The codes of R223. -/
def stateCode : JobState → Nat
  | .queued => 0 | .awaitingLeave => 1 | .running => 2 | .frozen => 3 | .done => 4 | .cancelled => 5

/-- A status word (R223): for an id that names no entry's job of the partition STATE is 0xE, and for one whose entry has moved on 0xF. -/
def statusWord (s : State) (p : Nat) (id : BitVec 32) : Nat :=
  let n := id.toNat
  let cl := n / 2 ^ 8 % 2 ^ 8
  n * 2 ^ 32 +
    (if 143 < cl ∨ n / 2 ^ 6 % 4 ≠ 0 then 0xE * 2 ^ 28
     else
      match s.job? cl (n % 64) with
      | none => 0xE * 2 ^ 28
      | some j =>
        if j.part ≠ p then 0xE * 2 ^ 28
        else if j.gen.toNat ≠ n / 2 ^ 16 then 0xF * 2 ^ 28
        else stateCode j.state * 2 ^ 28 + (if j.state = .done ∨ j.state = .cancelled then j.fin.toNat * 2 ^ 24 else 0) +
          j.flags.toNat * 2 ^ 16 + j.replays.toNat * 2 ^ 8)

/-- The word of STEST (R204, R227): healthy macro rows, the panel limits of plain and redundant jobs, and whether this test fenced a row. -/
def testWord (healthy : Nat) (now : Prop) [Decidable now] : Nat :=
  healthy + min 16 healthy * 2 ^ 5 + min 8 (healthy / 2) * 2 ^ 10 + if now then 2 ^ 15 else 0

end Sys2Proof.Machine

/-- R191, R193, R207, R208, R212 to R220: MXQ, MXQS, MXLB, CPQ and CPF whose records are read and valid, whose barrier word and scope pass and which may take an entry enter
one job with the snapshot of its records; without an entry they stay on the instruction. MXG waits with a new gang for its partners; its last partner enters the job and hands
every partner the id, and a partner that holds the id completes with it. (ADDR 0 in the packet of a copy that meets itself is log 116, the model's choice; that a gang keeps the
snapshot its first partner read is log 114, the model's choice.) -/
def Obligations.JobQueue : Prop :=
  (∀ (s : State) (k : Enc) (jd : JobDesc) (dup sparse : Bool) (d a b c : Reg) (x y z : State × BitVec 512) (bars : List BarRef), s.cur < slotCount → s.memOk = true →
    let i : Instr := if sparse then .mxqs k jd dup d a b c else .mxq k jd dup d a b c
    s.readRole a .a false (fun n => (n != 0) == sparse) = .ok x → x.1.readRole b .b false (fun n => (n != 0) == sparse) = .ok y →
    y.1.readRole c .c false (fun n => (n != 0) == sparse) = .ok z → matrixAgrees (trec x.2) (trec y.2) (trec z.2) = true →
    s.jobBar jd = .ok bars → s.checkScope jd.sc i = .ok () →
    (∀ e, s.entryFor = some e → ∃ t, exec i s = .next t ∧ JobEntered s t k d e fun j =>
      j.kind = (if sparse then .mxqs else .mxq) ∧ j.recA = x.2 ∧ j.recB = y.2 ∧ j.recC = z.2 ∧ j.dup = dup ∧ j.bars = bars ∧ j.members = [] ∧
        j.tids.toNat = s.u a % 2 ^ 16 + 2 ^ 16 * (s.u b % 2 ^ 16) + 2 ^ 32 * (s.u c % 2 ^ 16)) ∧
    (s.entryFor = none → ∃ t, exec i s = .next t ∧ StaysForEntry s t none)) ∧
  (∀ (s : State) (k : Enc) (jd : JobDesc) (d a : Reg) (x : State × BitVec 512) (bars : List BarRef), s.cur < slotCount → s.memOk = true →
    s.readRole a .b false (fun _ => true) = .ok x → s.jobBar jd = .ok bars → s.checkScope jd.sc (.mxlb k jd d a) = .ok () →
    (∀ e, s.entryFor = some e → ∃ t, exec (.mxlb k jd d a) s = .next t ∧ JobEntered s t k d e fun j =>
      j.kind = .mxlb ∧ j.recB = x.2 ∧ j.dup = false ∧ j.bars = bars ∧ j.members = []) ∧
    (s.entryFor = none → ∃ t, exec (.mxlb k jd d a) s = .next t ∧ StaysForEntry s t none)) ∧
  (∀ (s : State) (k : Enc) (jd : JobDesc) (fill : Bool) (d a b : Reg) (x y : State × BitVec 512) (bars : List BarRef), s.cur < slotCount → s.memOk = true →
    let i : Instr := if fill then .cpf k jd d a b else .cpq k jd d a b
    s.readRole a .src false (fun _ => true) = .ok x → x.1.readRole b .dst false (fun _ => true) = .ok y →
    copyAgrees (trec x.2) (trec y.2) fill = true → s.jobBar jd = .ok bars → s.checkScope jd.sc i = .ok () →
    ((∃ r ∈ footOf (s.thr s.cur) (trec x.2) false, ∃ w ∈ footOf (s.thr s.cur) (trec y.2) true, y.1.meets r w = true) →
      ∃ t, exec i s = .next t ∧ Stopped s t (mkFault .job 5 0 0) s.pc) ∧
    ((∀ r ∈ footOf (s.thr s.cur) (trec x.2) false, ∀ w ∈ footOf (s.thr s.cur) (trec y.2) true, y.1.meets r w = false) →
    (∀ e, s.entryFor = some e → ∃ t, exec i s = .next t ∧ JobEntered s t k d e fun j =>
      j.kind = (if fill then .cpf else .cpq) ∧ j.recA = x.2 ∧ j.recB = y.2 ∧ j.dup = false ∧ j.bars = bars) ∧
    (s.entryFor = none → ∃ t, exec i s = .next t ∧ StaysForEntry s t none))) ∧
  (∀ (s : State) (k : Enc) (jd : JobDesc) (dup : Bool) (g d a b c : Reg) (x y z : State × BitVec 512) (bars : List BarRef), s.memOk = true →
    let i : Instr := .mxg k jd dup g d a b c
    let cl := (s.thr s.cur).cluster
    let me := coreIndex (s.thr s.cur).core
    let w := s.u g
    (∀ id, (s.slot s.cur).cont = .gangJob id →
      ∃ t, exec i s = .next t ∧ t.getX d = readBack d (id.setWidth 64) ∧ Computed s t k (s.after k) 0 [d] [] []) ∧
    (s.cur < slotCount → (∀ id, (s.slot s.cur).cont ≠ .gangJob id) →
      s.readRole a .a true (fun _ => true) = .ok x →
      (∀ low, low < 8 → w.testBit low = true → (∀ n, n < low → w.testBit n = false) →
        x.1.readRoleAt (coreOfIndex cl low) b .b true (fun _ => true) = .ok y) →
      y.1.readRole c .c true (fun _ => true) = .ok z →
      matrixAgrees (trec x.2) (trec y.2) (trec z.2) = true → s.jobBar jd = .ok bars → s.checkScope jd.sc i = .ok () →
      w < 2 ^ 16 → 2 ≤ ((List.range 8).filter w.testBit).length → w.testBit me = true →
      let mine (q : Gang) : Prop := q.part = (s.thr s.cur).part ∧ q.members.toNat = w % 2 ^ 8 ∧ q.tag.toNat = w / 2 ^ 8
      ((∀ q ∈ (s.cluster cl).gangs, ¬ mine q) → s.entryFor = none → ∃ t, exec i s = .next t ∧ StaysForEntry s t (some (s.getX g))) ∧
      ((∀ q ∈ (s.cluster cl).gangs, ¬ mine q) → ∀ e, s.entryFor = some e →
        ∃ t q, exec i s = .next t ∧ (t.slot s.cur).run = .sleeping (.gang cl e) ∧ t.pc = s.pc ∧ q ∈ (t.cluster cl).gangs ∧ mine q ∧ q.entry = e ∧
          q.recA = x.2 ∧ q.recB = y.2 ∧ q.recC = z.2 ∧ q.dup = dup ∧ q.joined = [(me, s.cur, bars.head?)] ∧ BytesKept s t [] ∧
          ∀ n, n ≠ s.cur → coreOfSlot n < 1152 → clusterOfCore (coreOfSlot n) = cl → s.slotPart? n = some (s.thr s.cur).part →
            (s.slot n).run = .stalled (.jobEntry cl (some (s.getX g))) → (t.slot n).run = .ready) ∧
      (∀ q, q ∈ (s.cluster cl).gangs → mine q → (∀ q' ∈ (s.cluster cl).gangs, mine q' ∨ q'.entry = q.entry → q' = q) →
        q.dup = dup → q.scope = jd.sc → q.greg = g →
        q.tids.toNat = s.u a % 2 ^ 16 + 2 ^ 16 * (s.u b % 2 ^ 16) + 2 ^ 32 * (s.u c % 2 ^ 16) →
        (∀ j ∈ q.joined, j.1 ≠ me ∧ (j.1 < 8 → w.testBit j.1 = true)) → (∀ n, n < 8 → w.testBit n = true → n ≠ me → ∃ j ∈ q.joined, j.1 = n) →
        ∃ t j id, exec i s = .next t ∧ t.job? cl q.entry = some j ∧ j.state = .queued ∧ j.kind = .mxg ∧ j.recA = q.recA ∧ j.recB = q.recB ∧
          j.recC = q.recC ∧ j.dup = dup ∧ (∀ n, n < 8 → (w.testBit n = true ↔ coreOfIndex cl n ∈ j.members)) ∧
          id = j.gen.toNat * 2 ^ 16 + cl * 2 ^ 8 + q.entry ∧ t.getX d = readBack d ((BitVec.ofNat 32 id).setWidth 64) ∧ t.pc = s.after k ∧
          q ∉ (t.cluster cl).gangs ∧ ∀ n ∈ q.joined, n.2.1 ≠ s.cur → (s.slot n.2.1).run = .sleeping (.gang cl q.entry) →
            s.slotPart? n.2.1 = some q.part → (t.slot n.2.1).cont = .gangJob (BitVec.ofNat 32 id))))

/-- R194, R204, R212, R223 to R228: a record read comes from the record cache or, without an entry, from its 64 bytes of memory; TIDFENCE drops one record and TIDFENCE.ALL every record
of the partition. JTEST returns the status word, STATE 0xE for an id whose entry holds no job of the partition before GEN is compared (log 117, the model's choice), and JWAIT of a job that has ended too, and sleeps before; JCANCEL cancels a job that has not ended, a frozen one only with
supervisor privilege. STEST waits for the matrix engine, fences the rows it finds failing and returns what is left. -/
def Obligations.JobWatch : Prop :=
  ∀ (s : State) (k : Enc) (d a : Reg), s.memOk = true →
    let p := (s.thr s.cur).part
    let cl := (s.thr s.cur).cluster
    let id : BitVec 32 := BitVec.ofNat 32 (s.u a)
    let rest (t : State) : Prop := t = { s with slots := t.slots, clusters := t.clusters } ∧
      ∀ c, t.cluster c = { s.cluster c with records := (t.cluster c).records }
    (∀ tid : BitVec 16,
      let mine (e : RecEntry) : Prop := e.part = p ∧ e.tidbase = s.tidbase ∧ e.tid = tid
      (∀ e, e ∈ (s.cluster cl).records → mine e → (∀ f ∈ (s.cluster cl).records, mine f → f = e) → ∃ t, s.readRecord tid = .ok (t, e.data)) ∧
      ((∀ e ∈ (s.cluster cl).records, ¬ mine e) →
        ∀ ps, s.check (s.thr s.cur) .g .load false (s.tidbase + BitVec.ofNat 64 (64 * tid.toNat)) 64 64 0 = .ok ps →
          ∃ x, s.readRecord tid = .ok x ∧ LoadedFrom s ps x.2.toNat s.sees ∧ BytesKept s x.1 [])) ∧
    (∃ t, exec (.tidfence k a) s = .next t ∧ Requested s t k [] ∧ rest t ∧
      ∀ c e, e ∈ (t.cluster c).records ↔ e ∈ (s.cluster c).records ∧ ¬ (c = cl ∧ e.part = p ∧ e.tidbase = s.tidbase ∧ e.tid.toNat = s.u a % 2 ^ 16)) ∧
    (∃ t, exec (.tidfenceAll k) s = .next t ∧ Requested s t k [] ∧ rest t ∧
      ∀ c e, e ∈ (t.cluster c).records ↔ e ∈ (s.cluster c).records ∧ ¬ (c = cl ∧ e.part = p)) ∧
    (∃ t, exec (.jtest k d a) s = .next t ∧ Requested s t k [resX d (BitVec.ofNat 64 (statusWord s p id))] ∧ BytesKept s t [] ∧ AccessOnly s t) ∧
    ((∀ c e j, s.findJob p id = .ok (c, e, j) → j.state = .done ∨ j.state = .cancelled) →
      ∃ t, exec (.jwait k d a) s = .next t ∧ Requested s t k [resX d (BitVec.ofNat 64 (statusWord s p id))] ∧ BytesKept s t [] ∧ AccessOnly s t) ∧
    (∀ c e j, s.findJob p id = .ok (c, e, j) →
      (j.state ≠ .done → j.state ≠ .cancelled → ∃ t, exec (.jwait k d a) s = .next t ∧ Sleeps s t (.job id) ∧ t = { s with slots := t.slots }) ∧
      (let sup := (s.slot s.cur).priv ≠ 0
       ∃ t j', exec (.jcancel k d a) s = .next t ∧ t.job? c e = some j' ∧ j'.gen = j.gen ∧ t.pc = s.after k ∧
        (t.slot s.cur).pending = (s.slot s.cur).pending ++ [resX d (BitVec.ofNat 64 (statusWord t p id))] ∧
        (j.state = .queued ∨ j.state = .awaitingLeave → j'.state = .cancelled ∧ (j.bars = [] → j.refused = false → j'.fin = 2)) ∧
        (j.state = .running ∨ (j.state = .frozen ∧ sup) → j'.state = .cancelled ∧ (j.bars = [] → j.refused = false → j'.fin = 3)) ∧
        (j.state = .done ∨ j.state = .cancelled ∨ (j.state = .frozen ∧ ¬ sup) → j' = j))) ∧
    ((∀ c, s.findJob p id = .error c → ∃ t, exec (.jcancel k d a) s = .next t ∧ Requested s t k [resX d (BitVec.ofNat 64 (statusWord s p id))] ∧
        t = { s with slots := t.slots })) ∧
    (1 ≤ (s.slot s.cur).priv.toNat →
      (s.matrixRuns cl = true → ∃ t, exec (.stest k d) s = .next t ∧ (t.slot s.cur).run = .sleeping (.engine cl) ∧
        (t.slot s.cur).cont = .stest ∧ t.pc = s.pc ∧ t = { s with slots := t.slots } ∧ ∀ m, m ≠ s.cur → t.slot m = s.slot m) ∧
      (∀ n, n < slotCount → ((s.slot n).cont = .stest ∨ ∃ e ∈ (s.slot n).away, e.2.cont = .stest) → exec (.jobStart (clusterOfCore (coreOfSlot n)) true) s = .next s) ∧
      (s.matrixRuns cl = false → (s.cluster cl).fenced ≤ 18 →
        ∃ t n, exec (.stest k d) s = .next t ∧ (t.cluster cl).fenced = (s.cluster cl).fenced + n ∧ (s.cluster cl).fenced + n ≤ 18 ∧
          (t.cluster cl).testDue = false ∧ Requested s t k [resX d (BitVec.ofNat 64 (testWord (18 - (s.cluster cl).fenced - n) (n ≠ 0)))] ∧
          BoxNext s t (dieOfCluster cl) fun r => r.kind = 7 ∧ r.code = BitVec.ofNat 16 cl))

namespace Sys2Proof.Machine

/-! ### Events (R19, R21, R32, R33, R172, R185, R254 to R263, R273, R274) -/

/-- No slot changes but one. -/
def OnlySlot (s t : State) (n : Nat) : Prop := t = { s with slots := t.slots } ∧ ∀ m, m ≠ n → t.slot m = s.slot m

/-- When the condition of a sleeper of slot `n` holds (R36), for waits that one reading decides. -/
def wakesOn (s : State) (n : Nat) : Wait → Option Prop
  | .barrier l tag gen _ => some (barGen (s.locRead l tag 16) ≠ gen.toNat)
  | .reserve l => some (∀ r, s.resvAt l = some r → r.queue.head? = some (s.slot n).ctx.task)
  | .job id => some (∀ c e j, s.findJob (s.thr n).part id = .ok (c, e, j) → j.state = .done ∨ j.state = .cancelled)
  | .group g => some (∀ e, s.groupOf (s.thr n).part (g.setWidth 64) = some e → e.count = 0)
  | .cut q => some ((∃ m, (s.slot n).cont = .cutSum m) ∨ (s.part q).cut = none)
  | .claim c r => some (s.claimsOn c r = 0)
  | .engine cl => some (s.matrixRuns cl = false)
  | .meet _ | .released => some False
  | _ => none

end Sys2Proof.Machine

/-- R19, R21, R33, R36, R175, R185, R237, R262, R273, R274: a returning result enters its register and drops earlier results of that register, and the last one readies a parked
slot; a sleeper wakes where its condition holds and its context has been read, a timed one at its deadline, a stalled one where its message or its task has room; a meet entry leaves
once the cycle of its deadline has passed, with its survivor released, and the survivor goes on after its MEET, with an acquire at its group's cluster. No other slot changes, and an
event whose case does not hold changes nothing. (That room for a message or a task, as a wake, only makes the slot ready, and its instruction issues again, is log 69, the model's
reading.) -/
def Obligations.ThreadEvents : Prop :=
  ∀ (s : State) (n : Nat),
    let v := s.slot n
    let readied (i : Instr) : Prop := ∃ t, exec i s = .next t ∧ OnlySlot s t n ∧ t.slot n = { v with run := .ready }
    (∀ idx r, v.pending[idx]? = some r →
      ∃ t, exec (.memoryResultReturn n idx) s = .next t ∧ OnlySlot s t n ∧
        t.slot n = { v with run := (t.slot n).run, ctx := (t.slot n).ctx, pending := (t.slot n).pending } ∧
        (t.slot n).pending = ((v.pending.take idx).filter fun e => !(e.isVec == r.isVec && e.reg == r.reg)) ++ v.pending.drop (idx + 1) ∧
        (t.slot n).run = (if v.run = .parked ∧ (t.slot n).pending = [] then .ready else v.run) ∧
        (t.slot n).ctx = (if r.isVec then { v.ctx with v := (t.slot n).ctx.v } else { v.ctx with x := (t.slot n).ctx.x }) ∧
        (r.isVec = true → ∀ q, (t.slot n).ctx.getV q = if q = r.reg then r.val else v.ctx.getV q) ∧
        (r.isVec = false → ∀ q, (t.slot n).ctx.getX q = if q = r.reg then readBack q (r.val.setWidth 64) else v.ctx.getX q)) ∧
    (∀ idx, v.pending.length ≤ idx → exec (.memoryResultReturn n idx) s = .next s) ∧
    (∀ w p, v.run = .sleeping w → wakesOn s n w = some p →
      (p → v.restoring = false → readied (.wake n)) ∧ (¬ p ∨ v.restoring = true → exec (.wake n) s = .next s)) ∧
    (∀ l tag g dl, v.run = .sleeping (.barrier l tag g (some dl)) →
      (dl ≤ s.cycle → readied (.barwttTimeout n)) ∧ (s.cycle < dl → exec (.barwttTimeout n) s = .next s)) ∧
    (∀ c, v.run = .stalled (.inbox c) →
      let takes := s.wouldTake (s.thr n).part c false (coreOfSlot n)
      (takes = true → readied (.inboxRoom n)) ∧ (takes = false → exec (.inboxRoom n) s = .next s)) ∧
    (v.run = .stalled .directory →
      (s.dirRoom (s.thr n).part = true → readied (.directoryRoom n)) ∧ (s.dirRoom (s.thr n).part = false → exec (.directoryRoom n) s = .next s)) ∧
    (v.run = .ready → exec (.wake n) s = .next s ∧ exec (.barwttTimeout n) s = .next s ∧ exec (.inboxRoom n) s = .next s ∧
      exec (.directoryRoom n) s = .next s ∧ exec (.survivorReady n) s = .next s) ∧
    (∀ cl idx e dl cl', (s.cluster cl).meets[idx]? = some e → e.deadline = some dl → s.slotOfTop e.survivor = some n → v.run = .sleeping (.meet cl') →
      (s.cycle ≤ dl → exec (.meetDeadline cl idx) s = .next s) ∧
      (dl < s.cycle → v.restoring = false →
        ∃ t, exec (.meetDeadline cl idx) s = .next t ∧ (∀ x, x ∈ (t.cluster cl).meets ↔ x ∈ (s.cluster cl).meets ∧ x ≠ e) ∧
          (∀ m, m ≠ n → t.slot m = s.slot m) ∧
          t.slot n = { v with
            run := .sleeping .released
            ctx := { v.ctx with mult := BitVec.ofNat 32 e.mult, mstat := BitVec.ofNat 64 (e.arrivals % 2 ^ 32 * 2 ^ 32 + 1) } })) ∧
    (v.run = .sleeping .released → v.restoring = true → exec (.survivorReady n) s = .next s) ∧
    (v.run = .sleeping .released → v.restoring = false → v.stepArmed = false →
      ∃ t, exec (.survivorReady n) s = .next t ∧ (∀ m, m ≠ n → t.slot m = s.slot m) ∧
        (v.ctx.group = 0 ∨ groupCluster v.ctx.group = (s.thr n).cluster → OnlySlot s t n) ∧
        t.slot n = { v with run := .ready, cont := .none, ctx := { v.ctx with pc := v.ctx.pc + 12 } })

/-- R32, R33, R172, R255 to R257, R289: an arriving message starts in an idle slot of its partition, unless an earlier one of its sender waits, or waits in the inbox while its
share has room, and is refused else, its core counting those of the colour that a cut counts; the dispatcher starts an inbox head in the idle slot of its partition; a thief takes the top live record of its first victim, and tries again 64 cycles after
an attempt that finds nothing, in which each ring's pointer has passed the victims it visited; that each partition has its own pointers on a core is log 109, the model's reading. A damaged deque header or record that the search of an idle slot reads
freezes it with ECC (R281; log 126, the model's choice). An uncounted line leaves its cache with its dirty bytes written back, beneath a line
counted at home (log 15, the model's choice). -/
def Obligations.WorkEvents : Prop :=
  (∀ (s : State) (m : Message),
    let c := m.target
    let owns := s.ownsOn m.part c = true
    let first := ∀ e ∈ (s.core c).inbox, e.part = m.part → e.source ≠ m.source
    let slot := if (m.hasId ∨ s.dirRoom m.part = true) ∧ first then s.idleSlot m.part c else none
    let room := ((s.core c).inbox.filter fun e => e.part == m.part).length < s.inboxShare m.part c
    let old := s.colourOf m.part c != (match (s.part m.part).cut with | some k => k.cores.contains c | none => false)
    let counts (t : State) : Prop := (t.core c).recv.getD m.part 0 = (s.core c).recv.getD m.part 0 + if m.counted ∧ m.colour = old then 1 else 0
    (¬ owns ∨ (slot = none ∧ ¬ room) → exec (.activeMessageArrival m) s = .next s) ∧
    (owns → slot = none → room →
      ∃ t, exec (.activeMessageArrival m) s = .next t ∧ (t.core c).inbox = (s.core c).inbox ++ [m] ∧ counts t ∧ t = { s with cores := t.cores }) ∧
    (owns → m.hasId = false → m.part < 16 → (s.part m.part).tasks.length + 2 < 2 ^ 28 → ∀ n, slot = some n →
      ∃ t id e, exec (.activeMessageArrival m) s = .next t ∧ counts t ∧ NewTask s t m.part id e ∧ e.state = .running ∧ e.whereTo = BitVec.ofNat 64 n ∧
        StartedIn t n m.record { task := id, inline := false, adopted := false, status := none, fplace := 0, future := 0 } [] ∧
        ∀ k, k ≠ n → t.slot k = { s.slot k with waitFrom := (t.slot k).waitFrom })) ∧
  (∀ (s : State) (c p n : Nat) (m : Message), p < 16 →
    ((s.core c).lastStart = some s.cycle → exec (.dispatch c) s = .next s) ∧
    ((∀ q, q < 16 → s.idleSlot q c = none) → exec (.dispatch c) s = .next s) ∧
    ((s.core c).lastStart ≠ some s.cycle → s.idleSlot p c = some n → (∀ q, q < 16 → q ≠ p → s.idleSlot q c = none) → s.deque p c = none →
      s.headerEcc p c = none → p ∉ (s.core c).draining → ((s.core c).inbox.filter fun e => e.part == p).head? = some m → m.hasId = false → s.dirRoom p = true →
      (s.part p).tasks.length + 2 < 2 ^ 28 →
      ∃ t id e, exec (.dispatch c) s = .next t ∧ NewTask s t p id e ∧ e.state = .running ∧ (t.core c).inbox = (s.core c).inbox.erase m ∧
        (t.core c).lastServed = p ∧ (t.core c).lastStart = some s.cycle ∧
        StartedIn t n m.record { task := id, inline := false, adopted := false, status := none, fplace := 0, future := 0 } []) ∧
    ((s.core c).lastStart ≠ some s.cycle → s.idleSlot p c = some n → (∀ q, q < 16 → q ≠ p → s.idleSlot q c = none) → (s.core c).inbox = [] →
      ∀ fi, s.searchEcc p c true = some fi → ∃ t h, exec (.dispatch c) s = .next t ∧ (t.slot n).run = .frozen .fault h ∧ (t.slot n).levels = (s.slot n).levels)) ∧
  (∀ (s : State) (n p : Nat), s.slotPart? n = some p →
    let c := coreOfSlot n
    (s.slotFree p n = false → exec (.theftAttempt n) s = .next s) ∧
    let w := (s.slot n).waitFrom
    let falls := w ≤ s.cycle ∧ (s.cycle - w) % 64 = 0
    (¬ falls → exec (.theftAttempt n) s = .next s) ∧
    (s.slotFree p n = true → p ∉ (s.core c).draining → falls → (s.core c).lastStart ≠ some s.cycle → s.dispatchFor p c n = none →
      ((∀ x, s.deque p x = none ∧ s.headerEcc p x = none) →
        ∃ t, exec (.theftAttempt n) s = .next t ∧ t.slot n = { s.slot n with waitFrom := s.cycle + 64 } ∧ t = { s with slots := t.slots, cores := t.cores } ∧
          (w = s.cycle → (∀ m, coreOfSlot m = c → m ≠ n → ∀ q, s.slotFree q m = false) → ∀ ring ∈ [1, 2, 3],
            let len := (s.ringCores p c ring).length
            0 < len → (t.core c).ringPtr ring p = ((s.core c).ringPtr ring p + min len 8) % len ∧
              ∀ q, q ≠ p → (t.core c).ringPtr ring q = (s.core c).ringPtr ring q)) ∧
      (let victims := (List.range 8).filterMap fun i => if coreOfIndex (clusterOfCore c) i = c then none else some (coreOfIndex (clusterOfCore c) i)
       let b := s.catchUp c
       let i := (b.core c).ringPtr 1 p % 7
       ∀ x r e, victims[i]? = some x → victims.length = 7 →
        let w := b.modCore c fun k => k.setRing 1 p ((i + 1) % 7)
        let u := w.trimT p x
        w.searchEcc p x false = none →
        u.topRec p x = some r → u.findTask p r.taskid = some e → e.state = .unstarted → e.chain = [] → u.stealable p c x r e = true →
        ∃ t, exec (.theftAttempt n) s = .next t ∧
          StartedIn t n r { task := e.id, inline := false, adopted := false, status := none, fplace := 0, future := 0 } [] ∧
          (∀ e', t.findTask p e.id = some e' → e'.state = .running ∧ e'.whereTo = BitVec.ofNat 64 n) ∧
          (t.core c).lastStart = some s.cycle))) ∧
  (∀ (s : State) (cl i : Nat) (l : CLine), s.memOk = true → (s.cluster cl).lines[i]? = some l →
    let same (x : CLine) : Prop := x.part = l.part ∧ x.asid = l.asid ∧ x.vline = l.vline ∧ x.count = 0
    (l.count ≠ 0 → exec (.cacheEviction cl i) s = .next s) ∧
    (l.count = 0 →
      ∃ t, exec (.cacheEviction cl i) s = .next t ∧ (∀ x, x ∈ (t.cluster cl).lines ↔ x ∈ (s.cluster cl).lines ∧ ¬ same x) ∧
        (∀ a, t.rawByte a = s.rawByte a ∨ s.dirtyAt cl l.part a (t.rawByte a)) ∧
        ((∀ x ∈ (s.cluster cl).lines, same x → x = l) → ∀ j, j < 128 → l.dirty.getLsbD j = true → t.rawByte (l.pline * 128 + j) = l.byte j)))

/-- R254, R262, R263, R285: a slice in force that has lasted its length gives way to the next partition of its ring on the core; a slot of another partition of that ring passes at its
turn, with no result outstanding, to the one in force, its frame in the switch area and its wait, step, packet and chain kept; the incoming context is read before the slot may issue,
and a frame that is not valid leaves the slot idle (log 19). A switch area outside HBM4 freezes the slot with a packet to partition 0. A slice counts from its slots' coming (log 50), the
restored task is the chain's own (log 49), and the frame lies in memory at the handover (log 18). That a slice-change fault is PERMISSION cause 2 below 2^56 and TRANSLATION cause 3
above, at the area's first byte that is none of HBM4, is log 101, the model's reading; a damaged line of the area freezes the slot with ECC at its restore (R281). -/
def Obligations.SliceEvents : Prop :=
  (∀ (s : State) (c ring : Nat),
    let now := (s.core c).sliceOf.get? ring
    (now = none → exec (.sliceEnd c ring) s = .next s) ∧
    ∀ p, now = some p →
      let ended := (s.core c).sliceFrom.getD ring 0 + (s.part p).cfg.sliceLen ≤ s.cycle
      (¬ ended ∨ s.nextInRing p c = none → exec (.sliceEnd c ring) s = .next s) ∧
      (ended → ∀ q, s.nextInRing p c = some q →
        ∃ t, exec (.sliceEnd c ring) s = .next t ∧ (t.core c).sliceOf.get? ring = some q ∧ (t.core c).sliceFrom.getD ring 0 = s.cycle ∧
          t = { s with cores := t.cores, slots := t.slots } ∧ (∀ n, t.slot n = { s.slot n with waitFrom := (t.slot n).waitFrom }) ∧
          ∀ r, r ≠ ring → (t.core c).sliceOf.get? r = (s.core c).sliceOf.get? r)) ∧
  (∀ (s : State) (n p : Nat), s.slotPart? n = some p → (∀ q, s.inForce p (coreOfSlot n) = some q → q = p) → exec (.slotHandover n) s = .next s) ∧
  (∀ (s : State) (n p q : Nat), s.memOk = true → s.slotPart? n = some p → s.inForce p (coreOfSlot n) = some q → q ≠ p →
    let v := s.slot n
    let due := s.cycle % 16 = n % 16 ∧ v.pending = []
    let area := s.switchAddr p n
    (¬ due → exec (.slotHandover n) s = .next s) ∧
    (due → hbmSize < area + 2432 →
      ((∃ f h, v.run = .frozen f h) → exec (.slotHandover n) s = .next s) ∧
      ((∀ f h, v.run ≠ .frozen f h) → s.plainInbox 0 →
        ∃ t x pkt, exec (.slotHandover n) s = .next t ∧ x = max area hbmSize ∧ t.slotPart? n = some p ∧ (∃ h, (t.slot n).run = .frozen .fault h) ∧
          (t.slot n).levels = v.levels ∧ (∀ m, m ≠ n → t.slot m = s.slot m) ∧ Delivered t (.slot n p) 0 pkt ∧
          packetSays pkt (if x < 2 ^ 56 then mkFault .permission 2 (BitVec.ofNat 64 x) 0 else mkFault .translation 3 (BitVec.ofNat 64 x) 0) 0 n v.ctx.task
            v.ctx.pc)) ∧
    (due → area + 2432 ≤ hbmSize →
      ∃ t, exec (.slotHandover n) s = .next t ∧ (t.slot n).holder = some q ∧ (t.slot n).restoring = (v.away.get? q).isSome ∧
        (t.slot n).away.get? p = some { run := v.run, levels := v.levels, cont := v.cont, stepArmed := v.stepArmed, waitFrom := v.waitFrom,
                                        packet := v.packet, stands := v.stands } ∧
        (t.slot n).away.get? q = none ∧
        (t.slot n).regs = v.regs ∧ (t.slot n).pending = [] ∧ (∀ m, m ≠ n → t.slot m = s.slot m) ∧
        (v.away.get? q = none → (t.slot n).run = .idle ∧ (t.slot n).levels = [] ∧ (t.slot n).packet = none) ∧
        (∀ w, v.away.get? q = some w → (t.slot n).run = w.run ∧ (t.slot n).levels = w.levels ∧ (t.slot n).cont = w.cont ∧
          (t.slot n).stepArmed = w.stepArmed ∧ (t.slot n).packet = w.packet ∧ (t.slot n).stands = w.stands ∧
          (w.run ≠ .idle → (t.slot n).waitFrom = w.waitFrom)) ∧
        ((∀ l ∈ (s.cluster (clusterOfCore (coreOfSlot n))).lines, l.part = p → l.count = 0) →
          ∀ j, j < 2432 → t.mem.read (area + j) = if v.restoring = true then s.mem.read (area + j) else byteOf v.frame j))) ∧
  (∀ (s : State) (n q : Nat), s.slotPart? n = some q →
    let v := s.slot n
    let area := s.switchAddr q n
    let f := s.homeRead area 2432
    (v.restoring = false → exec (.contextRestore n) s = .next s) ∧
    (v.restoring = true → v.levels = [] →
      ∃ t, exec (.contextRestore n) s = .next t ∧ OnlySlot s t n ∧ t.slot n = { v with restoring := false, waitFrom := s.cycle }) ∧
    (v.restoring = true → v.levels ≠ [] → area + 2432 ≤ hbmSize → (∀ f h, v.run ≠ .frozen f h) → ∀ fi, s.areaEcc area = some fi →
      ∃ t h, exec (.contextRestore n) s = .next t ∧ (t.slot n).run = .frozen .fault h ∧ (t.slot n).levels = v.levels ∧ (t.slot n).restoring = true) ∧
    (v.restoring = true → area + 2432 ≤ hbmSize → s.areaEcc area = none →
      (v.levels ≠ [] → f.testBit 19396 = true →
        ∃ t, exec (.contextRestore n) s = .next t ∧ OnlySlot s t n ∧ t.slot n = { v with restoring := false, ctx := (t.slot n).ctx } ∧
          (t.slot n).ctx.task = v.ctx.task ∧ FrameGives (t.slot n).ctx f) ∧
      (v.levels ≠ [] → f.testBit 19396 = false →
        ∃ t, exec (.contextRestore n) s = .next t ∧ (t.slot n).run = .idle ∧ (t.slot n).levels = [] ∧ (t.slot n).restoring = false)))

namespace Sys2Proof.Machine

/-! ### What jobs write (R77 to R80, R199 to R202, R206 to R210, R214, R220) -/

/-- The byte and bit at which an element of a record lies (R214). -/
def elemBit (r : TRec) (i : Nat × Nat × Nat × Nat) : Word × Nat :=
  let row : Int := i.2.1 * r.st 1 + i.2.2.1 * r.st 2 + i.2.2.2 * r.st 3
  if r.layout = 1 then
    let per := 768 / r.fmt.width
    (r.base + BitVec.ofNat 64 ((i.1 / per * r.e 1 + i.2.1) * 96 + i.1 % per * r.fmt.width / 8), i.1 % per * r.fmt.width % 8)
  else if r.fmt = .t6 then (r.base + BitVec.ofInt 64 (row + (6 * i.1 / 8 : Nat)), 6 * i.1 % 8)
  else (r.base + BitVec.ofInt 64 (row + i.1 * r.st 0), 0)

/-- Element `n` of a copy's source in its order, the first dimension fastest, and of its destination, where a panel takes rows as columns (R208). -/
def copyFrom (a : TRec) (n : Nat) : Nat × Nat × Nat × Nat := (n % a.e 0, n / a.e 0 % a.e 1, n / (a.e 0 * a.e 1) % a.e 2, n / (a.e 0 * a.e 1 * a.e 2))
def copyInto (a d : TRec) (n : Nat) : Nat × Nat × Nat × Nat :=
  let i := copyFrom a n
  if a.layout = d.layout then i else (i.2.1, i.1, i.2.2)

/-- What a copied element becomes (R77, R208): the same bits where nothing is to be converted, else the number times the source's scale over the
destination's, rounded once. -/
def copied (a d : TRec) (sA sD v : Nat) : Nat :=
  if a.fmt = d.fmt ∧ a.sblk = 0 ∧ d.sblk = 0 then v
  else
    let x := if a.sblk = 0 then decNum a.fmt v else (mulNum (decNum a.fmt v) (decNum .f32 sA)).1
    let y := if d.sblk = 0 then x else (divNum x (decNum .f32 sD)).1
    (encNum d.fmt .rne y).1

/-- Where a byte lies that an engine reaches as thread `t`, and what it reads there in state `u` through the runs of state `s`. -/
def State.engLoc (s : State) (t : Thr) (sp : Space) (k : AccKind) (a : Word) : Option Loc :=
  match s.engRuns t sp k a 1 with | .ok ps => some (firstLoc ps) | .error _ => none
def State.engView (s u : State) (t : Thr) (sp : Space) (k : AccKind) (a : Word) (b : Byte) : Prop :=
  ∃ ps, s.engRuns t sp k a 1 = .ok ps ∧ u.engPieces t ps = b.toNat

/-- The `w` bits of an element in state `u`. -/
def State.engElem (s u : State) (t : Thr) (sp : Space) (k : AccKind) (at_ : Word × Nat) (w v : Nat) : Prop :=
  v < 2 ^ w ∧ ∀ i, i < w → ∃ b, s.engView u t sp k (at_.1 + BitVec.ofNat 64 ((at_.2 + i) / 8)) b ∧ b.getLsbD ((at_.2 + i) % 8) = v.testBit i

/-- The scale word of a row and an element of it (R76, R214); 1.0 where the record names none. -/
def State.scaleWord (s : State) (t : Thr) (r : TRec) (row i v : Nat) : Prop :=
  if r.sblk = 0 then v = 0x3F800000
  else s.engElem s t r.splace .load (r.scale + BitVec.ofInt 64 (row * r.srow + (4 * (i / (16 * r.sblk)) : Nat)), 0) 32 v

/-- A running copy job's last step writes every element that is left, converted, and a fill's units take their count, where no two destination bits and no
source and destination lie at one place, no line is dirty, spilled or cached from another place than its page names, and the copy changes no translation of its own. -/
def CopyResults : Prop :=
  ∀ (s : State) (cl e : Nat) (j : Job) (r : State × Flags), s.memOk = true → s.job? cl e = some j → j.state = .running → j.kind.isMatrix = false → j.bars = [] →
    j.nextCut = none → s.copyCheck cl j = .ok () → s.copyTo cl j (trec j.recB).elems = .ok r →
    let a := trec j.recA
    let d := trec j.recB
    let t := j.thr cl j.core
    let todo (n : Nat) : Prop := j.elems ≤ n ∧ n < d.elems
    let dest (n i : Nat) : Option Loc × Nat :=
      let x := elemBit d (copyInto a d n)
      (s.engLoc t d.place .store (x.1 + BitVec.ofNat 64 ((x.2 + i) / 8)), (x.2 + i) % 8)
    let plain (l : Option Loc) : Prop := ∀ x, l = some (.phys x) → (regionOf x).isDevice = false ∧ s.dirOwner x = none ∧ s.inboxOwner x = none
    (∀ n u fl, s.copyTo cl j n = .ok (u, fl) → ∀ sp k b m, u.engRuns t sp k b m = s.engRuns t sp k b m) →
    (∀ c, ∀ l ∈ (s.cluster c).lines, l.dirty = 0 ∧ l.spill = none) → (∀ h ∈ s.home, h.2.spill = none) →
    (∀ k b p x, s.engRuns t .g k b 1 = .ok [p] → p.place = .glob x → ∀ l ∈ (s.cluster cl).lines, l.part = t.part → l.asid.toNat = x.tag →
      l.vline = x.va / 128 → l.pline = x.pa / 128 ∧ regionOf x.pa ≠ .host) →
    (∀ n m i k, todo n → todo m → i < d.fmt.width → k < d.fmt.width → dest n i = dest m k → n = m ∧ i = k) →
    (∀ n i, todo n → i < d.fmt.width → plain (dest n i).1 ∧
      ∀ m, todo m → ∀ b, (b < a.fmt.width → s.engLoc t a.place .load ((elemBit a (copyFrom a m)).1 + BitVec.ofNat 64 (((elemBit a (copyFrom a m)).2 + b) / 8)) ≠ (dest n i).1) ∧
        (b < 4 → s.engLoc t a.splace .load (a.scale + BitVec.ofInt 64 ((copyFrom a m).2.1 * a.srow + (4 * ((copyFrom a m).1 / (16 * a.sblk)) + b : Nat))) ≠ (dest n i).1 ∧
          s.engLoc t d.splace .load (d.scale + BitVec.ofInt 64 ((copyInto a d m).2.1 * d.srow + (4 * ((copyInto a d m).1 / (16 * d.sblk)) + b : Nat))) ≠ (dest n i).1)) →
    ∃ u, exec (.jobComplete cl e) s = .next u ∧
      (∀ n v sA sD, todo n → s.engElem s t a.place .load (elemBit a (copyFrom a n)) a.fmt.width v →
        s.scaleWord t a (copyFrom a n).2.1 (copyFrom a n).1 sA → s.scaleWord t d (copyInto a d n).2.1 (copyInto a d n).1 sD →
        s.engElem u t d.place .store (elemBit d (copyInto a d n)) d.fmt.width (copied a d sA sD v)) ∧
      (j.kind = .cpf → ∀ us, s.fillUnits cl j = .ok us → ∀ x ∈ us, match x.unit with
        | .row c w => (u.core c).counts.getD w 0 = d.count
        | .line tag v p => s.fillRoom cl j = true → (if d.home then u.homeCount tag p else u.clusterCount t tag v) = d.count)

/-- What step 3 of R78 makes of the products of one K-row: their exact sum, each cut to 53 bits below the largest, rounded once to FP32. -/
def KRowSum (ps : List Num) (w : Nat) : Prop :=
  let inf (neg : Bool) : Prop := Num.inf neg ∈ ps
  if (∃ p ∈ ps, p.isNaN = true) ∨ (inf false ∧ inf true) then w = 0x7FC00000
  else if inf false then w = 0x7F800000
  else if inf true then w = 0xFF800000
  else
    ((∀ p ∈ ps, p.rat = 0) → w = 0) ∧
    ∀ E : Int, (∃ p ∈ ps, (2 : ℚ) ^ E ≤ |p.rat|) → (∀ p ∈ ps, |p.rat| < 2 ^ (E + 1)) →
      let total : ℚ := (ps.map fun p => (2 : ℚ) ^ (E - 52) * ⌊p.rat / 2 ^ (E - 52)⌋).sum
      (total = 0 → w = 0) ∧ (total ≠ 0 → ∃ m e, m ≠ 0 ∧ (Num.fin (decide (total < 0)) m e).rat = total ∧ w = (encNum .f32 .rne (.fin (decide (total < 0)) m e)).1)

/-- One K-row's pairs of elements change an accumulator (R78, R80): by a saturated integer sum, or by the scaled sum of the products. -/
def KRowStep (fa fb : Elem) (qs : List (Nat × Nat)) (sA sB acc next : Nat) : Prop :=
  if fa.isInt then
    let v := sInt 32 acc + (qs.map fun q => intOf fa q.1 * intOf fb q.2).sum
    next = ((if v < -2 ^ 31 then -2 ^ 31 else if 2 ^ 31 ≤ v then 2 ^ 31 - 1 else v) % 2 ^ 32).toNat
  else
    ∃ w, KRowSum (qs.map fun q => (mulNum (decNum fa q.1) (decNum fb q.2)).1) w ∧
      next = (fAdd .f32 .rne acc (encNum .f32 .rne (mulNum (mulNum (decNum .f32 w) (decNum .f32 sA)).1 (decNum .f32 sB)).1).1).1

/-- The elements of B present in a logical K-row of a column (R199, R201, R214), by position: `row` gives the 96 bytes of a stored K-row of a column, and
`mask` the mask of a group of 12 of a column. -/
def presentIn (b : TRec) (row : Nat → Nat → Nat) (mask : Nat → Nat → Nat) (k col : Nat) : List (Nat × Nat) :=
  let per := 768 / b.fmt.width
  let elem (stored slot : Nat) : Nat := row stored col / 2 ^ (slot * b.fmt.width) % 2 ^ b.fmt.width
  (List.range per).filterMap fun q =>
    let pos := k * per + q
    if b.e 0 ≤ pos then none
    else if b.sparse = 0 then some (q, elem k q)
    else
      let m := mask (pos / 12) col
      let groups := per / b.n
      if m.testBit (pos % 12) = false then none
      else some (q, elem (pos / 12 / groups) (pos / 12 % groups * b.n + ((List.range (pos % 12)).filter m.testBit).length))

/-- A running matrix job's completion accumulates, from the shadow copy of its accumulators, every K-row of A with the panel in ascending order into C, each
slice of a gang in its own core, and changes no byte of another buffer but those of the rows whose last read it claimed; MXLB leaves its panel. -/
def MatrixResults : Prop :=
  ∀ (s : State) (cl e : Nat) (j : Job) (r : Product), s.memOk = true → s.job? cl e = some j → j.state = .running → j.kind.isMatrix = true → j.bars = [] →
    s.product cl j = .ok r →
    let a := trec j.recA
    let b := trec j.recB
    let c := trec j.recC
    let per := 768 / a.fmt.width
    let kRows := (a.e 0 + per - 1) / per
    let slices := if j.members = [] then [j.core] else j.members
    let coreOf (i : Nat) : Nat := slices.getD (i / a.e 1) j.core
    let tB := j.thr cl (slices.headD j.core)
    let resident (p : Panel) : Prop := (s.cluster cl).panel = some p ∧ p.part = j.part ∧ p.asid = j.asid ∧ p.snap = j.recB ∧ (p.tagged = true ∨ j.loaded = true)
    let scaled (x : TRec) : Prop := x.sblk ≠ 0 → 16 * x.sblk = per
    let job (i : Nat) : Prop := j.kind ≠ .mxlb ∧ i < slices.length * a.e 1 ∧ matrixAgrees a b c = true ∧ c.place ≠ .g ∧ scaled a ∧ scaled b
    let acc (i col n : Nat) : Nat × Nat := localPlace (j.thr cl (coreOf i)) c.place
      (c.base + BitVec.ofInt 64 ((i % a.e 1 : Nat) * c.st 1) + BitVec.ofNat 64 (4 * col + n)).toNat
    (∀ i i' col col' n n', job i → job i' → col < c.e 0 → col' < c.e 0 → n < 4 → n' < 4 → acc i col n = acc i' col' n' → i = i' ∧ col = col' ∧ n = n') →
    ∃ u, exec (.jobComplete cl e) s = .next u ∧
      (j.loaded = false → ∃ p, (u.cluster cl).panel = some p ∧ p.part = j.part ∧ p.asid = j.asid ∧ p.snap = j.recB) ∧
      (∀ (i col : Nat) (row mask : Nat → Nat → Nat) (seg sA sB : Nat → Nat), job i → col < c.e 0 →
        (∀ k, k < b.stored →
          (∀ p, resident p → row k col = (p.rows.getD (k * b.e 1 + col) 0).toNat) ∧
          ((∀ p, ¬ resident p) → s.engElem s tB b.place .load (b.base + BitVec.ofNat 64 ((k * b.e 1 + col) * 96), 0) 768 (row k col))) →
        (b.sparse ≠ 0 → ∀ g, g < (b.e 0 + 11) / 12 →
          let x := 12 * (g * b.e 1 + col)
          (∀ p, resident p → mask g col = (p.masks.getD (g * b.e 1 + col) 0).toNat) ∧
          ((∀ p, ¬ resident p) → s.engElem s tB b.place .load (b.maskBase + BitVec.ofNat 64 (x / 8), x % 8) 12 (mask g col))) →
        (∀ k, k < kRows →
          s.engElem s (j.thr cl (coreOf i)) a.place .load (a.base + BitVec.ofInt 64 ((i % a.e 1 : Nat) * a.st 1) + BitVec.ofNat 64 (96 * k), 0)
            (8 * min 96 ((a.e 0 * a.fmt.width + 7) / 8 - 96 * k)) (seg k) ∧
          s.scaleWord (j.thr cl (coreOf i)) a (i % a.e 1) (per * k) (sA k) ∧
          (a.fmt.isInt = false → s.scaleWord tB b col (if b.sparse = 0 then per * k else per * (k * per / 12 / (per / b.n))) (sB k))) →
        ∃ f : Nat → Nat,
          (∀ n, n < 4 → byteOf (f 0) n = (s.core (acc i col n).1).shadow.read (acc i col n).2) ∧ f 0 < 2 ^ 32 ∧
          (∀ k, k < kRows → KRowStep a.fmt b.fmt ((presentIn b row mask k col).map fun q => (seg k / 2 ^ (q.1 * a.fmt.width) % 2 ^ a.fmt.width, q.2)) (sA k) (sB k)
            (f k) (f (k + 1))) ∧
          ∀ n, n < 4 → (u.core (acc i col n).1).buf.read (acc i col n).2 = byteOf (f kRows) n) ∧
      ∀ k la, (∀ x ∈ r.claims, (x.core, x.row) ≠ (k, rowOf la)) → (∀ i col n, job i → col < c.e 0 → n < 4 → acc i col n ≠ (k, la)) →
        (u.core k).buf.read la = (s.core k).buf.read la

end Sys2Proof.Machine

/-- R77 to R80, R195, R199 to R211, R214, R220, R221, R260, R261, R281, R282, R290, R326: an engine that is free starts its one eligible job or has it ask leave; grants follow
the die's thermal state; a running job that no fault stops completes, a matrix job with its product in C, a copy with its elements and a fill with its units' counts, and one that
meets a fault freezes with a packet; a copy advances by whole 4,096 bytes and cuts no 8-byte word (log 56), a T6 destination's bytes counted by its packed bits (log 94, the model's choice); a sparse B is
taken in the order of its logical K, with the scales of its stored rows (log 52, the model's reading); a due self-test runs once no matrix job does; a freed entry goes to the
waiting slot. A cut closes when the sums over its cores agree (log 63) and no job of the partition runs there, and its slots are then frozen as by a FREEZE; a waiting packet enters
the inbox when it has room. -/
def Obligations.EngineEvents : Prop :=
  CopyResults ∧ MatrixResults ∧
  (∀ (s : State) (cl e : Nat) (matrix : Bool) (j : Job),
    let one := (∀ x ∈ (s.cluster cl).jobs, s.eligible cl matrix x.2 = true ↔ x = (e, j)) ∧ (e, j) ∈ (s.cluster cl).jobs ∧ s.job? cl e = some j ∧ j.part < 16
    let runs (t : State) : Prop := ∃ j', t.job? cl e = some j' ∧ j'.gen = j.gen ∧
      (j'.state = .running ∨ (j.kind = .cpf ∧ j'.state = .done ∧ (j'.fin = 1 ∨ j'.fin = 4)))
    (s.engineFree cl matrix = false → exec (.jobStart cl matrix) s = .next s) ∧
    (s.engineFree cl matrix = true → s.grantedJob cl matrix = none → one →
      (j.leave = false → ∃ t, exec (.jobStart cl matrix) s = .next t ∧ runs t) ∧
      (j.leave = true → ∃ t, exec (.jobStart cl matrix) s = .next t ∧ t.job? cl e = some { j with state := .awaitingLeave } ∧
        (t.die (dieOfCluster cl)).waiting = (s.die (dieOfCluster cl)).waiting ++ [j.id cl e])) ∧
    (s.engineFree cl matrix = true → s.grantedJob cl matrix = some e → s.job? cl e = some j → ∃ t, exec (.jobStart cl matrix) s = .next t ∧ runs t)) ∧
  (∀ (s : State) (die : Nat) (id : BitVec 32) (rest : List (BitVec 32)), (s.die die).waiting = id :: rest →
    let limit := match (s.die die).thermal.toNat with | 0 => 24 | 1 => 12 | 2 => 4 | _ => 0
    (limit ≤ (s.die die).granted.length → exec (.leaveGrant die) s = .next s) ∧
    ((s.die die).granted.length < limit → ∃ t, exec (.leaveGrant die) s = .next t ∧ (t.die die).waiting = rest ∧
      (t.die die).granted = (s.die die).granted ++ [id] ∧ t = { s with dies := t.dies })) ∧
  (∀ (s : State) (cl e : Nat) (j : Job), s.memOk = true → s.job? cl e = some j →
    (j.state ≠ .running → exec (.jobComplete cl e) s = .next s ∧ exec (.jobFreeze cl e) s = .next s ∧ exec (.copyByteArrival cl e) s = .next s) ∧
    (j.state = .running →
      let ends : Prop := ∃ t j', exec (.jobComplete cl e) s = .next t ∧ t.job? cl e = some j' ∧ j'.state = .done ∧ j'.claims = [] ∧ j'.gen = j.gen ∧
        (j.bars = [] → j.refused = false → j'.fin = 0)
      (j.kind.isMatrix = true → ∀ r, s.product cl j = .ok r → ends) ∧
      (j.kind = .cpq → j.nextCut = none → ∀ r, s.copyTo cl j (trec j.recB).elems = .ok r → ends) ∧
      (j.kind = .cpf → j.nextCut = none → s.fillCheck cl j = .ok () → ∀ r, s.copyTo cl j (trec j.recB).elems = .ok r → ends) ∧
      (∀ f, s.jobFault cl j = some f → ∃ t j', exec (.jobFreeze cl e) s = .next t ∧ t.job? cl e = some j' ∧ j'.state = .frozen ∧ j'.wasFrozen = true ∧
        j'.claims = [] ∧ j'.elems = 0 ∧ j'.loaded = false ∧ (f.2 < 2 ^ 32 → s.plainInbox j.part →
          ∃ q, packetSays q f.1 1 (j.id cl e).toNat j.task 0 ∧ getBits q 96 32 = f.2 ∧ Delivered t (.job cl e) j.part q)) ∧
      (s.jobFault cl j = none → j.dup = false → exec (.jobFreeze cl e) s = .next s) ∧
      (j.kind.isMatrix = false → s.copyCheck cl j = .ok () → ∀ m r, j.nextCut = some m → s.copyTo cl j m = .ok r →
        let whole := m * (trec j.recB).fmt.width / 32768
        ∃ t j', exec (.copyByteArrival cl e) s = .next t ∧ t.job? cl e = some j' ∧ j'.elems = m ∧ j'.state = .running ∧
          j'.arrived = j.arrived + (4096 * whole - j.arrived) / 4096 * 4096))) ∧
  (∀ (s : State) (cl : Nat), (s.cluster cl).fenced ≤ 18 →
    let due := (s.cluster cl).testDue = true ∧ ∀ x ∈ (s.cluster cl).jobs, ¬ (x.2.state = .running ∧ x.2.kind.isMatrix = true)
    (¬ due → exec (.macroSelfTest cl) s = .next s) ∧
    (due → ∃ t n, exec (.macroSelfTest cl) s = .next t ∧ (t.cluster cl).testDue = false ∧ (t.cluster cl).fenced = (s.cluster cl).fenced + n ∧
      (s.cluster cl).fenced + n ≤ 18 ∧ t = { s with clusters := t.clusters, dies := t.dies, freeCtr := t.freeCtr })) ∧
  (∀ (s : State) (cl p n : Nat),
    let waits (m : Nat) : Prop := m ∈ s.entryWaiters cl p
    ((∀ m, ¬ waits m) → exec (.jobEntryHandoff cl p) s = .next s) ∧
    (s.shareRoom cl p = false → exec (.jobEntryHandoff cl p) s = .next s) ∧
    (s.shareRoom cl p = true → waits n → (∀ m, waits m → m = n) → ∃ t, exec (.jobEntryHandoff cl p) s = .next t ∧
      t.slot n = { s.slot n with run := .ready, cont := .jobEntry } ∧ (∀ m, m ≠ n → t.slot m = s.slot m) ∧ t = { s with slots := t.slots, clusters := t.clusters })) ∧
  (∀ (s : State) (p : Nat) (k : Cut), (s.part p).cut = some k →
    let sum (f : Core → Table (BitVec 32)) : BitVec 32 := (k.cores.map fun c => (f (s.core c)).getD p 0).sum
    let busy := ∃ c ∈ k.cores, ∃ x ∈ (s.cluster (clusterOfCore c)).jobs, x.2.part = p ∧ x.2.state = .running
    let closes (r r' : Run) : Prop := (∀ h, r = .frozen .cut h → r' = .frozen .freeze h) ∧ ((∀ h, r ≠ .frozen .cut h) → r' = r)
    (sum Core.sent ≠ sum Core.recv ∨ busy → exec (.cutClose p) s = .next s) ∧
    (sum Core.sent = sum Core.recv → ¬ busy → ∃ t, exec (.cutClose p) s = .next t ∧ (t.part p).cut = none ∧
      (∀ c ∈ k.cores, (t.core c).sent.getD p 0 = 0 ∧ (t.core c).recv.getD p 0 = 0) ∧
      ((s.slot k.issuer).run = .sleeping (.cut p) → (t.slot k.issuer).cont = .cutSum (sum Core.sent).toNat) ∧
      ∀ n, t.slot n = { s.slot n with run := (t.slot n).run, cont := (t.slot n).cont, away := (t.slot n).away } ∧ (n ≠ k.issuer → (t.slot n).cont = (s.slot n).cont) ∧
        (if s.slotPart? n = some p then closes (s.slot n).run (t.slot n).run else (t.slot n).run = (s.slot n).run) ∧
        (∀ q, q ≠ p → n ≠ k.issuer → (t.slot n).away.get? q = (s.slot n).away.get? q) ∧
        ∀ w, (s.slot n).away.get? p = some w → ∃ w', (t.slot n).away.get? p = some w' ∧ w'.levels = w.levels ∧ closes w.run w'.run)) ∧
  (∀ (s : State) (p : Nat) (m : Master) (rest : List (Master × BitVec 512)) (pkt : BitVec 512), s.memOk = true → (s.part p).waiting = (m, pkt) :: rest → s.plainInbox p →
    (s.inboxFull p = true → exec (.pendingPacketDelivery p) s = .next s) ∧
    (s.inboxFull p = false → ∃ t, exec (.pendingPacketDelivery p) s = .next t ∧ (t.part p).waiting = rest ∧
      t.inboxTail p = (s.inboxTail p + 1) % 2 ^ 64 ∧ t.inboxHead p = min (s.homeRead (s.part p).cfg.finbox 8) (t.inboxTail p) ∧
      t.homeRead ((s.part p).cfg.finbox + 64 + 64 * (s.inboxTail p % 64)) 64 = (pkt ||| BitVec.ofNat 512 (2 ^ 20)).toNat ∧
      ((∀ x ∈ rest, x.1 ≠ m) → t.holder? m = none) ∧
      ∀ a b y, rest = a ++ (m, y) :: b → (∀ x ∈ a, x.1 ≠ m) → s.holder? m ≠ none → t.holder? m = some (y ||| BitVec.ofNat 512 (2 ^ 20))))

namespace Sys2Proof.Machine

/-- What a remote atomic of multiplicity `m` makes of a word's value (R178, R179). -/
def remoteResult (op : FabricOp) (t : Elem) (m x v : Nat) : Nat :=
  match op with
  | .add => v + m * x
  | .and => v &&& x
  | .or => v ||| x
  | .xor => v ^^^ x
  | .min => if intOf t v ≤ intOf t x then v else x
  | .max => if intOf t x ≤ intOf t v then v else x
  | .swap => x
  | .cas new => if v = x then new.toNat % 2 ^ t.width else v
  | .fadd => (encNum .f32 .rne (addNum .rne (decNum .f32 v) (mulNum (decNum .f32 x) (.fin false m 0)).1).1).1

/-- A range of this package's memory without a counted line or a directory entry. -/
def State.openTo (s : State) (pa n : Nat) : Prop :=
  pa + n ≤ hbmSize ∧ ∀ j, j < n → (∀ h ∈ s.home, h.1 / 2 ^ 11 ≠ (pa + j) / 128) ∧ s.dirOwner (pa + j) = none

end Sys2Proof.Machine

/-- R60, R173, R278, R282, R298, R299, R317 to R325: what the outside brings. The host port trains once phase 5 has passed; a host function of no partition answers Unsupported
Request, a frozen one drops writes and aborts reads or, over CXL.mem, poisons them, a permitted access performs at the home slice, and a refused one freezes the function with a
packet; a launch window answers its fields, takes ENTRY and its arguments and freezes its function on a wrong format; GO and QGO end with their status. An enabled link trains; a fabric
packet without a running partition's key freezes its port, and a good one's store, load or atomic performs and its message arrives. A debug window's command on a slot that is not frozen
is ignored with LOST, and one on a frozen slot acts as RESUME.S. A fetch or decode that fails stops the thread. (The completion codes and the order of LSTAT's answers are log 75, the
ring of link div 4 log 23, the set of far protocols log 76, a frozen function's readable window log 104; that a QGO address that is no multiple of 64 freezes as a wrong format is log 24, and that
a fabric load reads the home bytes of counted lines too is log 97: both the model's readings.) -/
def Obligations.OutsideEvents : Prop :=
  (∀ (s : State) (cls : FaultClass) (cause : BitVec 8) (addr : Word) (info : BitVec 32), s.cur < slotCount → s.memOk = true →
    ∃ t, exec (.illegalEncoding cls cause addr info) s = .next t ∧ Stopped s t { cls := cls, cause := cause, addr := addr, info := info } s.pc) ∧
  (∀ (s : State) (link retries : Nat) (key : Word) (pkt : FabricPacket), s.memOk = true →
    (link < 24 →
      (Config.linksEnabled.getLsbD link = true →
        ∃ t, exec (.fabricLinkTraining link) s = .next t ∧ t.link link = { s.link link with trained := true } ∧ t = { s with links := t.links }) ∧
      (Config.linksEnabled.getLsbD link = false → exec (.fabricLinkTraining link) s = .next s) ∧
      ∃ t, exec (.linkCrcError link retries) s = .next t ∧ t = { s with dies := t.dies } ∧
        BoxNext s t (link / 4) fun r => r.kind = 6 ∧ r.code = BitVec.ofNat 16 link ∧ r.word0 = BitVec.ofNat 64 retries) ∧
    ((s.link link).trained = false ∨ (s.link link).frozen = true → exec (.fabricPacketArrival link key pkt) s = .next s) ∧
    (link < 24 → (s.link link).trained = true → (s.link link).frozen = false →
      ((∀ p, p < 16 → ¬ ((s.part p).cfg.running = true ∧ (s.part p).cfg.key = key)) → s.plainInbox 0 →
        ∃ t q, exec (.fabricPacketArrival link key pkt) s = .next t ∧ (t.link link).frozen = true ∧ getBits q 0 8 = FaultClass.partitionKey.code.toNat ∧
          getBits q 16 3 = 3 ∧ getBits q 64 32 = link ∧ Delivered t (.link link) 0 q) ∧
      (∀ p, p < 16 → (s.part p).cfg.running = true → (s.part p).cfg.key = key → (∀ q, q < p → ¬ ((s.part q).cfg.running = true ∧ (s.part q).cfg.key = key)) →
        (∀ pa n v, pkt = .store pa n v → n ≤ 128 → s.openTo pa n →
          ∃ t, exec (.fabricPacketArrival link key pkt) s = .next t ∧ t = { s with mem := t.mem, resv := t.resv, copies := t.copies, poison := t.poison } ∧
            ∀ a, t.mem.read a = if pa ≤ a ∧ a < pa + n then byteOf v.toNat (a - pa) else s.mem.read a) ∧
        (∀ pa n, pkt = .load pa n → pa + n ≤ hbmSize → n ≤ 128 →
          ∃ t, exec (.fabricPacketArrival link key pkt) s = .next t ∧ t = { s with links := t.links } ∧
            ∀ j, j < n → byteOf (t.link link).reply.toNat j = s.homeByte (pa + j)) ∧
        (∀ op ty pa m arg, pkt = .atomic op ty pa m arg → ty.isInt = true ∨ (ty = .f32 ∧ op = .fadd) → 32 ≤ ty.width → pa % (ty.width / 8) = 0 → s.openTo pa (ty.width / 8) →
          let old := s.homeRead pa (ty.width / 8)
          ∃ t, exec (.fabricPacketArrival link key pkt) s = .next t ∧ t = { s with mem := t.mem, resv := t.resv, copies := t.copies, links := t.links } ∧
            (t.link link).reply.toNat = old ∧
            ∀ a, t.mem.read a = if pa ≤ a ∧ a < pa + ty.width / 8 then
              byteOf (remoteResult op ty m.toNat (arg.toNat % 2 ^ ty.width) old % 2 ^ ty.width) (a - pa) else s.mem.read a) ∧
        (∀ pkg core m, pkt = .message pkg core m → m.counted = false →
          exec (.fabricPacketArrival link key pkt) s = exec (.activeMessageArrival { m with part := p, source := .package pkg core }) s)))) ∧
  (∀ (s : State) (far width i : Nat), i < 4 → far.testBit i = true → (∀ j, j < i → far.testBit j = false) → (width = 16 ∨ width = 8 ∨ width = 4) →
    (6 ≤ s.phase → s.failed = false → ∃ t, exec (.hostLinkTraining far width) s = .next t ∧ t = { s with hostPort := t.hostPort, hostWidth := width } ∧
      t.hostPort = (match i with | 0 => .cxl4 | 1 => .cxl3 | 2 => .pcie6 | _ => .pcie5)) ∧
    (s.phase < 6 → exec (.hostLinkTraining far width) s = .next s)) ∧
  (∀ (s : State) (f n : Nat) (path : HostPath) (write : Bool) (va val : Word), s.memOk = true → f < 16 → s.hostPort ≠ .down → 1 ≤ n → n ≤ 8 →
    (path = .mem → s.hostPort = .cxl4 ∨ s.hostPort = .cxl3) → (path = .window → va.toNat < 4096) →
    let i : Instr := .hostAccess f { path := path, write := write } va n val
    let ends (code : Nat) (reply : Word) : Prop :=
      ∃ t, exec i s = .next t ∧ t.hostFn f = { s.hostFn f with completed := code, reply := reply } ∧ t = { s with hostFns := t.hostFns }
    let refused := if write then 4 else if path = .mem then 3 else 2
    (s.hostPart f = none → ends 1 0) ∧
    (∀ p, s.hostPart f = some p → path ≠ .window →
      ((s.hostFn f).frozen = true → ends refused 0) ∧
      ((s.hostFn f).frozen = false →
        (∀ ps, s.check (s.hostThr p) .g (if write then .store else .load) false va n 1 0 = .ok ps →
          (write = false → ∃ t, exec i s = .next t ∧ (t.hostFn f).completed = 0 ∧ t.slots = s.slots ∧ t.cores = s.cores ∧ t.clusters = s.clusters ∧
            (∀ q x, ps = [q] → q.place = .glob x → (regionOf x.pa).isDevice = false → x.va % 128 + q.n ≤ 128 → ∀ j, j < q.n →
              byteOf (t.hostFn f).reply.toNat (q.off + j) = s.foundByte x.tag (x.pa + j)) ∧
            ((∀ h ∈ s.home, h.2.spill = none) → t = { s with hostFns := t.hostFns } ∧
              ∀ q ∈ ps, ∀ x, q.place = .glob x → (regionOf x.pa).isDevice = false → ∀ j, j < q.n →
                byteOf (t.hostFn f).reply.toNat (q.off + j) = s.spaceByte x.tag (x.pa + j)) ∧
            ∀ q ∈ ps, ∀ x, q.place = .glob x → ∀ h, s.home.get? (homeKey x.tag (x.pa / 128)) = some h → h.spill ≠ none → s.homeLineCount h ≠ 0 →
              ps.length = 1 → x.va % 128 + q.n ≤ 128 → s.homeCountedIn h.part (x.pa / 128) + s.homeReservedIn h.part (x.pa / 128) < (s.part h.part).cfg.hcways →
              ∃ h', t.home.get? (homeKey x.tag (x.pa / 128)) = some h' ∧ h'.spill = none) ∧
          (write = true → ∃ t, exec i s = .next t ∧ (t.hostFn f).completed = 0 ∧ t.slots = s.slots ∧ t.cores = s.cores ∧ t.clusters = s.clusters ∧
            ∀ q ∈ ps, ∀ x, q.place = .glob x → (regionOf x.pa).isDevice = false → ∀ j, j < q.n → t.rawByte (x.pa + j) = byteOf val.toNat (q.off + j))) ∧
        (∀ fi, s.check (s.hostThr p) .g (if write then .store else .load) false va n 1 0 = .error fi → s.plainInbox p →
          ∃ t q, exec i s = .next t ∧ (t.hostFn f).frozen = true ∧ (t.hostFn f).completed = refused ∧ packetSays q fi 2 f 0 0 ∧ Delivered t (.hostFn f) p q))) ∧
    (∀ p, s.hostPart f = some p → path = .window →
      let off := va.toNat
      let h := s.hostFn f
      (n ≠ 8 ∨ off % 8 ≠ 0 →
        (h.frozen = true → exec i s = .next s) ∧
        (h.frozen = false → s.plainInbox p → ∃ t q, exec i s = .next t ∧ (t.hostFn f).frozen = true ∧
          packetSays q (mkFault .permission 2 (BitVec.ofNat 64 (launchBase + 4096 * f + off)) 0) 2 f 0 0 ∧ Delivered t (.hostFn f) p q)) ∧
      (n = 8 → off % 8 = 0 → write = false →
        (off = 0 → ends 0 h.entry) ∧ (off = 8 → ends 0 h.arg0) ∧ (off = 0x10 → ends 0 h.arg1) ∧
        (off = 0x20 → ends 0 (BitVec.ofNat 64 (h.accepted.toNat * 2 ^ 32 + (if h.op then 2 ^ 8 else 0) + h.code.toNat))) ∧
        (0x40 ≤ off → off < 0x80 → ends 0 (BitVec.ofNat 64 (h.item.toNat / 2 ^ (8 * (off - 0x40)))))) ∧
      (n = 8 → write = true → (off = 0x18 → exec i s = exec (.go f val) s) ∧ (off = 0x80 → exec i s = exec (.qgo f val) s)) ∧
      (n = 8 → write = true → off % 8 = 0 → off ≠ 0x18 → off ≠ 0x80 →
        ∃ t, exec i s = .next t ∧ t = { s with hostFns := t.hostFns } ∧ (∀ g, g ≠ f → t.hostFn g = s.hostFn g) ∧
          (h.frozen = true → t.hostFn f = h) ∧
          (h.frozen = false → (off = 0 → t.hostFn f = { h with entry := val }) ∧ (off = 8 → t.hostFn f = { h with arg0 := val }) ∧
            (off = 0x10 → t.hostFn f = { h with arg1 := val }) ∧
            (0x40 ≤ off → off < 0x80 → t.hostFn f = { h with item := (t.hostFn f).item } ∧
              ∀ j, j < 512 → (t.hostFn f).item.getLsbD j =
                if 8 * (off - 0x40) ≤ j ∧ j < 8 * (off - 0x40) + 64 then val.getLsbD (j - 8 * (off - 0x40)) else h.item.getLsbD j))))) ∧
  (∀ (s : State) (f : Nat) (val : Word), f < 16 → s.hostPart f = none → ∀ i : Instr, i = .go f val ∨ i = .qgo f val →
    ∃ t, exec i s = .next t ∧ t.hostFn f = { s.hostFn f with completed := 1, reply := 0 } ∧ t = { s with hostFns := t.hostFns }) ∧
  (∀ (s : State) (f p : Nat) (val : Word), s.memOk = true → f < 16 → s.hostPart f = some p →
    let ended (i : Instr) (op : Bool) (code : Nat) : Prop := ∃ t, exec i s = .next t ∧ (t.hostFn f).op = op ∧ (t.hostFn f).code.toNat = code ∧
      (t.hostFn f).accepted = (s.hostFn f).accepted + if code = 0 then 1 else 0
    let stops (i : Instr) (fi : FaultInfo) : Prop := s.plainInbox p → ∃ t q, exec i s = .next t ∧ (t.hostFn f).frozen = true ∧ packetSays q fi 2 f 0 0 ∧
      Delivered t (.hostFn f) p q
    let bad (off : Nat) : FaultInfo := mkFault .permission 2 (BitVec.ofNat 64 (launchBase + 4096 * f + off)) 0
    let core := val.toNat
    let there := core ≤ 1151 ∧ Config.coresEnabled.getLsbD core = true
    let takes := (s.startsIn p core false (.host f)).isSome = true ∨ s.inboxRoom p core = true
    ((s.hostFn f).frozen = true → ended (.go f val) false 5 ∧ ended (.qgo f val) true 5) ∧
    ((s.hostFn f).frozen = false → 2 ^ 11 ≤ core → stops (.go f val) (bad 0x18)) ∧
    ((s.hostFn f).frozen = false → core < 2 ^ 11 →
      (¬ there → ended (.go f val) false 3) ∧
      (there → s.ownsOn p core = false → ended (.go f val) false 2) ∧
      (there → s.ownsOn p core = true → takes → (s.part p).tasks.length + 2 < 2 ^ 28 → ended (.go f val) false 0) ∧
      (there → s.ownsOn p core = true → ¬ takes → ended (.go f val) false 1)) ∧
    ((s.hostFn f).frozen = false → 2 ^ 56 ≤ val.toNat ∨ val.toNat % 64 ≠ 0 → stops (.qgo f val) (bad 0x80)) ∧
    ((s.hostFn f).frozen = false → val.toNat < 2 ^ 56 → val.toNat % 64 = 0 →
      (∀ fi, s.enqueue (s.hostThr p) val 0 (s.hostFn f).item = .error fi → stops (.qgo f val) fi) ∧
      (∀ t m, s.enqueue (s.hostThr p) val 0 (s.hostFn f).item = .ok (t, some m) → ended (.qgo f val) true 0) ∧
      (∀ t, s.enqueue (s.hostThr p) val 0 (s.hostFn f).item = .ok (t, none) → ended (.qgo f val) true 4))) ∧
  (∀ (s : State) (n depth : Nat), (∀ f h, (s.slot n).run ≠ .frozen f h) → ∀ i : Instr, i = .debugCommandResume n ∨ i = .debugCommandFail n depth ∨ i = .debugCommandKill n →
    ∃ t, exec i s = .next t ∧ OnlySlot s t n ∧ t.slot n = { s.slot n with lost := true }) ∧
  (∀ (s : State) (n p : Nat) (f : FreezeKind) (h : MeetHold), (s.slot n).run = .frozen f h → (s.slot n).restoring = false → s.slotPart? n = some p → s.owns p n = true →
    (s.slot n).levels ≠ [] → (s.slot n).stands = none → (f = .cut → (s.part p).cut = none) →
    (∃ t, exec (.debugCommandResume n) s = .next t ∧ (∀ m, m ≠ n → t.slot m = s.slot m) ∧
      let c := (s.slot n).ctx.corrected
      t.slot n = { s.slot n with
        packet := none, stepArmed := (s.slot n).step
        run := (match h with | .none => .ready | .parked cl => .sleeping (.meet cl) | .released _ _ | .passed => .sleeping .released)
        ctx := (match h with | .released m ms => { c with mult := m, mstat := ms } | _ => c) }) ∧
    ∀ i : Instr, i = .debugCommandFail n 0 ∨ i = .debugCommandKill n →
      ∃ t, exec i s = .next t ∧ (t.slot n).run = .idle ∧ (t.slot n).levels = [] ∧
        ∀ l ∈ (s.slot n).levels, l.inline = false → ∀ e, t.findTask p l.task = some e → e.state = .failed)

/-- R297, R298, R310 to R314, R323, R326, R329, R331 to R334: registers take what is written, ignoring nothing but what the rules ignore; a commit applies the descriptor whole or reports why not; the dies' thermal
states and alarms; what the management port answers, a black box's records byte by byte among it; and what each reset leaves: black boxes and memory by both, fenced rows
and PKGNUM too by a warm one. (TIME over a warm reset is log 78, the form of the replies log 79, LOST after a write to STATUS log 73, partition 0's own areas at a start-up log 103; that no
part is disabled log 8. The model's readings: that a commit's effects all come in its one step, which ends with STATUS 0 and BUSY 0, is log 74; the configuration and the supervisor slot
that a start-up leaves are logs 9 and 7.) -/
def Obligations.Management : Prop :=
  (∀ (s : State) (p : Nat), p < 16 →
    let busy := (s.part p).status.getLsbD 8 = true
    (busy → exec (.commit p) s = .next s) ∧
    (¬ busy → s.commitFails p (s.part p).staged = [] → ∃ t, exec (.commit p) s = .next t ∧ (t.part p).status = 0 ∧ (t.part p).cfg = cfgOf (s.part p).staged ∧
      (t.part p).last = some (cfgOf (s.part p).staged) ∧ ∀ q, q ≠ p → (t.part q).cfg = (s.part q).cfg) ∧
    (∀ c, ¬ busy → s.commitFails p (s.part p).staged = [c] → ∃ t, exec (.commit p) s = .next t ∧ t.part p = { s.part p with status := BitVec.ofNat 9 c } ∧
      t = { s with parts := t.parts, dies := t.dies } ∧ ∀ q, q ≠ p → t.part q = s.part q)) ∧
  (∀ (s : State) (pa off p n f : Nat) (val : Word),
    (p < 16 → off < 4096 → off ≠ 0x98 → off ≠ 0xA0 → pa = cfgBase + 4096 * p + off → ∃ t, exec (.registerWrite pa val) s = .next t ∧
      t.part p = { s.part p with staged := (s.part p).staged.set off val } ∧ t = { s with parts := t.parts }) ∧
    (pa = cfgBase + 0x10000 → ∃ t, exec (.registerWrite pa val) s = .next t ∧ t = { s with pkgnum := BitVec.ofNat 11 val.toNat }) ∧
    (n < slotCount → off < 4096 → pa = dbgBase + 4096 * n + off → (∀ g h, (s.slot n).run ≠ .frozen g h) → (off = 0x9C0 → val.getLsbD 2 = false) →
      ∃ t, exec (.registerWrite pa val) s = .next t ∧ OnlySlot s t n ∧ t.slot n = { s.slot n with lost := true }) ∧
    (n < slotCount → off < 4096 → pa = dbgBase + 4096 * n + off → (∃ g h, (s.slot n).run = .frozen g h) →
      ∃ t, exec (.registerWrite pa val) s = .next t ∧ (off < 0x9F0 → OnlySlot s t n) ∧
        (off = 0x9C0 → t.slot n = { s.slot n with step := val.getLsbD 3, lost := (s.slot n).lost && !val.getLsbD 2 }) ∧
        (off < 0x980 → t.slot n = { s.slot n with ctx := (t.slot n).ctx } ∧ (t.slot n).ctx.task = (s.slot n).ctx.task) ∧
        (let c := (s.slot n).ctx
         let d := (t.slot n).ctx
         let same : Prop := (∀ x, d.getX x = c.getX x) ∧ d.v = c.v ∧ ∀ m, d.getM m = c.getM m
         (off = 0 → same ∧ d = { c with x := d.x, v := d.v, m := d.m }) ∧
         (∀ r : Reg, r ≠ 0 → off = 8 * r.toNat → (∀ x, d.getX x = if x = r then val else c.getX x) ∧ (∀ m, d.getM m = c.getM m) ∧
           d = { c with x := d.x, m := d.m }) ∧
         (off = 0x940 → same ∧ d = { c with x := d.x, v := d.v, m := d.m, pc := val }))) ∧
    (f < 16 → off < 4096 → pa = launchBase + 4096 * f + off → s.hostPart f = none →
      ∃ t, exec (.registerWrite pa val) s = .next t ∧ t.hostFn f = { s.hostFn f with completed := 1, reply := 0 } ∧ t = { s with hostFns := t.hostFns }) ∧
    (f < 16 → s.hostPart f ≠ none → (s.hostFn f).frozen = false → pa = launchBase + 4096 * f + off → off = 0 ∨ off = 8 ∨ off = 16 →
      ∃ t, exec (.registerWrite pa val) s = .next t ∧ t = { s with hostFns := t.hostFns } ∧
        t.hostFn f = (if off = 0 then { s.hostFn f with entry := val } else if off = 8 then { s.hostFn f with arg0 := val } else { s.hostFn f with arg1 := val }))) ∧
  (∀ (s : State) (die : Nat) (st : BitVec 2),
    (6 ≤ die ∨ (s.die die).thermal = st → exec (.thermalStateChange die st) s = .next s) ∧
    (die < 6 → (s.die die).thermal ≠ st → ∃ t, exec (.thermalStateChange die st) s = .next t ∧ (t.die die).thermal = st ∧ (t.die die).since = s.cycle ∧
      BoxNext s t die (fun r => r.kind = 5 ∧ r.code = st.setWidth 16) ∧ t = { s with dies := t.dies }) ∧
    ((s.die die).thermal = 3 → (s.die die).since + 30000000 ≤ s.cycle → ∃ t, exec (.thermalAlarm die) s = .next t ∧ t = { s with thermAlarm := true }) ∧
    ((s.die die).thermal ≠ 3 ∨ s.cycle < (s.die die).since + 30000000 → exec (.thermalAlarm die) s = .next s)) ∧
  (∀ (s : State) (die seq n part : Nat) (nonce : BitVec 256),
    let replies (i : Instr) (ok : List Byte → Prop) : Prop := ∃ t, exec i s = .next t ∧ t = { s with mgmtReply := t.mgmtReply } ∧ ok t.mgmtReply
    replies (.bbhead die) (fun r => r.length = 4 ∧ ∀ j, j < 4 → r[j]? = some (byteOf (s.die die).head.toNat j)) ∧
    replies (.bbread die seq n) (fun r => (∃ m, m ≤ min n 64 ∧ r.length = 32 * m) ∧
      (n ≤ 64 → seq + n ≤ (s.die die).head.toNat → (s.die die).head.toNat < 2 ^ 31 → r.length = 32 * n ∧
        ∀ i b, i < n → (s.die die).box.get? ((seq + i) % 2048) = some b → ∀ j, j < 32 → r[32 * i + j]? = some (byteOf
          (b.code.toNat + 2 ^ 16 * b.kind.toNat + 2 ^ 28 * b.part.toNat + 2 ^ 32 * b.seq.toNat + 2 ^ 64 * b.time.toNat + 2 ^ 128 * b.word0.toNat +
            2 ^ 192 * b.word1.toNat) j))) ∧
    replies .phase (fun r => r = [BitVec.ofNat 8 s.phase, if s.failed then 1 else 0]) ∧
    replies .thermal (fun r => r.length = 8 ∧ ∀ d, d < 6 → ∃ b, r[d / 4]? = some b ∧ b.toNat / 4 ^ (d % 4) % 4 = (s.die d).thermal.toNat) ∧
    (16 ≤ part → replies (.attest nonce part) fun r => r = []) ∧
    (part < 16 → replies (.attest nonce part) fun r => r.length = 512 ∧ (∀ j, j < 32 → r[j]? = some (byteOf nonce.toNat j)) ∧ r[281]? = some (BitVec.ofNat 8 part))) ∧
  (∀ (s : State) (cold : Bool),
    let started (t : State) : Prop := (t.failed = false → t.slots = [(15, supervisorSlot)] ∧ t.cur = 15 ∧ (t.part 0).cfg = cfg0) ∧ t.cores = [] ∧ t.hostPort = .down ∧
      t.mgmtAlarm = false ∧ t.home = [] ∧ t.copies = [] ∧ t.resv = [] ∧ t.poison = [] ∧ ∀ c, c < 144 → (t.cluster c).lines = [] ∧ (t.cluster c).jobs = [] ∧ (t.cluster c).fenced ≤ 18
    let within (a base n : Nat) : Prop := base ≤ a ∧ a < base + n
    let kept (t : State) : Prop :=
      (∀ d, d < 6 → (s.die d).head.toNat < 1024 → (s.die d).head.toNat ≤ (t.die d).head.toNat ∧
        ∀ x, x < (s.die d).head.toNat → (t.die d).box.get? x = (s.die d).box.get? x) ∧
      ∀ a, ¬ within a Config.dirbase0 (16 * Config.dirsize0) → ¬ within a Config.finbox0 4160 →
        (∀ p, p < 16 → (∀ e ∈ (s.part p).tasks, e.1 < (s.part p).cfg.dirsize) ∧ ¬ within a (s.part p).cfg.dirbase (16 * (s.part p).cfg.dirsize) ∧ ¬ within a (s.part p).cfg.finbox 4160) → t.mem.read a = s.mem.read a
    let coldly (t : State) : Prop := started t ∧ kept t ∧ t.cycle = 0 ∧ t.pkgnum = 0x7FF
    let warmly (t : State) : Prop := started t ∧ kept t ∧ t.cycle = s.cycle ∧ t.pkgnum = s.pkgnum ∧
      ∀ c, c < 144 → (s.cluster c).fenced ≤ 18 → (s.cluster c).fenced ≤ (t.cluster c).fenced
    s.memOk = true → (∀ c, (s.cluster c).fenced ≤ 18) →
    (∃ t, exec .powerOnReset s = .next t ∧ started t ∧ t.mem = [] ∧ t.cycle = 0 ∧ t.pkgnum = 0x7FF) ∧
    (∃ t, exec .coldReset s = .next t ∧ coldly t) ∧ (∃ t, exec .warmReset s = .next t ∧ warmly t) ∧
    (∃ t, exec (.reset cold) s = .next t ∧ if cold then coldly t else warmly t))

namespace Sys2Proof.Machine

/-! ### Words, reset, steps and invariants (R12, R19 to R22, R41 to R60, R333) -/

/-- Words that spec/ encodes in full, and NOPs of each length, with the instructions they stand for. VCVT's is the one R45 gives (log 29). -/
def workedWords : List (List Byte × Instr) :=
  let k : Enc := { len := .l64, mark := false }
  let words (l : List Nat) : List Byte := l.flatMap (leBytes 8)
  [ (words [0x10], .exit k),
    (words [0x0000001000E628F8], .setc k .ltu 5 6 7),
    (words [0x00014C0400062988], .bfxSx k 5 6 12 5),
    (words [0x000000A001E74A58], .fcvt k .f32 .t6 .rne 9 7),
    (words [0x000000A000411A80], .vadd k .f32 0 0 3 1 (.reg 2)),
    (words [0x000000A000013338], .vargmax k .f32 0 6 1),
    (words [0x00005CA000E32310], .vcvt k .f32 .e4m3 .mul .rne 1 0 4 3 7),
    (words [0x0000083C00023404], .ld { len := .l64, mark := true } .s64 { base := 2, off := 8, pl := .g } 6),
    (words [0xFFFFFE0000073900], .addi k 7 7 (BitVec.ofInt 64 (-2))),
    (words [0x3456780000002979] ++ leBytes 4 0x12, .li { len := .l96, mark := false } 5 0x12345678),
    (words [0x60000000000004E8], .fence k .none .cluster),
    (words [0x0000000C00084D08], .bararv k .none .unwritten { base := 8, off := 0, pl := .g } 9 0),
    (words [0x0003E80000040681] ++ leBytes 4 4, .meet { len := .l96, mark := false } 4 (.imm 1000) 4),
    (words [0x0000000000042E88], .mclose k 5 4), (words [0x0000050000000700], .svc k 5), (words [0x0000030000002710], .ctlr k 4 .group),
    (words [0x0000000400E62F28], .resumeJReplay k 5 6 7), (words [0x00000000000E05B0], .tidfence k 14),
    (words [0x0000003C00C50488], .amoadd k .s64 .none .unwritten { base := 5, off := 0, pl := .g } 0 6),
    (words [0x08], .nop k), (words [0x09] ++ leBytes 4 0, .nop { len := .l96, mark := false }),
    (words [0x0A, 0], .nop { len := .l128, mark := false }), (words [0x0C], .nop { len := .l64, mark := true }) ]

/-- Slot `n` may issue at cycle `c` (R17, R19, R20, R262): ready, its partition's, its slice in force and not ended with this cycle, and 16 cycles after its
last instruction. -/
def State.readyIn (s : State) (c n : Nat) : Prop :=
  (s.slot n).run = .ready ∧ (s.slot n).restoring = false ∧ Config.coresEnabled.getLsbD (coreOfSlot n) = true ∧
  (∃ p, s.slotPart? n = some p ∧ ∀ q, s.inForce p (coreOfSlot n) = some q → q = p ∧
    (s.nextInRing p (coreOfSlot n) ≠ none → c < (s.core (coreOfSlot n)).sliceFrom.getD (s.part p).cfg.ring.toNat 0 + (s.part p).cfg.sliceLen)) ∧ ∀ t, (s.slot n).lastIssue = some t → t + 16 ≤ c

/-- What follows an instruction within its step: its step bit (R284), and the quiescence of groups (R272). -/
def afterExec (s t : State) (o : Host.Outcome State Fault Refusal) (u : State) : Prop :=
  ∃ v, o = .next v ∧ u = (v.afterStep t.cur s.pc).quiesce

end Sys2Proof.Machine

/-- R41 to R60 (every encoding table): an instruction that is well formed and has an encoding decodes from it to itself, with every operand at every value the encoding
admits; the three rows of RESUME.S share one encoding (R299), from which the decoder reads the first. -/
def Obligations.EncodeDecode : Prop :=
  ∀ i : Instr, i.wf = true → i.isEvent = false → ∀ rest, decode (encode i ++ rest) = .ok i.decoded

/-- R41 to R60: what the decoder accepts is a well-formed instruction that has an encoding, and the bytes it read are that encoding: no word has two readings, and no reserved
bit is let through. -/
def Obligations.DecodeSound : Prop :=
  ∀ (bs : List Byte) (i : Instr), decode bs = .ok i → i.wf = true ∧ i.isEvent = false ∧ encode i = bs.take (encode i).length ∧ i.decoded = i

/-- The words that spec/ works out in full, with NOPs of each length, decode to the instructions they stand for; VCVT's is the word that R45's fields give, where R111
prints another (log 29, the model's choice). -/
def Obligations.WorkedWords : Prop := ∀ e ∈ workedWords, decode e.1 = .ok e.2

/-- R12, R24, R69, R241, R282, R292, R332, R333: after power-on reset partition 0 runs with every enabled core and slot mask 0x8000, and its supervisor slot 15 is ready at root privilege with
MULT 1, its other registers at their reset values; every other slot is idle; no memory is listed and every memory is in canonical form. (The supervisor's entry, its zero registers and memory's zeros are the model's
choices: log 7, 28 and 2; that every start-up phase and self-test passes and that no part is disabled are logs 5 and 8; that the first sequence number is 1 is log 82.) -/
def Obligations.ResetState : Prop :=
  let s := State.reset
  s.memOk = true ∧ s.cur = 15 ∧ (s.slot 15).run = .ready ∧ (s.slot 15).priv = 2 ∧ (s.slot 15).ctx.mult = 1 ∧ (s.slot 15).ctx.fstat = 0 ∧
  (s.slot 15).ctx.bbValid = 0 ∧ (s.slot 15).ctx.task = 1 ∧ ((s.slot 15).reg 0).adoptmax = 4 ∧ ((s.slot 15).reg 0).tidbase = 0 ∧
  (∀ n, n ≠ 15 → (s.slot n).run = .idle ∧ (s.slot n).priv = 0) ∧ (∀ c n, (s.core c).counts.getD n 0 = 0) ∧
  (s.part 0).cfg.running = true ∧ (s.part 0).cfg.slots = 0x8000 ∧ (s.part 0).cfg.supSlot = 15 ∧ (s.part 0).cfg.cores = Config.coresEnabled ∧
  (∀ p, p ≠ 0 → (s.part p).cfg.running = false) ∧ s.pkgnum = 0x7FF ∧ s.hostPort = .down ∧ s.failed = false ∧ (∀ a, s.mem.read a = 0) ∧ s.copies = [] ∧ s.resv = []

/-- R20, R44, R60: where a slot issues, on the agenda's word or because nothing else is due, a step fetches at the slot's pc and runs what the bytes decode to, with the slot as
the current one, unless a meet entry's deadline has passed, which is served before; then come its step bit and the quiescence of groups. A fetch or decode that fails stops the thread with its fault instead. -/
def Obligations.StepRuns : Prop :=
  ∀ (s : State) (n c : Nat) (rest : List Move), s.failed = false → s.deadlineDue = none →
    (s.agenda = .issue n :: rest ∧ c = s.cycle ∧ s.issues (coreOfSlot n) s.cycle = some n) ∨
      (s.agenda = [] ∧ rest = [] ∧ s.due = none ∧ s.nextUp = .issue n c) →
    let b := ({ s with agenda := rest } : State).begin n c
    b.cur = n ∧ b.pc = (s.slot n).ctx.pc ∧ (∀ r, b.getX r = (s.slot n).ctx.getX r) ∧ (b.slot n).lastIssue = some c ∧ b.cycle = c ∧
    (∀ t bs i, b.fetch (b.thr n) b.pc = .ok (t, bs) → decode bs = .ok i →
      (∀ u, step s = .next u ↔ afterExec b t (exec (t.pick i) t) u) ∧ t.cur = n ∧ t.pc = b.pc) ∧
    (∀ fi, b.fetchDecode = .error fi → ∃ u, step s = .next u ∧ afterExec b b (exec (.illegalEncoding fi.cls fi.cause fi.addr fi.info) b) u)

/-- Every step keeps every memory of the package in canonical form: this package's, other packages', the host's, and every core's buffers and shadow banks. -/
def Obligations.MemoryInvariant : Prop := ∀ s t : State, s.memOk = true → step s = .next t → t.memOk = true

/-- No step refuses: it answers a next state, and the one fault it may end in is that of a device whose start-up has failed (R330, R333). -/
def Obligations.NothingRefused : Prop :=
  ∀ s : State, (∃ t, step s = .next t) ∨ (step s = .fault (.startUpFailed s.phase) ∧ s.failed = true)

/-- R17, R20, R262: in a cycle a core issues for at most one slot: the slot whose turn it is, or the next of its partition in turn order that may. -/
def Obligations.TurnRule : Prop :=
  ∀ (s : State) (c core : Nat), (s.core core).lastIssue ≠ some c →
    (∀ n, s.issues core c = some n →
      coreOfSlot n = core ∧ s.readyIn c n ∧ s.slotPart? n = s.slotPart? (16 * core + c % 16) ∧
      ∀ i, i < 16 → (s.slotPart? (16 * core + (c % 16 + i) % 16) = s.slotPart? n ∧ s.readyIn c (16 * core + (c % 16 + i) % 16)) →
        ∃ j, j ≤ i ∧ n = 16 * core + (c % 16 + j) % 16) ∧
    (s.issues core c = none → ∀ i, i < 16 → ∀ p, s.slotPart? (16 * core + c % 16) = some p →
      s.slotPart? (16 * core + i) = some p → ¬ s.readyIn c (16 * core + i)) ∧
    ∀ d, (s.core core).lastIssue = some d → s.issues core d = none
end

