-- ==== Sys2Proof/Laws/Table.lean ====
section
/-! SUPPORT. Sparse tables: what a lookup gives after an update. -/

namespace Sys2Proof

@[simp] theorem Table.get?_set_self {α : Type} (t : Table α) (k : Nat) (v : α) : (t.set k v).get? k = some v := by
  induction t with
  | nil => simp [Table.set, Table.get?]
  | cons e r ih =>
    obtain ⟨j, w⟩ := e
    by_cases h : k = j
    · simp [Table.set, Table.get?, h]
    · by_cases h' : k < j
      · simp [Table.set, Table.get?, h, h']
      · simp [Table.set, Table.get?, h, h', ih, Ne.symm h]

theorem Table.get?_set_ne {α : Type} (t : Table α) {k j : Nat} (v : α) (h : j ≠ k) : (t.set k v).get? j = t.get? j := by
  induction t with
  | nil => simp [Table.set, Table.get?, Ne.symm h]
  | cons e r ih =>
    obtain ⟨i, w⟩ := e
    by_cases h1 : k = i
    · subst h1; simp [Table.set, Table.get?, Ne.symm h]
    · by_cases h2 : k < i
      · simp [Table.set, Table.get?, h1, h2, Ne.symm h]
      · simp [Table.set, Table.get?, h1, h2, ih]

@[simp] theorem Table.getD_set_self {α : Type} (t : Table α) (k : Nat) (v d : α) : (t.set k v).getD k d = v := by
  simp [Table.getD]

theorem Table.getD_set_ne {α : Type} (t : Table α) {k j : Nat} (v d : α) (h : j ≠ k) : (t.set k v).getD j d = t.getD j d := by
  simp [Table.getD, Table.get?_set_ne t v h]

theorem Table.get?_erase_ne {α : Type} (t : Table α) {k j : Nat} (h : j ≠ k) : (t.erase k).get? j = t.get? j := by
  induction t with
  | nil => rfl
  | cons e r ih =>
    obtain ⟨i, w⟩ := e
    have ih : Table.get? (r.filter fun e => e.1 ≠ k) j = Table.get? r j := ih
    by_cases h1 : i = k
    · subst h1; simpa [Table.erase, Table.get?, Ne.symm h] using ih
    · have : Table.erase ((i, w) :: r) k = (i, w) :: Table.erase r k := by simp [Table.erase, h1]
      rw [this, Table.get?, Table.get?]
      split
      · rfl
      · exact ih

/-- A map of the values is a map of what a lookup gives. -/
theorem Table.get?_map {α β : Type} (t : Table α) (g : Nat → α → β) (k : Nat) :
    Table.get? (t.map fun (e : Nat × α) => (e.1, g e.1 e.2)) k = (t.get? k).map (g k) := by
  induction t with
  | nil => rfl
  | cons e r ih =>
    by_cases h : e.1 = k
    · subst h; simp [Table.get?]
    · simpa [Table.get?, h] using ih

/-- A second update of one key replaces the first. -/
theorem Table.set_set {α : Type} (t : Table α) (k : Nat) (v w : α) : (t.set k v).set k w = t.set k w := by
  induction t with
  | nil => simp [Table.set]
  | cons e r ih =>
    obtain ⟨i, u⟩ := e
    by_cases h1 : k = i
    · simp [Table.set, h1]
    · by_cases h2 : k < i
      · simp [Table.set, h1, h2]
      · simp [Table.set, h1, h2, ih]

end Sys2Proof
end

