-- ==== Sys2Proof/Laws/State.lean ====
section
/-! SUPPORT. One lemma per field of the state and per update: what an update leaves alone. Then what a lookup gives after an update. -/

namespace Sys2Proof.Machine

/-! ### State.setSlot -/
@[simp] theorem State.setSlot_cycle (s : State) (n : Nat) (v : Slot) : (s.setSlot n v).cycle = s.cycle := rfl
@[simp] theorem State.setSlot_cur (s : State) (n : Nat) (v : Slot) : (s.setSlot n v).cur = s.cur := rfl
@[simp] theorem State.setSlot_agenda (s : State) (n : Nat) (v : Slot) : (s.setSlot n v).agenda = s.agenda := rfl
@[simp] theorem State.setSlot_freeCtr (s : State) (n : Nat) (v : Slot) : (s.setSlot n v).freeCtr = s.freeCtr := rfl
@[simp] theorem State.setSlot_cores (s : State) (n : Nat) (v : Slot) : (s.setSlot n v).cores = s.cores := rfl
@[simp] theorem State.setSlot_clusters (s : State) (n : Nat) (v : Slot) : (s.setSlot n v).clusters = s.clusters := rfl
@[simp] theorem State.setSlot_dies (s : State) (n : Nat) (v : Slot) : (s.setSlot n v).dies = s.dies := rfl
@[simp] theorem State.setSlot_parts (s : State) (n : Nat) (v : Slot) : (s.setSlot n v).parts = s.parts := rfl
@[simp] theorem State.setSlot_mem (s : State) (n : Nat) (v : Slot) : (s.setSlot n v).mem = s.mem := rfl
@[simp] theorem State.setSlot_remote (s : State) (n : Nat) (v : Slot) : (s.setSlot n v).remote = s.remote := rfl
@[simp] theorem State.setSlot_hostMem (s : State) (n : Nat) (v : Slot) : (s.setSlot n v).hostMem = s.hostMem := rfl
@[simp] theorem State.setSlot_home (s : State) (n : Nat) (v : Slot) : (s.setSlot n v).home = s.home := rfl
@[simp] theorem State.setSlot_copies (s : State) (n : Nat) (v : Slot) : (s.setSlot n v).copies = s.copies := rfl
@[simp] theorem State.setSlot_poison (s : State) (n : Nat) (v : Slot) : (s.setSlot n v).poison = s.poison := rfl
@[simp] theorem State.setSlot_resv (s : State) (n : Nat) (v : Slot) : (s.setSlot n v).resv = s.resv := rfl
@[simp] theorem State.setSlot_lockQ (s : State) (n : Nat) (v : Slot) : (s.setSlot n v).lockQ = s.lockQ := rfl
@[simp] theorem State.setSlot_queueQ (s : State) (n : Nat) (v : Slot) : (s.setSlot n v).queueQ = s.queueQ := rfl
@[simp] theorem State.setSlot_claimQ (s : State) (n : Nat) (v : Slot) : (s.setSlot n v).claimQ = s.claimQ := rfl
@[simp] theorem State.setSlot_hostFns (s : State) (n : Nat) (v : Slot) : (s.setSlot n v).hostFns = s.hostFns := rfl
@[simp] theorem State.setSlot_links (s : State) (n : Nat) (v : Slot) : (s.setSlot n v).links = s.links := rfl
@[simp] theorem State.setSlot_hostPort (s : State) (n : Nat) (v : Slot) : (s.setSlot n v).hostPort = s.hostPort := rfl
@[simp] theorem State.setSlot_hostWidth (s : State) (n : Nat) (v : Slot) : (s.setSlot n v).hostWidth = s.hostWidth := rfl
@[simp] theorem State.setSlot_pkgnum (s : State) (n : Nat) (v : Slot) : (s.setSlot n v).pkgnum = s.pkgnum := rfl
@[simp] theorem State.setSlot_phase (s : State) (n : Nat) (v : Slot) : (s.setSlot n v).phase = s.phase := rfl
@[simp] theorem State.setSlot_failed (s : State) (n : Nat) (v : Slot) : (s.setSlot n v).failed = s.failed := rfl
@[simp] theorem State.setSlot_mgmtAlarm (s : State) (n : Nat) (v : Slot) : (s.setSlot n v).mgmtAlarm = s.mgmtAlarm := rfl
@[simp] theorem State.setSlot_thermAlarm (s : State) (n : Nat) (v : Slot) : (s.setSlot n v).thermAlarm = s.thermAlarm := rfl
@[simp] theorem State.setSlot_mgmtReply (s : State) (n : Nat) (v : Slot) : (s.setSlot n v).mgmtReply = s.mgmtReply := rfl

/-! ### State.modSlot -/
@[simp] theorem State.modSlot_cycle (s : State) (n : Nat) (f : Slot → Slot) : (s.modSlot n f).cycle = s.cycle := rfl
@[simp] theorem State.modSlot_cur (s : State) (n : Nat) (f : Slot → Slot) : (s.modSlot n f).cur = s.cur := rfl
@[simp] theorem State.modSlot_agenda (s : State) (n : Nat) (f : Slot → Slot) : (s.modSlot n f).agenda = s.agenda := rfl
@[simp] theorem State.modSlot_freeCtr (s : State) (n : Nat) (f : Slot → Slot) : (s.modSlot n f).freeCtr = s.freeCtr := rfl
@[simp] theorem State.modSlot_cores (s : State) (n : Nat) (f : Slot → Slot) : (s.modSlot n f).cores = s.cores := rfl
@[simp] theorem State.modSlot_clusters (s : State) (n : Nat) (f : Slot → Slot) : (s.modSlot n f).clusters = s.clusters := rfl
@[simp] theorem State.modSlot_dies (s : State) (n : Nat) (f : Slot → Slot) : (s.modSlot n f).dies = s.dies := rfl
@[simp] theorem State.modSlot_parts (s : State) (n : Nat) (f : Slot → Slot) : (s.modSlot n f).parts = s.parts := rfl
@[simp] theorem State.modSlot_mem (s : State) (n : Nat) (f : Slot → Slot) : (s.modSlot n f).mem = s.mem := rfl
@[simp] theorem State.modSlot_remote (s : State) (n : Nat) (f : Slot → Slot) : (s.modSlot n f).remote = s.remote := rfl
@[simp] theorem State.modSlot_hostMem (s : State) (n : Nat) (f : Slot → Slot) : (s.modSlot n f).hostMem = s.hostMem := rfl
@[simp] theorem State.modSlot_home (s : State) (n : Nat) (f : Slot → Slot) : (s.modSlot n f).home = s.home := rfl
@[simp] theorem State.modSlot_copies (s : State) (n : Nat) (f : Slot → Slot) : (s.modSlot n f).copies = s.copies := rfl
@[simp] theorem State.modSlot_poison (s : State) (n : Nat) (f : Slot → Slot) : (s.modSlot n f).poison = s.poison := rfl
@[simp] theorem State.modSlot_resv (s : State) (n : Nat) (f : Slot → Slot) : (s.modSlot n f).resv = s.resv := rfl
@[simp] theorem State.modSlot_lockQ (s : State) (n : Nat) (f : Slot → Slot) : (s.modSlot n f).lockQ = s.lockQ := rfl
@[simp] theorem State.modSlot_queueQ (s : State) (n : Nat) (f : Slot → Slot) : (s.modSlot n f).queueQ = s.queueQ := rfl
@[simp] theorem State.modSlot_claimQ (s : State) (n : Nat) (f : Slot → Slot) : (s.modSlot n f).claimQ = s.claimQ := rfl
@[simp] theorem State.modSlot_hostFns (s : State) (n : Nat) (f : Slot → Slot) : (s.modSlot n f).hostFns = s.hostFns := rfl
@[simp] theorem State.modSlot_links (s : State) (n : Nat) (f : Slot → Slot) : (s.modSlot n f).links = s.links := rfl
@[simp] theorem State.modSlot_hostPort (s : State) (n : Nat) (f : Slot → Slot) : (s.modSlot n f).hostPort = s.hostPort := rfl
@[simp] theorem State.modSlot_hostWidth (s : State) (n : Nat) (f : Slot → Slot) : (s.modSlot n f).hostWidth = s.hostWidth := rfl
@[simp] theorem State.modSlot_pkgnum (s : State) (n : Nat) (f : Slot → Slot) : (s.modSlot n f).pkgnum = s.pkgnum := rfl
@[simp] theorem State.modSlot_phase (s : State) (n : Nat) (f : Slot → Slot) : (s.modSlot n f).phase = s.phase := rfl
@[simp] theorem State.modSlot_failed (s : State) (n : Nat) (f : Slot → Slot) : (s.modSlot n f).failed = s.failed := rfl
@[simp] theorem State.modSlot_mgmtAlarm (s : State) (n : Nat) (f : Slot → Slot) : (s.modSlot n f).mgmtAlarm = s.mgmtAlarm := rfl
@[simp] theorem State.modSlot_thermAlarm (s : State) (n : Nat) (f : Slot → Slot) : (s.modSlot n f).thermAlarm = s.thermAlarm := rfl
@[simp] theorem State.modSlot_mgmtReply (s : State) (n : Nat) (f : Slot → Slot) : (s.modSlot n f).mgmtReply = s.mgmtReply := rfl

/-! ### State.modCore -/
@[simp] theorem State.modCore_cycle (s : State) (n : Nat) (f : Core → Core) : (s.modCore n f).cycle = s.cycle := rfl
@[simp] theorem State.modCore_cur (s : State) (n : Nat) (f : Core → Core) : (s.modCore n f).cur = s.cur := rfl
@[simp] theorem State.modCore_agenda (s : State) (n : Nat) (f : Core → Core) : (s.modCore n f).agenda = s.agenda := rfl
@[simp] theorem State.modCore_freeCtr (s : State) (n : Nat) (f : Core → Core) : (s.modCore n f).freeCtr = s.freeCtr := rfl
@[simp] theorem State.modCore_slots (s : State) (n : Nat) (f : Core → Core) : (s.modCore n f).slots = s.slots := rfl
@[simp] theorem State.modCore_clusters (s : State) (n : Nat) (f : Core → Core) : (s.modCore n f).clusters = s.clusters := rfl
@[simp] theorem State.modCore_dies (s : State) (n : Nat) (f : Core → Core) : (s.modCore n f).dies = s.dies := rfl
@[simp] theorem State.modCore_parts (s : State) (n : Nat) (f : Core → Core) : (s.modCore n f).parts = s.parts := rfl
@[simp] theorem State.modCore_mem (s : State) (n : Nat) (f : Core → Core) : (s.modCore n f).mem = s.mem := rfl
@[simp] theorem State.modCore_remote (s : State) (n : Nat) (f : Core → Core) : (s.modCore n f).remote = s.remote := rfl
@[simp] theorem State.modCore_hostMem (s : State) (n : Nat) (f : Core → Core) : (s.modCore n f).hostMem = s.hostMem := rfl
@[simp] theorem State.modCore_home (s : State) (n : Nat) (f : Core → Core) : (s.modCore n f).home = s.home := rfl
@[simp] theorem State.modCore_copies (s : State) (n : Nat) (f : Core → Core) : (s.modCore n f).copies = s.copies := rfl
@[simp] theorem State.modCore_poison (s : State) (n : Nat) (f : Core → Core) : (s.modCore n f).poison = s.poison := rfl
@[simp] theorem State.modCore_resv (s : State) (n : Nat) (f : Core → Core) : (s.modCore n f).resv = s.resv := rfl
@[simp] theorem State.modCore_lockQ (s : State) (n : Nat) (f : Core → Core) : (s.modCore n f).lockQ = s.lockQ := rfl
@[simp] theorem State.modCore_queueQ (s : State) (n : Nat) (f : Core → Core) : (s.modCore n f).queueQ = s.queueQ := rfl
@[simp] theorem State.modCore_claimQ (s : State) (n : Nat) (f : Core → Core) : (s.modCore n f).claimQ = s.claimQ := rfl
@[simp] theorem State.modCore_hostFns (s : State) (n : Nat) (f : Core → Core) : (s.modCore n f).hostFns = s.hostFns := rfl
@[simp] theorem State.modCore_links (s : State) (n : Nat) (f : Core → Core) : (s.modCore n f).links = s.links := rfl
@[simp] theorem State.modCore_hostPort (s : State) (n : Nat) (f : Core → Core) : (s.modCore n f).hostPort = s.hostPort := rfl
@[simp] theorem State.modCore_hostWidth (s : State) (n : Nat) (f : Core → Core) : (s.modCore n f).hostWidth = s.hostWidth := rfl
@[simp] theorem State.modCore_pkgnum (s : State) (n : Nat) (f : Core → Core) : (s.modCore n f).pkgnum = s.pkgnum := rfl
@[simp] theorem State.modCore_phase (s : State) (n : Nat) (f : Core → Core) : (s.modCore n f).phase = s.phase := rfl
@[simp] theorem State.modCore_failed (s : State) (n : Nat) (f : Core → Core) : (s.modCore n f).failed = s.failed := rfl
@[simp] theorem State.modCore_mgmtAlarm (s : State) (n : Nat) (f : Core → Core) : (s.modCore n f).mgmtAlarm = s.mgmtAlarm := rfl
@[simp] theorem State.modCore_thermAlarm (s : State) (n : Nat) (f : Core → Core) : (s.modCore n f).thermAlarm = s.thermAlarm := rfl
@[simp] theorem State.modCore_mgmtReply (s : State) (n : Nat) (f : Core → Core) : (s.modCore n f).mgmtReply = s.mgmtReply := rfl

/-! ### State.modCluster -/
@[simp] theorem State.modCluster_cycle (s : State) (n : Nat) (f : Cluster → Cluster) : (s.modCluster n f).cycle = s.cycle := rfl
@[simp] theorem State.modCluster_cur (s : State) (n : Nat) (f : Cluster → Cluster) : (s.modCluster n f).cur = s.cur := rfl
@[simp] theorem State.modCluster_agenda (s : State) (n : Nat) (f : Cluster → Cluster) : (s.modCluster n f).agenda = s.agenda := rfl
@[simp] theorem State.modCluster_freeCtr (s : State) (n : Nat) (f : Cluster → Cluster) : (s.modCluster n f).freeCtr = s.freeCtr := rfl
@[simp] theorem State.modCluster_slots (s : State) (n : Nat) (f : Cluster → Cluster) : (s.modCluster n f).slots = s.slots := rfl
@[simp] theorem State.modCluster_cores (s : State) (n : Nat) (f : Cluster → Cluster) : (s.modCluster n f).cores = s.cores := rfl
@[simp] theorem State.modCluster_dies (s : State) (n : Nat) (f : Cluster → Cluster) : (s.modCluster n f).dies = s.dies := rfl
@[simp] theorem State.modCluster_parts (s : State) (n : Nat) (f : Cluster → Cluster) : (s.modCluster n f).parts = s.parts := rfl
@[simp] theorem State.modCluster_mem (s : State) (n : Nat) (f : Cluster → Cluster) : (s.modCluster n f).mem = s.mem := rfl
@[simp] theorem State.modCluster_remote (s : State) (n : Nat) (f : Cluster → Cluster) : (s.modCluster n f).remote = s.remote := rfl
@[simp] theorem State.modCluster_hostMem (s : State) (n : Nat) (f : Cluster → Cluster) : (s.modCluster n f).hostMem = s.hostMem := rfl
@[simp] theorem State.modCluster_home (s : State) (n : Nat) (f : Cluster → Cluster) : (s.modCluster n f).home = s.home := rfl
@[simp] theorem State.modCluster_copies (s : State) (n : Nat) (f : Cluster → Cluster) : (s.modCluster n f).copies = s.copies := rfl
@[simp] theorem State.modCluster_poison (s : State) (n : Nat) (f : Cluster → Cluster) : (s.modCluster n f).poison = s.poison := rfl
@[simp] theorem State.modCluster_resv (s : State) (n : Nat) (f : Cluster → Cluster) : (s.modCluster n f).resv = s.resv := rfl
@[simp] theorem State.modCluster_lockQ (s : State) (n : Nat) (f : Cluster → Cluster) : (s.modCluster n f).lockQ = s.lockQ := rfl
@[simp] theorem State.modCluster_queueQ (s : State) (n : Nat) (f : Cluster → Cluster) : (s.modCluster n f).queueQ = s.queueQ := rfl
@[simp] theorem State.modCluster_claimQ (s : State) (n : Nat) (f : Cluster → Cluster) : (s.modCluster n f).claimQ = s.claimQ := rfl
@[simp] theorem State.modCluster_hostFns (s : State) (n : Nat) (f : Cluster → Cluster) : (s.modCluster n f).hostFns = s.hostFns := rfl
@[simp] theorem State.modCluster_links (s : State) (n : Nat) (f : Cluster → Cluster) : (s.modCluster n f).links = s.links := rfl
@[simp] theorem State.modCluster_hostPort (s : State) (n : Nat) (f : Cluster → Cluster) : (s.modCluster n f).hostPort = s.hostPort := rfl
@[simp] theorem State.modCluster_hostWidth (s : State) (n : Nat) (f : Cluster → Cluster) : (s.modCluster n f).hostWidth = s.hostWidth := rfl
@[simp] theorem State.modCluster_pkgnum (s : State) (n : Nat) (f : Cluster → Cluster) : (s.modCluster n f).pkgnum = s.pkgnum := rfl
@[simp] theorem State.modCluster_phase (s : State) (n : Nat) (f : Cluster → Cluster) : (s.modCluster n f).phase = s.phase := rfl
@[simp] theorem State.modCluster_failed (s : State) (n : Nat) (f : Cluster → Cluster) : (s.modCluster n f).failed = s.failed := rfl
@[simp] theorem State.modCluster_mgmtAlarm (s : State) (n : Nat) (f : Cluster → Cluster) : (s.modCluster n f).mgmtAlarm = s.mgmtAlarm := rfl
@[simp] theorem State.modCluster_thermAlarm (s : State) (n : Nat) (f : Cluster → Cluster) : (s.modCluster n f).thermAlarm = s.thermAlarm := rfl
@[simp] theorem State.modCluster_mgmtReply (s : State) (n : Nat) (f : Cluster → Cluster) : (s.modCluster n f).mgmtReply = s.mgmtReply := rfl

/-! ### State.modDie -/
@[simp] theorem State.modDie_cycle (s : State) (n : Nat) (f : Die → Die) : (s.modDie n f).cycle = s.cycle := rfl
@[simp] theorem State.modDie_cur (s : State) (n : Nat) (f : Die → Die) : (s.modDie n f).cur = s.cur := rfl
@[simp] theorem State.modDie_agenda (s : State) (n : Nat) (f : Die → Die) : (s.modDie n f).agenda = s.agenda := rfl
@[simp] theorem State.modDie_freeCtr (s : State) (n : Nat) (f : Die → Die) : (s.modDie n f).freeCtr = s.freeCtr := rfl
@[simp] theorem State.modDie_slots (s : State) (n : Nat) (f : Die → Die) : (s.modDie n f).slots = s.slots := rfl
@[simp] theorem State.modDie_cores (s : State) (n : Nat) (f : Die → Die) : (s.modDie n f).cores = s.cores := rfl
@[simp] theorem State.modDie_clusters (s : State) (n : Nat) (f : Die → Die) : (s.modDie n f).clusters = s.clusters := rfl
@[simp] theorem State.modDie_parts (s : State) (n : Nat) (f : Die → Die) : (s.modDie n f).parts = s.parts := rfl
@[simp] theorem State.modDie_mem (s : State) (n : Nat) (f : Die → Die) : (s.modDie n f).mem = s.mem := rfl
@[simp] theorem State.modDie_remote (s : State) (n : Nat) (f : Die → Die) : (s.modDie n f).remote = s.remote := rfl
@[simp] theorem State.modDie_hostMem (s : State) (n : Nat) (f : Die → Die) : (s.modDie n f).hostMem = s.hostMem := rfl
@[simp] theorem State.modDie_home (s : State) (n : Nat) (f : Die → Die) : (s.modDie n f).home = s.home := rfl
@[simp] theorem State.modDie_copies (s : State) (n : Nat) (f : Die → Die) : (s.modDie n f).copies = s.copies := rfl
@[simp] theorem State.modDie_poison (s : State) (n : Nat) (f : Die → Die) : (s.modDie n f).poison = s.poison := rfl
@[simp] theorem State.modDie_resv (s : State) (n : Nat) (f : Die → Die) : (s.modDie n f).resv = s.resv := rfl
@[simp] theorem State.modDie_lockQ (s : State) (n : Nat) (f : Die → Die) : (s.modDie n f).lockQ = s.lockQ := rfl
@[simp] theorem State.modDie_queueQ (s : State) (n : Nat) (f : Die → Die) : (s.modDie n f).queueQ = s.queueQ := rfl
@[simp] theorem State.modDie_claimQ (s : State) (n : Nat) (f : Die → Die) : (s.modDie n f).claimQ = s.claimQ := rfl
@[simp] theorem State.modDie_hostFns (s : State) (n : Nat) (f : Die → Die) : (s.modDie n f).hostFns = s.hostFns := rfl
@[simp] theorem State.modDie_links (s : State) (n : Nat) (f : Die → Die) : (s.modDie n f).links = s.links := rfl
@[simp] theorem State.modDie_hostPort (s : State) (n : Nat) (f : Die → Die) : (s.modDie n f).hostPort = s.hostPort := rfl
@[simp] theorem State.modDie_hostWidth (s : State) (n : Nat) (f : Die → Die) : (s.modDie n f).hostWidth = s.hostWidth := rfl
@[simp] theorem State.modDie_pkgnum (s : State) (n : Nat) (f : Die → Die) : (s.modDie n f).pkgnum = s.pkgnum := rfl
@[simp] theorem State.modDie_phase (s : State) (n : Nat) (f : Die → Die) : (s.modDie n f).phase = s.phase := rfl
@[simp] theorem State.modDie_failed (s : State) (n : Nat) (f : Die → Die) : (s.modDie n f).failed = s.failed := rfl
@[simp] theorem State.modDie_mgmtAlarm (s : State) (n : Nat) (f : Die → Die) : (s.modDie n f).mgmtAlarm = s.mgmtAlarm := rfl
@[simp] theorem State.modDie_thermAlarm (s : State) (n : Nat) (f : Die → Die) : (s.modDie n f).thermAlarm = s.thermAlarm := rfl
@[simp] theorem State.modDie_mgmtReply (s : State) (n : Nat) (f : Die → Die) : (s.modDie n f).mgmtReply = s.mgmtReply := rfl

/-! ### State.modPart -/
@[simp] theorem State.modPart_cycle (s : State) (n : Nat) (f : Part → Part) : (s.modPart n f).cycle = s.cycle := rfl
@[simp] theorem State.modPart_cur (s : State) (n : Nat) (f : Part → Part) : (s.modPart n f).cur = s.cur := rfl
@[simp] theorem State.modPart_agenda (s : State) (n : Nat) (f : Part → Part) : (s.modPart n f).agenda = s.agenda := rfl
@[simp] theorem State.modPart_freeCtr (s : State) (n : Nat) (f : Part → Part) : (s.modPart n f).freeCtr = s.freeCtr := rfl
@[simp] theorem State.modPart_slots (s : State) (n : Nat) (f : Part → Part) : (s.modPart n f).slots = s.slots := rfl
@[simp] theorem State.modPart_cores (s : State) (n : Nat) (f : Part → Part) : (s.modPart n f).cores = s.cores := rfl
@[simp] theorem State.modPart_clusters (s : State) (n : Nat) (f : Part → Part) : (s.modPart n f).clusters = s.clusters := rfl
@[simp] theorem State.modPart_dies (s : State) (n : Nat) (f : Part → Part) : (s.modPart n f).dies = s.dies := rfl
@[simp] theorem State.modPart_mem (s : State) (n : Nat) (f : Part → Part) : (s.modPart n f).mem = s.mem := rfl
@[simp] theorem State.modPart_remote (s : State) (n : Nat) (f : Part → Part) : (s.modPart n f).remote = s.remote := rfl
@[simp] theorem State.modPart_hostMem (s : State) (n : Nat) (f : Part → Part) : (s.modPart n f).hostMem = s.hostMem := rfl
@[simp] theorem State.modPart_home (s : State) (n : Nat) (f : Part → Part) : (s.modPart n f).home = s.home := rfl
@[simp] theorem State.modPart_copies (s : State) (n : Nat) (f : Part → Part) : (s.modPart n f).copies = s.copies := rfl
@[simp] theorem State.modPart_poison (s : State) (n : Nat) (f : Part → Part) : (s.modPart n f).poison = s.poison := rfl
@[simp] theorem State.modPart_resv (s : State) (n : Nat) (f : Part → Part) : (s.modPart n f).resv = s.resv := rfl
@[simp] theorem State.modPart_lockQ (s : State) (n : Nat) (f : Part → Part) : (s.modPart n f).lockQ = s.lockQ := rfl
@[simp] theorem State.modPart_queueQ (s : State) (n : Nat) (f : Part → Part) : (s.modPart n f).queueQ = s.queueQ := rfl
@[simp] theorem State.modPart_claimQ (s : State) (n : Nat) (f : Part → Part) : (s.modPart n f).claimQ = s.claimQ := rfl
@[simp] theorem State.modPart_hostFns (s : State) (n : Nat) (f : Part → Part) : (s.modPart n f).hostFns = s.hostFns := rfl
@[simp] theorem State.modPart_links (s : State) (n : Nat) (f : Part → Part) : (s.modPart n f).links = s.links := rfl
@[simp] theorem State.modPart_hostPort (s : State) (n : Nat) (f : Part → Part) : (s.modPart n f).hostPort = s.hostPort := rfl
@[simp] theorem State.modPart_hostWidth (s : State) (n : Nat) (f : Part → Part) : (s.modPart n f).hostWidth = s.hostWidth := rfl
@[simp] theorem State.modPart_pkgnum (s : State) (n : Nat) (f : Part → Part) : (s.modPart n f).pkgnum = s.pkgnum := rfl
@[simp] theorem State.modPart_phase (s : State) (n : Nat) (f : Part → Part) : (s.modPart n f).phase = s.phase := rfl
@[simp] theorem State.modPart_failed (s : State) (n : Nat) (f : Part → Part) : (s.modPart n f).failed = s.failed := rfl
@[simp] theorem State.modPart_mgmtAlarm (s : State) (n : Nat) (f : Part → Part) : (s.modPart n f).mgmtAlarm = s.mgmtAlarm := rfl
@[simp] theorem State.modPart_thermAlarm (s : State) (n : Nat) (f : Part → Part) : (s.modPart n f).thermAlarm = s.thermAlarm := rfl
@[simp] theorem State.modPart_mgmtReply (s : State) (n : Nat) (f : Part → Part) : (s.modPart n f).mgmtReply = s.mgmtReply := rfl

/-! ### State.modHostFn -/
@[simp] theorem State.modHostFn_cycle (s : State) (n : Nat) (f : HostFn → HostFn) : (s.modHostFn n f).cycle = s.cycle := rfl
@[simp] theorem State.modHostFn_cur (s : State) (n : Nat) (f : HostFn → HostFn) : (s.modHostFn n f).cur = s.cur := rfl
@[simp] theorem State.modHostFn_agenda (s : State) (n : Nat) (f : HostFn → HostFn) : (s.modHostFn n f).agenda = s.agenda := rfl
@[simp] theorem State.modHostFn_freeCtr (s : State) (n : Nat) (f : HostFn → HostFn) : (s.modHostFn n f).freeCtr = s.freeCtr := rfl
@[simp] theorem State.modHostFn_slots (s : State) (n : Nat) (f : HostFn → HostFn) : (s.modHostFn n f).slots = s.slots := rfl
@[simp] theorem State.modHostFn_cores (s : State) (n : Nat) (f : HostFn → HostFn) : (s.modHostFn n f).cores = s.cores := rfl
@[simp] theorem State.modHostFn_clusters (s : State) (n : Nat) (f : HostFn → HostFn) : (s.modHostFn n f).clusters = s.clusters := rfl
@[simp] theorem State.modHostFn_dies (s : State) (n : Nat) (f : HostFn → HostFn) : (s.modHostFn n f).dies = s.dies := rfl
@[simp] theorem State.modHostFn_parts (s : State) (n : Nat) (f : HostFn → HostFn) : (s.modHostFn n f).parts = s.parts := rfl
@[simp] theorem State.modHostFn_mem (s : State) (n : Nat) (f : HostFn → HostFn) : (s.modHostFn n f).mem = s.mem := rfl
@[simp] theorem State.modHostFn_remote (s : State) (n : Nat) (f : HostFn → HostFn) : (s.modHostFn n f).remote = s.remote := rfl
@[simp] theorem State.modHostFn_hostMem (s : State) (n : Nat) (f : HostFn → HostFn) : (s.modHostFn n f).hostMem = s.hostMem := rfl
@[simp] theorem State.modHostFn_home (s : State) (n : Nat) (f : HostFn → HostFn) : (s.modHostFn n f).home = s.home := rfl
@[simp] theorem State.modHostFn_copies (s : State) (n : Nat) (f : HostFn → HostFn) : (s.modHostFn n f).copies = s.copies := rfl
@[simp] theorem State.modHostFn_poison (s : State) (n : Nat) (f : HostFn → HostFn) : (s.modHostFn n f).poison = s.poison := rfl
@[simp] theorem State.modHostFn_resv (s : State) (n : Nat) (f : HostFn → HostFn) : (s.modHostFn n f).resv = s.resv := rfl
@[simp] theorem State.modHostFn_lockQ (s : State) (n : Nat) (f : HostFn → HostFn) : (s.modHostFn n f).lockQ = s.lockQ := rfl
@[simp] theorem State.modHostFn_queueQ (s : State) (n : Nat) (f : HostFn → HostFn) : (s.modHostFn n f).queueQ = s.queueQ := rfl
@[simp] theorem State.modHostFn_claimQ (s : State) (n : Nat) (f : HostFn → HostFn) : (s.modHostFn n f).claimQ = s.claimQ := rfl
@[simp] theorem State.modHostFn_links (s : State) (n : Nat) (f : HostFn → HostFn) : (s.modHostFn n f).links = s.links := rfl
@[simp] theorem State.modHostFn_hostPort (s : State) (n : Nat) (f : HostFn → HostFn) : (s.modHostFn n f).hostPort = s.hostPort := rfl
@[simp] theorem State.modHostFn_hostWidth (s : State) (n : Nat) (f : HostFn → HostFn) : (s.modHostFn n f).hostWidth = s.hostWidth := rfl
@[simp] theorem State.modHostFn_pkgnum (s : State) (n : Nat) (f : HostFn → HostFn) : (s.modHostFn n f).pkgnum = s.pkgnum := rfl
@[simp] theorem State.modHostFn_phase (s : State) (n : Nat) (f : HostFn → HostFn) : (s.modHostFn n f).phase = s.phase := rfl
@[simp] theorem State.modHostFn_failed (s : State) (n : Nat) (f : HostFn → HostFn) : (s.modHostFn n f).failed = s.failed := rfl
@[simp] theorem State.modHostFn_mgmtAlarm (s : State) (n : Nat) (f : HostFn → HostFn) : (s.modHostFn n f).mgmtAlarm = s.mgmtAlarm := rfl
@[simp] theorem State.modHostFn_thermAlarm (s : State) (n : Nat) (f : HostFn → HostFn) : (s.modHostFn n f).thermAlarm = s.thermAlarm := rfl
@[simp] theorem State.modHostFn_mgmtReply (s : State) (n : Nat) (f : HostFn → HostFn) : (s.modHostFn n f).mgmtReply = s.mgmtReply := rfl

/-! ### State.modLink -/
@[simp] theorem State.modLink_cycle (s : State) (n : Nat) (f : Link → Link) : (s.modLink n f).cycle = s.cycle := rfl
@[simp] theorem State.modLink_cur (s : State) (n : Nat) (f : Link → Link) : (s.modLink n f).cur = s.cur := rfl
@[simp] theorem State.modLink_agenda (s : State) (n : Nat) (f : Link → Link) : (s.modLink n f).agenda = s.agenda := rfl
@[simp] theorem State.modLink_freeCtr (s : State) (n : Nat) (f : Link → Link) : (s.modLink n f).freeCtr = s.freeCtr := rfl
@[simp] theorem State.modLink_slots (s : State) (n : Nat) (f : Link → Link) : (s.modLink n f).slots = s.slots := rfl
@[simp] theorem State.modLink_cores (s : State) (n : Nat) (f : Link → Link) : (s.modLink n f).cores = s.cores := rfl
@[simp] theorem State.modLink_clusters (s : State) (n : Nat) (f : Link → Link) : (s.modLink n f).clusters = s.clusters := rfl
@[simp] theorem State.modLink_dies (s : State) (n : Nat) (f : Link → Link) : (s.modLink n f).dies = s.dies := rfl
@[simp] theorem State.modLink_parts (s : State) (n : Nat) (f : Link → Link) : (s.modLink n f).parts = s.parts := rfl
@[simp] theorem State.modLink_mem (s : State) (n : Nat) (f : Link → Link) : (s.modLink n f).mem = s.mem := rfl
@[simp] theorem State.modLink_remote (s : State) (n : Nat) (f : Link → Link) : (s.modLink n f).remote = s.remote := rfl
@[simp] theorem State.modLink_hostMem (s : State) (n : Nat) (f : Link → Link) : (s.modLink n f).hostMem = s.hostMem := rfl
@[simp] theorem State.modLink_home (s : State) (n : Nat) (f : Link → Link) : (s.modLink n f).home = s.home := rfl
@[simp] theorem State.modLink_copies (s : State) (n : Nat) (f : Link → Link) : (s.modLink n f).copies = s.copies := rfl
@[simp] theorem State.modLink_poison (s : State) (n : Nat) (f : Link → Link) : (s.modLink n f).poison = s.poison := rfl
@[simp] theorem State.modLink_resv (s : State) (n : Nat) (f : Link → Link) : (s.modLink n f).resv = s.resv := rfl
@[simp] theorem State.modLink_lockQ (s : State) (n : Nat) (f : Link → Link) : (s.modLink n f).lockQ = s.lockQ := rfl
@[simp] theorem State.modLink_queueQ (s : State) (n : Nat) (f : Link → Link) : (s.modLink n f).queueQ = s.queueQ := rfl
@[simp] theorem State.modLink_claimQ (s : State) (n : Nat) (f : Link → Link) : (s.modLink n f).claimQ = s.claimQ := rfl
@[simp] theorem State.modLink_hostFns (s : State) (n : Nat) (f : Link → Link) : (s.modLink n f).hostFns = s.hostFns := rfl
@[simp] theorem State.modLink_hostPort (s : State) (n : Nat) (f : Link → Link) : (s.modLink n f).hostPort = s.hostPort := rfl
@[simp] theorem State.modLink_hostWidth (s : State) (n : Nat) (f : Link → Link) : (s.modLink n f).hostWidth = s.hostWidth := rfl
@[simp] theorem State.modLink_pkgnum (s : State) (n : Nat) (f : Link → Link) : (s.modLink n f).pkgnum = s.pkgnum := rfl
@[simp] theorem State.modLink_phase (s : State) (n : Nat) (f : Link → Link) : (s.modLink n f).phase = s.phase := rfl
@[simp] theorem State.modLink_failed (s : State) (n : Nat) (f : Link → Link) : (s.modLink n f).failed = s.failed := rfl
@[simp] theorem State.modLink_mgmtAlarm (s : State) (n : Nat) (f : Link → Link) : (s.modLink n f).mgmtAlarm = s.mgmtAlarm := rfl
@[simp] theorem State.modLink_thermAlarm (s : State) (n : Nat) (f : Link → Link) : (s.modLink n f).thermAlarm = s.thermAlarm := rfl
@[simp] theorem State.modLink_mgmtReply (s : State) (n : Nat) (f : Link → Link) : (s.modLink n f).mgmtReply = s.mgmtReply := rfl

/-! ### State.setX -/
@[simp] theorem State.setX_cycle (s : State) (r : Reg) (v : Word) : (s.setX r v).cycle = s.cycle := rfl
@[simp] theorem State.setX_cur (s : State) (r : Reg) (v : Word) : (s.setX r v).cur = s.cur := rfl
@[simp] theorem State.setX_agenda (s : State) (r : Reg) (v : Word) : (s.setX r v).agenda = s.agenda := rfl
@[simp] theorem State.setX_freeCtr (s : State) (r : Reg) (v : Word) : (s.setX r v).freeCtr = s.freeCtr := rfl
@[simp] theorem State.setX_cores (s : State) (r : Reg) (v : Word) : (s.setX r v).cores = s.cores := rfl
@[simp] theorem State.setX_clusters (s : State) (r : Reg) (v : Word) : (s.setX r v).clusters = s.clusters := rfl
@[simp] theorem State.setX_dies (s : State) (r : Reg) (v : Word) : (s.setX r v).dies = s.dies := rfl
@[simp] theorem State.setX_parts (s : State) (r : Reg) (v : Word) : (s.setX r v).parts = s.parts := rfl
@[simp] theorem State.setX_mem (s : State) (r : Reg) (v : Word) : (s.setX r v).mem = s.mem := rfl
@[simp] theorem State.setX_remote (s : State) (r : Reg) (v : Word) : (s.setX r v).remote = s.remote := rfl
@[simp] theorem State.setX_hostMem (s : State) (r : Reg) (v : Word) : (s.setX r v).hostMem = s.hostMem := rfl
@[simp] theorem State.setX_home (s : State) (r : Reg) (v : Word) : (s.setX r v).home = s.home := rfl
@[simp] theorem State.setX_copies (s : State) (r : Reg) (v : Word) : (s.setX r v).copies = s.copies := rfl
@[simp] theorem State.setX_poison (s : State) (r : Reg) (v : Word) : (s.setX r v).poison = s.poison := rfl
@[simp] theorem State.setX_resv (s : State) (r : Reg) (v : Word) : (s.setX r v).resv = s.resv := rfl
@[simp] theorem State.setX_lockQ (s : State) (r : Reg) (v : Word) : (s.setX r v).lockQ = s.lockQ := rfl
@[simp] theorem State.setX_queueQ (s : State) (r : Reg) (v : Word) : (s.setX r v).queueQ = s.queueQ := rfl
@[simp] theorem State.setX_claimQ (s : State) (r : Reg) (v : Word) : (s.setX r v).claimQ = s.claimQ := rfl
@[simp] theorem State.setX_hostFns (s : State) (r : Reg) (v : Word) : (s.setX r v).hostFns = s.hostFns := rfl
@[simp] theorem State.setX_links (s : State) (r : Reg) (v : Word) : (s.setX r v).links = s.links := rfl
@[simp] theorem State.setX_hostPort (s : State) (r : Reg) (v : Word) : (s.setX r v).hostPort = s.hostPort := rfl
@[simp] theorem State.setX_hostWidth (s : State) (r : Reg) (v : Word) : (s.setX r v).hostWidth = s.hostWidth := rfl
@[simp] theorem State.setX_pkgnum (s : State) (r : Reg) (v : Word) : (s.setX r v).pkgnum = s.pkgnum := rfl
@[simp] theorem State.setX_phase (s : State) (r : Reg) (v : Word) : (s.setX r v).phase = s.phase := rfl
@[simp] theorem State.setX_failed (s : State) (r : Reg) (v : Word) : (s.setX r v).failed = s.failed := rfl
@[simp] theorem State.setX_mgmtAlarm (s : State) (r : Reg) (v : Word) : (s.setX r v).mgmtAlarm = s.mgmtAlarm := rfl
@[simp] theorem State.setX_thermAlarm (s : State) (r : Reg) (v : Word) : (s.setX r v).thermAlarm = s.thermAlarm := rfl
@[simp] theorem State.setX_mgmtReply (s : State) (r : Reg) (v : Word) : (s.setX r v).mgmtReply = s.mgmtReply := rfl

/-! ### State.setV -/
@[simp] theorem State.setV_cycle (s : State) (r : Reg) (v : Vec) : (s.setV r v).cycle = s.cycle := rfl
@[simp] theorem State.setV_cur (s : State) (r : Reg) (v : Vec) : (s.setV r v).cur = s.cur := rfl
@[simp] theorem State.setV_agenda (s : State) (r : Reg) (v : Vec) : (s.setV r v).agenda = s.agenda := rfl
@[simp] theorem State.setV_freeCtr (s : State) (r : Reg) (v : Vec) : (s.setV r v).freeCtr = s.freeCtr := rfl
@[simp] theorem State.setV_cores (s : State) (r : Reg) (v : Vec) : (s.setV r v).cores = s.cores := rfl
@[simp] theorem State.setV_clusters (s : State) (r : Reg) (v : Vec) : (s.setV r v).clusters = s.clusters := rfl
@[simp] theorem State.setV_dies (s : State) (r : Reg) (v : Vec) : (s.setV r v).dies = s.dies := rfl
@[simp] theorem State.setV_parts (s : State) (r : Reg) (v : Vec) : (s.setV r v).parts = s.parts := rfl
@[simp] theorem State.setV_mem (s : State) (r : Reg) (v : Vec) : (s.setV r v).mem = s.mem := rfl
@[simp] theorem State.setV_remote (s : State) (r : Reg) (v : Vec) : (s.setV r v).remote = s.remote := rfl
@[simp] theorem State.setV_hostMem (s : State) (r : Reg) (v : Vec) : (s.setV r v).hostMem = s.hostMem := rfl
@[simp] theorem State.setV_home (s : State) (r : Reg) (v : Vec) : (s.setV r v).home = s.home := rfl
@[simp] theorem State.setV_copies (s : State) (r : Reg) (v : Vec) : (s.setV r v).copies = s.copies := rfl
@[simp] theorem State.setV_poison (s : State) (r : Reg) (v : Vec) : (s.setV r v).poison = s.poison := rfl
@[simp] theorem State.setV_resv (s : State) (r : Reg) (v : Vec) : (s.setV r v).resv = s.resv := rfl
@[simp] theorem State.setV_lockQ (s : State) (r : Reg) (v : Vec) : (s.setV r v).lockQ = s.lockQ := rfl
@[simp] theorem State.setV_queueQ (s : State) (r : Reg) (v : Vec) : (s.setV r v).queueQ = s.queueQ := rfl
@[simp] theorem State.setV_claimQ (s : State) (r : Reg) (v : Vec) : (s.setV r v).claimQ = s.claimQ := rfl
@[simp] theorem State.setV_hostFns (s : State) (r : Reg) (v : Vec) : (s.setV r v).hostFns = s.hostFns := rfl
@[simp] theorem State.setV_links (s : State) (r : Reg) (v : Vec) : (s.setV r v).links = s.links := rfl
@[simp] theorem State.setV_hostPort (s : State) (r : Reg) (v : Vec) : (s.setV r v).hostPort = s.hostPort := rfl
@[simp] theorem State.setV_hostWidth (s : State) (r : Reg) (v : Vec) : (s.setV r v).hostWidth = s.hostWidth := rfl
@[simp] theorem State.setV_pkgnum (s : State) (r : Reg) (v : Vec) : (s.setV r v).pkgnum = s.pkgnum := rfl
@[simp] theorem State.setV_phase (s : State) (r : Reg) (v : Vec) : (s.setV r v).phase = s.phase := rfl
@[simp] theorem State.setV_failed (s : State) (r : Reg) (v : Vec) : (s.setV r v).failed = s.failed := rfl
@[simp] theorem State.setV_mgmtAlarm (s : State) (r : Reg) (v : Vec) : (s.setV r v).mgmtAlarm = s.mgmtAlarm := rfl
@[simp] theorem State.setV_thermAlarm (s : State) (r : Reg) (v : Vec) : (s.setV r v).thermAlarm = s.thermAlarm := rfl
@[simp] theorem State.setV_mgmtReply (s : State) (r : Reg) (v : Vec) : (s.setV r v).mgmtReply = s.mgmtReply := rfl

/-! ### State.setM -/
@[simp] theorem State.setM_cycle (s : State) (r : MReg) (v : Word) : (s.setM r v).cycle = s.cycle := rfl
@[simp] theorem State.setM_cur (s : State) (r : MReg) (v : Word) : (s.setM r v).cur = s.cur := rfl
@[simp] theorem State.setM_agenda (s : State) (r : MReg) (v : Word) : (s.setM r v).agenda = s.agenda := rfl
@[simp] theorem State.setM_freeCtr (s : State) (r : MReg) (v : Word) : (s.setM r v).freeCtr = s.freeCtr := rfl
@[simp] theorem State.setM_cores (s : State) (r : MReg) (v : Word) : (s.setM r v).cores = s.cores := rfl
@[simp] theorem State.setM_clusters (s : State) (r : MReg) (v : Word) : (s.setM r v).clusters = s.clusters := rfl
@[simp] theorem State.setM_dies (s : State) (r : MReg) (v : Word) : (s.setM r v).dies = s.dies := rfl
@[simp] theorem State.setM_parts (s : State) (r : MReg) (v : Word) : (s.setM r v).parts = s.parts := rfl
@[simp] theorem State.setM_mem (s : State) (r : MReg) (v : Word) : (s.setM r v).mem = s.mem := rfl
@[simp] theorem State.setM_remote (s : State) (r : MReg) (v : Word) : (s.setM r v).remote = s.remote := rfl
@[simp] theorem State.setM_hostMem (s : State) (r : MReg) (v : Word) : (s.setM r v).hostMem = s.hostMem := rfl
@[simp] theorem State.setM_home (s : State) (r : MReg) (v : Word) : (s.setM r v).home = s.home := rfl
@[simp] theorem State.setM_copies (s : State) (r : MReg) (v : Word) : (s.setM r v).copies = s.copies := rfl
@[simp] theorem State.setM_poison (s : State) (r : MReg) (v : Word) : (s.setM r v).poison = s.poison := rfl
@[simp] theorem State.setM_resv (s : State) (r : MReg) (v : Word) : (s.setM r v).resv = s.resv := rfl
@[simp] theorem State.setM_lockQ (s : State) (r : MReg) (v : Word) : (s.setM r v).lockQ = s.lockQ := rfl
@[simp] theorem State.setM_queueQ (s : State) (r : MReg) (v : Word) : (s.setM r v).queueQ = s.queueQ := rfl
@[simp] theorem State.setM_claimQ (s : State) (r : MReg) (v : Word) : (s.setM r v).claimQ = s.claimQ := rfl
@[simp] theorem State.setM_hostFns (s : State) (r : MReg) (v : Word) : (s.setM r v).hostFns = s.hostFns := rfl
@[simp] theorem State.setM_links (s : State) (r : MReg) (v : Word) : (s.setM r v).links = s.links := rfl
@[simp] theorem State.setM_hostPort (s : State) (r : MReg) (v : Word) : (s.setM r v).hostPort = s.hostPort := rfl
@[simp] theorem State.setM_hostWidth (s : State) (r : MReg) (v : Word) : (s.setM r v).hostWidth = s.hostWidth := rfl
@[simp] theorem State.setM_pkgnum (s : State) (r : MReg) (v : Word) : (s.setM r v).pkgnum = s.pkgnum := rfl
@[simp] theorem State.setM_phase (s : State) (r : MReg) (v : Word) : (s.setM r v).phase = s.phase := rfl
@[simp] theorem State.setM_failed (s : State) (r : MReg) (v : Word) : (s.setM r v).failed = s.failed := rfl
@[simp] theorem State.setM_mgmtAlarm (s : State) (r : MReg) (v : Word) : (s.setM r v).mgmtAlarm = s.mgmtAlarm := rfl
@[simp] theorem State.setM_thermAlarm (s : State) (r : MReg) (v : Word) : (s.setM r v).thermAlarm = s.thermAlarm := rfl
@[simp] theorem State.setM_mgmtReply (s : State) (r : MReg) (v : Word) : (s.setM r v).mgmtReply = s.mgmtReply := rfl

/-! ### State.reqX -/
@[simp] theorem State.reqX_cycle (s : State) (r : Reg) (v : Word) : (s.reqX r v).cycle = s.cycle := rfl
@[simp] theorem State.reqX_cur (s : State) (r : Reg) (v : Word) : (s.reqX r v).cur = s.cur := rfl
@[simp] theorem State.reqX_agenda (s : State) (r : Reg) (v : Word) : (s.reqX r v).agenda = s.agenda := rfl
@[simp] theorem State.reqX_freeCtr (s : State) (r : Reg) (v : Word) : (s.reqX r v).freeCtr = s.freeCtr := rfl
@[simp] theorem State.reqX_cores (s : State) (r : Reg) (v : Word) : (s.reqX r v).cores = s.cores := rfl
@[simp] theorem State.reqX_clusters (s : State) (r : Reg) (v : Word) : (s.reqX r v).clusters = s.clusters := rfl
@[simp] theorem State.reqX_dies (s : State) (r : Reg) (v : Word) : (s.reqX r v).dies = s.dies := rfl
@[simp] theorem State.reqX_parts (s : State) (r : Reg) (v : Word) : (s.reqX r v).parts = s.parts := rfl
@[simp] theorem State.reqX_mem (s : State) (r : Reg) (v : Word) : (s.reqX r v).mem = s.mem := rfl
@[simp] theorem State.reqX_remote (s : State) (r : Reg) (v : Word) : (s.reqX r v).remote = s.remote := rfl
@[simp] theorem State.reqX_hostMem (s : State) (r : Reg) (v : Word) : (s.reqX r v).hostMem = s.hostMem := rfl
@[simp] theorem State.reqX_home (s : State) (r : Reg) (v : Word) : (s.reqX r v).home = s.home := rfl
@[simp] theorem State.reqX_copies (s : State) (r : Reg) (v : Word) : (s.reqX r v).copies = s.copies := rfl
@[simp] theorem State.reqX_poison (s : State) (r : Reg) (v : Word) : (s.reqX r v).poison = s.poison := rfl
@[simp] theorem State.reqX_resv (s : State) (r : Reg) (v : Word) : (s.reqX r v).resv = s.resv := rfl
@[simp] theorem State.reqX_lockQ (s : State) (r : Reg) (v : Word) : (s.reqX r v).lockQ = s.lockQ := rfl
@[simp] theorem State.reqX_queueQ (s : State) (r : Reg) (v : Word) : (s.reqX r v).queueQ = s.queueQ := rfl
@[simp] theorem State.reqX_claimQ (s : State) (r : Reg) (v : Word) : (s.reqX r v).claimQ = s.claimQ := rfl
@[simp] theorem State.reqX_hostFns (s : State) (r : Reg) (v : Word) : (s.reqX r v).hostFns = s.hostFns := rfl
@[simp] theorem State.reqX_links (s : State) (r : Reg) (v : Word) : (s.reqX r v).links = s.links := rfl
@[simp] theorem State.reqX_hostPort (s : State) (r : Reg) (v : Word) : (s.reqX r v).hostPort = s.hostPort := rfl
@[simp] theorem State.reqX_hostWidth (s : State) (r : Reg) (v : Word) : (s.reqX r v).hostWidth = s.hostWidth := rfl
@[simp] theorem State.reqX_pkgnum (s : State) (r : Reg) (v : Word) : (s.reqX r v).pkgnum = s.pkgnum := rfl
@[simp] theorem State.reqX_phase (s : State) (r : Reg) (v : Word) : (s.reqX r v).phase = s.phase := rfl
@[simp] theorem State.reqX_failed (s : State) (r : Reg) (v : Word) : (s.reqX r v).failed = s.failed := rfl
@[simp] theorem State.reqX_mgmtAlarm (s : State) (r : Reg) (v : Word) : (s.reqX r v).mgmtAlarm = s.mgmtAlarm := rfl
@[simp] theorem State.reqX_thermAlarm (s : State) (r : Reg) (v : Word) : (s.reqX r v).thermAlarm = s.thermAlarm := rfl
@[simp] theorem State.reqX_mgmtReply (s : State) (r : Reg) (v : Word) : (s.reqX r v).mgmtReply = s.mgmtReply := rfl

/-! ### State.reqV -/
@[simp] theorem State.reqV_cycle (s : State) (r : Reg) (v : Vec) : (s.reqV r v).cycle = s.cycle := rfl
@[simp] theorem State.reqV_cur (s : State) (r : Reg) (v : Vec) : (s.reqV r v).cur = s.cur := rfl
@[simp] theorem State.reqV_agenda (s : State) (r : Reg) (v : Vec) : (s.reqV r v).agenda = s.agenda := rfl
@[simp] theorem State.reqV_freeCtr (s : State) (r : Reg) (v : Vec) : (s.reqV r v).freeCtr = s.freeCtr := rfl
@[simp] theorem State.reqV_cores (s : State) (r : Reg) (v : Vec) : (s.reqV r v).cores = s.cores := rfl
@[simp] theorem State.reqV_clusters (s : State) (r : Reg) (v : Vec) : (s.reqV r v).clusters = s.clusters := rfl
@[simp] theorem State.reqV_dies (s : State) (r : Reg) (v : Vec) : (s.reqV r v).dies = s.dies := rfl
@[simp] theorem State.reqV_parts (s : State) (r : Reg) (v : Vec) : (s.reqV r v).parts = s.parts := rfl
@[simp] theorem State.reqV_mem (s : State) (r : Reg) (v : Vec) : (s.reqV r v).mem = s.mem := rfl
@[simp] theorem State.reqV_remote (s : State) (r : Reg) (v : Vec) : (s.reqV r v).remote = s.remote := rfl
@[simp] theorem State.reqV_hostMem (s : State) (r : Reg) (v : Vec) : (s.reqV r v).hostMem = s.hostMem := rfl
@[simp] theorem State.reqV_home (s : State) (r : Reg) (v : Vec) : (s.reqV r v).home = s.home := rfl
@[simp] theorem State.reqV_copies (s : State) (r : Reg) (v : Vec) : (s.reqV r v).copies = s.copies := rfl
@[simp] theorem State.reqV_poison (s : State) (r : Reg) (v : Vec) : (s.reqV r v).poison = s.poison := rfl
@[simp] theorem State.reqV_resv (s : State) (r : Reg) (v : Vec) : (s.reqV r v).resv = s.resv := rfl
@[simp] theorem State.reqV_lockQ (s : State) (r : Reg) (v : Vec) : (s.reqV r v).lockQ = s.lockQ := rfl
@[simp] theorem State.reqV_queueQ (s : State) (r : Reg) (v : Vec) : (s.reqV r v).queueQ = s.queueQ := rfl
@[simp] theorem State.reqV_claimQ (s : State) (r : Reg) (v : Vec) : (s.reqV r v).claimQ = s.claimQ := rfl
@[simp] theorem State.reqV_hostFns (s : State) (r : Reg) (v : Vec) : (s.reqV r v).hostFns = s.hostFns := rfl
@[simp] theorem State.reqV_links (s : State) (r : Reg) (v : Vec) : (s.reqV r v).links = s.links := rfl
@[simp] theorem State.reqV_hostPort (s : State) (r : Reg) (v : Vec) : (s.reqV r v).hostPort = s.hostPort := rfl
@[simp] theorem State.reqV_hostWidth (s : State) (r : Reg) (v : Vec) : (s.reqV r v).hostWidth = s.hostWidth := rfl
@[simp] theorem State.reqV_pkgnum (s : State) (r : Reg) (v : Vec) : (s.reqV r v).pkgnum = s.pkgnum := rfl
@[simp] theorem State.reqV_phase (s : State) (r : Reg) (v : Vec) : (s.reqV r v).phase = s.phase := rfl
@[simp] theorem State.reqV_failed (s : State) (r : Reg) (v : Vec) : (s.reqV r v).failed = s.failed := rfl
@[simp] theorem State.reqV_mgmtAlarm (s : State) (r : Reg) (v : Vec) : (s.reqV r v).mgmtAlarm = s.mgmtAlarm := rfl
@[simp] theorem State.reqV_thermAlarm (s : State) (r : Reg) (v : Vec) : (s.reqV r v).thermAlarm = s.thermAlarm := rfl
@[simp] theorem State.reqV_mgmtReply (s : State) (r : Reg) (v : Vec) : (s.reqV r v).mgmtReply = s.mgmtReply := rfl

/-! ### State.addFlags -/
@[simp] theorem State.addFlags_cycle (s : State) (f : Flags) : (s.addFlags f).cycle = s.cycle := rfl
@[simp] theorem State.addFlags_cur (s : State) (f : Flags) : (s.addFlags f).cur = s.cur := rfl
@[simp] theorem State.addFlags_agenda (s : State) (f : Flags) : (s.addFlags f).agenda = s.agenda := rfl
@[simp] theorem State.addFlags_freeCtr (s : State) (f : Flags) : (s.addFlags f).freeCtr = s.freeCtr := rfl
@[simp] theorem State.addFlags_cores (s : State) (f : Flags) : (s.addFlags f).cores = s.cores := rfl
@[simp] theorem State.addFlags_clusters (s : State) (f : Flags) : (s.addFlags f).clusters = s.clusters := rfl
@[simp] theorem State.addFlags_dies (s : State) (f : Flags) : (s.addFlags f).dies = s.dies := rfl
@[simp] theorem State.addFlags_parts (s : State) (f : Flags) : (s.addFlags f).parts = s.parts := rfl
@[simp] theorem State.addFlags_mem (s : State) (f : Flags) : (s.addFlags f).mem = s.mem := rfl
@[simp] theorem State.addFlags_remote (s : State) (f : Flags) : (s.addFlags f).remote = s.remote := rfl
@[simp] theorem State.addFlags_hostMem (s : State) (f : Flags) : (s.addFlags f).hostMem = s.hostMem := rfl
@[simp] theorem State.addFlags_home (s : State) (f : Flags) : (s.addFlags f).home = s.home := rfl
@[simp] theorem State.addFlags_copies (s : State) (f : Flags) : (s.addFlags f).copies = s.copies := rfl
@[simp] theorem State.addFlags_poison (s : State) (f : Flags) : (s.addFlags f).poison = s.poison := rfl
@[simp] theorem State.addFlags_resv (s : State) (f : Flags) : (s.addFlags f).resv = s.resv := rfl
@[simp] theorem State.addFlags_lockQ (s : State) (f : Flags) : (s.addFlags f).lockQ = s.lockQ := rfl
@[simp] theorem State.addFlags_queueQ (s : State) (f : Flags) : (s.addFlags f).queueQ = s.queueQ := rfl
@[simp] theorem State.addFlags_claimQ (s : State) (f : Flags) : (s.addFlags f).claimQ = s.claimQ := rfl
@[simp] theorem State.addFlags_hostFns (s : State) (f : Flags) : (s.addFlags f).hostFns = s.hostFns := rfl
@[simp] theorem State.addFlags_links (s : State) (f : Flags) : (s.addFlags f).links = s.links := rfl
@[simp] theorem State.addFlags_hostPort (s : State) (f : Flags) : (s.addFlags f).hostPort = s.hostPort := rfl
@[simp] theorem State.addFlags_hostWidth (s : State) (f : Flags) : (s.addFlags f).hostWidth = s.hostWidth := rfl
@[simp] theorem State.addFlags_pkgnum (s : State) (f : Flags) : (s.addFlags f).pkgnum = s.pkgnum := rfl
@[simp] theorem State.addFlags_phase (s : State) (f : Flags) : (s.addFlags f).phase = s.phase := rfl
@[simp] theorem State.addFlags_failed (s : State) (f : Flags) : (s.addFlags f).failed = s.failed := rfl
@[simp] theorem State.addFlags_mgmtAlarm (s : State) (f : Flags) : (s.addFlags f).mgmtAlarm = s.mgmtAlarm := rfl
@[simp] theorem State.addFlags_thermAlarm (s : State) (f : Flags) : (s.addFlags f).thermAlarm = s.thermAlarm := rfl
@[simp] theorem State.addFlags_mgmtReply (s : State) (f : Flags) : (s.addFlags f).mgmtReply = s.mgmtReply := rfl

/-! ### State.goto -/
@[simp] theorem State.goto_cycle (s : State) (k : Enc) (t : Word) : (s.goto k t).cycle = s.cycle := rfl
@[simp] theorem State.goto_cur (s : State) (k : Enc) (t : Word) : (s.goto k t).cur = s.cur := rfl
@[simp] theorem State.goto_agenda (s : State) (k : Enc) (t : Word) : (s.goto k t).agenda = s.agenda := rfl
@[simp] theorem State.goto_freeCtr (s : State) (k : Enc) (t : Word) : (s.goto k t).freeCtr = s.freeCtr := rfl
@[simp] theorem State.goto_cores (s : State) (k : Enc) (t : Word) : (s.goto k t).cores = s.cores := rfl
@[simp] theorem State.goto_clusters (s : State) (k : Enc) (t : Word) : (s.goto k t).clusters = s.clusters := rfl
@[simp] theorem State.goto_dies (s : State) (k : Enc) (t : Word) : (s.goto k t).dies = s.dies := rfl
@[simp] theorem State.goto_parts (s : State) (k : Enc) (t : Word) : (s.goto k t).parts = s.parts := rfl
@[simp] theorem State.goto_mem (s : State) (k : Enc) (t : Word) : (s.goto k t).mem = s.mem := rfl
@[simp] theorem State.goto_remote (s : State) (k : Enc) (t : Word) : (s.goto k t).remote = s.remote := rfl
@[simp] theorem State.goto_hostMem (s : State) (k : Enc) (t : Word) : (s.goto k t).hostMem = s.hostMem := rfl
@[simp] theorem State.goto_home (s : State) (k : Enc) (t : Word) : (s.goto k t).home = s.home := rfl
@[simp] theorem State.goto_copies (s : State) (k : Enc) (t : Word) : (s.goto k t).copies = s.copies := rfl
@[simp] theorem State.goto_poison (s : State) (k : Enc) (t : Word) : (s.goto k t).poison = s.poison := rfl
@[simp] theorem State.goto_resv (s : State) (k : Enc) (t : Word) : (s.goto k t).resv = s.resv := rfl
@[simp] theorem State.goto_lockQ (s : State) (k : Enc) (t : Word) : (s.goto k t).lockQ = s.lockQ := rfl
@[simp] theorem State.goto_queueQ (s : State) (k : Enc) (t : Word) : (s.goto k t).queueQ = s.queueQ := rfl
@[simp] theorem State.goto_claimQ (s : State) (k : Enc) (t : Word) : (s.goto k t).claimQ = s.claimQ := rfl
@[simp] theorem State.goto_hostFns (s : State) (k : Enc) (t : Word) : (s.goto k t).hostFns = s.hostFns := rfl
@[simp] theorem State.goto_links (s : State) (k : Enc) (t : Word) : (s.goto k t).links = s.links := rfl
@[simp] theorem State.goto_hostPort (s : State) (k : Enc) (t : Word) : (s.goto k t).hostPort = s.hostPort := rfl
@[simp] theorem State.goto_hostWidth (s : State) (k : Enc) (t : Word) : (s.goto k t).hostWidth = s.hostWidth := rfl
@[simp] theorem State.goto_pkgnum (s : State) (k : Enc) (t : Word) : (s.goto k t).pkgnum = s.pkgnum := rfl
@[simp] theorem State.goto_phase (s : State) (k : Enc) (t : Word) : (s.goto k t).phase = s.phase := rfl
@[simp] theorem State.goto_failed (s : State) (k : Enc) (t : Word) : (s.goto k t).failed = s.failed := rfl
@[simp] theorem State.goto_mgmtAlarm (s : State) (k : Enc) (t : Word) : (s.goto k t).mgmtAlarm = s.mgmtAlarm := rfl
@[simp] theorem State.goto_thermAlarm (s : State) (k : Enc) (t : Word) : (s.goto k t).thermAlarm = s.thermAlarm := rfl
@[simp] theorem State.goto_mgmtReply (s : State) (k : Enc) (t : Word) : (s.goto k t).mgmtReply = s.mgmtReply := rfl

/-! ### State.advance -/
@[simp] theorem State.advance_cycle (s : State) (k : Enc) : (s.advance k).cycle = s.cycle := rfl
@[simp] theorem State.advance_cur (s : State) (k : Enc) : (s.advance k).cur = s.cur := rfl
@[simp] theorem State.advance_agenda (s : State) (k : Enc) : (s.advance k).agenda = s.agenda := rfl
@[simp] theorem State.advance_freeCtr (s : State) (k : Enc) : (s.advance k).freeCtr = s.freeCtr := rfl
@[simp] theorem State.advance_cores (s : State) (k : Enc) : (s.advance k).cores = s.cores := rfl
@[simp] theorem State.advance_clusters (s : State) (k : Enc) : (s.advance k).clusters = s.clusters := rfl
@[simp] theorem State.advance_dies (s : State) (k : Enc) : (s.advance k).dies = s.dies := rfl
@[simp] theorem State.advance_parts (s : State) (k : Enc) : (s.advance k).parts = s.parts := rfl
@[simp] theorem State.advance_mem (s : State) (k : Enc) : (s.advance k).mem = s.mem := rfl
@[simp] theorem State.advance_remote (s : State) (k : Enc) : (s.advance k).remote = s.remote := rfl
@[simp] theorem State.advance_hostMem (s : State) (k : Enc) : (s.advance k).hostMem = s.hostMem := rfl
@[simp] theorem State.advance_home (s : State) (k : Enc) : (s.advance k).home = s.home := rfl
@[simp] theorem State.advance_copies (s : State) (k : Enc) : (s.advance k).copies = s.copies := rfl
@[simp] theorem State.advance_poison (s : State) (k : Enc) : (s.advance k).poison = s.poison := rfl
@[simp] theorem State.advance_resv (s : State) (k : Enc) : (s.advance k).resv = s.resv := rfl
@[simp] theorem State.advance_lockQ (s : State) (k : Enc) : (s.advance k).lockQ = s.lockQ := rfl
@[simp] theorem State.advance_queueQ (s : State) (k : Enc) : (s.advance k).queueQ = s.queueQ := rfl
@[simp] theorem State.advance_claimQ (s : State) (k : Enc) : (s.advance k).claimQ = s.claimQ := rfl
@[simp] theorem State.advance_hostFns (s : State) (k : Enc) : (s.advance k).hostFns = s.hostFns := rfl
@[simp] theorem State.advance_links (s : State) (k : Enc) : (s.advance k).links = s.links := rfl
@[simp] theorem State.advance_hostPort (s : State) (k : Enc) : (s.advance k).hostPort = s.hostPort := rfl
@[simp] theorem State.advance_hostWidth (s : State) (k : Enc) : (s.advance k).hostWidth = s.hostWidth := rfl
@[simp] theorem State.advance_pkgnum (s : State) (k : Enc) : (s.advance k).pkgnum = s.pkgnum := rfl
@[simp] theorem State.advance_phase (s : State) (k : Enc) : (s.advance k).phase = s.phase := rfl
@[simp] theorem State.advance_failed (s : State) (k : Enc) : (s.advance k).failed = s.failed := rfl
@[simp] theorem State.advance_mgmtAlarm (s : State) (k : Enc) : (s.advance k).mgmtAlarm = s.mgmtAlarm := rfl
@[simp] theorem State.advance_thermAlarm (s : State) (k : Enc) : (s.advance k).thermAlarm = s.thermAlarm := rfl
@[simp] theorem State.advance_mgmtReply (s : State) (k : Enc) : (s.advance k).mgmtReply = s.mgmtReply := rfl

/-! ### State.boxAdd -/
@[simp] theorem State.boxAdd_cycle (s : State) (d k c x y p : Nat) : (s.boxAdd d k c x y p).cycle = s.cycle := rfl
@[simp] theorem State.boxAdd_cur (s : State) (d k c x y p : Nat) : (s.boxAdd d k c x y p).cur = s.cur := rfl
@[simp] theorem State.boxAdd_agenda (s : State) (d k c x y p : Nat) : (s.boxAdd d k c x y p).agenda = s.agenda := rfl
@[simp] theorem State.boxAdd_freeCtr (s : State) (d k c x y p : Nat) : (s.boxAdd d k c x y p).freeCtr = s.freeCtr := rfl
@[simp] theorem State.boxAdd_slots (s : State) (d k c x y p : Nat) : (s.boxAdd d k c x y p).slots = s.slots := rfl
@[simp] theorem State.boxAdd_cores (s : State) (d k c x y p : Nat) : (s.boxAdd d k c x y p).cores = s.cores := rfl
@[simp] theorem State.boxAdd_clusters (s : State) (d k c x y p : Nat) : (s.boxAdd d k c x y p).clusters = s.clusters := rfl
@[simp] theorem State.boxAdd_parts (s : State) (d k c x y p : Nat) : (s.boxAdd d k c x y p).parts = s.parts := rfl
@[simp] theorem State.boxAdd_mem (s : State) (d k c x y p : Nat) : (s.boxAdd d k c x y p).mem = s.mem := rfl
@[simp] theorem State.boxAdd_remote (s : State) (d k c x y p : Nat) : (s.boxAdd d k c x y p).remote = s.remote := rfl
@[simp] theorem State.boxAdd_hostMem (s : State) (d k c x y p : Nat) : (s.boxAdd d k c x y p).hostMem = s.hostMem := rfl
@[simp] theorem State.boxAdd_home (s : State) (d k c x y p : Nat) : (s.boxAdd d k c x y p).home = s.home := rfl
@[simp] theorem State.boxAdd_copies (s : State) (d k c x y p : Nat) : (s.boxAdd d k c x y p).copies = s.copies := rfl
@[simp] theorem State.boxAdd_poison (s : State) (d k c x y p : Nat) : (s.boxAdd d k c x y p).poison = s.poison := rfl
@[simp] theorem State.boxAdd_resv (s : State) (d k c x y p : Nat) : (s.boxAdd d k c x y p).resv = s.resv := rfl
@[simp] theorem State.boxAdd_lockQ (s : State) (d k c x y p : Nat) : (s.boxAdd d k c x y p).lockQ = s.lockQ := rfl
@[simp] theorem State.boxAdd_queueQ (s : State) (d k c x y p : Nat) : (s.boxAdd d k c x y p).queueQ = s.queueQ := rfl
@[simp] theorem State.boxAdd_claimQ (s : State) (d k c x y p : Nat) : (s.boxAdd d k c x y p).claimQ = s.claimQ := rfl
@[simp] theorem State.boxAdd_hostFns (s : State) (d k c x y p : Nat) : (s.boxAdd d k c x y p).hostFns = s.hostFns := rfl
@[simp] theorem State.boxAdd_links (s : State) (d k c x y p : Nat) : (s.boxAdd d k c x y p).links = s.links := rfl
@[simp] theorem State.boxAdd_hostPort (s : State) (d k c x y p : Nat) : (s.boxAdd d k c x y p).hostPort = s.hostPort := rfl
@[simp] theorem State.boxAdd_hostWidth (s : State) (d k c x y p : Nat) : (s.boxAdd d k c x y p).hostWidth = s.hostWidth := rfl
@[simp] theorem State.boxAdd_pkgnum (s : State) (d k c x y p : Nat) : (s.boxAdd d k c x y p).pkgnum = s.pkgnum := rfl
@[simp] theorem State.boxAdd_phase (s : State) (d k c x y p : Nat) : (s.boxAdd d k c x y p).phase = s.phase := rfl
@[simp] theorem State.boxAdd_failed (s : State) (d k c x y p : Nat) : (s.boxAdd d k c x y p).failed = s.failed := rfl
@[simp] theorem State.boxAdd_mgmtAlarm (s : State) (d k c x y p : Nat) : (s.boxAdd d k c x y p).mgmtAlarm = s.mgmtAlarm := rfl
@[simp] theorem State.boxAdd_thermAlarm (s : State) (d k c x y p : Nat) : (s.boxAdd d k c x y p).thermAlarm = s.thermAlarm := rfl
@[simp] theorem State.boxAdd_mgmtReply (s : State) (d k c x y p : Nat) : (s.boxAdd d k c x y p).mgmtReply = s.mgmtReply := rfl

/-! ### Lookups -/

@[simp] theorem State.slot_setSlot_self (s : State) (n : Nat) (v : Slot) : (s.setSlot n v).slot n = v := by
  simp [State.slot, State.setSlot]
theorem State.slot_setSlot_ne (s : State) {n m : Nat} (v : Slot) (h : m ≠ n) : (s.setSlot n v).slot m = s.slot m := by
  simp [State.slot, State.setSlot, Table.getD_set_ne _ _ _ h]
@[simp] theorem State.slot_modSlot_self (s : State) (n : Nat) (f : Slot → Slot) : (s.modSlot n f).slot n = f (s.slot n) := by
  simp [State.modSlot]
theorem State.slot_modSlot_ne (s : State) {n m : Nat} (f : Slot → Slot) (h : m ≠ n) : (s.modSlot n f).slot m = s.slot m := by
  simp [State.modSlot, State.slot_setSlot_ne _ _ h]
@[simp] theorem State.core_modCore_self (s : State) (n : Nat) (f : Core → Core) : (s.modCore n f).core n = f (s.core n) := by
  simp [State.core, State.modCore]
theorem State.core_modCore_ne (s : State) {n m : Nat} (f : Core → Core) (h : m ≠ n) : (s.modCore n f).core m = s.core m := by
  simp [State.core, State.modCore, Table.getD_set_ne _ _ _ h]
@[simp] theorem State.cluster_modCluster_self (s : State) (n : Nat) (f : Cluster → Cluster) :
    (s.modCluster n f).cluster n = f (s.cluster n) := by simp [State.cluster, State.modCluster]
theorem State.cluster_modCluster_ne (s : State) {n m : Nat} (f : Cluster → Cluster) (h : m ≠ n) :
    (s.modCluster n f).cluster m = s.cluster m := by simp [State.cluster, State.modCluster, Table.getD_set_ne _ _ _ h]
@[simp] theorem State.part_modPart_self (s : State) (n : Nat) (f : Part → Part) : (s.modPart n f).part n = f (s.part n) := by
  simp [State.part, State.modPart]
theorem State.part_modPart_ne (s : State) {n m : Nat} (f : Part → Part) (h : m ≠ n) : (s.modPart n f).part m = s.part m := by
  simp [State.part, State.modPart, Table.getD_set_ne _ _ _ h]
@[simp] theorem State.die_modDie_self (s : State) (n : Nat) (f : Die → Die) : (s.modDie n f).die n = f (s.die n) := by
  simp [State.die, State.modDie]
@[simp] theorem State.hostFn_modHostFn_self (s : State) (n : Nat) (f : HostFn → HostFn) : (s.modHostFn n f).hostFn n = f (s.hostFn n) := by
  simp [State.hostFn, State.modHostFn]
@[simp] theorem State.link_modLink_self (s : State) (n : Nat) (f : Link → Link) : (s.modLink n f).link n = f (s.link n) := by
  simp [State.link, State.modLink]

/-! ### Registers -/

@[simp] theorem Ctx.getX_zero (c : Ctx) : c.getX 0 = 0 := rfl
@[simp] theorem Ctx.setX_zero (c : Ctx) (v : Word) : c.setX 0 v = c := rfl
@[simp] theorem Ctx.getM_zero (c : Ctx) : c.getM 0 = BitVec.allOnes 64 := rfl
@[simp] theorem Ctx.setM_zero (c : Ctx) (v : Word) : c.setM 0 v = c := rfl
theorem Ctx.getX_setX_self (c : Ctx) {r : Reg} (v : Word) (h : r ≠ 0) : (c.setX r v).getX r = v := by
  unfold Ctx.setX; rw [if_neg h]; unfold Ctx.getX; rw [if_neg h]; simp
theorem Ctx.getX_setX_ne (c : Ctx) {r q : Reg} (v : Word) (h : q ≠ r) : (c.setX r v).getX q = c.getX q := by
  have e : r.toNat ≠ q.toNat := fun e => h (BitVec.eq_of_toNat_eq e.symm)
  unfold Ctx.setX
  split
  · rfl
  · unfold Ctx.getX; simp [Vector.getElem_set_ne, e]
@[simp] theorem Ctx.getV_setV_self (c : Ctx) (r : Reg) (v : Vec) : (c.setV r v).getV r = v := by simp [Ctx.getV, Ctx.setV]
theorem Ctx.getV_setV_ne (c : Ctx) {r q : Reg} (v : Vec) (h : q ≠ r) : (c.setV r v).getV q = c.getV q := by
  have : r.toNat ≠ q.toNat := fun e => h (BitVec.eq_of_toNat_eq e.symm)
  simp [Ctx.getV, Ctx.setV, Vector.getElem_set_ne, this]
theorem Ctx.getM_setM_self (c : Ctx) {r : MReg} (v : Word) (h : r ≠ 0) : (c.setM r v).getM r = v := by
  unfold Ctx.setM; rw [if_neg h]; unfold Ctx.getM; rw [if_neg h]; simp
theorem Ctx.getM_setM_ne (c : Ctx) {r q : MReg} (v : Word) (h : q ≠ r) : (c.setM r v).getM q = c.getM q := by
  have e : r.toNat ≠ q.toNat := fun e => h (BitVec.eq_of_toNat_eq e.symm)
  unfold Ctx.setM
  split
  · rfl
  · unfold Ctx.getM; simp [Vector.getElem_set_ne, e]

end Sys2Proof.Machine
end

