-- ==== Sys2Proof/Laws/Slots.lean ====
section
/-! SUPPORT. How an instruction that only computes ends: what the register writes and the advance of Machine/Slots.lean do together, said
once in the words of Safety.lean. -/

namespace Sys2Proof.Machine

@[simp] theorem State.core_modSlot (s : State) (n c : Nat) (f : Slot → Slot) : (s.modSlot n f).core c = s.core c := rfl
@[simp] theorem State.cluster_modSlot (s : State) (n c : Nat) (f : Slot → Slot) : (s.modSlot n f).cluster c = s.cluster c := rfl
@[simp] theorem State.part_modSlot (s : State) (n p : Nat) (f : Slot → Slot) : (s.modSlot n f).part p = s.part p := rfl
@[simp] theorem State.die_modSlot (s : State) (n d : Nat) (f : Slot → Slot) : (s.modSlot n f).die d = s.die d := rfl

/-- Two changes of one slot are one change. -/
theorem State.modSlot_modSlot (s : State) (n : Nat) (f g : Slot → Slot) : (s.modSlot n f).modSlot n g = s.modSlot n (g ∘ f) := by
  have : (s.slots.set n (f (s.slot n))).set n (g (f (s.slot n))) = s.slots.set n (g (f (s.slot n))) := Table.set_set _ _ _ _
  rw [State.modSlot, State.slot_modSlot_self]
  simp only [State.modSlot, State.setSlot, Function.comp, this]

theorem State.modSlot_congr {s : State} {n : Nat} {f g : Slot → Slot} (h : f (s.slot n) = g (s.slot n)) : s.modSlot n f = s.modSlot n g := by
  unfold State.modSlot; rw [h]

theorem Ctx.getX_setX (c : Ctx) (d r : Reg) (v : Word) : (c.setX d v).getX r = if r = d then readBack d v else c.getX r := by
  by_cases h : r = d
  · subst h
    by_cases h0 : r = 0
    · subst h0; simp [readBack, Ctx.getX]
    · rw [Ctx.getX_setX_self _ _ h0, if_pos rfl, readBack, if_neg h0]
  · rw [Ctx.getX_setX_ne _ _ h, if_neg h]

theorem Ctx.getV_setV (c : Ctx) (d r : Reg) (v : Vec) : (c.setV d v).getV r = if r = d then v else c.getV r := by
  by_cases h : r = d
  · subst h; simp
  · rw [Ctx.getV_setV_ne _ _ h, if_neg h]

/-- The value a mask register reads as once `v` is written to it: m0 reads as all ones (R47, R48). -/
theorem Ctx.getM_setM (c : Ctx) (d r : MReg) (v : Word) :
    (c.setM d v).getM r = if r = d then (if d = 0 then BitVec.allOnes 64 else v) else c.getM r := by
  by_cases h : r = d
  · subst h
    by_cases h0 : r = 0
    · subst h0; simp [Ctx.getM]
    · rw [Ctx.getM_setM_self _ _ h0, if_pos rfl, if_neg h0]
  · rw [Ctx.getM_setM_ne _ _ h, if_neg h]

/-- A write of a register changes no other part of the context. -/
theorem Ctx.setX_rest (c : Ctx) (d : Reg) (v : Word) : c.setX d v = { c with x := (c.setX d v).x } := by
  unfold Ctx.setX; split <;> rfl
theorem Ctx.setM_rest (c : Ctx) (d : MReg) (v : Word) : c.setM d v = { c with m := (c.setM d v).m } := by
  unfold Ctx.setM; split <;> rfl

theorem leftPending_nil (l : List Result) : leftPending [] [] l = l := by
  simp [leftPending]

theorem Slot.dropResults_pending (v : Slot) (isVec : Bool) (r : Reg) :
    (v.dropResults isVec r).pending = leftPending (if isVec then [] else [r]) (if isVec then [r] else []) v.pending := by
  simp only [Slot.dropResults, leftPending]
  congr 1; funext e
  cases isVec <;> cases h : e.isVec <;> simp [Bool.beq_eq_decide_eq]

/-! ### Completion -/

/-- The current slot takes a context and a list of requested results and goes on at `target`. -/
def State.endWith (s : State) (k : Enc) (target : Word) (c : Ctx) (l : List Result) : State :=
  s.modSlot s.cur fun v => ({ v with ctx := c, pending := l }).goto k.mark target

/-- What `State.endWith` does, where the context differs from the slot's in the registers of three lists and in added flags. -/
theorem State.endWith_computed (s : State) (k : Enc) (target : Word) (c : Ctx) (l : List Result) (fl : Flags) (xs vs : List Reg)
    (ms : List MReg) (hx : ∀ r, r ∉ xs → c.getX r = s.getX r) (hv : ∀ r, r ∉ vs → c.getV r = s.getV r)
    (hm : ∀ r, r ∉ ms → c.getM r = s.getM r) (hf : c.fstat = s.ctx.fstat ||| fl)
    (hc : c = { s.ctx with x := c.x, v := c.v, m := c.m, pc := c.pc, fstat := c.fstat })
    (hl : l = leftPending xs vs (s.slot s.cur).pending) : Computed s (s.endWith k target c l) k target fl xs vs ms := by
  have hs : (s.endWith k target c l).slot s.cur = ({ s.slot s.cur with ctx := c, pending := l }).goto k.mark target :=
    State.slot_modSlot_self _ _ _
  have hctx : (s.endWith k target c l).ctx = { c with pc := target } := by
    show ((s.endWith k target c l).slot s.cur).ctx = _
    rw [hs]; rfl
  have hpc : (s.endWith k target c l).pc = target := by show (State.ctx _).pc = _; rw [hctx]
  have goes : Goes s (s.endWith k target c l) k target := { pc := hpc, cont := by rw [hs]; rfl, run := by rw [hs]; rfl }
  have frame : SlotFrame s (s.endWith k target c l) xs vs ms :=
    { cur := rfl
      others := fun n h => State.slot_modSlot_ne _ _ h
      x := fun r h => Eq.trans (congrArg (·.getX r) hctx) (hx r h)
      v := fun r h => Eq.trans (congrArg (·.getV r) hctx) (hv r h)
      m := fun r h => Eq.trans (congrArg (·.getM r) hctx) (hm r h)
      rest := by
        rw [hpc, hctx, hs]
        conv => lhs; rw [hc]
        rfl }
  exact { goes := goes, frame := frame, outside := { byte := fun _ => rfl, buf := fun _ _ => rfl, state := rfl },
          fstat := by rw [hctx]; exact hf, pending := by rw [hs]; exact hl }

theorem State.setX_endWith (s : State) (k : Enc) (target : Word) (d : Reg) (v : Word) :
    (s.setX d v).goto k target = s.endWith k target (s.ctx.setX d v) ((s.slot s.cur).dropResults false d).pending := by
  unfold State.goto State.setX State.endWith
  rw [State.modSlot_cur, State.modSlot_modSlot]; rfl

theorem State.goto_endWith (s : State) (k : Enc) (target : Word) :
    s.goto k target = s.endWith k target s.ctx (s.slot s.cur).pending := by
  unfold State.goto State.endWith State.ctx State.modSlot
  rfl

/-! ### Each ending, once -/

@[simp] theorem State.ctx_modSlot_cur (s : State) (f : Slot → Slot) : (s.modSlot s.cur f).ctx = (f (s.slot s.cur)).ctx := by
  show ((s.modSlot s.cur f).slot s.cur).ctx = _
  rw [State.slot_modSlot_self]

theorem State.ctx_setX (s : State) (d : Reg) (v : Word) : (s.setX d v).ctx = s.ctx.setX d v := by
  rw [State.setX, State.ctx_modSlot_cur]; rfl
theorem State.ctx_setV (s : State) (d : Reg) (v : Vec) : (s.setV d v).ctx = s.ctx.setV d v := by
  rw [State.setV, State.ctx_modSlot_cur]; rfl
theorem State.ctx_setM (s : State) (d : MReg) (v : Word) : (s.setM d v).ctx = s.ctx.setM d v := by
  rw [State.setM, State.ctx_modSlot_cur]; rfl
theorem State.pc_setX (s : State) (d : Reg) (v : Word) : (s.setX d v).pc = s.pc := by
  show (State.ctx _).pc = _; rw [State.ctx_setX, Ctx.setX_rest]; rfl
theorem State.pc_setV (s : State) (d : Reg) (v : Vec) : (s.setV d v).pc = s.pc := by
  show (State.ctx _).pc = _; rw [State.ctx_setV]; rfl
theorem State.pc_setM (s : State) (d : MReg) (v : Word) : (s.setM d v).pc = s.pc := by
  show (State.ctx _).pc = _; rw [State.ctx_setM, Ctx.setM_rest]; rfl
theorem State.pc_addFlags (s : State) (f : Flags) : (s.addFlags f).pc = s.pc := by
  show (State.ctx _).pc = _; rw [State.addFlags, State.ctx_modSlot_cur]; rfl
@[simp] theorem State.cur_setX (s : State) (d : Reg) (v : Word) : (s.setX d v).cur = s.cur := rfl
@[simp] theorem State.cur_setV (s : State) (d : Reg) (v : Vec) : (s.setV d v).cur = s.cur := rfl
@[simp] theorem State.cur_setM (s : State) (d : MReg) (v : Word) : (s.setM d v).cur = s.cur := rfl
@[simp] theorem State.cur_addFlags (s : State) (f : Flags) : (s.addFlags f).cur = s.cur := rfl

theorem State.goto_ctx (s : State) (k : Enc) (w : Word) : (s.goto k w).ctx = { s.ctx with pc := w } := by
  rw [State.goto, State.ctx_modSlot_cur]; rfl
theorem State.goto_getX (s : State) (k : Enc) (w : Word) (r : Reg) : (s.goto k w).getX r = s.getX r := by
  show (State.ctx _).getX r = _; rw [State.goto_ctx]; rfl
theorem State.goto_getV (s : State) (k : Enc) (w : Word) (r : Reg) : (s.goto k w).getV r = s.getV r := by
  show (State.ctx _).getV r = _; rw [State.goto_ctx]; rfl
theorem State.goto_getM (s : State) (k : Enc) (w : Word) (r : MReg) : (s.goto k w).getM r = s.getM r := by
  show (State.ctx _).getM r = _; rw [State.goto_ctx]; rfl
theorem State.setX_getX (s : State) (d r : Reg) (v : Word) : (s.setX d v).getX r = if r = d then readBack d v else s.getX r := by
  show (State.ctx _).getX r = _; rw [State.ctx_setX, Ctx.getX_setX]; rfl
theorem State.setV_getV (s : State) (d r : Reg) (v : Vec) : (s.setV d v).getV r = if r = d then v else s.getV r := by
  show (State.ctx _).getV r = _; rw [State.ctx_setV, Ctx.getV_setV]; rfl
theorem State.setM_getM (s : State) (d r : MReg) (v : Word) :
    (s.setM d v).getM r = if r = d then (if d = 0 then BitVec.allOnes 64 else v) else s.getM r := by
  show (State.ctx _).getM r = _; rw [State.ctx_setM, Ctx.getM_setM]; rfl
theorem State.addFlags_getX (s : State) (f : Flags) (r : Reg) : (s.addFlags f).getX r = s.getX r := by
  show (State.ctx _).getX r = _; rw [State.addFlags, State.ctx_modSlot_cur]; rfl
theorem State.addFlags_getV (s : State) (f : Flags) (r : Reg) : (s.addFlags f).getV r = s.getV r := by
  show (State.ctx _).getV r = _; rw [State.addFlags, State.ctx_modSlot_cur]; rfl
theorem State.addFlags_getM (s : State) (f : Flags) (r : MReg) : (s.addFlags f).getM r = s.getM r := by
  show (State.ctx _).getM r = _; rw [State.addFlags, State.ctx_modSlot_cur]; rfl

/-- A jump that writes nothing. -/
theorem State.goto_computed (s : State) (k : Enc) (w : Word) : Computed s (s.goto k w) k w 0 [] [] [] := by
  rw [State.goto_endWith]
  exact State.endWith_computed s k w _ _ 0 [] [] [] (fun _ _ => rfl) (fun _ _ => rfl) (fun _ _ => rfl) (by simp) rfl (leftPending_nil _).symm

/-- A scalar register is written, flags are added, and the slot goes on at `w`. -/
theorem State.setX_computed (s : State) (k : Enc) (w : Word) (d : Reg) (v : Word) (fl : Flags) :
    Computed s (((s.setX d v).addFlags fl).goto k w) k w fl [d] [] [] := by
  have e : ((s.setX d v).addFlags fl).goto k w =
      s.endWith k w { s.ctx.setX d v with fstat := s.ctx.fstat ||| fl } ((s.slot s.cur).dropResults false d).pending := by
    unfold State.goto State.addFlags State.setX State.endWith
    rw [State.modSlot_cur, State.modSlot_modSlot, State.modSlot_cur, State.modSlot_modSlot]
    refine State.modSlot_congr ?_
    by_cases h : d = 0
    · subst h; rfl
    · have e (c : Ctx) : c.setX d v = { c with x := c.x.set d.toNat v } := by unfold Ctx.setX; rw [if_neg h]
      simp only [Function.comp, Slot.modCtx, Slot.dropResults, State.ctx, e, Slot.goto]
      rfl
  rw [e]
  refine State.endWith_computed s k w _ _ fl [d] [] [] (fun r h => ?_) (fun _ _ => ?_) (fun _ _ => ?_) rfl ?_ ?_
  · have : r ≠ d := by simpa using h
    show (s.ctx.setX d v).getX r = _
    rw [Ctx.getX_setX_ne _ _ this]; rfl
  · rw [Ctx.setX_rest]; rfl
  · rw [Ctx.setX_rest]; rfl
  · rw [Ctx.setX_rest]
  · rw [Slot.dropResults_pending]; rfl

/-- A vector register is written, flags are added, and the slot goes on at `w`. -/
theorem State.setV_computed (s : State) (k : Enc) (w : Word) (d : Reg) (v : Vec) (fl : Flags) :
    Computed s (((s.setV d v).addFlags fl).goto k w) k w fl [] [d] [] := by
  have e : ((s.setV d v).addFlags fl).goto k w =
      s.endWith k w { s.ctx.setV d v with fstat := s.ctx.fstat ||| fl } ((s.slot s.cur).dropResults true d).pending := by
    unfold State.goto State.addFlags State.setV State.endWith
    rw [State.modSlot_cur, State.modSlot_modSlot, State.modSlot_cur, State.modSlot_modSlot]
    rfl
  rw [e]
  refine State.endWith_computed s k w _ _ fl [] [d] [] (fun r h => rfl) (fun r h => ?_) (fun _ _ => rfl) rfl rfl ?_
  · have : r ≠ d := by simpa using h
    show (s.ctx.setV d v).getV r = _
    rw [Ctx.getV_setV_ne _ _ this]; rfl
  · rw [Slot.dropResults_pending]; rfl

/-- A mask register is written, flags are added, and the slot goes on at `w`. -/
theorem State.setM_computed (s : State) (k : Enc) (w : Word) (d : MReg) (v : Word) (fl : Flags) :
    Computed s (((s.setM d v).addFlags fl).goto k w) k w fl [] [] [d] := by
  have e : ((s.setM d v).addFlags fl).goto k w =
      s.endWith k w { s.ctx.setM d v with fstat := s.ctx.fstat ||| fl } (s.slot s.cur).pending := by
    unfold State.goto State.addFlags State.setM State.endWith
    rw [State.modSlot_cur, State.modSlot_modSlot, State.modSlot_cur, State.modSlot_modSlot]
    refine State.modSlot_congr ?_
    by_cases h : d = 0
    · subst h; rfl
    · simp only [Function.comp, Slot.modCtx, State.ctx, Ctx.setM, if_neg h, Slot.goto]
  rw [e]
  refine State.endWith_computed s k w _ _ fl [] [] [d] (fun r h => ?_) (fun r h => ?_) (fun r h => ?_) rfl ?_ (leftPending_nil _).symm
  · rw [Ctx.setM_rest]; rfl
  · rw [Ctx.setM_rest]; rfl
  · have : r ≠ d := by simpa using h
    show (s.ctx.setM d v).getM r = _
    rw [Ctx.getM_setM_ne _ _ this]; rfl
  · rw [Ctx.setM_rest]

/-- No flags to add. -/
theorem State.addFlags_zero (s : State) : s.addFlags 0 = s.modSlot s.cur id := by
  refine State.modSlot_congr ?_
  simp [Slot.modCtx]

end Sys2Proof.Machine
end

