-- ==== Sys2Proof/Laws/Ends.lean ====
section
/-! SUPPORT. How each shared ending of a meaning completes: one lemma per operation, in the words of Safety.lean. -/

namespace Sys2Proof.Machine

theorem State.modSlot_id (s : State) (n : Nat) (f : Slot → Slot) : (s.modSlot n f).modSlot n id = s.modSlot n f := by
  rw [State.modSlot_modSlot]; rfl

/-- Adding no flags before going on is going on. -/
theorem State.goto_addFlags_zero (s : State) (k : Enc) (w : Word) : (s.addFlags 0).goto k w = s.goto k w := by
  rw [State.addFlags_zero]
  unfold State.goto
  rw [State.modSlot_cur, State.modSlot_modSlot]; rfl

theorem State.advance_setX (s : State) (k : Enc) (d : Reg) (v : Word) : (s.setX d v).advance k = (s.setX d v).goto k (s.after k) := by
  rw [State.advance, State.pc_setX]; rfl
theorem State.advance_setV (s : State) (k : Enc) (d : Reg) (v : Vec) : (s.setV d v).advance k = (s.setV d v).goto k (s.after k) := by
  rw [State.advance, State.pc_setV]; rfl
theorem State.advance_setM (s : State) (k : Enc) (d : MReg) (v : Word) : (s.setM d v).advance k = (s.setM d v).goto k (s.after k) := by
  rw [State.advance, State.pc_setM]; rfl

/-- A scalar result (R21, R44): d reads as the result, and nothing else changes. -/
theorem State.retX_ends (s : State) (k : Enc) (d : Reg) (v : Word) :
    ∃ t, s.retX k d v = .next t ∧ t.getX d = readBack d v ∧ Computed s t k (s.after k) 0 [d] [] [] := by
  refine ⟨_, rfl, ?_, ?_⟩
  · rw [State.advance_setX, State.goto_getX, State.setX_getX, if_pos rfl]
  · have := State.setX_computed s k (s.after k) d v 0
    rwa [State.goto_addFlags_zero, ← State.advance_setX] at this

/-- An integer result modulo 2^64 (R86). -/
theorem State.retInt_ends (s : State) (k : Enc) (d : Reg) (v : Int) :
    ∃ t, s.retInt k d v = .next t ∧ t.getX d = readBack d (BitVec.ofInt 64 v) ∧ Computed s t k (s.after k) 0 [d] [] [] :=
  s.retX_ends k d _

/-- A scalar result with flags: the common ending of putX, putBool and putRed. -/
theorem State.flagged_ends (s : State) (k : Enc) (d : Reg) (v : Word) (fl : Flags) :
    (((s.setX d v).addFlags fl).advance k).getX d = readBack d v ∧
      Computed s (((s.setX d v).addFlags fl).advance k) k (s.after k) fl [d] [] [] := by
  have e : ((s.setX d v).addFlags fl).advance k = ((s.setX d v).addFlags fl).goto k (s.after k) := by
    rw [State.advance, State.pc_addFlags, State.pc_setX]; rfl
  rw [e]
  refine ⟨?_, State.setX_computed s k _ d v fl⟩
  rw [State.goto_getX, State.addFlags_getX, State.setX_getX, if_pos rfl]

theorem State.putX_ends (s : State) (k : Enc) (d : Reg) (t : Elem) (r : Nat × Flags) :
    (s.putX k d t r).getX d = readBack d (elemToX t r.1) ∧ Computed s (s.putX k d t r) k (s.after k) r.2 [d] [] [] :=
  s.flagged_ends k d _ _

theorem State.putBool_ends (s : State) (k : Enc) (d : Reg) (r : Bool × Flags) :
    (s.putBool k d r).getX d = readBack d (if r.1 then 1 else 0) ∧ Computed s (s.putBool k d r) k (s.after k) r.2 [d] [] [] :=
  s.flagged_ends k d _ _

theorem State.putRed_ends (s : State) (k : Enc) (d : Reg) (r : Nat × Flags) :
    ∃ t, s.putRed k d r = .next t ∧ t.getX d = readBack d (BitVec.ofNat 64 r.1) ∧ Computed s t k (s.after k) r.2 [d] [] [] :=
  ⟨_, rfl, s.flagged_ends k d _ _⟩

/-- A vector result with flags (R69). -/
theorem State.putV_ends (s : State) (k : Enc) (d : Reg) (r : Vec × Flags) :
    (s.putV k d r).getV d = r.1 ∧ Computed s (s.putV k d r) k (s.after k) r.2 [] [d] [] := by
  have e : s.putV k d r = ((s.setV d r.1).addFlags r.2).goto k (s.after k) := by
    rw [State.putV, State.advance, State.pc_addFlags, State.pc_setV]; rfl
  rw [e]
  refine ⟨?_, State.setV_computed s k _ d r.1 r.2⟩
  rw [State.goto_getV, State.addFlags_getV, State.setV_getV, if_pos rfl]

/-- A vector result without flags. -/
theorem State.setV_ends (s : State) (k : Enc) (d : Reg) (v : Vec) :
    ((s.setV d v).advance k).getV d = v ∧ Computed s ((s.setV d v).advance k) k (s.after k) 0 [] [d] [] := by
  refine ⟨?_, ?_⟩
  · rw [State.advance_setV, State.goto_getV, State.setV_getV, if_pos rfl]
  · have := State.setV_computed s k (s.after k) d v 0
    rwa [State.goto_addFlags_zero, ← State.advance_setV] at this

/-- A mask result with flags; m0 takes nothing (R48). -/
theorem State.setM_flagged_ends (s : State) (k : Enc) (d : MReg) (v : Word) (fl : Flags) :
    (((s.setM d v).addFlags fl).advance k).getM d = (if d = 0 then BitVec.allOnes 64 else v) ∧
      Computed s (((s.setM d v).addFlags fl).advance k) k (s.after k) fl [] [] [d] := by
  have e : ((s.setM d v).addFlags fl).advance k = ((s.setM d v).addFlags fl).goto k (s.after k) := by
    rw [State.advance, State.pc_addFlags, State.pc_setM]; rfl
  rw [e]
  refine ⟨?_, State.setM_computed s k _ d v fl⟩
  rw [State.goto_getM, State.addFlags_getM, State.setM_getM, if_pos rfl]

/-- A mask result without flags. -/
theorem State.setM_ends (s : State) (k : Enc) (d : MReg) (v : Word) :
    ((s.setM d v).advance k).getM d = (if d = 0 then BitVec.allOnes 64 else v) ∧
      Computed s ((s.setM d v).advance k) k (s.after k) 0 [] [] [d] := by
  refine ⟨?_, ?_⟩
  · rw [State.advance_setM, State.goto_getM, State.setM_getM, if_pos rfl]
  · have := State.setM_computed s k (s.after k) d v 0
    rwa [State.goto_addFlags_zero, ← State.advance_setM] at this

/-- A transfer with a link (R95): x1 takes the link, and nothing else changes. -/
theorem State.link_ends (s : State) (k : Enc) (w : Word) :
    ((s.link1 k).goto k w).getX 1 = s.after k ∧ Computed s ((s.link1 k).goto k w) k w 0 [1] [] [] := by
  refine ⟨?_, ?_⟩
  · rw [State.goto_getX, State.link1, State.setX_getX, if_pos rfl]; rfl
  · have := State.setX_computed s k w 1 (s.after k) 0
    rwa [State.goto_addFlags_zero] at this

/-! ### Requested results (R21) -/

/-- What going on at the next address does to the slot. -/
theorem State.slot_advance (s : State) (k : Enc) : (s.advance k).slot s.cur = (s.slot s.cur).goto k.mark (s.after k) :=
  State.slot_modSlot_self _ _ _

theorem State.slot_advance_ne (s : State) (k : Enc) {n : Nat} (h : n ≠ s.cur) : (s.advance k).slot n = s.slot n :=
  State.slot_modSlot_ne _ _ h

/-- An instruction that leaves the slots alone, requests results and goes on has completed, from a state `u` whose slots are those of
`s` with the results `rs` added. -/
theorem State.requested_of (s u : State) (k : Enc) (rs : List Result) (hc : u.cur = s.cur) (hn : ∀ n, n ≠ s.cur → u.slot n = s.slot n)
    (hs : u.slot s.cur = { s.slot s.cur with pending := (s.slot s.cur).pending ++ rs }) : Requested s (u.advance k) k rs := by
  have hctx : u.ctx = s.ctx := by unfold State.ctx; rw [hc, hs]
  have hpc : u.pc = s.pc := by unfold State.pc; rw [hctx]
  have hslot : (u.advance k).slot s.cur = ({ s.slot s.cur with pending := (s.slot s.cur).pending ++ rs }).goto k.mark (s.after k) := by
    have := State.slot_advance u k
    rw [hc] at this
    rw [this, hs]
    simp only [State.after, hpc]
  have hcur : (u.advance k).cur = s.cur := hc
  have hc2 : (u.advance k).ctx = { s.ctx with pc := s.after k } := by
    unfold State.ctx; rw [hcur, hslot]; rfl
  have hpc2 : (u.advance k).pc = s.after k := by unfold State.pc; rw [hc2]
  have goes : Goes s (u.advance k) k (s.after k) := { pc := hpc2, cont := by rw [hslot]; rfl, run := by rw [hslot]; rfl }
  have frame : SlotFrame s (u.advance k) [] [] [] :=
    { cur := hcur
      others := fun n h => (State.slot_advance_ne _ _ (by rw [hc]; exact h)).trans (hn n h)
      x := fun r _ => by unfold State.getX; rw [hc2]; rfl
      v := fun r _ => by unfold State.getV; rw [hc2]; rfl
      m := fun r _ => by unfold State.getM; rw [hc2]; rfl
      rest := by rw [hpc2, hc2, hslot]; rfl }
  exact { goes := goes, frame := frame, fstat := by rw [hc2], pending := by rw [hslot]; rfl }

/-- One scalar result requested (R21). -/
theorem State.reqX_ends (s u : State) (k : Enc) (d : Reg) (v : Word) (hc : u.cur = s.cur) (hs : ∀ n, u.slot n = s.slot n) :
    Requested s ((u.reqX d v).advance k) k [resX d v] := by
  refine State.requested_of s _ k _ hc (fun n h => ?_) ?_
  · rw [State.reqX, State.slot_modSlot_ne _ _ (by rw [hc]; exact h)]; exact hs n
  · have : (u.reqX d v).slot u.cur = _ := State.slot_modSlot_self _ _ _
    rw [hc] at this
    rw [this, hs]; rfl

/-- Two scalar results requested, in order (R21). -/
theorem State.reqX2_ends (s u : State) (k : Enc) (d e : Reg) (v w : Word) (hc : u.cur = s.cur) (hs : ∀ n, u.slot n = s.slot n) :
    Requested s (((u.reqX d v).reqX e w).advance k) k [resX d v, resX e w] := by
  have hr : (u.reqX d v).reqX e w = u.modSlot u.cur fun t => { t with pending := t.pending ++ [resX d v, resX e w] } := by
    unfold State.reqX
    rw [State.modSlot_cur, State.modSlot_modSlot]
    refine State.modSlot_congr ?_
    simp [Function.comp, resX]
  rw [hr]
  refine State.requested_of s _ k _ hc (fun n h => ?_) ?_
  · rw [State.slot_modSlot_ne _ _ (by rw [hc]; exact h)]; exact hs n
  · rw [← hc, State.slot_modSlot_self, hs]

/-- One vector result requested (R21). -/
theorem State.reqV_ends (s u : State) (k : Enc) (d : Reg) (v : Vec) (hc : u.cur = s.cur) (hs : ∀ n, u.slot n = s.slot n) :
    Requested s ((u.reqV d v).advance k) k [resV d v] := by
  refine State.requested_of s _ k _ hc (fun n h => ?_) ?_
  · rw [State.reqV, State.slot_modSlot_ne _ _ (by rw [hc]; exact h)]; exact hs n
  · have : (u.reqV d v).slot u.cur = _ := State.slot_modSlot_self _ _ _
    rw [hc] at this
    rw [this, hs]; rfl

/-- No result requested: the instruction only goes on. -/
theorem State.advance_ends (s u : State) (k : Enc) (hc : u.cur = s.cur) (hs : ∀ n, u.slot n = s.slot n) :
    Requested s (u.advance k) k [] := by
  refine State.requested_of s u k [] hc (fun n _ => hs n) ?_
  rw [hs]; simp

/-! ### Ends with a check (R279) -/

@[simp] theorem State.finish_ok (s t : State) : s.finish (.ok t) = .next t := rfl
@[simp] theorem State.finish_error (s : State) (fi : FaultInfo) : s.finish (.error fi) = .next (s.takeFault s.cur fi) := rfl

/-- A meaning that ends in `State.finish` always has a next state. -/
theorem State.finish_next (s : State) (r : Except FaultInfo State) : ∃ t, s.finish r = .next t := by
  cases r <;> exact ⟨_, rfl⟩

end Sys2Proof.Machine
end

