-- ==== Sys2Proof/Laws/Memory.lean ====
section
/-! SUPPORT. Memory keeps its canonical form under every operation, and a read gives what the last write stored. -/

namespace Sys2Proof.Machine

theorem Memory.wfFrom_mono {m : Memory} {lo lo' : Nat} (h : lo' ≤ lo) (hm : Memory.wfFrom lo m = true) : Memory.wfFrom lo' m = true := by
  cases m with
  | nil => rfl
  | cons e r =>
    obtain ⟨a, b⟩ := e
    simp only [Memory.wfFrom, Bool.and_eq_true, decide_eq_true_eq] at hm ⊢
    exact ⟨⟨by omega, hm.1.2⟩, hm.2⟩

theorem Memory.read_below {m : Memory} {lo a : Nat} (hm : Memory.wfFrom lo m = true) (h : a < lo) : Memory.read m a = Memory.unlisted := by
  cases m with
  | nil => rfl
  | cons e r =>
    obtain ⟨k, b⟩ := e
    simp only [Memory.wfFrom, Bool.and_eq_true, decide_eq_true_eq] at hm
    have : ¬ k = a := by omega
    simp [Memory.read, this, show a < k by omega]

theorem Memory.write_wfFrom {m : Memory} {lo a : Nat} (v : Byte) (hm : Memory.wfFrom lo m = true) (h : lo ≤ a) :
    Memory.wfFrom lo (Memory.write m a v) = true := by
  induction m generalizing lo with
  | nil => by_cases hv : v = Memory.unlisted <;> simp [Memory.write, Memory.wfFrom, hv, h]
  | cons e r ih =>
    obtain ⟨k, b⟩ := e
    have hm' := hm
    simp only [Memory.wfFrom, Bool.and_eq_true, decide_eq_true_eq, bne_iff_ne] at hm
    obtain ⟨⟨h1, h2⟩, h3⟩ := hm
    by_cases hk : k = a
    · subst hk
      by_cases hv : v = Memory.unlisted
      · simpa [Memory.write, hv] using Memory.wfFrom_mono (by omega) h3
      · simp [Memory.write, hv, Memory.wfFrom, h, h3]
    · by_cases hlt : a < k
      · by_cases hv : v = Memory.unlisted
        · simpa [Memory.write, hk, hlt, hv] using hm'
        · simp [Memory.write, hk, hlt, hv, Memory.wfFrom, h, h2, h3]
      · simp [Memory.write, hk, hlt, Memory.wfFrom, h1, h2, ih h3 (by omega)]

/-- Storing a byte keeps the canonical form. -/
theorem Memory.write_wf {m : Memory} (a : Nat) (v : Byte) (hm : m.wf = true) : (m.write a v).wf = true :=
  Memory.write_wfFrom v hm (Nat.zero_le a)

/-- Storing bytes keeps the canonical form. -/
theorem Memory.writeN_wf {m : Memory} (a n v : Nat) (hm : m.wf = true) : (m.writeN a n v).wf = true := by
  induction n generalizing m a v with
  | zero => exact hm
  | succ n ih => exact ih (a + 1) (v / 256) (Memory.write_wf a _ hm)

theorem Memory.read_write_self_from {m : Memory} {lo a : Nat} (v : Byte) (hm : Memory.wfFrom lo m = true) :
    (m.write a v).read a = v := by
  induction m generalizing lo with
  | nil => by_cases hv : v = Memory.unlisted <;> simp [Memory.write, Memory.read, hv]
  | cons e r ih =>
    obtain ⟨k, b⟩ := e
    simp only [Memory.wfFrom, Bool.and_eq_true, decide_eq_true_eq, bne_iff_ne] at hm
    obtain ⟨⟨h1, h2⟩, h3⟩ := hm
    by_cases hk : k = a
    · subst hk
      by_cases hv : v = Memory.unlisted
      · simp [Memory.write, hv, Memory.read_below h3 (Nat.lt_succ_self k)]
      · simp [Memory.write, hv, Memory.read]
    · by_cases hlt : a < k
      · by_cases hv : v = Memory.unlisted <;> simp [Memory.write, Memory.read, hk, hlt, hv]
      · simp [Memory.write, Memory.read, hk, hlt, ih h3]

/-- A read after a write of the same byte gives the value written. -/
theorem Memory.read_write_self {m : Memory} (a : Nat) (v : Byte) (hm : m.wf = true) : (m.write a v).read a = v :=
  Memory.read_write_self_from v hm

theorem Memory.read_write_ne_from {m : Memory} {lo a x : Nat} (v : Byte) (hm : Memory.wfFrom lo m = true) (h : x ≠ a) :
    (m.write a v).read x = m.read x := by
  induction m generalizing lo with
  | nil => by_cases hv : v = Memory.unlisted <;> simp [Memory.write, Memory.read, hv, Ne.symm h]
  | cons e r ih =>
    obtain ⟨k, b⟩ := e
    have hm' := hm
    simp only [Memory.wfFrom, Bool.and_eq_true, decide_eq_true_eq, bne_iff_ne] at hm
    obtain ⟨⟨h1, h2⟩, h3⟩ := hm
    by_cases hk : k = a
    · subst hk
      by_cases hv : v = Memory.unlisted
      · by_cases hx : x < k
        · simp [Memory.write, hv, Memory.read, Ne.symm h, hx, Memory.read_below h3 (show x < k + 1 by omega)]
        · simp [Memory.write, hv, Memory.read, Ne.symm h, hx]
      · simp [Memory.write, hv, Memory.read, Ne.symm h]
    · by_cases hlt : a < k
      · by_cases hv : v = Memory.unlisted
        · simp [Memory.write, hk, hlt, hv]
        · by_cases hx : x < a
          · have : ¬ k = x := by omega
            simp [Memory.write, hk, hlt, hv, Memory.read, hx, this, Ne.symm h, show x < k by omega]
          · simp [Memory.write, hk, hlt, hv, Memory.read, Ne.symm h, hx]
      · simp [Memory.write, hk, hlt, Memory.read, ih h3]

/-- A write leaves every other byte alone. -/
theorem Memory.read_write_ne {m : Memory} {a x : Nat} (v : Byte) (hm : m.wf = true) (h : x ≠ a) : (m.write a v).read x = m.read x :=
  Memory.read_write_ne_from v hm h

/-- A write of several bytes leaves every byte outside them alone. -/
theorem Memory.read_writeN_outside {m : Memory} (a n v x : Nat) (hm : m.wf = true) (h : x < a ∨ a + n ≤ x) :
    (m.writeN a n v).read x = m.read x := by
  induction n generalizing m a v with
  | zero => rfl
  | succ n ih =>
    have hx : x ≠ a := by omega
    rw [Memory.writeN, ih (a + 1) (v / 256) (Memory.write_wf a _ hm) (by omega), Memory.read_write_ne _ hm hx]

theorem Memory.without_wfFrom {m : Memory} {k : Nat} (lo n : Nat) (hm : Memory.wfFrom k m = true) : Memory.wfFrom k (m.without lo n) = true := by
  induction m generalizing k with
  | nil => rfl
  | cons e r ih =>
    obtain ⟨a, b⟩ := e
    simp only [Memory.wfFrom, Bool.and_eq_true, decide_eq_true_eq] at hm
    by_cases h : a < lo ∨ lo + n ≤ a
    · simpa [Memory.without, h, Memory.wfFrom, hm.1] using ih hm.2
    · simpa [Memory.without, h] using Memory.wfFrom_mono (by omega) (ih hm.2)

/-- Clearing a range keeps the canonical form. -/
theorem Memory.without_wf {m : Memory} (lo n : Nat) (hm : m.wf = true) : (m.without lo n).wf = true := Memory.without_wfFrom lo n hm

/-- A number's low bytes are its lowest byte and those above it. -/
theorem low_bytes_succ (n v : Nat) : v % 2 ^ 8 + 256 * (v / 256 % 256 ^ n) = v % 256 ^ (n + 1) :=
  (Nat.mod_mul (x := v) (a := 256) (b := 256 ^ n)).symm.trans (congrArg (v % ·) (Nat.pow_succ' ..).symm)

/-- A read of several bytes after a write of the same bytes gives the number's low bytes. -/
theorem Memory.readN_writeN {m : Memory} (a n v : Nat) (hm : m.wf = true) : (m.writeN a n v).readN a n = v % 256 ^ n := by
  have key : ∀ (n a v : Nat) (m : Memory), m.wf = true →
      (m.writeN a n v).readN a n = v % 256 ^ n := by
    intro n
    induction n with
    | zero => intro a v m _; simp [Memory.readN, Nat.mod_one]
    | succ n ih =>
      intro a v m hm
      have h0 := Memory.write_wf a (BitVec.ofNat 8 v) hm
      rw [Memory.writeN, Memory.readN, Memory.read_writeN_outside _ _ _ _ h0 (Or.inl (Nat.lt_succ_self a)), Memory.read_write_self _ _ hm,
        ih (a + 1) (v / 256) _ h0, BitVec.toNat_ofNat]
      exact low_bytes_succ n v
  exact key n a v m hm

end Sys2Proof.Machine
end

