-- ==== Sys2Proof/Laws/Storage.lean ====
section
/-! SUPPORT. Storage: every operation of Machine/Access.lean on it changes nothing but storage and keeps every memory's canonical form. -/

namespace Sys2Proof.Machine

/-- An entry of a table that has been set is an old one or the one set. -/
theorem Table.mem_set {α : Type} {t : Table α} {k : Nat} {v : α} {e : Nat × α} : e ∈ Table.set t k v → e ∈ t ∨ e = (k, v) := by
  induction t <;> grind [Table.set]

theorem Table.getD_all {α : Type} {t : Table α} {k : Nat} {d : α} {P : α → Prop} (hd : P d) (h : ∀ e ∈ t, P e.2) : P (Table.getD t k d) := by
  induction t with
  | nil => exact hd
  | cons a r ih =>
    obtain ⟨j, w⟩ := a
    by_cases hk : j = k
    · have : Table.getD ((j, w) :: r) k d = w := by simp [Table.getD, Table.get?, hk]
      rw [this]; exact h (j, w) List.mem_cons_self
    · have : Table.getD ((j, w) :: r) k d = Table.getD r k d := by simp [Table.getD, Table.get?, hk]
      rw [this]; exact ih fun e he => h e (List.mem_cons_of_mem _ he)

/-! ### The canonical form -/

theorem State.memOk_iff (s : State) :
    s.memOk = true ↔ s.mem.wf = true ∧ s.remote.wf = true ∧ s.hostMem.wf = true ∧ ∀ e ∈ s.cores, Core.memOk e.2 = true := by
  simp [State.memOk, and_assoc]

theorem State.core_memOk {s : State} (h : s.memOk = true) (c : Nat) : (s.core c).memOk = true :=
  Table.getD_all (P := fun k => Core.memOk k = true) (by decide) ((State.memOk_iff s).1 h).2.2.2

/-- A change of a core keeps the form where it keeps that core's. -/
theorem State.modCore_memOk {s : State} {c : Nat} {f : Core → Core} (h : s.memOk = true) (hf : (f (s.core c)).memOk = true) :
    (s.modCore c f).memOk = true := by
  obtain ⟨h1, h2, h3, h4⟩ := (State.memOk_iff s).1 h
  refine (State.memOk_iff _).2 ⟨h1, h2, h3, fun e he => ?_⟩
  rcases Table.mem_set he with he | rfl
  · exact h4 e he
  · exact hf

/-! ### What an operation on storage can change -/

/-- Nothing changes but storage, its caches, copies and TLBs, the counts of requests, reservations, poison, the agenda and the next free value;
every memory keeps its canonical form. -/
structure StorageStep (s t : State) : Prop where
  state   : t = { s with cores := t.cores, clusters := t.clusters, mem := t.mem, remote := t.remote, hostMem := t.hostMem,
                         home := t.home, copies := t.copies, resv := t.resv, poison := t.poison, freeCtr := t.freeCtr, agenda := t.agenda }
  core    : ∀ c, t.core c =
    { s.core c with buf := (t.core c).buf, utlb := (t.core c).utlb, sent := (t.core c).sent, recv := (t.core c).recv, counts := (t.core c).counts }
  cluster : ∀ c, t.cluster c = { s.cluster c with lines := (t.cluster c).lines, tlb := (t.cluster c).tlb }
  form    : s.memOk = true → t.memOk = true

namespace StorageStep

theorem refl (s : State) : StorageStep s s := ⟨rfl, fun _ => rfl, fun _ => rfl, id⟩

theorem trans {s t u : State} (h : StorageStep s t) (g : StorageStep t u) : StorageStep s u := by
  refine ⟨?_, fun c => ?_, fun c => ?_, fun m => g.form (h.form m)⟩
  · have := g.state; rw [h.state] at this; exact this
  · have := g.core c; rw [h.core c] at this; exact this
  · have := g.cluster c; rw [h.cluster c] at this; exact this

theorem slots {s t : State} (h : StorageStep s t) : t.slots = s.slots := by rw [h.state]
theorem cur {s t : State} (h : StorageStep s t) : t.cur = s.cur := by rw [h.state]
theorem parts {s t : State} (h : StorageStep s t) : t.parts = s.parts := by rw [h.state]
theorem dies {s t : State} (h : StorageStep s t) : t.dies = s.dies := by rw [h.state]
theorem cycle {s t : State} (h : StorageStep s t) : t.cycle = s.cycle := by rw [h.state]
theorem slot {s t : State} (h : StorageStep s t) (n : Nat) : t.slot n = s.slot n := by unfold State.slot; rw [h.slots]
theorem part {s t : State} (h : StorageStep s t) (p : Nat) : t.part p = s.part p := by unfold State.part; rw [h.parts]
theorem ctx {s t : State} (h : StorageStep s t) : t.ctx = s.ctx := by unfold State.ctx; rw [h.cur, h.slot]
theorem pc {s t : State} (h : StorageStep s t) : t.pc = s.pc := by unfold State.pc; rw [h.ctx]
theorem getX {s t : State} (h : StorageStep s t) (r : Reg) : t.getX r = s.getX r := by unfold State.getX; rw [h.ctx]
theorem getV {s t : State} (h : StorageStep s t) (r : Reg) : t.getV r = s.getV r := by unfold State.getV; rw [h.ctx]
theorem getM {s t : State} (h : StorageStep s t) (r : MReg) : t.getM r = s.getM r := by unfold State.getM; rw [h.ctx]
theorem thr {s t : State} (h : StorageStep s t) (n : Nat) : t.thr n = s.thr n := by
  unfold State.thr State.slotPart? State.owns; simp only [h.slot, h.part]

/-- An access of these changes is an access of Safety.lean. -/
theorem accessOnly {s t : State} (h : StorageStep s t) : AccessOnly s t := by
  refine ⟨?_, h.core, h.cluster⟩
  have e := h.slots
  conv => lhs; rw [h.state]
  rw [e]

/-- A fold of steps is a step. -/
theorem foldl {α : Type} {f : State → α → State} (hf : ∀ s x, StorageStep s (f s x)) (s : State) (l : List α) : StorageStep s (l.foldl f s) := by
  induction l generalizing s with
  | nil => exact refl s
  | cons x r ih => exact (hf s x).trans (ih _)

/-- A fold of steps that carries a value is a step. -/
theorem foldl_fst {α β : Type} {f : State × β → α → State × β} (hf : ∀ a x, StorageStep a.1 (f a x).1) (a : State × β) (l : List α) :
    StorageStep a.1 (l.foldl f a).1 := by
  induction l generalizing a with
  | nil => exact refl _
  | cons x r ih => exact (hf a x).trans (ih _)

/-- A change of one core's storage. -/
theorem ofCore (s : State) (c : Nat) (f : Core → Core)
    (hf : ∀ k, f k = { k with buf := (f k).buf, utlb := (f k).utlb, sent := (f k).sent, recv := (f k).recv, counts := (f k).counts })
    (hm : ∀ k : Core, k.memOk = true → (f k).memOk = true) : StorageStep s (s.modCore c f) := by
  refine ⟨rfl, fun d => ?_, fun _ => rfl, fun m => State.modCore_memOk m (hm _ (State.core_memOk m c))⟩
  by_cases h : d = c
  · subst h; rw [State.core_modCore_self]; exact hf _
  · rw [State.core_modCore_ne _ _ h]

/-- A change of one cluster's cache or TLB. -/
theorem ofCluster (s : State) (c : Nat) (f : Cluster → Cluster) (hf : ∀ k, f k = { k with lines := (f k).lines, tlb := (f k).tlb }) :
    StorageStep s (s.modCluster c f) := by
  refine ⟨rfl, fun _ => rfl, fun d => ?_, id⟩
  by_cases h : d = c
  · subst h; rw [State.cluster_modCluster_self]; exact hf _
  · rw [State.cluster_modCluster_ne _ _ h]

end StorageStep

/-! ### Home slices and buffers -/

/-- Storage's pieces that no memory holds: reservations, poison, the agenda, the next free value, counted home lines and copies. -/
theorem StorageStep.ofRest (s : State) (r : List Resv) (p : List Damaged) (a : List Move) (n : Nat) (h : Table HomeLine) (k : Table HomeCopy) :
    StorageStep s { s with resv := r, poison := p, agenda := a, freeCtr := n, home := h, copies := k } := ⟨rfl, fun _ => rfl, fun _ => rfl, id⟩

/-- The three memories outside the cores. -/
theorem StorageStep.ofMems (s : State) (m r h : Memory) (hm : s.memOk = true → m.wf = true ∧ r.wf = true ∧ h.wf = true) :
    StorageStep s { s with mem := m, remote := r, hostMem := h } :=
  ⟨rfl, fun _ => rfl, fun _ => rfl, fun k => (State.memOk_iff _).2 ⟨(hm k).1, (hm k).2.1, (hm k).2.2, ((State.memOk_iff s).1 k).2.2.2⟩⟩

theorem State.homeWriteByte_storage (s : State) (pa : Nat) (b : Byte) : StorageStep s (s.homeWriteByte pa b) := by
  unfold State.homeWriteByte
  dsimp only
  have h := StorageStep.ofRest s (breakResv s.resv (.phys (pa / 8 * 8))) s.poison s.agenda s.freeCtr s.home (copyByte s.copies pa b)
  split
  · exact h.trans (.ofMems _ _ _ _ fun m => have k := (State.memOk_iff _).1 m; ⟨k.1, Memory.write_wf _ _ k.2.1, k.2.2.1⟩)
  · split
    · exact h.trans (.ofMems _ _ _ _ fun m => have k := (State.memOk_iff _).1 m; ⟨k.1, k.2.1, Memory.write_wf _ _ k.2.2.1⟩)
    · exact h.trans (.ofMems _ _ _ _ fun m => have k := (State.memOk_iff _).1 m; ⟨Memory.write_wf _ _ k.1, k.2.1, k.2.2.1⟩)

theorem State.homeWrite_storage (s : State) (pa n v : Nat) : StorageStep s (s.homeWrite pa n v) := by
  induction n generalizing s pa v with
  | zero => exact .refl s
  | succ n ih => exact (s.homeWriteByte_storage pa _).trans (ih _ _ _)

theorem State.spaceWrite_storage (s : State) (tag pa n v : Nat) : StorageStep s (s.spaceWrite tag pa n v) :=
  (s.homeWrite_storage pa n v).trans (.ofRest _ _ _ _ _ _ _)

theorem State.bufWrite_storage (s : State) (c la n v : Nat) : StorageStep s (s.bufWrite c la n v) := by
  have h := StorageStep.ofCore s c (fun k => { k with buf := k.buf.writeN la n v }) (fun _ => rfl) fun k m => by
    simp only [Core.memOk, Bool.and_eq_true] at m ⊢
    exact ⟨Memory.writeN_wf _ _ _ m.1, m.2⟩
  exact h.trans ⟨rfl, fun _ => rfl, fun _ => rfl, id⟩

theorem State.devQueue_storage (s : State) (ms : List Move) : StorageStep s (s.devQueue ms) :=
  .ofRest s s.resv s.poison _ s.freeCtr s.home s.copies

theorem State.devMisuse_storage (s : State) (pa n : Nat) : StorageStep s (s.devMisuse pa n) := by
  unfold State.devMisuse
  split
  · exact s.devQueue_storage _
  · exact .refl s

theorem State.devWrite_storage (s : State) (pa n v : Nat) : StorageStep s (s.devWrite pa n v) := by
  unfold State.devWrite
  split
  · exact s.devMisuse_storage _ _
  · exact s.devQueue_storage _

theorem State.choose_storage (s : State) (n : Nat) : StorageStep s (s.choose n).2 := .ofRest s s.resv s.poison s.agenda _ s.home s.copies

/-! ### Caches (R124, R152, R162, R163) -/

theorem State.tlbFill_storage (s : State) (t : Thr) (x : Xlat) : StorageStep s (s.tlbFill t x) := by
  unfold State.tlbFill
  dsimp only
  refine StorageStep.trans ?_ (StorageStep.ofCluster _ _ _ (by intro; rfl))
  exact StorageStep.ofCore _ _ _ (by intro; rfl) (by intro _ m; exact m)

theorem State.sendDirty_storage (s : State) (l : CLine) : StorageStep s (s.sendDirty l) :=
  StorageStep.foldl (fun s i => by
    split
    · exact s.spaceWrite_storage _ _ _ _
    · exact .refl s) s (List.range 128)

theorem State.writeBackBytes_storage (s : State) (l : CLine) : StorageStep s (s.writeBackBytes l) := by
  unfold State.writeBackBytes
  dsimp only
  refine (s.sendDirty_storage l).trans ?_
  split
  · split
    · exact .refl _
    · exact .ofRest _ _ _ _ _ _ _
  · split
    · exact .ofRest _ _ _ _ _ _ _
    · exact .refl _

theorem State.flush_storage (s : State) (cl : Nat) (drop : Bool) (p : CLine → Bool) : StorageStep s (s.flush cl drop p) := by
  unfold State.flush
  refine (StorageStep.foldl (fun s l => ?_) s _).trans (StorageStep.ofCluster _ cl _ fun _ => rfl)
  split
  · exact s.writeBackBytes_storage l
  · exact .refl s

theorem State.release_storage (s : State) (t : Thr) (r : Reach) : StorageStep s (s.release t r) := by
  unfold State.release
  split
  · exact .refl s
  · exact s.flush_storage _ _ _

theorem State.acquire_storage (s : State) (t : Thr) (r : Reach) : StorageStep s (s.acquire t r) := by
  unfold State.acquire
  split
  · exact .refl s
  · exact s.flush_storage _ _ _

theorem State.evictFor_storage (s : State) (cl p set : Nat) : StorageStep s (s.evictFor cl p set) := by
  unfold State.evictFor
  dsimp only
  split
  · exact .refl s
  · split
    · exact State.choose_storage s _
    · exact (State.choose_storage s _).trans (State.flush_storage _ _ _ _)

theorem trimSet_storage (cl p set fuel : Nat) (s : State) : StorageStep s (trimSet cl p set fuel s) := by
  induction fuel generalizing s with
  | zero => exact .refl s
  | succ fuel ih =>
    unfold trimSet
    dsimp only
    split
    · exact .refl s
    · exact (s.evictFor_storage cl p set).trans (ih _)

theorem State.fillLine_storage (s : State) (t : Thr) (tag vline pline : Nat) : StorageStep s (s.fillLine t tag vline pline) := by
  unfold State.fillLine
  split
  · exact .refl s
  · exact (s.evictFor_storage _ _ _).trans (StorageStep.ofCluster _ t.cluster _ fun _ => rfl)

theorem State.lineStore_storage (s : State) (t : Thr) (tag vline off n v : Nat) : StorageStep s (s.lineStore t tag vline off n v) :=
  StorageStep.ofCluster _ t.cluster _ fun _ => rfl

theorem State.dropSpill_storage (s : State) (p : Nat) (sp : Option Nat) : StorageStep s (s.dropSpill p sp) := by
  cases sp
  · exact .refl s
  · exact s.homeWriteByte_storage _ _

theorem State.recount_storage (s : State) (p : Nat) (sp : Option Nat) (n : Nat) : StorageStep s (s.recount p sp n) := by
  cases sp
  · exact .refl s
  · exact s.homeWrite_storage _ _ _

theorem State.fetchBackLine_storage (s : State) (t : Thr) (tag v : Nat) : StorageStep s (s.fetchBackLine t tag v) := by
  unfold State.fetchBackLine
  dsimp only
  split
  · split
    · exact .refl s
    · split
      · exact StorageStep.ofCluster s t.cluster _ fun _ => rfl
      · split
        · exact ((StorageStep.ofCluster s t.cluster _ fun _ => rfl).trans (State.dropSpill_storage _ _ _)).trans (trimSet_storage _ _ _ _ _)
        · exact .refl s
  · exact .refl s

theorem trimCopies_storage (p pline n fuel : Nat) (s : State) : StorageStep s (trimCopies p pline n fuel s) := by
  induction fuel generalizing s with
  | zero => exact .refl s
  | succ fuel ih =>
    unfold trimCopies
    dsimp only
    split
    · exact .refl s
    · split
      · exact State.choose_storage s _
      · exact ((State.choose_storage s _).trans (.ofRest _ _ _ _ _ _ _)).trans (ih _)

theorem State.fetchBackHome_storage (s : State) (tag p : Nat) : StorageStep s (s.fetchBackHome tag p) := by
  unfold State.fetchBackHome
  split
  · split
    · exact .refl s
    · split
      · exact .ofRest s s.resv s.poison s.agenda s.freeCtr _ s.copies
      · split
        · exact ((StorageStep.ofRest s s.resv s.poison s.agenda s.freeCtr _ s.copies).trans (State.dropSpill_storage _ _ _)).trans
            (trimCopies_storage _ _ _ _ _)
        · exact .refl s
  · exact .refl s

theorem State.fetchBack_storage (s : State) (t : Thr) (u : CUnit) : StorageStep s (s.fetchBack t u) := by
  cases u with
  | row => exact .refl s
  | line tag v p => exact (s.fetchBackLine_storage t tag v).trans (State.fetchBackHome_storage _ _ _)

theorem State.fetchBackHomes_storage (s : State) (x : Xlat) (n : Nat) : StorageStep s (s.fetchBackHomes x n) :=
  StorageStep.foldl (fun s _ => s.fetchBackHome_storage _ _) s _

/-! ### Loads and stores (R145, R152, R176) -/

theorem State.loadGlob_storage (s : State) (t : Thr) (x : Xlat) (n : Nat) : StorageStep s (s.loadGlob t x n).1 := by
  unfold State.loadGlob
  dsimp only
  refine (s.tlbFill_storage t x).trans ?_
  split
  · exact State.devMisuse_storage _ _ _
  · split
    · exact State.fetchBackHomes_storage _ _ _
    · refine StorageStep.foldl_fst (fun a e => ?_) (s.tlbFill t x, 0) _
      obtain ⟨i, off, k, start⟩ := e
      dsimp only
      split
      · exact (State.fetchBack_storage _ _ _).trans (State.fillLine_storage _ _ _ _ _)
      · exact State.fetchBack_storage a.1 t (.line x.tag (x.va / 128 + i) (x.pa / 128 + i))

theorem State.storeGlob_storage (s : State) (t : Thr) (x : Xlat) (n v : Nat) : StorageStep s (s.storeGlob t x n v) := by
  unfold State.storeGlob
  dsimp only
  refine (s.tlbFill_storage t x).trans ?_
  split
  · exact State.devWrite_storage _ _ _ _
  · split
    · exact (State.fetchBackHomes_storage _ _ _).trans (State.spaceWrite_storage _ _ _ _ _)
    · refine StorageStep.foldl (fun s e => ?_) _ _
      obtain ⟨i, off, k, start⟩ := e
      dsimp only
      refine (State.fetchBack_storage s t (.line x.tag (x.va / 128 + i) (x.pa / 128 + i))).trans ?_
      split
      · exact (State.fillLine_storage _ _ _ _ _).trans (State.lineStore_storage _ _ _ _ _ _ _)
      · exact State.spaceWrite_storage _ _ _ _ _

theorem State.noteSent_storage (s : State) (p src : Nat) : StorageStep s (s.noteSent p src) := by
  unfold State.noteSent
  split
  · exact StorageStep.ofCore s src _ (by intro; rfl) (by intro _ m; exact m)
  · exact .refl s

theorem State.notePerformed_storage (s : State) (p dst : Nat) (colour : Bool) : StorageStep s (s.notePerformed p dst colour) := by
  unfold State.notePerformed
  split
  · exact StorageStep.ofCore s dst _ (by intro; rfl) (by intro _ m; exact m)
  · exact .refl s

theorem State.noteMessage_storage (s : State) (p src dst : Nat) : StorageStep s (s.noteMessage p src dst) :=
  (s.noteSent_storage p src).trans (State.notePerformed_storage _ _ _ _)

theorem State.noteRequest_storage (s : State) (p src dst : Nat) : StorageStep s (s.noteRequest p src dst) := by
  unfold State.noteRequest
  split
  · exact .refl s
  · exact s.noteMessage_storage p src dst

theorem State.noteRuns_storage (s : State) (t : Thr) (ps : List Piece) : StorageStep s (s.noteRuns t ps) :=
  StorageStep.foldl (fun s p => by
    split
    · exact State.noteRequest_storage _ _ _ _
    · exact .refl s) s ps

theorem State.fetchBackRuns_storage (s : State) (ps : List Piece) : StorageStep s (s.fetchBackRuns ps) :=
  StorageStep.foldl (fun s p => by
    split
    · exact .refl s
    · exact State.fetchBackHomes_storage _ _ _) s ps

theorem State.tlbRuns_storage (s : State) (t : Thr) (ps : List Piece) : StorageStep s (s.tlbRuns t ps) :=
  StorageStep.foldl (fun s p => by
    split
    · exact .refl s
    · exact State.tlbFill_storage _ _ _) s ps

theorem State.loadPiece_storage (s : State) (t : Thr) (p : Piece) : StorageStep s (s.loadPiece t p).1 := by
  unfold State.loadPiece
  split
  · exact State.noteRequest_storage _ _ _ _
  · exact State.loadGlob_storage _ _ _ _

theorem State.storePiece_storage (s : State) (t : Thr) (p : Piece) (v : Nat) : StorageStep s (s.storePiece t p v) := by
  unfold State.storePiece
  split
  · exact (State.noteRequest_storage _ _ _ _).trans (State.bufWrite_storage _ _ _ _ _)
  · exact State.storeGlob_storage _ _ _ _ _

theorem State.loadPieces_storage (s : State) (t : Thr) (ps : List Piece) : StorageStep s (s.loadPieces t ps).1 :=
  StorageStep.foldl_fst (f := fun a p => ((a.1.loadPiece t p).1, a.2 + (a.1.loadPiece t p).2 * 256 ^ p.off))
    (fun a p => a.1.loadPiece_storage t p) (s, 0) ps

theorem State.storePieces_storage (s : State) (t : Thr) (ps : List Piece) (v : Nat) : StorageStep s (s.storePieces t ps v) :=
  StorageStep.foldl (fun s p => s.storePiece_storage t p _) s ps

theorem State.flushCopies_storage (s : State) (t : Thr) (ps : List Piece) : StorageStep s (s.flushCopies t ps) := by
  refine StorageStep.foldl (fun s p => ?_) s ps
  split
  · exact .refl s
  · exact (State.tlbFill_storage _ _ _).trans (State.flush_storage _ _ _ _)

theorem State.pointWrite_storage (s : State) (p : Piece) (v : Nat) : StorageStep s (s.pointWrite p v) := by
  unfold State.pointWrite
  split
  · exact State.bufWrite_storage _ _ _ _ _
  · split
    · exact State.devWrite_storage _ _ _ _
    · exact State.spaceWrite_storage _ _ _ _ _

theorem State.writePoints_storage (s : State) (ps : List Piece) (v : Nat) : StorageStep s (s.writePoints ps v) :=
  StorageStep.foldl (fun s p => s.pointWrite_storage p _) s ps

theorem State.atPoint_storage (s : State) (t : Thr) (ps : List Piece) : StorageStep s (s.atPoint t ps) :=
  ((s.flushCopies_storage t ps).trans (State.noteRuns_storage _ _ _)).trans (State.fetchBackRuns_storage _ _)

theorem State.atomicRead_storage (s : State) (t : Thr) (ps : List Piece) : StorageStep s (s.atomicRead t ps).1 := s.atPoint_storage t ps

/-! ### Counted units (R133, R134) -/

theorem State.decrementLine_storage (s : State) (t : Thr) (m tag v : Nat) : StorageStep s (s.decrementLine t m tag v) := by
  unfold State.decrementLine
  dsimp only
  split
  · exact (StorageStep.ofCluster s _ _ fun _ => rfl).trans (State.dropSpill_storage _ _ _)
  · exact (StorageStep.ofCluster s _ _ fun _ => rfl).trans (State.recount_storage _ _ _ _)

theorem State.decrementHome_storage (s : State) (m tag p : Nat) : StorageStep s (s.decrementHome m tag p) := by
  unfold State.decrementHome
  split
  · exact .refl s
  · dsimp only
    split
    · exact (StorageStep.ofRest s s.resv s.poison s.agenda s.freeCtr _ s.copies).trans (State.dropSpill_storage _ _ _)
    · exact (StorageStep.ofRest s s.resv s.poison s.agenda s.freeCtr _ s.copies).trans (State.recount_storage _ _ _ _)

theorem State.decrement_storage (s : State) (t : Thr) (m : Nat) (so : Bool) (u : CUnit) : StorageStep s (s.decrement t m so u) := by
  cases u with
  | row c r =>
    unfold State.decrement
    dsimp only
    split
    · refine StorageStep.trans ?_ (State.bufWrite_storage _ _ _ _ _)
      exact StorageStep.ofCore s _ _ (by intro; rfl) (by intro _ m; exact m)
    · exact StorageStep.ofCore s _ _ (by intro; rfl) (by intro _ m; exact m)
  | line tag v p =>
    unfold State.decrement
    dsimp only
    split
    · exact s.decrementLine_storage t m tag v
    · exact s.decrementHome_storage m tag p

theorem State.consumePieces_storage (s : State) (t : Thr) (ps : List Piece) (m : Nat) : StorageStep s (s.consumePieces t ps m).1 := by
  unfold State.consumePieces
  dsimp only
  refine StorageStep.trans ?_ (StorageStep.foldl (fun s (u : Bool × CUnit) => s.decrement_storage t m u.1 u.2) _ _)
  exact (StorageStep.foldl (fun s (u : Bool × CUnit) => s.fetchBack_storage t u.2) s _).trans
    ((State.noteRuns_storage _ _ _).trans (State.tlbRuns_storage _ _ _))

/-! ### Instructions that access storage and request results (R21) -/

/-- A scalar result requested after an access. -/
theorem StorageStep.reqX_ends {s u : State} (h : StorageStep s u) (k : Enc) (d : Reg) (v : Word) :
    Requested s ((u.reqX d v).advance k) k [resX d v] := State.reqX_ends s u k d v h.cur h.slot

/-- Two scalar results requested after an access. -/
theorem StorageStep.reqX2_ends {s u : State} (h : StorageStep s u) (k : Enc) (d e : Reg) (v w : Word) :
    Requested s (((u.reqX d v).reqX e w).advance k) k [resX d v, resX e w] := State.reqX2_ends s u k d e v w h.cur h.slot

/-- A vector result requested after an access. -/
theorem StorageStep.reqV_ends {s u : State} (h : StorageStep s u) (k : Enc) (d : Reg) (v : Vec) :
    Requested s ((u.reqV d v).advance k) k [resV d v] := State.reqV_ends s u k d v h.cur h.slot

/-- No result requested after an access. -/
theorem StorageStep.advance_ends {s u : State} (h : StorageStep s u) (k : Enc) : Requested s (u.advance k) k [] :=
  State.advance_ends s u k h.cur h.slot

end Sys2Proof.Machine
end

