-- ==== Sys2Proof/Laws/Bytes.lean ====
section
/-! SUPPORT. What a write at a home slice, a write of a buffer, and a write-back leave at every byte. -/

namespace Sys2Proof.Machine

theorem byteOf_zero (v : Nat) : byteOf v 0 = BitVec.ofNat 8 v := by simp [byteOf]
theorem byteOf_succ (v i : Nat) : byteOf v (i + 1) = byteOf (v / 256) i := by simp [byteOf, Nat.pow_succ', Nat.div_div_eq_div_mul]

/-- One byte stored at its home slice: that byte, and no other. -/
theorem State.homeWriteByte_raw {s : State} (h : s.memOk = true) (pa a : Nat) (b : Byte) :
    (s.homeWriteByte pa b).rawByte a = if a = pa then b else s.rawByte a := by
  obtain ⟨h1, h2, h3, -⟩ := (State.memOk_iff s).1 h
  unfold State.homeWriteByte State.rawByte
  dsimp only
  by_cases e : a = pa
  · subst e
    rw [if_pos rfl]
    by_cases c : a ≥ 2 ^ 55 <;> by_cases d : a ≥ hostBase <;> simp only [c, d, if_true, if_false]
    · exact Memory.read_write_self _ _ h2
    · exact Memory.read_write_self _ _ h2
    · exact Memory.read_write_self _ _ h3
    · exact Memory.read_write_self _ _ h1
  · rw [if_neg e]
    by_cases c : pa ≥ 2 ^ 55 <;> by_cases d : pa ≥ hostBase <;> by_cases c' : a ≥ 2 ^ 55 <;> by_cases d' : a ≥ hostBase <;>
      simp only [c, d, c', d', if_true, if_false] <;>
      first
      | rfl
      | exact Memory.read_write_ne _ h2 e
      | exact Memory.read_write_ne _ h3 e
      | exact Memory.read_write_ne _ h1 e

/-- A byte stored at its home slice changes no counted line and no core. -/
theorem State.homeWriteByte_home (s : State) (pa : Nat) (b : Byte) :
    (s.homeWriteByte pa b).home = s.home ∧ (s.homeWriteByte pa b).cores = s.cores := by
  unfold State.homeWriteByte; dsimp only; split
  · exact ⟨rfl, rfl⟩
  · split <;> exact ⟨rfl, rfl⟩

/-- The bytes a number stores at home slices, and no other. -/
theorem State.homeWrite_raw {s : State} (h : s.memOk = true) (pa n v a : Nat) :
    (s.homeWrite pa n v).rawByte a = if pa ≤ a ∧ a < pa + n then byteOf v (a - pa) else s.rawByte a := by
  induction n generalizing s pa v with
  | zero => rw [if_neg (by omega)]; rfl
  | succ n ih =>
    rw [State.homeWrite, ih ((s.homeWriteByte_storage pa _).form h), State.homeWriteByte_raw h]
    obtain e | rfl | e := lt_trichotomy a pa
    · rw [if_neg (by omega), if_neg (by omega), if_neg (by omega)]
    · rw [if_neg (by omega), if_pos rfl, if_pos (by omega), Nat.sub_self, byteOf_zero]
    · rw [if_neg (show ¬ a = pa by omega), ← byteOf_succ, show a - (pa + 1) + 1 = a - pa by omega]
      exact if_congr (by omega) rfl rfl

/-- A write at home slices changes no counted line and no buffer. -/
theorem State.homeWrite_home (s : State) (pa n v : Nat) : (s.homeWrite pa n v).home = s.home ∧ (s.homeWrite pa n v).cores = s.cores := by
  induction n generalizing s pa v with
  | zero => exact ⟨rfl, rfl⟩
  | succ n ih =>
    have e := s.homeWriteByte_home pa (BitVec.ofNat 8 v)
    rw [State.homeWrite, (ih _ _ _).1, (ih _ _ _).2, e.1, e.2]; exact ⟨rfl, rfl⟩

/-- A byte that no directory and no inbox covers past HEAD reads as what lies there. -/
theorem State.homeByte_raw {s : State} {pa : Nat} (h1 : s.dirOwner pa = none) (h2 : s.inboxOwner pa = none) : s.homeByte pa = s.rawByte pa := by
  unfold State.homeByte State.rawByte
  rw [h1, h2]

/-- Where no line is counted for an address space, it finds its copy's byte, or what memory shows. -/
theorem State.spaceByte_below {s : State} {tag pa : Nat} (h : s.home.get? (homeKey tag (pa / 128)) = none) :
    s.spaceByte tag pa = s.belowByte tag pa := by
  simp only [State.spaceByte, State.belowByte, h] <;> rfl

theorem State.homeWrite_dirOwner (s : State) (pa n v a : Nat) : (s.homeWrite pa n v).dirOwner a = s.dirOwner a := by
  unfold State.dirOwner; simp only [(s.homeWrite_storage pa n v).part]

theorem State.homeWrite_inboxOwner (s : State) (pa n v a : Nat) : (s.homeWrite pa n v).inboxOwner a = s.inboxOwner a := by
  unfold State.inboxOwner; simp only [(s.homeWrite_storage pa n v).part]

/-- A byte of memory after a write at home slices, where no directory and no inbox covers it past HEAD. -/
theorem State.homeWrite_homeByte {s : State} (h : s.memOk = true) (pa n v a : Nat) (h1 : s.dirOwner a = none) (h2 : s.inboxOwner a = none) :
    (s.homeWrite pa n v).homeByte a = if pa ≤ a ∧ a < pa + n then byteOf v (a - pa) else s.homeByte a := by
  rw [State.homeByte_raw (by rw [State.homeWrite_dirOwner]; exact h1) (by rw [State.homeWrite_inboxOwner]; exact h2),
    State.homeWrite_raw h, State.homeByte_raw h1 h2]

/-- Equal bytes read as equal numbers. -/
theorem State.homeRead_congr {s t : State} (pa n : Nat) (h : ∀ a, pa ≤ a → a < pa + n → s.homeByte a = t.homeByte a) :
    s.homeRead pa n = t.homeRead pa n := by
  induction n generalizing pa with
  | zero => rfl
  | succ n ih =>
    rw [State.homeRead, State.homeRead, h pa (Nat.le_refl _) (by omega), ih (pa + 1) fun a h1 h2 => h a (by omega) (by omega)]

/-- Bytes that are a number's read as its low bytes. -/
theorem State.homeRead_bytes {s : State} (pa n v : Nat) (h : ∀ i, i < n → s.homeByte (pa + i) = byteOf v i) : s.homeRead pa n = v % 256 ^ n := by
  induction n generalizing pa v with
  | zero => simp [State.homeRead, Nat.mod_one]
  | succ n ih =>
    rw [State.homeRead, show s.homeByte pa = byteOf v 0 from h 0 (by omega), ih (pa + 1) (v / 256) fun i hi => by
      have := h (i + 1) (by omega)
      rw [byteOf_succ] at this
      rw [← this, Nat.add_assoc, Nat.add_comm 1 i], byteOf_zero, BitVec.toNat_ofNat, low_bytes_succ]

/-- A number written at home slices that no directory and no inbox covers past HEAD reads back as its low bytes. -/
theorem State.homeRead_homeWrite {s : State} (h : s.memOk = true) (pa n v : Nat)
    (hp : ∀ i, i < n → s.dirOwner (pa + i) = none ∧ s.inboxOwner (pa + i) = none) : (s.homeWrite pa n v).homeRead pa n = v % 256 ^ n := by
  refine State.homeRead_bytes pa n v fun i hi => ?_
  rw [State.homeWrite_homeByte h _ _ _ _ (hp i hi).1 (hp i hi).2, if_pos (by omega), Nat.add_sub_cancel_left]

/-! ### Buffers -/

theorem Memory.read_writeN {m : Memory} (hm : m.wf = true) (a n v x : Nat) :
    (m.writeN a n v).read x = if a ≤ x ∧ x < a + n then byteOf v (x - a) else m.read x := by
  induction n generalizing m a v with
  | zero => rw [if_neg (by omega)]; rfl
  | succ n ih =>
    rw [Memory.writeN, ih (Memory.write_wf _ _ hm)]
    obtain e | rfl | e := lt_trichotomy x a
    · rw [if_neg (by omega), if_neg (by omega), Memory.read_write_ne _ hm e.ne]
    · rw [if_neg (by omega), if_pos (by omega), Nat.sub_self, byteOf_zero, Memory.read_write_self _ _ hm]
    · rw [Memory.read_write_ne _ hm e.ne', ← byteOf_succ, show x - (a + 1) + 1 = x - a by omega]
      exact if_congr (by omega) rfl rfl

/-- The bytes a number stores in a core's buffers, and no other byte of any core's. -/
theorem State.bufWrite_read {s : State} (h : s.memOk = true) (c la n v d a : Nat) :
    ((s.bufWrite c la n v).core d).buf.read a =
      if d = c ∧ la ≤ a ∧ a < la + n then byteOf v (a - la) else (s.core d).buf.read a := by
  have e : (s.bufWrite c la n v).core d = (s.modCore c fun k => { k with buf := k.buf.writeN la n v }).core d := rfl
  rw [e]
  by_cases g : d = c
  · subst g
    have hm : (s.core d).buf.wf = true := by
      have := State.core_memOk h d
      simp only [Core.memOk, Bool.and_eq_true] at this; exact this.1
    rw [State.core_modCore_self]
    show ((s.core d).buf.writeN la n v).read a = _
    rw [Memory.read_writeN hm]
    by_cases k : la ≤ a ∧ a < la + n
    · rw [if_pos k, if_pos ⟨rfl, k⟩]
    · rw [if_neg k, if_neg fun x => k x.2]
  · rw [State.core_modCore_ne _ _ g, if_neg fun x => g x.1]

/-- A buffer write changes no byte of memory. -/
theorem State.bufWrite_raw (s : State) (c la n v a : Nat) : (s.bufWrite c la n v).rawByte a = s.rawByte a := rfl

/-! ### Write-backs (R152) -/

/-- A byte of a word in which one byte has been replaced is as it was, or the new one. -/
theorem setBits_byte (d : BitVec 1024) (i j : Nat) (b : Byte) (hi : i < 128) (hj : j < 128) :
    (setBits d (8 * i) 8 b.toNat).extractLsb' (8 * j) 8 = if j = i then b else d.extractLsb' (8 * j) 8 := by
  have key : ∀ m, m < 1024 → (setBits d (8 * i) 8 b.toNat).getLsbD m = if 8 * i ≤ m ∧ m < 8 * i + 8 then b.getLsbD (m - 8 * i) else d.getLsbD m := by
    intro m hm
    unfold setBits
    have hb : b.toNat % 2 ^ 8 = b.toNat := Nat.mod_eq_of_lt b.isLt
    simp only [BitVec.getLsbD_or, BitVec.getLsbD_and, BitVec.getLsbD_not, BitVec.getLsbD_ofNat, hb, hm, decide_true, Bool.true_and,
      Nat.testBit_mul_two_pow, Nat.testBit_two_pow_sub_one]
    by_cases h : 8 * i ≤ m
    · by_cases k : m < 8 * i + 8
      · simp [h, k, show m - 8 * i < 8 by omega, BitVec.getLsbD]
      · have : b.toNat.testBit (m - 8 * i) = false := Nat.testBit_lt_two_pow (Nat.lt_of_lt_of_le b.isLt (Nat.pow_le_pow_right (by omega) (by omega)))
        simp [h, k, show ¬ m - 8 * i < 8 by omega, this]
    · simp [h]
  apply BitVec.eq_of_getLsbD_eq
  intro m hm
  rw [BitVec.getLsbD_extractLsb']
  simp only [hm, decide_true, Bool.true_and]
  rw [key _ (by omega)]
  by_cases h : j = i
  · subst h; rw [if_pos (by omega), if_pos rfl]; congr 1; omega
  · rw [if_neg (by omega), if_neg h, BitVec.getLsbD_extractLsb']; simp [hm]

/-- What a line leaves at byte `i` of it: that its dirty byte there is `b`. -/
def CLine.leaves (l : CLine) (line i : Nat) (b : Byte) : Prop := l.pline = line ∧ l.dirty.getLsbD i = true ∧ l.byte i = b

/-- Lines have been sent home: no core and no partition changes, memory keeps its form, and each byte of memory and of an address space's
copy of a line is as it was, or a dirty byte of one of the lines. -/
structure Sent (ls : List CLine) (s t : State) : Prop where
  form  : s.memOk = true → t.memOk = true
  cores : t.cores = s.cores
  raw   : s.memOk = true → ∀ a, t.rawByte a = s.rawByte a ∨ ∃ l ∈ ls, l.leaves (a / 128) (a % 128) (t.rawByte a)
  copy  : ∀ k d, t.copies.get? k = some d → ∃ e, s.copies.get? k = some e ∧ ∀ j, j < 128 →
    d.data.extractLsb' (8 * j) 8 = e.data.extractLsb' (8 * j) 8 ∨ ∃ l ∈ ls, l.leaves (k / 2 ^ 11) j (d.data.extractLsb' (8 * j) 8)

namespace Sent

theorem trans {ls : List CLine} {s t u : State} (h : Sent ls s t) (g : Sent ls t u) : Sent ls s u := by
  refine ⟨fun m => g.form (h.form m), g.cores.trans h.cores, fun m a => ?_, fun k d hd => ?_⟩
  · rcases g.raw (h.form m) a with e | e
    · rw [e]; exact h.raw m a
    · exact .inr e
  · obtain ⟨e, he, ge⟩ := g.copy k d hd
    obtain ⟨c, hc, fe⟩ := h.copy k e he
    refine ⟨c, hc, fun j hj => ?_⟩
    rcases ge j hj with q | q
    · rw [q]; exact fe j hj
    · exact .inr q

/-- A change of no memory, no copy and no core. -/
theorem same (ls : List CLine) {s t : State} (hm : t.memOk = s.memOk) (hc : t.cores = s.cores) (hr : t.rawByte = s.rawByte)
    (hk : t.copies = s.copies) : Sent ls s t :=
  ⟨fun m => hm.trans m, hc, fun _ a => .inl (congrFun hr a), fun _ d h => ⟨d, hk ▸ h, fun _ _ => .inl rfl⟩⟩

theorem refl (ls : List CLine) (s : State) : Sent ls s s := same ls rfl rfl rfl rfl

/-- A fold of such steps is one. -/
theorem foldl {ls : List CLine} {α : Type} {f : State → α → State} (l : List α) (hf : ∀ s, ∀ x ∈ l, Sent ls s (f s x)) (s : State) :
    Sent ls s (l.foldl f s) := by
  induction l generalizing s with
  | nil => exact refl ls s
  | cons x r ih => exact (hf s x List.mem_cons_self).trans (ih (fun s y hy => hf s y (List.mem_cons_of_mem _ hy)) _)

/-- One dirty byte of a line, stored for its address space. -/
theorem byte {ls : List CLine} (s : State) {l : CLine} (hl : l ∈ ls) (tag i : Nat) (hi : i < 128) (hd : l.dirty.getLsbD i = true) :
    Sent ls s (s.spaceWrite tag (l.pline * 128 + i) 1 (l.byte i).toNat) := by
  have pl : (l.pline * 128 + i) / 128 = l.pline := by omega
  have pi : (l.pline * 128 + i) % 128 = i := by omega
  have write : s.homeWrite (l.pline * 128 + i) 1 (l.byte i).toNat = s.homeWriteByte (l.pline * 128 + i) (l.byte i) := by
    simp [State.homeWrite]
  have copies : (s.homeWriteByte (l.pline * 128 + i) (l.byte i)).copies = copyByte s.copies (l.pline * 128 + i) (l.byte i) := by
    unfold State.homeWriteByte; dsimp only; split
    · rfl
    · split <;> rfl
  refine ⟨(s.spaceWrite_storage _ _ _ _).form, ?_, fun m a => ?_, fun k d h => ?_⟩
  · unfold State.spaceWrite; rw [write]; exact (s.homeWriteByte_home _ _).2
  · have e : (s.spaceWrite tag (l.pline * 128 + i) 1 (l.byte i).toNat).rawByte a = if a = l.pline * 128 + i then l.byte i else s.rawByte a := by
      rw [← State.homeWriteByte_raw m, ← write]; rfl
    rw [e]
    by_cases c : a = l.pline * 128 + i
    · subst c; rw [if_pos rfl, pl, pi]; exact .inr ⟨l, hl, rfl, hd, rfl⟩
    · rw [if_neg c]; exact .inl rfl
  · unfold State.spaceWrite at h
    dsimp only at h
    rw [write, copies] at h
    unfold copyByte at h
    rw [Table.get?_map (g := fun k e => if k % 2 ^ 11 = tag % 2 ^ 11 then e else s.copies.getD k e),
      Table.get?_map (g := fun k (e : HomeCopy) => if k / 2 ^ 11 = (l.pline * 128 + i) / 128 then e.store ((l.pline * 128 + i) % 128) (l.byte i) else e)] at h
    cases hk : s.copies.get? k with
    | none => rw [hk] at h; cases h
    | some e =>
      refine ⟨e, rfl, fun j hj => ?_⟩
      rw [hk, pl, pi] at h
      simp only [Option.map_some, Option.some.injEq, Table.getD, hk, Option.getD_some] at h
      by_cases own : k % 2 ^ 11 = tag % 2 ^ 11 ∧ k / 2 ^ 11 = l.pline
      · rw [if_pos own.1, if_pos own.2] at h
        subst h
        unfold HomeCopy.store
        rw [setBits_byte _ _ _ _ hi hj]
        by_cases c : j = i
        · subst c; rw [if_pos rfl]; exact .inr ⟨l, hl, own.2.symm, hd, rfl⟩
        · rw [if_neg c]; exact .inl rfl
      · have : d = e := by
          split at h
          · split at h
            · exact absurd ⟨‹_›, ‹_›⟩ own
            · exact h.symm
          · exact h.symm
        rw [this]; exact .inl rfl

end Sent

/-- A write-back sends its line home. -/
theorem State.writeBackBytes_sent (s : State) {l : CLine} {ls : List CLine} (hl : l ∈ ls) : Sent ls s (s.writeBackBytes l) := by
  unfold State.writeBackBytes
  dsimp only
  refine Sent.trans (t := s.sendDirty l) (Sent.foldl (List.range 128) (fun s i hi => ?_) s) ?_
  · split
    · exact .byte s hl _ i (List.mem_range.1 hi) ‹_›
    · exact .refl _ s
  · split
    · split
      · exact .refl _ _
      · exact .same ls rfl rfl rfl rfl
    · split
      · exact .same ls rfl rfl rfl rfl
      · exact .refl _ _

/-- A flush sends home lines that it names. -/
theorem State.flush_sent (s : State) (cl : Nat) (drop : Bool) (p : CLine → Bool) :
    Sent ((s.cluster cl).lines.filter p) s (s.flush cl drop p) := by
  unfold State.flush
  refine Sent.trans (Sent.foldl (s.cluster cl).lines (fun s l hl => ?_) s) (.same _ rfl rfl rfl rfl)
  split
  · rename_i h
    simp only [Bool.and_eq_true] at h
    exact s.writeBackBytes_sent (List.mem_filter.2 ⟨hl, h.1.1⟩)
  · exact .refl _ s

/-- A release or an acquire beyond the cluster writes back only dirty bytes of the thread's partition in its cluster. -/
theorem State.flush_kept {s : State} (h : s.memOk = true) (drop : Bool) (r : Reach) :
    BytesKept s (s.flush (s.thr s.cur).cluster drop (coveredLine (s.thr s.cur) r)) [] := by
  have g := s.flush_sent (s.thr s.cur).cluster drop (coveredLine (s.thr s.cur) r)
  have dirty : ∀ {l : CLine} {a i : Nat} {b : Byte}, l ∈ (s.cluster (s.thr s.cur).cluster).lines.filter (coveredLine (s.thr s.cur) r) →
      l.leaves (a / 128) i b → i = a % 128 → s.dirtyAt (s.thr s.cur).cluster (s.thr s.cur).part a b := by
    rintro l a i b hl ⟨e1, e2, e3⟩ rfl
    obtain ⟨hl, hp⟩ := List.mem_filter.1 hl
    unfold coveredLine at hp
    simp only [Bool.and_eq_true, beq_iff_eq] at hp
    exact ⟨l, hl, hp.1.1, e1, e2, e3⟩
  refine ⟨fun c a _ => ?_, fun a _ => ?_, fun k d hd => ?_⟩
  · unfold State.core; rw [g.cores]
  · exact (g.raw h a).imp id fun ⟨l, hl, e⟩ => .inl (dirty hl e rfl)
  · obtain ⟨e, he, f⟩ := g.copy k d hd
    refine ⟨e, he, fun j hj _ => (f j hj).imp id fun ⟨l, hl, q⟩ => .inl (dirty (i := j) hl ?_ (by omega))⟩
    rwa [show (k / 2 ^ 11 * 128 + j) / 128 = k / 2 ^ 11 by omega]

theorem BytesKept.refl (s : State) (ps : List Piece) : BytesKept s s ps :=
  ⟨fun _ _ _ => rfl, fun _ _ => .inl rfl, fun _ d h => ⟨d, h, fun _ _ _ => .inl rfl⟩⟩

theorem State.release_kept {s : State} (h : s.memOk = true) (r : Reach) : BytesKept s (s.release (s.thr s.cur) r) [] := by
  unfold State.release
  split
  · exact .refl s []
  · exact State.flush_kept h _ _

theorem State.acquire_kept {s : State} (h : s.memOk = true) (r : Reach) : BytesKept s (s.acquire (s.thr s.cur) r) [] := by
  unfold State.acquire
  split
  · exact .refl s []
  · exact State.flush_kept h _ _

end Sys2Proof.Machine
end

