-- ==== Sys2Proof/Laws/PerInstr.lean ====
section
/-! SUPPORT. One lemma per instruction: its encoding is as long as its length says (R41). -/

namespace Sys2Proof.Laws.EncodedLength

/-- An instruction that has an encoding encodes to as many bytes as its length code gives (R41). -/
def Statement (i : Instr) : Prop := ∀ f, i.fields? = some f → (encode i).length = f.len.bytes

theorem leBytes_length (n v : Nat) : (leBytes n v).length = n := by
  induction n generalizing v with
  | zero => rfl
  | succ n ih => simp [leBytes, ih]

theorem all (i : Instr) : Statement i := by
  intro f h
  simp only [encode, h, Fields.bytes, List.length_append, leBytes_length]
  cases f.len <;> rfl

theorem nop (k : Enc) : Statement (.nop k) := all _
theorem exit (k : Enc) : Statement (.exit k) := all _
theorem j (k : Enc) (imm : Word) : Statement (.j k imm) := all _
theorem jr (k : Enc) (a : Reg) (off : Word) : Statement (.jr k a off) := all _
theorem call (k : Enc) (imm : Word) : Statement (.call k imm) := all _
theorem callr (k : Enc) (a : Reg) (off : Word) : Statement (.callr k a off) := all _
theorem ret (k : Enc) : Statement (.ret k) := all _
theorem br (k : Enc) (cc : Cond) (a : Reg) (b : Reg) (imm : Word) : Statement (.br k cc a b imm) := all _
theorem bbld (k : Enc) (d : Reg) (a : Reg) (w : BitVec 8) : Statement (.bbld k d a w) := all _
theorem bbget (k : Enc) (d : Reg) (w : BitCount) : Statement (.bbget k d w) := all _
theorem bbgetSx (k : Enc) (d : Reg) (w : BitCount) : Statement (.bbgetSx k d w) := all _
theorem bbpeek (k : Enc) (d : Reg) (w : BitCount) : Statement (.bbpeek k d w) := all _
theorem bbpeekSx (k : Enc) (d : Reg) (w : BitCount) : Statement (.bbpeekSx k d w) := all _
theorem bbskip (k : Enc) (d : Reg) (w : BitCount) : Statement (.bbskip k d w) := all _
theorem bbpos (k : Enc) (d : Reg) : Statement (.bbpos k d) := all _
theorem bbposClr (k : Enc) (d : Reg) : Statement (.bbposClr k d) := all _
theorem loopinit (k : Enc) (d : Reg) (a : Reg) (b : Reg) (ctr : BitVec 4) (p : BitVec 8) (mc : BitVec 12) : Statement (.loopinit k d a b ctr p mc) := all _
theorem chunk (k : Enc) (d : Reg) (ctr : BitVec 4) : Statement (.chunk k d ctr) := all _
theorem add (k : Enc) (d : Reg) (a : Reg) (b : Reg) : Statement (.add k d a b) := all _
theorem sub (k : Enc) (d : Reg) (a : Reg) (b : Reg) : Statement (.sub k d a b) := all _
theorem mul (k : Enc) (d : Reg) (a : Reg) (b : Reg) : Statement (.mul k d a b) := all _
theorem mulh (k : Enc) (d : Reg) (a : Reg) (b : Reg) : Statement (.mulh k d a b) := all _
theorem mulhU (k : Enc) (d : Reg) (a : Reg) (b : Reg) : Statement (.mulhU k d a b) := all _
theorem mulhSu (k : Enc) (d : Reg) (a : Reg) (b : Reg) : Statement (.mulhSu k d a b) := all _
theorem div (k : Enc) (d : Reg) (a : Reg) (b : Reg) : Statement (.div k d a b) := all _
theorem divU (k : Enc) (d : Reg) (a : Reg) (b : Reg) : Statement (.divU k d a b) := all _
theorem rem (k : Enc) (d : Reg) (a : Reg) (b : Reg) : Statement (.rem k d a b) := all _
theorem remU (k : Enc) (d : Reg) (a : Reg) (b : Reg) : Statement (.remU k d a b) := all _
theorem and (k : Enc) (d : Reg) (a : Reg) (b : Reg) : Statement (.and k d a b) := all _
theorem or (k : Enc) (d : Reg) (a : Reg) (b : Reg) : Statement (.or k d a b) := all _
theorem xor (k : Enc) (d : Reg) (a : Reg) (b : Reg) : Statement (.xor k d a b) := all _
theorem sll (k : Enc) (d : Reg) (a : Reg) (b : Reg) : Statement (.sll k d a b) := all _
theorem srl (k : Enc) (d : Reg) (a : Reg) (b : Reg) : Statement (.srl k d a b) := all _
theorem sra (k : Enc) (d : Reg) (a : Reg) (b : Reg) : Statement (.sra k d a b) := all _
theorem rot (k : Enc) (d : Reg) (a : Reg) (b : Reg) : Statement (.rot k d a b) := all _
theorem min (k : Enc) (d : Reg) (a : Reg) (b : Reg) : Statement (.min k d a b) := all _
theorem minU (k : Enc) (d : Reg) (a : Reg) (b : Reg) : Statement (.minU k d a b) := all _
theorem max (k : Enc) (d : Reg) (a : Reg) (b : Reg) : Statement (.max k d a b) := all _
theorem maxU (k : Enc) (d : Reg) (a : Reg) (b : Reg) : Statement (.maxU k d a b) := all _
theorem setc (k : Enc) (cc : Cond) (d : Reg) (a : Reg) (b : Reg) : Statement (.setc k cc d a b) := all _
theorem addi (k : Enc) (d : Reg) (a : Reg) (imm : Word) : Statement (.addi k d a imm) := all _
theorem muli (k : Enc) (d : Reg) (a : Reg) (imm : Word) : Statement (.muli k d a imm) := all _
theorem andi (k : Enc) (d : Reg) (a : Reg) (imm : Word) : Statement (.andi k d a imm) := all _
theorem ori (k : Enc) (d : Reg) (a : Reg) (imm : Word) : Statement (.ori k d a imm) := all _
theorem xori (k : Enc) (d : Reg) (a : Reg) (imm : Word) : Statement (.xori k d a imm) := all _
theorem slli (k : Enc) (d : Reg) (a : Reg) (n : BitVec 6) : Statement (.slli k d a n) := all _
theorem srli (k : Enc) (d : Reg) (a : Reg) (n : BitVec 6) : Statement (.srli k d a n) := all _
theorem srai (k : Enc) (d : Reg) (a : Reg) (n : BitVec 6) : Statement (.srai k d a n) := all _
theorem roti (k : Enc) (d : Reg) (a : Reg) (n : BitVec 6) : Statement (.roti k d a n) := all _
theorem setci (k : Enc) (cc : Cond) (d : Reg) (a : Reg) (imm : Word) : Statement (.setci k cc d a imm) := all _
theorem clz (k : Enc) (d : Reg) (a : Reg) : Statement (.clz k d a) := all _
theorem ctz (k : Enc) (d : Reg) (a : Reg) : Statement (.ctz k d a) := all _
theorem popc (k : Enc) (d : Reg) (a : Reg) : Statement (.popc k d a) := all _
theorem sel (k : Enc) (d : Reg) (a : Reg) (b : Reg) (c : Reg) : Statement (.sel k d a b c) := all _
theorem mov (k : Enc) (d : Reg) (a : Reg) : Statement (.mov k d a) := all _
theorem li (k : Enc) (d : Reg) (imm : Word) : Statement (.li k d imm) := all _
theorem la (k : Enc) (d : Reg) (imm : Word) : Statement (.la k d imm) := all _
theorem bfx (k : Enc) (d : Reg) (a : Reg) (p : BitVec 6) (w : BitVec 6) : Statement (.bfx k d a p w) := all _
theorem bfxSx (k : Enc) (d : Reg) (a : Reg) (p : BitVec 6) (w : BitVec 6) : Statement (.bfxSx k d a p w) := all _
theorem bfi (k : Enc) (d : Reg) (a : Reg) (p : BitVec 6) (w : BitVec 6) : Statement (.bfi k d a p w) := all _
theorem sext (k : Enc) (t : Elem) (d : Reg) (a : Reg) : Statement (.sext k t d a) := all _
theorem fadd (k : Enc) (t : Elem) (rm : Rnd) (d : Reg) (a : Reg) (b : Reg) : Statement (.fadd k t rm d a b) := all _
theorem fsub (k : Enc) (t : Elem) (rm : Rnd) (d : Reg) (a : Reg) (b : Reg) : Statement (.fsub k t rm d a b) := all _
theorem fmul (k : Enc) (t : Elem) (rm : Rnd) (d : Reg) (a : Reg) (b : Reg) : Statement (.fmul k t rm d a b) := all _
theorem fma (k : Enc) (t : Elem) (rm : Rnd) (d : Reg) (a : Reg) (b : Reg) (c : Reg) : Statement (.fma k t rm d a b c) := all _
theorem fdiv (k : Enc) (t : Elem) (rm : Rnd) (d : Reg) (a : Reg) (b : Reg) : Statement (.fdiv k t rm d a b) := all _
theorem fsqrt (k : Enc) (t : Elem) (rm : Rnd) (d : Reg) (a : Reg) : Statement (.fsqrt k t rm d a) := all _
theorem fmin (k : Enc) (t : Elem) (d : Reg) (a : Reg) (b : Reg) : Statement (.fmin k t d a b) := all _
theorem fmax (k : Enc) (t : Elem) (d : Reg) (a : Reg) (b : Reg) : Statement (.fmax k t d a b) := all _
theorem feq (k : Enc) (t : Elem) (d : Reg) (a : Reg) (b : Reg) : Statement (.feq k t d a b) := all _
theorem flt (k : Enc) (t : Elem) (d : Reg) (a : Reg) (b : Reg) : Statement (.flt k t d a b) := all _
theorem fle (k : Enc) (t : Elem) (d : Reg) (a : Reg) (b : Reg) : Statement (.fle k t d a b) := all _
theorem fcvt (k : Enc) (dst : Elem) (src : Elem) (rm : Rnd) (d : Reg) (a : Reg) : Statement (.fcvt k dst src rm d a) := all _
theorem fclass (k : Enc) (t : Elem) (d : Reg) (a : Reg) : Statement (.fclass k t d a) := all _
theorem fsgn (k : Enc) (t : Elem) (d : Reg) (a : Reg) (b : Reg) : Statement (.fsgn k t d a b) := all _
theorem fsgnN (k : Enc) (t : Elem) (d : Reg) (a : Reg) (b : Reg) : Statement (.fsgnN k t d a b) := all _
theorem fsgnX (k : Enc) (t : Elem) (d : Reg) (a : Reg) (b : Reg) : Statement (.fsgnX k t d a b) := all _
theorem vadd (k : Enc) (t : Elem) (sub : BitVec 2) (m : MReg) (d : Reg) (a : Reg) (b : VSrc) : Statement (.vadd k t sub m d a b) := all _
theorem vsub (k : Enc) (t : Elem) (sub : BitVec 2) (m : MReg) (d : Reg) (a : Reg) (b : VSrc) : Statement (.vsub k t sub m d a b) := all _
theorem vmul (k : Enc) (t : Elem) (sub : BitVec 2) (m : MReg) (d : Reg) (a : Reg) (b : VSrc) : Statement (.vmul k t sub m d a b) := all _
theorem vfma (k : Enc) (t : Elem) (sub : BitVec 2) (m : MReg) (d : Reg) (a : Reg) (b : VSrc) (c : Reg) : Statement (.vfma k t sub m d a b c) := all _
theorem vdiv (k : Enc) (t : Elem) (sub : BitVec 2) (m : MReg) (d : Reg) (a : Reg) (b : VSrc) : Statement (.vdiv k t sub m d a b) := all _
theorem vsqrt (k : Enc) (t : Elem) (sub : BitVec 2) (m : MReg) (d : Reg) (a : Reg) : Statement (.vsqrt k t sub m d a) := all _
theorem vmin (k : Enc) (t : Elem) (m : MReg) (d : Reg) (a : Reg) (b : VSrc) : Statement (.vmin k t m d a b) := all _
theorem vmax (k : Enc) (t : Elem) (m : MReg) (d : Reg) (a : Reg) (b : VSrc) : Statement (.vmax k t m d a b) := all _
theorem vand (k : Enc) (t : Elem) (m : MReg) (d : Reg) (a : Reg) (b : VSrc) : Statement (.vand k t m d a b) := all _
theorem vor (k : Enc) (t : Elem) (m : MReg) (d : Reg) (a : Reg) (b : VSrc) : Statement (.vor k t m d a b) := all _
theorem vxor (k : Enc) (t : Elem) (m : MReg) (d : Reg) (a : Reg) (b : VSrc) : Statement (.vxor k t m d a b) := all _
theorem vsll (k : Enc) (t : Elem) (m : MReg) (d : Reg) (a : Reg) (b : VSrc) : Statement (.vsll k t m d a b) := all _
theorem vsrl (k : Enc) (t : Elem) (m : MReg) (d : Reg) (a : Reg) (b : VSrc) : Statement (.vsrl k t m d a b) := all _
theorem vsra (k : Enc) (t : Elem) (m : MReg) (d : Reg) (a : Reg) (b : VSrc) : Statement (.vsra k t m d a b) := all _
theorem vabs (k : Enc) (t : Elem) (sub : BitVec 2) (m : MReg) (d : Reg) (a : Reg) : Statement (.vabs k t sub m d a) := all _
theorem vneg (k : Enc) (t : Elem) (sub : BitVec 2) (m : MReg) (d : Reg) (a : Reg) : Statement (.vneg k t sub m d a) := all _
theorem vcmp (k : Enc) (cc : Cond) (t : Elem) (m : MReg) (d : MReg) (a : Reg) (b : VSrc) : Statement (.vcmp k cc t m d a b) := all _
theorem vsel (k : Enc) (t : Elem) (m : MReg) (d : Reg) (a : Reg) (b : Reg) : Statement (.vsel k t m d a b) := all _
theorem vcvt (k : Enc) (dst : Elem) (src : Elem) (mode : ScaleMode) (rm : Rnd) (p : BitVec 4) (m : MReg) (d : Reg) (a : Reg) (b : Reg) : Statement (.vcvt k dst src mode rm p m d a b) := all _
theorem vdot (k : Enc) (t : Elem) (sub : BitVec 2) (m : MReg) (d : Reg) (a : Reg) (b : Reg) (c : Reg) : Statement (.vdot k t sub m d a b c) := all _
theorem vredsum (k : Enc) (t : Elem) (sub : BitVec 2) (m : MReg) (d : Reg) (a : Reg) : Statement (.vredsum k t sub m d a) := all _
theorem vredmax (k : Enc) (t : Elem) (m : MReg) (d : Reg) (a : Reg) : Statement (.vredmax k t m d a) := all _
theorem vredmin (k : Enc) (t : Elem) (m : MReg) (d : Reg) (a : Reg) : Statement (.vredmin k t m d a) := all _
theorem vargmax (k : Enc) (t : Elem) (m : MReg) (d : Reg) (a : Reg) : Statement (.vargmax k t m d a) := all _
theorem vperm (k : Enc) (t : Elem) (m : MReg) (d : Reg) (a : Reg) (b : Reg) : Statement (.vperm k t m d a b) := all _
theorem vslideup (k : Enc) (t : Elem) (m : MReg) (d : Reg) (a : Reg) (n : LaneSrc) : Statement (.vslideup k t m d a n) := all _
theorem vslidedn (k : Enc) (t : Elem) (m : MReg) (d : Reg) (a : Reg) (n : LaneSrc) : Statement (.vslidedn k t m d a n) := all _
theorem vcompress (k : Enc) (t : Elem) (m : MReg) (d : Reg) (a : Reg) : Statement (.vcompress k t m d a) := all _
theorem vexpand (k : Enc) (t : Elem) (m : MReg) (d : Reg) (a : Reg) : Statement (.vexpand k t m d a) := all _
theorem vbcast (k : Enc) (t : Elem) (m : MReg) (d : Reg) (a : Reg) : Statement (.vbcast k t m d a) := all _
theorem vext (k : Enc) (t : Elem) (d : Reg) (a : Reg) (n : LaneSrc) : Statement (.vext k t d a n) := all _
theorem vins (k : Enc) (t : Elem) (d : Reg) (a : Reg) (n : LaneSrc) : Statement (.vins k t d a n) := all _
theorem mand (k : Enc) (d : MReg) (a : MReg) (b : MReg) : Statement (.mand k d a b) := all _
theorem mor (k : Enc) (d : MReg) (a : MReg) (b : MReg) : Statement (.mor k d a b) := all _
theorem mxor (k : Enc) (d : MReg) (a : MReg) (b : MReg) : Statement (.mxor k d a b) := all _
theorem mnot (k : Enc) (d : MReg) (a : MReg) : Statement (.mnot k d a) := all _
theorem mpopc (k : Enc) (d : Reg) (a : MReg) : Statement (.mpopc k d a) := all _
theorem mfirst (k : Enc) (d : Reg) (a : MReg) : Statement (.mfirst k d a) := all _
theorem mset (k : Enc) (d : MReg) (a : Reg) : Statement (.mset k d a) := all _
theorem mget (k : Enc) (d : Reg) (a : MReg) : Statement (.mget k d a) := all _
theorem viota (k : Enc) (t : Elem) (m : MReg) (d : Reg) : Statement (.viota k t m d) := all _
theorem vmov (k : Enc) (t : Elem) (m : MReg) (d : Reg) (a : Reg) : Statement (.vmov k t m d a) := all _
theorem ld (k : Enc) (t : Elem) (o : MemOp) (d : Reg) : Statement (.ld k t o d) := all _
theorem ldC (k : Enc) (t : Elem) (o : MemOp) (d : Reg) : Statement (.ldC k t o d) := all _
theorem st (k : Enc) (t : Elem) (o : MemOp) (d : Reg) : Statement (.st k t o d) := all _
theorem vld (k : Enc) (t : Elem) (o : MemOp) (m : MReg) (d : Reg) : Statement (.vld k t o m d) := all _
theorem vldC (k : Enc) (t : Elem) (o : MemOp) (m : MReg) (d : Reg) : Statement (.vldC k t o m d) := all _
theorem vst (k : Enc) (t : Elem) (o : MemOp) (m : MReg) (d : Reg) : Statement (.vst k t o m d) := all _
theorem vgather (k : Enc) (t : Elem) (o : MemOp) (m : MReg) (d : Reg) (b : Reg) : Statement (.vgather k t o m d b) := all _
theorem vscatter (k : Enc) (t : Elem) (o : MemOp) (m : MReg) (d : Reg) (b : Reg) : Statement (.vscatter k t o m d b) := all _
theorem arm (k : Enc) (o : MemOp) (d : Reg) (b : Reg) (c : Reg) : Statement (.arm k o d b c) := all _
theorem armH (k : Enc) (o : MemOp) (d : Reg) (b : Reg) (c : Reg) : Statement (.armH k o d b c) := all _
theorem retire (k : Enc) (o : MemOp) (d : Reg) (b : Reg) : Statement (.retire k o d b) := all _
theorem retireForce (k : Enc) (o : MemOp) (d : Reg) (b : Reg) : Statement (.retireForce k o d b) := all _
theorem cinv (k : Enc) (sc : Scope) (o : MemOp) (b : Reg) : Statement (.cinv k sc o b) := all _
theorem cwb (k : Enc) (sc : Scope) (o : MemOp) (b : Reg) : Statement (.cwb k sc o b) := all _
theorem pref (k : Enc) (o : MemOp) (b : Reg) : Statement (.pref k o b) := all _
theorem ldq (k : Enc) (o : MemOp) (d : Reg) : Statement (.ldq k o d) := all _
theorem stq (k : Enc) (o : MemOp) (d : Reg) : Statement (.stq k o d) := all _
theorem vlds (k : Enc) (t : Elem) (o : MemOp) (m : MReg) (d : Reg) (b : Reg) : Statement (.vlds k t o m d b) := all _
theorem vsts (k : Enc) (t : Elem) (o : MemOp) (m : MReg) (d : Reg) (b : Reg) : Statement (.vsts k t o m d b) := all _
theorem amoadd (k : Enc) (t : Elem) (ord : Ordering) (sc : Scope) (o : MemOp) (d : Reg) (b : Reg) : Statement (.amoadd k t ord sc o d b) := all _
theorem amoand (k : Enc) (t : Elem) (ord : Ordering) (sc : Scope) (o : MemOp) (d : Reg) (b : Reg) : Statement (.amoand k t ord sc o d b) := all _
theorem amoor (k : Enc) (t : Elem) (ord : Ordering) (sc : Scope) (o : MemOp) (d : Reg) (b : Reg) : Statement (.amoor k t ord sc o d b) := all _
theorem amoxor (k : Enc) (t : Elem) (ord : Ordering) (sc : Scope) (o : MemOp) (d : Reg) (b : Reg) : Statement (.amoxor k t ord sc o d b) := all _
theorem amomin (k : Enc) (t : Elem) (ord : Ordering) (sc : Scope) (o : MemOp) (d : Reg) (b : Reg) : Statement (.amomin k t ord sc o d b) := all _
theorem amomax (k : Enc) (t : Elem) (ord : Ordering) (sc : Scope) (o : MemOp) (d : Reg) (b : Reg) : Statement (.amomax k t ord sc o d b) := all _
theorem amoswap (k : Enc) (t : Elem) (ord : Ordering) (sc : Scope) (o : MemOp) (d : Reg) (b : Reg) : Statement (.amoswap k t ord sc o d b) := all _
theorem amoswapOnce (k : Enc) (t : Elem) (ord : Ordering) (sc : Scope) (o : MemOp) (d : Reg) (b : Reg) : Statement (.amoswapOnce k t ord sc o d b) := all _
theorem amocas (k : Enc) (t : Elem) (ord : Ordering) (sc : Scope) (o : MemOp) (d : Reg) (b : Reg) : Statement (.amocas k t ord sc o d b) := all _
theorem amocasOnce (k : Enc) (t : Elem) (ord : Ordering) (sc : Scope) (o : MemOp) (d : Reg) (b : Reg) : Statement (.amocasOnce k t ord sc o d b) := all _
theorem amofadd (k : Enc) (t : Elem) (ord : Ordering) (sc : Scope) (o : MemOp) (d : Reg) (b : Reg) : Statement (.amofadd k t ord sc o d b) := all _
theorem redAdd (k : Enc) (t : Elem) (ord : Ordering) (sc : Scope) (o : MemOp) (b : Reg) : Statement (.redAdd k t ord sc o b) := all _
theorem redAnd (k : Enc) (t : Elem) (ord : Ordering) (sc : Scope) (o : MemOp) (b : Reg) : Statement (.redAnd k t ord sc o b) := all _
theorem redOr (k : Enc) (t : Elem) (ord : Ordering) (sc : Scope) (o : MemOp) (b : Reg) : Statement (.redOr k t ord sc o b) := all _
theorem redXor (k : Enc) (t : Elem) (ord : Ordering) (sc : Scope) (o : MemOp) (b : Reg) : Statement (.redXor k t ord sc o b) := all _
theorem redMin (k : Enc) (t : Elem) (ord : Ordering) (sc : Scope) (o : MemOp) (b : Reg) : Statement (.redMin k t ord sc o b) := all _
theorem redMax (k : Enc) (t : Elem) (ord : Ordering) (sc : Scope) (o : MemOp) (b : Reg) : Statement (.redMax k t ord sc o b) := all _
theorem redFadd (k : Enc) (t : Elem) (ord : Ordering) (sc : Scope) (o : MemOp) (b : Reg) : Statement (.redFadd k t ord sc o b) := all _
theorem lrw (k : Enc) (t : Elem) (ord : Ordering) (sc : Scope) (o : MemOp) (d : Reg) : Statement (.lrw k t ord sc o d) := all _
theorem sch (k : Enc) (t : Elem) (ord : Ordering) (sc : Scope) (o : MemOp) (d : Reg) (b : Reg) : Statement (.sch k t ord sc o d b) := all _
theorem schDrop (k : Enc) (t : Elem) (ord : Ordering) (sc : Scope) (o : MemOp) (d : Reg) (b : Reg) : Statement (.schDrop k t ord sc o d b) := all _
theorem fence (k : Enc) (ord : Ordering) (sc : Scope) : Statement (.fence k ord sc) := all _
theorem lda (k : Enc) (t : Elem) (sc : Scope) (o : MemOp) (d : Reg) : Statement (.lda k t sc o d) := all _
theorem stl (k : Enc) (t : Elem) (ord : Ordering) (sc : Scope) (o : MemOp) (d : Reg) : Statement (.stl k t ord sc o d) := all _
theorem barinit (k : Enc) (ord : Ordering) (sc : Scope) (o : MemOp) (b : Reg) (c : Reg) : Statement (.barinit k ord sc o b c) := all _
theorem bararv (k : Enc) (ord : Ordering) (sc : Scope) (o : MemOp) (d : Reg) (b : Reg) : Statement (.bararv k ord sc o d b) := all _
theorem bararvB (k : Enc) (ord : Ordering) (sc : Scope) (o : MemOp) (d : Reg) (b : Reg) : Statement (.bararvB k ord sc o d b) := all _
theorem barwt (k : Enc) (ord : Ordering) (sc : Scope) (o : MemOp) (d : Reg) (b : Reg) : Statement (.barwt k ord sc o d b) := all _
theorem bartst (k : Enc) (ord : Ordering) (sc : Scope) (o : MemOp) (d : Reg) (b : Reg) : Statement (.bartst k ord sc o d b) := all _
theorem barwtt (k : Enc) (ord : Ordering) (sc : Scope) (o : MemOp) (d : Reg) (b : Reg) (c : Reg) : Statement (.barwtt k ord sc o d b c) := all _
theorem barexit (k : Enc) (ord : Ordering) (sc : Scope) (o : MemOp) : Statement (.barexit k ord sc o) := all _
theorem lkacq (k : Enc) (sc : Scope) (o : MemOp) (d : Reg) : Statement (.lkacq k sc o d) := all _
theorem lkrel (k : Enc) (ord : Ordering) (sc : Scope) (o : MemOp) (d : Reg) : Statement (.lkrel k ord sc o d) := all _
theorem mxq (k : Enc) (jd : JobDesc) (dup : Bool) (d : Reg) (a : Reg) (b : Reg) (c : Reg) : Statement (.mxq k jd dup d a b c) := all _
theorem mxqs (k : Enc) (jd : JobDesc) (dup : Bool) (d : Reg) (a : Reg) (b : Reg) (c : Reg) : Statement (.mxqs k jd dup d a b c) := all _
theorem mxg (k : Enc) (jd : JobDesc) (dup : Bool) (g : Reg) (d : Reg) (a : Reg) (b : Reg) (c : Reg) : Statement (.mxg k jd dup g d a b c) := all _
theorem mxlb (k : Enc) (jd : JobDesc) (d : Reg) (a : Reg) : Statement (.mxlb k jd d a) := all _
theorem cpq (k : Enc) (jd : JobDesc) (d : Reg) (a : Reg) (b : Reg) : Statement (.cpq k jd d a b) := all _
theorem cpf (k : Enc) (jd : JobDesc) (d : Reg) (a : Reg) (b : Reg) : Statement (.cpf k jd d a b) := all _
theorem tidfence (k : Enc) (a : Reg) : Statement (.tidfence k a) := all _
theorem tidfenceAll (k : Enc) : Statement (.tidfenceAll k) := all _
theorem jtest (k : Enc) (d : Reg) (a : Reg) : Statement (.jtest k d a) := all _
theorem jwait (k : Enc) (d : Reg) (a : Reg) : Statement (.jwait k d a) := all _
theorem jcancel (k : Enc) (d : Reg) (a : Reg) : Statement (.jcancel k d a) := all _
theorem stest (k : Enc) (d : Reg) : Statement (.stest k d) := all _
theorem fork (k : Enc) (pl : Space) (imm : Word) (lreq : BitVec 16) (a : Reg) (b : Reg) (c : Reg) : Statement (.fork k pl imm lreq a b c) := all _
theorem forkD (k : Enc) (imm : Word) (lreq : BitVec 16) (b : Reg) (c : Reg) : Statement (.forkD k imm lreq b c) := all _
theorem forkAt (k : Enc) (pl : Space) (imm : Word) (lreq : BitVec 16) (kr : Reg) (a : Reg) (b : Reg) (c : Reg) : Statement (.forkAt k pl imm lreq kr a b c) := all _
theorem join (k : Enc) (pl : Space) (d : Reg) (a : Reg) (b : Reg) : Statement (.join k pl d a b) := all _
theorem yield (k : Enc) (d : Reg) (a : Reg) : Statement (.yield k d a) := all _
theorem steal (k : Enc) (d : Reg) (a : Reg) : Statement (.steal k d a) := all _
theorem popb (k : Enc) (d : Reg) : Statement (.popb k d) := all _
theorem gnew (k : Enc) (d : Reg) : Statement (.gnew k d) := all _
theorem gjoin (k : Enc) (a : Reg) : Statement (.gjoin k a) := all _
theorem gfree (k : Enc) (d : Reg) (a : Reg) : Statement (.gfree k d a) := all _
theorem qenq (k : Enc) (d : Reg) (a : Reg) (c : Reg) : Statement (.qenq k d a c) := all _
theorem qdeq (k : Enc) (d : Reg) (a : Reg) (b : Reg) : Statement (.qdeq k d a b) := all _
theorem qres (k : Enc) (d : Reg) (a : Reg) : Statement (.qres k d a) := all _
theorem qfil (k : Enc) (d : Reg) (a : Reg) (b : Reg) (c : Reg) : Statement (.qfil k d a b c) := all _
theorem amsg (k : Enc) (imm : Word) (kr : Reg) (b : Reg) (c : Reg) : Statement (.amsg k imm kr b c) := all _
theorem meet (k : Enc) (a : Reg) (tmo : Timeout) (decl : BitVec 32) : Statement (.meet k a tmo decl) := all _
theorem mclose (k : Enc) (d : Reg) (a : Reg) : Statement (.mclose k d a) := all _
theorem svc (k : Enc) (code : BitVec 24) : Statement (.svc k code) := all _
theorem brk (k : Enc) (code : BitVec 24) : Statement (.brk k code) := all _
theorem ctlr (k : Enc) (d : Reg) (r : CtlReg) : Statement (.ctlr k d r) := all _
theorem ctlw (k : Enc) (a : Reg) (r : CtlReg) : Statement (.ctlw k a r) := all _
theorem freeze (k : Enc) (d : Reg) (a : Reg) : Statement (.freeze k d a) := all _
theorem resumeSResume (k : Enc) (d : Reg) (a : Reg) (b : Reg) : Statement (.resumeSResume k d a b) := all _
theorem resumeSFail (k : Enc) (d : Reg) (a : Reg) (b : Reg) : Statement (.resumeSFail k d a b) := all _
theorem resumeSKill (k : Enc) (d : Reg) (a : Reg) (b : Reg) : Statement (.resumeSKill k d a b) := all _
theorem resumeJReplay (k : Enc) (d : Reg) (a : Reg) (b : Reg) : Statement (.resumeJReplay k d a b) := all _
theorem resumeHRelease (k : Enc) (d : Reg) (a : Reg) (b : Reg) : Statement (.resumeHRelease k d a b) := all _
theorem resumePRelease (k : Enc) (d : Reg) (a : Reg) (b : Reg) : Statement (.resumePRelease k d a b) := all _
theorem vacate (k : Enc) (d : Reg) (a : Reg) (b : Reg) : Statement (.vacate k d a b) := all _
theorem stopcut (k : Enc) (d : Reg) (a : Reg) (b : Reg) : Statement (.stopcut k d a b) := all _
theorem tlbinvAsid (k : Enc) (d : Reg) (a : Reg) (b : Reg) : Statement (.tlbinvAsid k d a b) := all _
theorem tlbinvPage (k : Enc) (d : Reg) (a : Reg) (b : Reg) : Statement (.tlbinvPage k d a b) := all _
theorem tlbinvPart (k : Enc) (d : Reg) (a : Reg) (b : Reg) : Statement (.tlbinvPart k d a b) := all _
theorem waitev (k : Enc) (d : Reg) (a : Reg) (b : Reg) : Statement (.waitev k d a b) := all _
theorem time (k : Enc) (d : Reg) : Statement (.time k d) := all _
theorem bbox (k : Enc) (d : Reg) (a : Reg) (b : Reg) : Statement (.bbox k d a b) := all _
theorem activeMessageArrival (msg : Message) : Statement (.activeMessageArrival msg) := all _
theorem dispatch (core : Nat) : Statement (.dispatch core) := all _
theorem theftAttempt (slot : Nat) : Statement (.theftAttempt slot) := all _
theorem memoryResultReturn (slot : Nat) (idx : Nat) : Statement (.memoryResultReturn slot idx) := all _
theorem wake (slot : Nat) : Statement (.wake slot) := all _
theorem inboxRoom (slot : Nat) : Statement (.inboxRoom slot) := all _
theorem jobEntryHandoff (cluster : Nat) (part : Nat) : Statement (.jobEntryHandoff cluster part) := all _
theorem directoryRoom (slot : Nat) : Statement (.directoryRoom slot) := all _
theorem cacheEviction (cluster : Nat) (idx : Nat) : Statement (.cacheEviction cluster idx) := all _
theorem barwttTimeout (slot : Nat) : Statement (.barwttTimeout slot) := all _
theorem meetDeadline (cluster : Nat) (idx : Nat) : Statement (.meetDeadline cluster idx) := all _
theorem survivorReady (slot : Nat) : Statement (.survivorReady slot) := all _
theorem jobStart (cluster : Nat) (matrix : Bool) : Statement (.jobStart cluster matrix) := all _
theorem leaveGrant (die : Nat) : Statement (.leaveGrant die) := all _
theorem jobComplete (cluster : Nat) (entry : Nat) : Statement (.jobComplete cluster entry) := all _
theorem jobFreeze (cluster : Nat) (entry : Nat) : Statement (.jobFreeze cluster entry) := all _
theorem copyByteArrival (cluster : Nat) (entry : Nat) : Statement (.copyByteArrival cluster entry) := all _
theorem macroSelfTest (cluster : Nat) : Statement (.macroSelfTest cluster) := all _
theorem sliceEnd (core : Nat) (ring : Nat) : Statement (.sliceEnd core ring) := all _
theorem slotHandover (slot : Nat) : Statement (.slotHandover slot) := all _
theorem contextRestore (slot : Nat) : Statement (.contextRestore slot) := all _
theorem cutClose (part : Nat) : Statement (.cutClose part) := all _
theorem pendingPacketDelivery (part : Nat) : Statement (.pendingPacketDelivery part) := all _
theorem hostAccess (fn : Nat) (req : HostReq) (va : Word) (n : Nat) (val : Word) : Statement (.hostAccess fn req va n val) := all _
theorem hostLinkTraining (far : Nat) (width : Nat) : Statement (.hostLinkTraining far width) := all _
theorem go (fn : Nat) (val : Word) : Statement (.go fn val) := all _
theorem qgo (fn : Nat) (val : Word) : Statement (.qgo fn val) := all _
theorem commit (part : Nat) : Statement (.commit part) := all _
theorem registerWrite (pa : Nat) (val : Word) : Statement (.registerWrite pa val) := all _
theorem debugCommandResume (slot : Nat) : Statement (.debugCommandResume slot) := all _
theorem debugCommandFail (slot : Nat) (depth : Nat) : Statement (.debugCommandFail slot depth) := all _
theorem debugCommandKill (slot : Nat) : Statement (.debugCommandKill slot) := all _
theorem fabricPacketArrival (link : Nat) (key : Word) (pkt : FabricPacket) : Statement (.fabricPacketArrival link key pkt) := all _
theorem linkCrcError (link : Nat) (retries : Nat) : Statement (.linkCrcError link retries) := all _
theorem thermalStateChange (die : Nat) (state : BitVec 2) : Statement (.thermalStateChange die state) := all _
theorem thermalAlarm (die : Nat) : Statement (.thermalAlarm die) := all _
theorem powerOnReset : Statement (.powerOnReset) := all _
theorem coldReset : Statement (.coldReset) := all _
theorem warmReset : Statement (.warmReset) := all _
theorem bbhead (die : Nat) : Statement (.bbhead die) := all _
theorem bbread (die : Nat) (seq : Nat) (n : Nat) : Statement (.bbread die seq n) := all _
theorem attest (nonce : BitVec 256) (part : Nat) : Statement (.attest nonce part) := all _
theorem phase : Statement (.phase) := all _
theorem thermal : Statement (.thermal) := all _
theorem reset (cold : Bool) : Statement (.reset cold) := all _
theorem illegalEncoding (cls : FaultClass) (cause : BitVec 8) (addr : Word) (info : BitVec 32) : Statement (.illegalEncoding cls cause addr info) := all _
theorem fabricLinkTraining (link : Nat) : Statement (.fabricLinkTraining link) := all _

end Sys2Proof.Laws.EncodedLength
end

