-- ==== Sys2Proof/Laws/Stops.lean ====
section
/-! SUPPORT. Stopping and going on: what the shared operations of Machine/Ops.lean keep, the canonical form of every memory first, and the
slots that a stop leaves alone. -/

namespace Sys2Proof.Machine

/-! ### The canonical form -/

@[simp] theorem State.modSlot_memOk (s : State) (n : Nat) (f : Slot → Slot) : (s.modSlot n f).memOk = s.memOk := rfl
@[simp] theorem State.modCluster_memOk (s : State) (n : Nat) (f : Cluster → Cluster) : (s.modCluster n f).memOk = s.memOk := rfl
@[simp] theorem State.modPart_memOk (s : State) (n : Nat) (f : Part → Part) : (s.modPart n f).memOk = s.memOk := rfl
@[simp] theorem State.modDie_memOk (s : State) (n : Nat) (f : Die → Die) : (s.modDie n f).memOk = s.memOk := rfl
@[simp] theorem State.modHostFn_memOk (s : State) (n : Nat) (f : HostFn → HostFn) : (s.modHostFn n f).memOk = s.memOk := rfl
@[simp] theorem State.modLink_memOk (s : State) (n : Nat) (f : Link → Link) : (s.modLink n f).memOk = s.memOk := rfl
@[simp] theorem State.setX_memOk (s : State) (d : Reg) (v : Word) : (s.setX d v).memOk = s.memOk := rfl
@[simp] theorem State.setV_memOk (s : State) (d : Reg) (v : Vec) : (s.setV d v).memOk = s.memOk := rfl
@[simp] theorem State.setM_memOk (s : State) (d : MReg) (v : Word) : (s.setM d v).memOk = s.memOk := rfl
@[simp] theorem State.addFlags_memOk (s : State) (f : Flags) : (s.addFlags f).memOk = s.memOk := rfl
@[simp] theorem State.reqX_memOk (s : State) (d : Reg) (v : Word) : (s.reqX d v).memOk = s.memOk := rfl
@[simp] theorem State.reqV_memOk (s : State) (d : Reg) (v : Vec) : (s.reqV d v).memOk = s.memOk := rfl
@[simp] theorem State.goto_memOk (s : State) (k : Enc) (w : Word) : (s.goto k w).memOk = s.memOk := rfl
@[simp] theorem State.advance_memOk (s : State) (k : Enc) : (s.advance k).memOk = s.memOk := rfl
@[simp] theorem State.sleepOn_memOk (s : State) (w : Wait) : (s.sleepOn w).memOk = s.memOk := rfl
@[simp] theorem State.stallOn_memOk (s : State) (k : Stall) : (s.stallOn k).memOk = s.memOk := rfl
@[simp] theorem State.boxAdd_memOk (s : State) (d k c a b p : Nat) : (s.boxAdd d k c a b p).memOk = s.memOk := rfl
@[simp] theorem State.boxPacket_memOk (s : State) (d p : Nat) (fi : FaultInfo) (n : Nat) (t : TaskId) : (s.boxPacket d p fi n t).memOk = s.memOk := rfl
@[simp] theorem State.passResv_memOk (s : State) (t : TaskId) : (s.passResv t).memOk = s.memOk := rfl
@[simp] theorem State.leaveGang_memOk (s : State) (n cl p : Nat) : (s.leaveGang n cl p).memOk = s.memOk := rfl

@[simp] theorem State.setHolder_memOk (s : State) (m : Master) (p : Option (BitVec 512)) : (s.setHolder m p).memOk = s.memOk := by
  cases m <;> rfl

@[simp] theorem State.groupAdd_memOk (s : State) (g : BitVec 16) (up : Bool) : (s.groupAdd g up).memOk = s.memOk := by
  unfold State.groupAdd; split <;> rfl

@[simp] theorem State.leaveWaitsOf_memOk (s : State) (n p : Nat) (t : TaskId) (r : Run) (k : Cont) : (s.leaveWaitsOf n p t r k).memOk = s.memOk := by
  unfold State.leaveWaitsOf
  split
  · rfl
  · rfl
  · rfl
  · split <;> rfl
  · rfl

@[simp] theorem State.leaveWaits_memOk (s : State) (n : Nat) : (s.leaveWaits n).memOk = s.memOk := s.leaveWaitsOf_memOk _ _ _ _ _

theorem State.enterInbox_memOk {s : State} (h : s.memOk = true) (p : Nat) (pkt : BitVec 512) : (s.enterInbox p pkt).memOk = true := by
  unfold State.enterInbox
  rw [State.modPart_memOk]
  exact (s.homeWrite_storage _ _ _).form h

/-- A packet that enters an inbox changes no slot. -/
theorem State.enterInbox_slot (s : State) (p : Nat) (pkt : BitVec 512) (n : Nat) : (s.enterInbox p pkt).slot n = s.slot n :=
  (s.homeWrite_storage _ _ _).slot n

theorem State.sendPacket_memOk {s : State} (h : s.memOk = true) (m : Master) (p : Nat) (pkt : BitVec 512) : (s.sendPacket m p pkt).memOk = true := by
  unfold State.sendPacket
  split
  · exact s.enterInbox_memOk h p pkt
  · simpa using h

theorem State.stopSlot_memOk {s : State} (h : s.memOk = true) (n : Nat) (k : FreezeKind) : (s.stopSlot n k).memOk = true := by
  unfold State.stopSlot
  exact (State.release_storage _ _ _).form (by simpa using h)

theorem State.takeFaultAt_memOk {s : State} (h : s.memOk = true) (n : Nat) (pc : Word) (fi : FaultInfo) : (s.takeFaultAt n pc fi).memOk = true := by
  have key (u : State) (hu : u.memOk = true) (c : Prop) [Decidable c] (d : Prop) [Decidable d] (m : Master) (p q : Nat) (pkt : BitVec 512) :
      (if c then (if d then { u with mgmtAlarm := true } else u.sendPacket m p pkt) else u.sendPacket m q pkt).memOk = true := by
    split
    · split
      · exact hu
      · exact State.sendPacket_memOk hu _ _ _
    · exact State.sendPacket_memOk hu _ _ _
  exact key _ (by simpa using State.stopSlot_memOk h n .fault) _ _ _ _ _ _

theorem State.takeFault_memOk {s : State} (h : s.memOk = true) (n : Nat) (fi : FaultInfo) : (s.takeFault n fi).memOk = true :=
  State.takeFaultAt_memOk h _ _ _

/-- A meaning that ends in `State.finish` keeps the form where its good end does. -/
theorem State.finish_memOk {s t : State} {r : Except FaultInfo State} (h : s.memOk = true) (hr : ∀ u, r = .ok u → u.memOk = true)
    (e : s.finish r = .next t) : t.memOk = true := by
  cases r with
  | ok u => obtain rfl : u = t := by simpa using e
            exact hr _ rfl
  | error fi => obtain rfl : s.takeFault s.cur fi = t := by simpa using e
                exact State.takeFault_memOk h _ _

theorem State.afterStep_memOk {s : State} (h : s.memOk = true) (n : Nat) (a : Word) : (s.afterStep n a).memOk = true := by
  unfold State.afterStep
  dsimp only
  split
  · exact h
  · split
    · exact State.takeFault_memOk h _ _
    · exact State.takeFault_memOk h _ _
    · exact State.takeFault_memOk h _ _
    · exact h
    · exact h

theorem State.restart_memOk {s : State} (h : s.memOk = true) (n : Nat) : (s.restart n).memOk = true := by
  unfold State.restart
  exact (State.acquire_storage _ _ _).form h

/-! ### The slots a stop leaves alone -/

theorem State.leaveWaits_slot (s : State) (n m : Nat) : (s.leaveWaits n).slot m = s.slot m := by
  unfold State.leaveWaits State.leaveWaitsOf
  dsimp only
  split
  · rfl
  · rfl
  · rfl
  · split <;> rfl
  · rfl

/-- A stop of slot `n`: the slot is frozen with its results returned, and no other slot changes. -/
theorem State.stopSlot_slot (s : State) (n : Nat) (k : FreezeKind) :
    (s.stopSlot n k).slot n =
        (let v := (s.slot n).deliverAll
         { v with run := .frozen k v.run.meetHold, stepArmed := false, cont := v.cont.keep }) ∧
      ∀ m, m ≠ n → (s.stopSlot n k).slot m = s.slot m := by
  unfold State.stopSlot
  dsimp only
  refine ⟨?_, fun m h => ?_⟩
  · rw [(State.release_storage _ _ _).slot, State.slot_modSlot_self, State.leaveWaits_slot]
  · rw [(State.release_storage _ _ _).slot, State.slot_modSlot_ne _ _ h, State.leaveWaits_slot]

theorem State.setHolder_slot (s : State) (n p m : Nat) (k : Option (BitVec 512)) (h : m ≠ n) : (s.setHolder (.slot n p) k).slot m = s.slot m :=
  State.slot_modSlot_ne _ _ h

theorem State.sendPacket_slot_ne (s : State) (n p q m : Nat) (pkt : BitVec 512) (h : m ≠ n) :
    (s.sendPacket (.slot n p) q pkt).slot m = s.slot m := by
  unfold State.sendPacket
  split
  · exact s.enterInbox_slot q pkt m
  · exact State.setHolder_slot _ _ _ _ _ h

theorem State.modPart_slot (s : State) (p n : Nat) (f : Part → Part) : (s.modPart p f).slot n = s.slot n := rfl
theorem State.slot_mgmtAlarm (s : State) (b : Bool) (n : Nat) : ({ s with mgmtAlarm := b } : State).slot n = s.slot n := rfl

/-- A packet reaches its sender's slot only as the packet it holds, or that its partition's thread switched out there holds. -/
theorem State.sendPacket_slot (s : State) (n p q : Nat) (pkt : BitVec 512) :
    (s.sendPacket (.slot n p) q pkt).slot n =
      { s.slot n with packet := ((s.sendPacket (.slot n p) q pkt).slot n).packet, away := ((s.sendPacket (.slot n p) q pkt).slot n).away } := by
  unfold State.sendPacket
  split
  · rw [s.enterInbox_slot q pkt n]
  · rw [State.modPart_slot, State.setHolder, State.slot_modSlot_self]
    split
    · rfl
    · split <;> rfl

@[simp] theorem State.boxPacket_slot (s : State) (d p : Nat) (fi : FaultInfo) (k : Nat) (t : TaskId) (n : Nat) :
    (s.boxPacket d p fi k t).slot n = s.slot n := rfl

/-- Taking a fault changes no other slot (R279). -/
theorem State.takeFaultAt_slot_ne (s : State) (n m : Nat) (pc : Word) (fi : FaultInfo) (h : m ≠ n) : (s.takeFaultAt n pc fi).slot m = s.slot m := by
  have e (f : Slot → Slot) : ((s.stopSlot n .fault).modSlot n f).slot m = s.slot m := by
    rw [State.slot_modSlot_ne _ _ h, (s.stopSlot_slot n .fault).2 m h]
  unfold State.takeFaultAt
  dsimp only
  split
  · split
    · rw [State.slot_mgmtAlarm, State.boxPacket_slot, e]
    · rw [State.sendPacket_slot_ne _ _ _ _ _ _ h, State.boxPacket_slot, e]
  · rw [State.sendPacket_slot_ne _ _ _ _ _ _ h, State.boxPacket_slot, e]

/-- The stopped slot after a fault: frozen, its results returned, and its pc where it resumes (R279). -/
theorem State.takeFaultAt_slot (s : State) (n : Nat) (pc : Word) (fi : FaultInfo) :
    (s.takeFaultAt n pc fi).slot n =
      (let v := (s.slot n).deliverAll
       { v with
         run := .frozen .fault v.run.meetHold, stepArmed := false, cont := v.cont.keep, ctx := { v.ctx with pc := pc }
         packet := ((s.takeFaultAt n pc fi).slot n).packet, away := ((s.takeFaultAt n pc fi).slot n).away }) := by
  have e : ((s.stopSlot n .fault).modSlot n fun v => v.modCtx fun c => { c with pc := pc }).slot n =
      (let v := (s.slot n).deliverAll
       { v with run := .frozen .fault v.run.meetHold, stepArmed := false, cont := v.cont.keep, ctx := { v.ctx with pc := pc } }) := by
    rw [State.slot_modSlot_self, (s.stopSlot_slot n .fault).1]; rfl
  unfold State.takeFaultAt
  dsimp only
  split
  · split
    · rw [State.slot_mgmtAlarm, State.boxPacket_slot, e]
    · rw [State.sendPacket_slot]
      simp only [State.boxPacket_slot, e]
  · rw [State.sendPacket_slot]
    simp only [State.boxPacket_slot, e]

end Sys2Proof.Machine
end

