-- ==== Sys2Proof/Tests/Slice0.lean ====
section
/-! SUPPORT. Tests: words written out from the encoding tables of spec/ and the instructions they decode to; a term that each check of
well-formedness refuses; one step on a small state where a bug would show; and, for every obligation with hypotheses, states and operands
that meet them (`wit_<name>`), each clause at a boundary value. Expected values come from spec/ or by hand from it. -/

namespace Sys2Proof.Tests

open Sys2Proof Sys2Proof.Machine

set_option Elab.async false

/-! ### Words (R45): every field where its table puts it -/

/-- A word's bits from R45's fields: length code, mark, opcode, d, a, b, c, mask, function and imm24. -/
def bitsOf (len mark op d a b c m fn imm : Nat) : Nat :=
  len + mark * 2 ^ 2 + op * 2 ^ 3 + d * 2 ^ 11 + a * 2 ^ 16 + b * 2 ^ 21 + c * 2 ^ 26 + m * 2 ^ 31 + fn * 2 ^ 34 + imm * 2 ^ 40
/-- The bytes of a 64-bit word in memory (R42). -/
def w8 (op d a b c m fn imm : Nat) : List Byte := leBytes 8 (bitsOf 0 0 op d a b c m fn imm)
/-- A 96-bit word with its extension. -/
def w12 (op d a b c m fn imm ext : Nat) : List Byte := leBytes 8 (bitsOf 1 0 op d a b c m fn imm) ++ leBytes 4 ext
/-- A 128-bit word with its extension. -/
def w16 (op d a b c m fn imm ext : Nat) : List Byte := leBytes 8 (bitsOf 2 0 op d a b c m fn imm) ++ leBytes 8 ext

def k8 : Enc := { len := .l64, mark := false }
def k12 : Enc := { len := .l96, mark := false }
def k16 : Enc := { len := .l128, mark := false }

/-- Every word of a list decodes to the instruction beside it. -/
def readsAs (l : List (List Byte × Instr)) : Bool := l.all fun e => decide (decode e.1 = .ok e.2)

/-- R95. -/
theorem test_decode_control : readsAs [
    (w8 0x01 0 0 0 0 0 0 0, .nop k8), (w8 0x02 0 0 0 0 0 0 0, .exit k8), (w8 0x03 0 0 0 0 0 0 0xFFFFFF, .j k8 (-1)),
    (w12 0x03 0 0 0 0 0 0 1 0x80000000, .j k12 (BitVec.ofInt 64 (1 - 2 ^ 55))),
    (w8 0x04 0 4 0 0 0 0 12, .jr k8 4 12), (w8 0x05 0 0 0 0 0 0 7, .call k8 7), (w8 0x06 0 4 0 0 0 0 0, .callr k8 4 0),
    (w8 0x07 0 0 0 0 0 0 0, .ret k8), (w8 0x08 0 4 5 0 0 9 3, .br k8 .gtu 4 5 3),
    (leBytes 8 (bitsOf 0 1 0x08 0 4 5 0 0 2 3), .br { len := .l64, mark := true } .lt 4 5 3)] = true := by decide +kernel

/-- R98, R100, R101. -/
theorem test_decode_bits : readsAs [
    (w8 0x09 3 4 0 0 0 0 64, .bbld k8 3 4 64), (w8 0x0A 3 0 0 0 0 0 1, .bbget k8 3 (.imm 1)), (w8 0x0A 3 0 5 0 0 2 0, .bbget k8 3 (.reg 5)),
    (w8 0x0A 3 0 0 0 0 1 9, .bbgetSx k8 3 (.imm 9)), (w8 0x0B 3 0 0 0 0 0 64, .bbpeek k8 3 (.imm 64)),
    (w8 0x0B 3 0 5 0 0 3 0, .bbpeekSx k8 3 (.reg 5)), (w8 0x0C 3 0 0 0 0 0 128, .bbskip k8 3 (.imm 128)),
    (w8 0x0D 3 0 0 0 0 0 0, .bbpos k8 3), (w8 0x0D 3 0 0 0 0 1 0, .bbposClr k8 3),
    (w8 0x0E 3 4 5 0 0 0 (15 + 8 * 2 ^ 4 + 9 * 2 ^ 12), .loopinit k8 3 4 5 15 8 9), (w8 0x0F 4 0 0 0 0 0 15, .chunk k8 4 15)] = true := by
  decide +kernel

/-- R87. -/
theorem test_decode_integer : readsAs [
    (w8 0x10 3 4 5 0 0 0 0, .add k8 3 4 5), (w8 0x11 3 4 5 0 0 0 0, .sub k8 3 4 5), (w8 0x12 3 4 5 0 0 0 0, .mul k8 3 4 5),
    (w8 0x13 3 4 5 0 0 0 0, .mulh k8 3 4 5), (w8 0x13 3 4 5 0 0 1 0, .mulhU k8 3 4 5), (w8 0x13 3 4 5 0 0 2 0, .mulhSu k8 3 4 5),
    (w8 0x14 3 4 5 0 0 0 0, .div k8 3 4 5), (w8 0x14 3 4 5 0 0 1 0, .divU k8 3 4 5), (w8 0x15 3 4 5 0 0 0 0, .rem k8 3 4 5),
    (w8 0x15 3 4 5 0 0 1 0, .remU k8 3 4 5), (w8 0x16 3 4 5 0 0 0 0, .and k8 3 4 5), (w8 0x17 3 4 5 0 0 0 0, .or k8 3 4 5),
    (w8 0x18 3 4 5 0 0 0 0, .xor k8 3 4 5), (w8 0x19 3 4 5 0 0 0 0, .sll k8 3 4 5), (w8 0x1A 3 4 5 0 0 0 0, .srl k8 3 4 5),
    (w8 0x1B 3 4 5 0 0 0 0, .sra k8 3 4 5), (w8 0x1C 3 4 5 0 0 0 0, .rot k8 3 4 5), (w8 0x1D 3 4 5 0 0 0 0, .min k8 3 4 5),
    (w8 0x1D 3 4 5 0 0 1 0, .minU k8 3 4 5), (w8 0x1E 3 4 5 0 0 0 0, .max k8 3 4 5), (w8 0x1E 3 4 5 0 0 1 0, .maxU k8 3 4 5),
    (w8 0x1F 3 4 5 0 0 4 0, .setc k8 .ltu 3 4 5), (w8 0x2A 3 4 0 0 0 0 0, .clz k8 3 4), (w8 0x2B 3 4 0 0 0 0 0, .ctz k8 3 4),
    (w8 0x2C 3 4 0 0 0 0 0, .popc k8 3 4), (w8 0x2D 3 4 5 6 0 0 0, .sel k8 3 4 5 6), (w8 0x33 3 4 0 0 0 (4 * 5) 0, .sext k8 .z16 3 4)] = true := by
  decide +kernel

/-- R89, R90. -/
theorem test_decode_immediate : readsAs [
    (w8 0x20 3 4 0 0 0 0 0x800000, .addi k8 3 4 (BitVec.ofInt 64 (-(2 ^ 23)))), (w12 0x21 3 4 0 0 0 0 2 1, .muli k12 3 4 (2 + 2 ^ 24)),
    (w16 0x22 3 4 0 0 0 0 0 (2 ^ 63), .andi k16 3 4 (BitVec.ofNat 64 (2 ^ 63))), (w8 0x23 3 4 0 0 0 0 5, .ori k8 3 4 5),
    (w8 0x24 3 4 0 0 0 0 5, .xori k8 3 4 5), (w8 0x25 3 4 0 0 0 0 63, .slli k8 3 4 63), (w8 0x26 3 4 0 0 0 0 63, .srli k8 3 4 63),
    (w8 0x27 3 4 0 0 0 0 1, .srai k8 3 4 1), (w8 0x28 3 4 0 0 0 0 0, .roti k8 3 4 0), (w8 0x29 3 4 0 0 0 8 7, .setci k8 .leu 3 4 7),
    (w8 0x2E 3 4 0 0 0 0 0, .mov k8 3 4), (w8 0x2F 3 0 0 0 0 0 7, .li k8 3 7), (w16 0x2F 3 0 0 0 0 0 0 7, .li k16 3 7),
    (w8 0x30 3 0 0 0 0 0 7, .la k8 3 7), (w8 0x31 3 4 0 0 0 0 (12 + 5 * 2 ^ 6), .bfx k8 3 4 12 5),
    (w8 0x31 3 4 0 0 0 1 (12 + 5 * 2 ^ 6), .bfxSx k8 3 4 12 5), (w8 0x32 3 4 0 0 0 0 (63 + 63 * 2 ^ 6), .bfi k8 3 4 63 63)] = true := by decide +kernel

/-- R92 to R94. -/
theorem test_decode_float : readsAs [
    (w8 0x40 3 4 5 0 0 (4 * 8 + 1) 0, .fadd k8 .f16 .rtz 3 4 5), (w8 0x41 3 4 5 0 0 (4 * 9) 0, .fsub k8 .bf16 .rne 3 4 5),
    (w8 0x42 3 4 5 0 0 (4 * 10 + 2) 0, .fmul k8 .f32 .rdn 3 4 5), (w8 0x43 3 4 5 6 0 (4 * 11 + 3) 0, .fma k8 .f64 .rup 3 4 5 6),
    (w8 0x44 3 4 5 0 0 (4 * 10) 0, .fdiv k8 .f32 .rne 3 4 5), (w8 0x45 3 4 0 0 0 (4 * 10) 0, .fsqrt k8 .f32 .rne 3 4),
    (w8 0x46 3 4 5 0 0 (4 * 10) 0, .fmin k8 .f32 3 4 5), (w8 0x47 3 4 5 0 0 (4 * 10) 0, .fmax k8 .f32 3 4 5),
    (w8 0x48 3 4 5 0 0 (4 * 10) 0, .feq k8 .f32 3 4 5), (w8 0x49 3 4 5 0 0 (4 * 10) 0, .flt k8 .f32 3 4 5),
    (w8 0x4A 3 4 5 0 0 (4 * 10) 0, .fle k8 .f32 3 4 5), (w8 0x4B 3 4 11 0 0 (4 * 2 + 1) 0, .fcvt k8 .s32 .f64 .rtz 3 4),
    (w8 0x4C 3 4 0 0 0 (4 * 15) 0, .fclass k8 .t6 3 4), (w8 0x4D 3 4 5 0 0 (4 * 10) 0, .fsgn k8 .f32 3 4 5),
    (w8 0x4D 3 4 5 0 0 (4 * 10 + 1) 0, .fsgnN k8 .f32 3 4 5), (w8 0x4D 3 4 5 0 0 (4 * 10 + 2) 0, .fsgnX k8 .f32 3 4 5)] = true := by decide +kernel

/-- R107 to R112. -/
theorem test_decode_lanes : readsAs [
    (w8 0x50 3 4 5 0 2 (4 * 10) 0, .vadd k8 .f32 0 2 3 4 (.reg 5)), (w12 0x50 3 4 0 0 2 (4 * 0) 300 0, .vadd k12 .s8 0 2 3 4 (.imm 300)),
    (w8 0x51 3 4 5 0 2 (4 * 4 + 1) 0, .vsub k8 .z8 1 2 3 4 (.reg 5)), (w8 0x52 3 4 5 0 2 (4 * 1 + 1) 0, .vmul k8 .s16 1 2 3 4 (.reg 5)),
    (w8 0x53 3 4 5 6 2 (4 * 3) 0, .vfma k8 .s64 0 2 3 4 (.reg 5) 6), (w8 0x54 3 4 5 0 2 (4 * 8 + 3) 0, .vdiv k8 .f16 3 2 3 4 (.reg 5)),
    (w8 0x55 3 4 0 0 2 (4 * 9) 0, .vsqrt k8 .bf16 0 2 3 4), (w8 0x56 3 4 5 0 2 (4 * 7) 0, .vmin k8 .z64 2 3 4 (.reg 5)),
    (w8 0x57 3 4 5 0 2 (4 * 6) 0, .vmax k8 .z32 2 3 4 (.reg 5)), (w8 0x58 3 4 5 0 2 (4 * 12) 0, .vand k8 .e4m3 2 3 4 (.reg 5)),
    (w16 0x59 3 4 0 0 2 (4 * 13) 0 0xFF, .vor k16 .e5m2 2 3 4 (.imm 0xFF)), (w8 0x5A 3 4 5 0 2 (4 * 14) 0, .vxor k8 .t8 2 3 4 (.reg 5)),
    (w8 0x5B 3 4 5 0 2 (4 * 2) 0, .vsll k8 .s32 2 3 4 (.reg 5)), (w8 0x5C 3 4 5 0 2 (4 * 2) 0, .vsrl k8 .s32 2 3 4 (.reg 5)),
    (w8 0x5D 3 4 5 0 2 (4 * 2) 0, .vsra k8 .s32 2 3 4 (.reg 5)), (w8 0x5E 3 4 0 0 2 (4 * 2 + 1) 0, .vabs k8 .s32 1 2 3 4),
    (w8 0x5F 3 4 0 0 2 (4 * 10) 0, .vneg k8 .f32 0 2 3 4), (w8 0x60 3 4 5 9 2 (4 * 2) 0, .vcmp k8 .gtu .s32 2 3 4 (.reg 5)),
    (w8 0x61 3 4 5 0 2 (4 * 2) 0, .vsel k8 .s32 2 3 4 5), (w8 0x79 3 4 0 0 2 (4 * 2) 0, .vmov k8 .s32 2 3 4),
    (w8 0x6D 3 4 0 0 2 (4 * 2) 0, .vbcast k8 .s32 2 3 4),
    (w8 0x62 3 4 5 0 2 (4 * 10 + 1) (12 + 2 * 2 ^ 4 + 3 * 2 ^ 6), .vcvt k8 .f32 .e4m3 .div .rtz 3 2 3 4 5),
    (w8 0x63 3 4 5 6 2 (4 * 0 + 1) 0, .vdot k8 .s8 1 2 3 4 5 6)] = true := by decide +kernel

/-- R113 to R117. -/
theorem test_decode_lanes2 : readsAs [
    (w8 0x64 3 4 0 0 2 (4 * 10 + 2) 0, .vredsum k8 .f32 2 2 3 4), (w8 0x65 3 4 0 0 2 (4 * 2) 0, .vredmax k8 .s32 2 3 4),
    (w8 0x66 3 4 0 0 2 (4 * 2) 0, .vredmin k8 .s32 2 3 4), (w8 0x67 3 4 0 0 2 (4 * 2) 0, .vargmax k8 .s32 2 3 4),
    (w8 0x68 3 4 5 0 2 (4 * 2) 0, .vperm k8 .s32 2 3 4 5), (w8 0x69 3 4 0 0 2 (4 * 2) 255, .vslideup k8 .s32 2 3 4 (.imm 255)),
    (w8 0x6A 3 4 5 0 2 (4 * 2 + 1) 0, .vslidedn k8 .s32 2 3 4 (.reg 5)), (w8 0x6E 3 4 0 0 0 (4 * 2) 7, .vext k8 .s32 3 4 (.imm 7)),
    (w8 0x6F 3 4 5 0 0 (4 * 2 + 1) 0, .vins k8 .s32 3 4 (.reg 5)), (w8 0x6B 3 4 0 0 2 (4 * 2) 0, .vcompress k8 .s32 2 3 4),
    (w8 0x6C 3 4 0 0 2 (4 * 2) 0, .vexpand k8 .s32 2 3 4), (w8 0x78 3 0 0 0 2 (4 * 2) 0, .viota k8 .s32 2 3),
    (w8 0x70 3 4 5 0 0 0 0, .mand k8 3 4 5), (w8 0x71 3 4 5 0 0 0 0, .mor k8 3 4 5), (w8 0x72 3 4 5 0 0 0 0, .mxor k8 3 4 5),
    (w8 0x73 3 4 0 0 0 0 0, .mnot k8 3 4), (w8 0x74 31 4 0 0 0 0 0, .mpopc k8 31 4), (w8 0x75 31 4 0 0 0 0 0, .mfirst k8 31 4),
    (w8 0x76 3 31 0 0 0 0 0, .mset k8 3 31), (w8 0x77 31 4 0 0 0 0 0, .mget k8 31 4)] = true := by decide +kernel

/-- R144 to R151; form M's offset stands in imm24's low 19 bits. -/
theorem test_decode_memory : readsAs [
    (w8 0x80 3 4 0 0 0 (4 * 3 + 3) 8, .ld k8 .s64 { base := 4, off := 8, pl := .g } 3),
    (w12 0x80 3 4 0 0 0 (4 * 3) 0 0x80000000, .ld k12 .s64 { base := 4, off := BitVec.ofInt 64 (-(2 ^ 50)), pl := .l } 3),
    (w8 0x81 3 4 0 0 0 (4 * 3 + 1) 0x7FFFF, .ldC k8 .s64 { base := 4, off := -1, pl := .n } 3),
    (w8 0x82 3 4 0 0 0 (4 * 0 + 2) 0, .st k8 .s8 { base := 4, off := 0, pl := .i } 3),
    (w8 0x83 3 4 0 0 2 (4 * 10) 0, .vld k8 .f32 { base := 4, off := 0, pl := .l } 2 3),
    (w8 0x84 3 4 0 0 2 (4 * 10) 0, .vldC k8 .f32 { base := 4, off := 0, pl := .l } 2 3),
    (w8 0x85 3 4 0 0 0 (4 * 15 + 3) 0, .vst k8 .t6 { base := 4, off := 0, pl := .g } 0 3),
    (w8 0x86 3 4 5 0 2 (4 * 10) 0, .vgather k8 .f32 { base := 4, off := 0, pl := .l } 2 3 5),
    (w8 0x87 3 4 5 0 2 (4 * 10) 0, .vscatter k8 .f32 { base := 4, off := 0, pl := .l } 2 3 5),
    (w8 0x88 3 4 5 6 0 3 0, .arm k8 { base := 4, off := 0, pl := .g } 3 5 6), (w8 0x88 3 4 5 6 0 7 0, .armH k8 { base := 4, off := 0, pl := .g } 3 5 6),
    (w8 0x89 3 4 5 0 0 0 0, .retire k8 { base := 4, off := 0, pl := .l } 3 5),
    (w8 0x89 3 4 5 0 0 4 0, .retireForce k8 { base := 4, off := 0, pl := .l } 3 5),
    (w8 0x8A 0 4 5 0 0 3 (5 * 2 ^ 21), .cinv k8 .fabric { base := 4, off := 0, pl := .g } 5),
    (w12 0x8B 0 4 5 0 0 3 (6 * 2 ^ 21) 31, .cwb k12 (.rect 31) { base := 4, off := 0, pl := .g } 5),
    (w8 0x8C 0 4 5 0 0 3 0, .pref k8 { base := 4, off := 0, pl := .g } 5), (w8 0x8D 30 4 0 0 0 3 0, .ldq k8 { base := 4, off := 0, pl := .g } 30),
    (w8 0x8E 30 4 0 0 0 3 0, .stq k8 { base := 4, off := 0, pl := .g } 30),
    (w8 0x8F 3 4 5 0 2 (4 * 10) 0, .vlds k8 .f32 { base := 4, off := 0, pl := .l } 2 3 5),
    (w8 0x90 3 4 5 0 2 (4 * 10) 0, .vsts k8 .f32 { base := 4, off := 0, pl := .l } 2 3 5)] = true := by decide +kernel

/-- R178 to R183, R189, R190: ordering in imm24's bits 20 and 19, scope in 23 to 21. -/
theorem test_decode_atomics :
    let o : MemOp := { base := 4, off := 0, pl := .g }
    let i (ord sc : Nat) : Nat := ord * 2 ^ 19 + sc * 2 ^ 21
    readsAs [
      (w8 0x91 3 4 5 0 0 (4 * 2 + 3) (i 1 3), .amoadd k8 .s32 .acq .cluster o 3 5), (w8 0x92 3 4 5 0 0 (4 * 6 + 3) (i 2 4), .amoand k8 .z32 .rel .package o 3 5),
      (w8 0x93 3 4 5 0 0 (4 * 3 + 3) (i 3 5), .amoor k8 .s64 .un .fabric o 3 5), (w8 0x94 3 4 5 0 0 (4 * 7 + 3) (i 1 1), .amoxor k8 .z64 .acq .thread o 3 5),
      (w8 0x95 3 4 5 0 0 (4 * 3 + 3) (i 1 2), .amomin k8 .s64 .acq .core o 3 5), (w8 0x96 3 4 5 0 0 (4 * 3 + 3) 0, .amomax k8 .s64 .none .unwritten o 3 5),
      (w8 0x97 3 4 5 0 0 (4 * 3 + 3) 0, .amoswap k8 .s64 .none .unwritten o 3 5), (w8 0x97 3 4 5 1 0 (4 * 3 + 3) 0, .amoswapOnce k8 .s64 .none .unwritten o 3 5),
      (w8 0x98 3 4 6 0 0 (4 * 3 + 3) 0, .amocas k8 .s64 .none .unwritten o 3 6), (w8 0x98 3 4 6 1 0 (4 * 3 + 3) 0, .amocasOnce k8 .s64 .none .unwritten o 3 6),
      (w12 0x99 3 4 5 0 0 (4 * 10 + 3) (i 1 6) 9, .amofadd k12 .f32 .acq (.rect 9) o 3 5),
      (w8 0x9A 0 4 5 0 0 (4 * 3 + 3) 0, .redAdd k8 .s64 .none .unwritten o 5), (w8 0x9A 0 4 5 1 0 (4 * 3 + 3) 0, .redAnd k8 .s64 .none .unwritten o 5),
      (w8 0x9A 0 4 5 2 0 (4 * 3 + 3) 0, .redOr k8 .s64 .none .unwritten o 5), (w8 0x9A 0 4 5 3 0 (4 * 3 + 3) 0, .redXor k8 .s64 .none .unwritten o 5),
      (w8 0x9A 0 4 5 4 0 (4 * 3 + 3) 0, .redMin k8 .s64 .none .unwritten o 5), (w8 0x9A 0 4 5 5 0 (4 * 3 + 3) 0, .redMax k8 .s64 .none .unwritten o 5),
      (w8 0x9A 0 4 5 6 0 (4 * 10 + 3) 0, .redFadd k8 .f32 .none .unwritten o 5), (w8 0x9B 3 4 0 0 0 (4 * 3 + 3) 0, .lrw k8 .s64 .none .unwritten o 3),
      (w8 0x9C 3 4 5 0 0 (4 * 3 + 3) 0, .sch k8 .s64 .none .unwritten o 3 5), (w8 0x9C 3 4 5 1 0 (4 * 3 + 3) 0, .schDrop k8 .s64 .none .unwritten o 3 5),
      (w8 0x9D 0 0 0 0 0 0 (i 3 3), .fence k8 .un .cluster), (w8 0x9E 3 4 0 0 0 (4 * 3 + 3) (i 1 0), .lda k8 .s64 .unwritten o 3),
      (w8 0x9F 3 4 0 0 0 (4 * 3 + 3) (i 2 0), .stl k8 .s64 .rel .unwritten o 3), (w8 0xA6 3 4 0 0 0 3 0, .lkacq k8 .unwritten o 3),
      (w8 0xA7 3 4 0 0 0 3 (i 3 3), .lkrel k8 .un .cluster o 3)] = true := by decide +kernel

/-- R185. -/
theorem test_decode_barriers :
    let o : MemOp := { base := 4, off := 0, pl := .g }
    readsAs [
      (w8 0xA0 0 4 5 6 0 3 0, .barinit k8 .none .unwritten o 5 6), (w8 0xA1 3 4 5 0 0 3 0, .bararv k8 .none .unwritten o 3 5),
      (w8 0xA1 3 4 5 0 0 7 0, .bararvB k8 .none .unwritten o 3 5), (w8 0xA2 3 4 5 0 0 3 0, .barwt k8 .none .unwritten o 3 5),
      (w8 0xA3 3 4 5 0 0 3 0, .bartst k8 .none .unwritten o 3 5), (w8 0xA4 3 4 5 6 0 3 0, .barwtt k8 .none .unwritten o 3 5 6),
      (w8 0xA5 0 4 0 0 0 3 0, .barexit k8 .none .unwritten o)] = true := by decide +kernel

/-- R216, R219, R223 to R227. -/
theorem test_decode_engine :
    let jd : JobDesc := { sc := .unwritten, breg := 0, bpl := .l }
    readsAs [
      (w12 0xB0 12 13 14 15 0 0 0 0x80AF0000, .mxq k12 { sc := .package, breg := 21, bpl := .g } true 12 13 14 15),
      (w12 0xB1 12 13 14 15 0 0 0 0, .mxqs k12 jd false 12 13 14 15), (w12 0xB2 9 13 14 15 0 0 0 0x00A8A000, .mxg k12 { sc := .unwritten, breg := 21, bpl := .l } false 20 9 13 14 15),
      (w12 0xB3 12 13 0 0 0 0 0 0, .mxlb k12 jd 12 13), (w12 0xB4 12 13 14 0 0 0 0 0, .cpq k12 jd 12 13 14),
      (w12 0xB5 12 13 14 0 0 0 0 (6 * 2 ^ 29 + 7 * 2 ^ 24), .cpf k12 { sc := .rect 7, breg := 0, bpl := .l } 12 13 14),
      (w8 0xB6 0 14 0 0 0 0 0, .tidfence k8 14), (w8 0xB6 0 0 0 0 0 1 0, .tidfenceAll k8), (w8 0xB7 3 4 0 0 0 0 0, .jtest k8 3 4),
      (w8 0xB8 3 4 0 0 0 0 0, .jwait k8 3 4), (w8 0xB9 3 4 0 0 0 0 0, .jcancel k8 3 4), (w8 0xBA 3 0 0 0 0 0 0, .stest k8 3)] = true := by decide +kernel

/-- R236, R243 to R251, R267, R276. -/
theorem test_decode_tasks : readsAs [
    (w12 0xC0 0 2 5 0 0 3 14 0, .fork k12 .g 14 0 2 5 0), (w12 0xC1 0 0 5 2 0 0 20 0xFFFF0000, .forkD k12 20 0xFFFF 5 2),
    (w12 0xC2 0 2 5 6 0 1 0xFFFFFF 7, .forkAt k12 .n (-1) 0 7 2 5 6), (w12 0xCE 0 0 2 0 0 0 8 3, .amsg k12 8 3 2 0),
    (w8 0xC3 3 4 5 0 0 3 0, .join k8 .g 3 4 5), (w8 0xC4 3 4 0 0 0 0 0, .yield k8 3 4), (w8 0xC5 3 4 0 0 0 0 0, .steal k8 3 4),
    (w8 0xC6 3 0 0 0 0 0 0, .popb k8 3), (w8 0xC7 3 0 0 0 0 0 0, .gnew k8 3), (w8 0xC8 0 4 0 0 0 0 0, .gjoin k8 4),
    (w8 0xC9 3 4 0 0 0 0 0, .gfree k8 3 4), (w8 0xCA 3 4 0 6 0 0 0, .qenq k8 3 4 6), (w8 0xCB 3 4 5 0 0 0 0, .qdeq k8 3 4 5),
    (w8 0xCC 3 4 0 0 0 0 0, .qres k8 3 4), (w8 0xCD 3 4 5 6 0 0 0, .qfil k8 3 4 5 6),
    (w12 0xD0 0 4 0 0 0 0 1000 4, .meet k12 4 (.imm 1000) 4), (w12 0xD0 0 4 6 0 0 2 0 0x24, .meet k12 4 (.reg 6) 0x24),
    (w8 0xD1 3 4 0 0 0 0 0, .mclose k8 3 4)] = true := by decide +kernel

/-- R291, R292, R299, R302. The three commands of RESUME.S share the first's word. -/
theorem test_decode_system : readsAs [
    (w8 0xE0 0 0 0 0 0 0 0xFFFFFF, .svc k8 0xFFFFFF), (w8 0xE1 0 0 0 0 0 0 1, .brk k8 1), (w8 0xE2 3 0 0 0 0 0 0x01A, .ctlr k8 3 .part),
    (w8 0xE3 0 4 0 0 0 0 0x013, .ctlw k8 4 .asid), (w8 0xE4 5 6 0 0 0 0 0, .freeze k8 5 6), (w8 0xE5 5 6 7 0 0 0 0, .resumeSResume k8 5 6 7),
    (w8 0xE5 5 6 7 0 0 1 0, .resumeJReplay k8 5 6 7), (w8 0xE5 5 6 7 0 0 2 0, .resumeHRelease k8 5 6 7), (w8 0xE5 5 6 7 0 0 3 0, .resumePRelease k8 5 6 7),
    (w8 0xE6 5 6 7 0 0 0 0, .vacate k8 5 6 7), (w8 0xE7 5 6 7 0 0 0 0, .stopcut k8 5 6 7), (w8 0xE8 5 6 7 0 0 0 0, .tlbinvAsid k8 5 6 7),
    (w8 0xE8 5 6 7 0 0 1 0, .tlbinvPage k8 5 6 7), (w8 0xE8 5 6 7 0 0 2 0, .tlbinvPart k8 5 6 7), (w8 0xE9 5 6 7 0 0 0 0, .waitev k8 5 6 7),
    (w8 0xEA 5 0 0 0 0 0 0, .time k8 5), (w8 0xEB 5 6 7 0 0 0 0, .bbox k8 5 6 7)] = true := by decide +kernel

/-- R60: the causes of ILLEGAL, each by a word that earns it, and a word whose row has none: opcode 0x00 and row 0xF (R58), a length of the
table (R41), a length its instruction does not take, a code, a reserved field, and a mask register above m7. -/
theorem test_decode_refuses :
    let cause (bs : List Byte) : Nat := match decode bs with | .error fi => fi.cause.toNat | .ok _ => 0
    [w8 0x00 0 0 0 0 0 0 0, w8 0xF0 0 0 0 0 0 0 0, w8 0x34 0 0 0 0 0 0 0].all (fun bs => cause bs == 2) = true ∧
    cause (leBytes 8 3) = 1 ∧ cause (w12 0x10 3 4 5 0 0 0 0 0) = 3 ∧ cause (w8 0x50 3 4 5 0 0 (4 * 11) 0) = 4 ∧
    cause (w8 0x08 0 4 5 0 0 10 3) = 4 ∧ cause (w8 0x10 3 4 5 1 0 0 0) = 5 ∧ cause (w8 0x70 9 4 5 0 0 0 0) = 6 ∧ cause (w8 0x0F 3 0 0 0 0 0 15) = 6 := by
  decide +kernel

/-! ### One step where a bug would show: expected values by hand from spec/ -/

/-- A register of the current slot after an instruction that goes on, or none. -/
def xAfter (i : Instr) (s : State) (d : Reg) : Option Word :=
  match exec i s with
  | .next t => some (t.getX d)
  | _ => none
/-- FSTAT after an instruction. -/
def flagsAfter (i : Instr) (s : State) : Option Flags :=
  match exec i s with
  | .next t => some t.ctx.fstat
  | _ => none
/-- A lane of a vector register after an instruction. -/
def laneAfter (i : Instr) (s : State) (t : Elem) (d : Reg) (j : Nat) : Option Nat :=
  match exec i s with
  | .next u => some (u.lane t d j)
  | _ => none
/-- x4 and x5 of the state after reset. -/
def with45 (a b : Nat) : State := (State.reset.setX 4 (BitVec.ofNat 64 a)).setX 5 (BitVec.ofNat 64 b)
/-- v4 and v5 of the state after reset. -/
def withV (a b : Nat) : State := (State.reset.setV 4 (BitVec.ofNat 512 a)).setV 5 (BitVec.ofNat 512 b)
def top64 : Nat := 2 ^ 64 - 1

/-- R87 to R89: wraps, signs, counts past the width, R88's outcomes. -/
theorem test_integer_results :
    xAfter (.add k8 3 4 5) (with45 top64 1) 3 = some 0 ∧ xAfter (.sub k8 3 4 5) (with45 0 1) 3 = some (-1) ∧
    xAfter (.mulh k8 3 4 5) (with45 top64 top64) 3 = some 0 ∧ xAfter (.mulhU k8 3 4 5) (with45 top64 top64) 3 = some (-2) ∧
    xAfter (.mulhSu k8 3 4 5) (with45 top64 top64) 3 = some (-1) ∧ xAfter (.div k8 3 4 5) (with45 (2 ^ 63) top64) 3 = some (2 ^ 63) ∧
    xAfter (.rem k8 3 4 5) (with45 (2 ^ 64 - 7) 2) 3 = some (-1) ∧ xAfter (.divU k8 3 4 5) (with45 5 0) 3 = some (-1) ∧
    xAfter (.remU k8 3 4 5) (with45 5 0) 3 = some 5 ∧ xAfter (.sll k8 3 4 5) (with45 1 64) 3 = some 0 ∧ xAfter (.sra k8 3 4 5) (with45 (2 ^ 63) 200) 3 = some (-1) ∧
    xAfter (.rot k8 3 4 5) (with45 (2 ^ 63 + 1) 65) 3 = some 3 ∧ xAfter (.minU k8 3 4 5) (with45 top64 1) 3 = some 1 ∧ xAfter (.min k8 3 4 5) (with45 top64 1) 3 = some (-1) ∧
    xAfter (.setc k8 .lt 3 4 5) (with45 top64 1) 3 = some 1 ∧ xAfter (.setc k8 .ltu 3 4 5) (with45 top64 1) 3 = some 0 ∧
    xAfter (.add k8 0 4 5) (with45 1 1) 0 = some 0 ∧ xAfter (.addi k8 4 4 (-2)) (with45 1 1) 4 = some (-1) := by decide +kernel

/-- R87, R90: counts of a zero and of one bit, fields at the top of a register, and extensions. -/
theorem test_field_results :
    xAfter (.clz k8 3 4) (with45 0 0) 3 = some 64 ∧ xAfter (.clz k8 3 4) (with45 1 0) 3 = some 63 ∧ xAfter (.ctz k8 3 4) (with45 (2 ^ 63) 0) 3 = some 63 ∧
    xAfter (.popc k8 3 4) (with45 top64 0) 3 = some 64 ∧ xAfter (.bfx k8 3 4 60 7) (with45 (15 * 2 ^ 60) 0) 3 = some 15 ∧
    xAfter (.bfxSx k8 3 4 4 3) (with45 0x8F 0) 3 = some (-8) ∧ xAfter (.bfi k8 5 4 8 7) (with45 0xAB 0x12345678) 5 = some 0x1234AB78 ∧
    xAfter (.sext k8 .s8 3 4) (with45 0x180 0) 3 = some (-128) ∧ xAfter (.sext k8 .z16 3 4) (with45 0x1FFFF 0) 3 = some 0xFFFF := by decide +kernel

/-- R95: targets and links; CALLR reads its register before it writes the link. -/
theorem test_control_results :
    let s := (with45 0x1000 0).setX 1 0x2000
    let pcAfter (i : Instr) : Option Word := match exec i s with | .next t => some t.pc | _ => none
    pcAfter (.j k8 (-1)) = some (-4) ∧ pcAfter (.jr k8 4 12) = some 0x100C ∧ pcAfter (.ret k8) = some 0x2000 ∧ pcAfter (.callr k8 1 4) = some 0x2004 ∧
    xAfter (.callr k8 1 4) s 1 = some 8 ∧ xAfter (.call k12 5) s 1 = some 12 ∧ pcAfter (.br k8 .ne 4 5 4) = some 16 ∧ pcAfter (.br k8 .eq 4 5 4) = some 8 := by
  decide +kernel

/-- R66 to R71, R91 to R94, in FP32, FP16 and FP64: a tie to even, an overflow, an infinity less itself, a division by zero, the larger of −0 and
+0, a quiet comparison with a NaN, and the class of a subnormal. -/
theorem test_float_results :
    xAfter (.fadd k8 .f32 .rne 3 4 5) (with45 0x3F800000 0x33800000) 3 = some 0x3F800000 ∧ flagsAfter (.fadd k8 .f32 .rne 3 4 5) (with45 0x3F800000 0x33800000) = some 16 ∧
    xAfter (.fadd k8 .f32 .rup 3 4 5) (with45 0x3F800000 0x33800000) 3 = some 0x3F800001 ∧ xAfter (.fcvt k8 .f16 .f32 .rne 3 4) (with45 0x477FF000 0) 3 = some 0x7C00 ∧
    xAfter (.fcvt k8 .f16 .f32 .rtz 3 4) (with45 0x477FF000 0) 3 = some 0x7BFF ∧ flagsAfter (.fsub k8 .f32 .rne 3 4 5) (with45 0x7F800000 0x7F800000) = some 1 ∧
    xAfter (.fdiv k8 .f64 .rne 3 4 5) (with45 0xBFF0000000000000 0) 3 = some 0xFFF0000000000000 ∧ flagsAfter (.fdiv k8 .f64 .rne 3 4 5) (with45 0xBFF0000000000000 0) = some 2 ∧
    xAfter (.fmax k8 .f32 3 4 5) (with45 0x80000000 0) 3 = some 0 ∧ xAfter (.feq k8 .f32 3 4 5) (with45 0x7FC00000 0) 3 = some 0 ∧
    flagsAfter (.feq k8 .f32 3 4 5) (with45 0x7FC00000 0) = some 0 ∧ flagsAfter (.flt k8 .f32 3 4 5) (with45 0x7FC00000 0) = some 1 ∧
    xAfter (.fclass k8 .f16 3 4) (with45 0x8001 0) 3 = some 0x82 := by decide +kernel

/-- R108 to R116: saturation, the high half, an inactive lane, a reversed subtraction caught, and the order of lanes. -/
theorem test_lane_results :
    laneAfter (.vadd k8 .s8 1 0 3 4 (.reg 5)) (withV 0x7F 1) .s8 3 0 = some 0x7F ∧ flagsAfter (.vadd k8 .s8 1 0 3 4 (.reg 5)) (withV 0x7F 1) = some 32 ∧
    laneAfter (.vsub k8 .z8 0 0 3 4 (.reg 5)) (withV 0 1) .z8 3 0 = some 0xFF ∧ laneAfter (.vmul k8 .s8 1 0 3 4 (.reg 5)) (withV 0xFF 2) .s8 3 0 = some 0xFF ∧
    laneAfter (.vmov k8 .s8 1 4 5) ((withV 0x0201 0x0403).setM 1 2) .s8 4 1 = some 4 ∧ laneAfter (.vmov k8 .s8 1 4 5) ((withV 0x0201 0x0403).setM 1 2) .s8 4 0 = some 1 ∧
    laneAfter (.vslideup k8 .s8 0 4 4 (.imm 1)) (withV 0x0201 0) .s8 4 1 = some 1 ∧ laneAfter (.vcompress k8 .s8 1 3 4) ((withV 0x0201 0).setM 1 2) .s8 3 0 = some 2 ∧
    laneAfter (.vdot k8 .z8 0 0 3 4 5 6) (withV 0x04030201 0x01010101) .s32 3 0 = some 10 ∧ xAfter (.vargmax k8 .s8 0 3 4) (withV 0x0201FF 0) 3 = some 2 ∧
    xAfter (.mfirst k8 3 1) ((withV 0 0).setM 1 8) 3 = some 3 := by decide +kernel

/-! ### States and operands that meet the hypotheses of the obligations, each clause at a boundary of its range -/

/-- The states most witnesses stand on: after reset, with x2 where partition 0's own range of the buffers begins (log 9). -/
def st : State := State.reset.setX 2 0xF800

/-- Every arm of the table has a word; a count past the width and the condition's edge. -/
theorem wit_integerArithmetic :
    arithResult (with45 top64 64) (.sra k8 3 4 5) = some (k8, 3, -1) ∧ arithResult (with45 top64 64) (.sll k8 3 4 5) = some (k8, 3, 0) ∧
    arithResult (with45 top64 1) (.add k8 0 4 5) = some (k8, 0, 2 ^ 64) ∧
    ([.sub k8 3 4 5, .mul k8 3 4 5, .mulh k8 3 4 5, .mulhU k8 3 4 5, .mulhSu k8 3 4 5, .srl k8 3 4 5, .min k8 3 4 5, .minU k8 3 4 5, .max k8 3 4 5,
      .maxU k8 3 4 5, .setc k8 .gtu 3 4 5, .sel k8 3 4 5 0, .addi k8 3 4 (-1), .muli k8 3 4 (-1), .slli k8 3 4 63, .srli k8 3 4 63, .srai k8 3 4 63,
      .setci k8 .le 3 4 0, .mov k8 3 4, .li k8 3 5, .la k8 3 5, .bfx k8 3 4 63 63, .bfxSx k8 3 4 63 63, .sext k8 .s8 3 4] : List Instr).all
      (fun i => (arithResult (with45 top64 64) i).isSome) = true := by decide +kernel

theorem wit_division :
    divResult (with45 (2 ^ 63) top64) (.div k8 3 4 5) = some (k8, 3, -2 ^ 63) ∧ divResult (with45 7 0) (.rem k8 3 4 5) = some (k8, 3, 7) ∧
    divResult (with45 7 0) (.divU k8 3 4 5) = some (k8, 3, 2 ^ 64 - 1) ∧ divResult (with45 7 2) (.remU k8 0 4 5) = some (k8, 0, 1) := by decide +kernel

theorem wit_bitOperations :
    ([.and k8 3 4 5, .or k8 3 4 5, .xor k8 3 4 5, .andi k8 3 4 (-1), .ori k8 3 4 1, .xori k8 3 4 1, .rot k8 3 4 5, .roti k8 3 4 63, .bfi k8 3 4 63 63] :
      List Instr).all (fun i => (bitResult (with45 1 64) i).isSome) = true ∧
    ([.clz k8 3 4, .ctz k8 3 4, .popc k8 3 4] : List Instr).all (fun i => (countResult (with45 0 0) i).isSome) = true := by decide +kernel

theorem wit_controlTransfers :
    ([(with45 1 1, .br k8 .eq 4 5 (-1), k8, -4, none), (with45 1 2, .br k12 .eq 4 5 7, k12, 12, none), (st, .nop k16, k16, 16, none), (st, .j k8 1, k8, 4, none),
      (with45 9 0, .jr k8 4 (-9), k8, 0, none), (st, .call k12 1, k12, 4, some 12), (st.setX 1 5, .callr k8 1 0, k8, 5, some 8), (st.setX 1 5, .ret k8, k8, 5, none)] :
      List (State × Instr × Enc × Word × Option Word)).all (fun e => decide (transfer e.1 e.2.1 = some e.2.2)) = true := by decide +kernel

/-- A full buffer takes nothing more and gives 64 bits; an empty one gives zeros. -/
theorem wit_bitBufferResults :
    let full := st.withBuffer 128 (2 ^ 128 - 1)
    (full.bbData < 2 ^ full.bbValid ∧ full.bbValid ≤ 128 ∧ st.bbData < 2 ^ st.bbValid ∧ st.bbValid ≤ 128) ∧
    ([(full, .bbld k8 3 4 1, k8, 3, 0, 128, 2 ^ 128 - 1), (st, .bbld k8 3 4 64, k8, 3, 64, 64, 0), (full, .bbget k8 3 (.imm 64), k8, 3, 2 ^ 64 - 1, 64, 2 ^ 64 - 1),
      (st, .bbget k8 3 (.imm 1), k8, 3, 0, 0, 0), (full, .bbgetSx k8 3 (.reg 2), k8, 3, -1, 64, 2 ^ 64 - 1), (full, .bbpeek k8 3 (.reg 0), k8, 3, 0, 128, 2 ^ 128 - 1),
      (full, .bbpeekSx k8 3 (.imm 1), k8, 3, -1, 128, 2 ^ 128 - 1), (full, .bbskip k8 3 (.imm 128), k8, 3, 0, 0, 0), (full, .bbpos k8 3, k8, 3, 128, 128, 2 ^ 128 - 1),
      (full, .bbposClr k8 0, k8, 0, 128, 0, 0)] :
      List (State × Instr × Enc × Reg × Int × Nat × Nat)).all (fun e => decide (bitBuffer e.1 e.2.1 = some e.2.2)) = true := by decide +kernel

/-- After reset no counter is held and the partition's share is 0, so LOOPINIT is refused; with a share it is not; the thread's multiplicity is 1. -/
theorem wit_iterationCounters :
    (st.part 0).cfg.lshare = 0 ∧ (st.thr st.cur).part = 0 ∧ (st.ctrOf 0 15).held = false ∧
    (let s := st.modPart 0 fun p => { p with cfg := { p.cfg with lshare := 1 } }
     (s.part 0).cfg.lshare = 1 ∧ ((List.range 16).filter fun j => (s.ctrOf 0 j).held && (s.ctrOf 0 j).holder == 0).length = 0) ∧
    st.ctx.mult.toNat ≤ 1 := by decide +kernel

theorem wit_scalarFloat :
    floatResult (with45 0x3F800000 0x33800000) (.fadd k8 .f32 .rne 3 4 5) = some (k8, .f32, 3, 0x3F800000, 16) ∧
    ([.fsub k8 .f16 .rne 3 4 5, .fmul k8 .bf16 .rtz 3 4 5, .fma k8 .f64 .rup 3 4 5 4, .fdiv k8 .f32 .rdn 3 4 5, .fsqrt k8 .f32 .rne 3 4, .fmin k8 .f32 3 4 5,
      .fmax k8 .f32 3 4 5, .fcvt k8 .s32 .f64 .rne 3 4, .fcvt k8 .t6 .s64 .rne 3 4] : List Instr).all (fun i => (floatResult (with45 5 0) i).isSome && i.wf) = true ∧
    ([.feq k8 .f64 3 4 5, .flt k8 .f16 3 4 5, .fle k8 .bf16 0 4 5, .fsgn k8 .f32 3 4 5, .fsgnN k8 .f32 3 4 5, .fsgnX k8 .f64 3 4 5] : List Instr).all
      (fun i => (floatTest (with45 0x7FC00000 0) i).isSome && i.wf) = true := by decide +kernel

theorem wit_classWord :
    ([.f16, .bf16, .f32, .f64, .e4m3, .e5m2, .t8, .t6] : List Elem).all (fun t => (Instr.fclass k8 t 3 4).wf) = true := by decide +kernel

/-- Of every binary format the top finite word and one that is none; a number beyond FP16's range at the tie (65520), one just inside it, and one that
is tiny and one that is not. -/
theorem wit_nearestRounding :
    ([.f64, .f32, .f16, .bf16, .e4m3, .e5m2] : List Elem).all (fun t => (binFormat t).isSome) = true ∧ binFinite .f16 5 10 0x7BFF ∧ ¬ binFinite .f16 5 10 0x7C00 ∧
    binFinite .e4m3 4 3 0x7E ∧ ¬ binFinite .e4m3 4 3 0xFF ∧ binValue 5 10 0x7BFF = 65504 ∧ (Num.fin false 65520 0).rat = 65520 ∧ (Num.fin true 3 (-26)).rat = -3 / 2 ^ 26 ∧
    binValue 5 10 0x0400 = 1 / 2 ^ 14 ∧ awayFrom .rdn true = true ∧ awayFrom .rup true = false ∧ awayFrom .rtz true = false := by
  refine ⟨by decide, by simp [binFinite], by simp [binFinite], by simp [binFinite], by simp [binFinite], ?_, ?_, ?_, ?_, rfl, rfl, rfl⟩ <;> norm_num [binValue, Num.rat]
theorem tapValue_of (n es mag k : Nat) (b : Bool) (hb : mag.testBit (n - 2) = b)
    (hk : ((List.range (n - 1)).takeWhile fun i => mag.testBit (n - 2 - i) == b).length = k) :
    tapValue n es mag = (2 : ℚ) ^ ((if b then (k : Int) - 1 else -(k : Int)) * 2 ^ es + (mag % 2 ^ (n - 2 - k) * 2 ^ es / 2 ^ (n - 2 - k) : Nat)) *
      (1 + (mag % 2 ^ (n - 2 - k) * 2 ^ es % 2 ^ (n - 2 - k) : Nat) / (2 : ℚ) ^ (n - 2 - k)) := by
  subst hb hk
  rfl
/-- The ends of a tapered format's range and numbers between and beyond them, and the tie between the two codes 0x3F and 0x40 of .T8. -/
theorem wit_taperedRounding : tapValue 6 0 31 = 16 ∧ tapValue 6 0 1 = 1 / 16 ∧ tapValue 6 0 16 = 1 ∧ (1 : Nat) ≤ 15 ∧ 15 < 31 := by
  rw [tapValue_of 6 0 31 5 true rfl (by decide), tapValue_of 6 0 1 4 false rfl (by decide), tapValue_of 6 0 16 1 true rfl (by decide)]
  norm_num
/-- Whole numbers at both ends of a type and past them, operands that are NaNs, infinities, zeros, positive and negative, and words of every case of FMIN. -/
theorem wit_numberOrder :
    Elem.s8.isInt = true ∧ (2 ^ 7 < 2 ^ Elem.s8.width ∧ 2 ^ (Elem.s8.width - 1) ≤ 2 ^ 7 ∧ ¬ 2 ^ (Elem.s8.width - 1) ≤ 2 ^ 7 - 1) ∧ (Num.nan true).isNaN = true ∧ (Num.fin true 0 0).isFin = true ∧ (Num.fin false 3 (-1)).rat ≠ 0 ∧ (Num.fin true 0 5).rat = 0 ∧ 0 < (Num.fin false 4 0).rat ∧
    (Num.fin true 4 0).rat < 0 ∧ Elem.f16.isInt = false ∧ (0x8000 : Nat) < 2 ^ Elem.f16.width ∧ (decNum .f16 0x8000).isNaN = false ∧ (decNum .f16 0x7E00).isNaN = true := by
  refine ⟨rfl, by decide, rfl, rfl, ?_, ?_, ?_, ?_, rfl, by decide, by decide +kernel, by decide +kernel⟩ <;> norm_num [Num.rat]

theorem wit_laneArithmetic :
    ([.vadd k8 .s8 1 2 3 4 (.reg 5), .vsub k16 .f32 3 2 3 4 (.imm 0), .vmul k8 .z64 1 2 3 4 (.reg 5), .vfma k12 .f16 1 2 3 4 (.imm 1) 6, .vdiv k8 .bf16 0 2 3 4 (.reg 5),
      .vsqrt k8 .f32 0 2 3 4, .vmin k8 .s16 2 3 4 (.reg 5), .vmax k8 .f32 2 3 4 (.reg 5), .vabs k8 .s8 1 2 3 4, .vneg k8 .f16 0 0 3 3] : List Instr).all
      (fun i => i.wf && (laneArith st i).isSome) = true := by decide +kernel

theorem wit_laneMoves :
    ([.vand k8 .e4m3 2 3 4 (.reg 5), .vor k16 .s64 2 3 4 (.imm 1), .vxor k8 .t8 2 3 3 (.reg 3), .vsll k8 .s8 2 3 4 (.reg 5), .vsrl k8 .z64 2 3 4 (.reg 5),
      .vsra k12 .s8 2 3 4 (.imm 200), .vmov k8 .f32 2 3 4, .vbcast k8 .s8 2 3 4, .vperm k8 .s16 2 3 4 5, .vslideup k8 .s8 2 3 4 (.imm 255),
      .vslidedn k8 .s8 2 3 4 (.reg 2), .vexpand k8 .s8 2 3 4, .viota k8 .z8 2 3] : List Instr).all (fun i => i.wf && (laneMove st i).isSome) = true ∧
    ([.vsel k8 .s8 2 3 4 5, .vcompress k8 .f16 2 3 3, .vins k8 .s64 3 4 (.imm 8), .vins k8 .s64 3 4 (.reg 2)] : List Instr).all
      (fun i => i.wf && (laneWhole st i).isSome) = true := by decide +kernel

theorem wit_maskInstructions :
    ([.mand k8 0 1 2, .mor k8 1 2 3, .mxor k8 7 7 7, .mnot k8 1 0, .mset k8 1 2] : List Instr).all (fun i => (maskResult st i).isSome) = true ∧
    ([.mpopc k8 3 0, .mfirst k8 3 1, .mget k8 0 0, .vext k8 .s8 3 4 (.imm 63), .vext k8 .s8 3 4 (.imm 64), .vext k8 .s8 3 4 (.reg 2)] : List Instr).all
      (fun i => (maskRead st i).isSome) = true := by decide +kernel

/-- x2 names the first byte of a page of root's that both TLBs hold: 64 KiB at 0x10000, mapped there, readable, writable, counted. -/
def pg : State :=
  let e : TlbEntry := { part := 0, asid := 0, level := 0, vpage := 1, pte := 0x1015F }
  let s := State.reset.setX 2 0x10000
  let s := s.modCore 0 fun c => { c with utlb := [e] }
  s.modCluster 0 fun c => { c with tlb := [e] }
/-- The runs of `n` bytes at 0xF800 of core 0's buffers, and at `a` of that page. -/
def runL (n : Nat) : List Piece := [{ off := 0, n := n, addr := 0xF800, place := .buf 0 0xF800 }]
def runG (a n : Nat) : List Piece :=
  [{ off := 0, n := n, addr := BitVec.ofNat 64 a, place := .glob { va := a, pa := a, tag := 0, level := 0, pte := 0x1015F } }]
def o2 : MemOp := { base := 2, off := 0, pl := .l }
def g2 : MemOp := { base := 2, off := 0, pl := .g }
/-- The row at 0xF800 counted for `n` reads. -/
def counted (n : Nat) : State := st.modCore 0 fun c => { c with counts := [(rowOf 0xF800, n)] }

theorem plain_runL (s : State) (n : Nat) : ∀ p ∈ runL n, s.plainRun p := by
  intro p hp
  simp only [runL, List.mem_singleton] at hp
  subst hp
  exact True.intro

/-- Nothing of a state is cached, counted or copied, and every directory and fault inbox lies at 0xBFC0010000 or above. -/
def quiet (s : State) : Bool :=
  s.home.isEmpty && s.copies.isEmpty && s.clusters.all (fun e => e.2.lines.isEmpty) &&
    (List.range 16).all fun q => ((s.part q).last.isNone || decide (0xBFC0010000 ≤ (s.part q).cfg.finbox)) &&
      ((s.part q).cfg.dirsize == 0 || decide (0xBFC0010000 ≤ (s.part q).cfg.dirbase))
structure Quiet (s : State) : Prop where
  home   : s.home = []
  copies : s.copies = []
  lines  : ∀ c, (s.cluster c).lines = []
  below  : ∀ a, a < 0xBFC0010000 → s.dirOwner a = none ∧ s.inboxOwner a = none
/-- A search of the 16 partitions that finds none. -/
theorem search_none (f : Nat → Bool) (h : ∀ q, q < 16 → f q = false) : (List.range 16).find? f = none :=
  List.find?_eq_none.2 fun q hq => by simp [h q (List.mem_range.1 hq)]
theorem quiet_of (s : State) (h : quiet s = true) : Quiet s := by
  simp only [quiet, Bool.and_eq_true, List.isEmpty_iff] at h
  obtain ⟨⟨⟨home, copies⟩, lines⟩, parts⟩ := h
  have at_ : ∀ q, q < 16 → ((s.part q).last = none ∨ 0xBFC0010000 ≤ (s.part q).cfg.finbox) ∧
      ((s.part q).cfg.dirsize = 0 ∨ 0xBFC0010000 ≤ (s.part q).cfg.dirbase) := by simpa using parts
  refine ⟨home, copies, fun c => Table.getD_all (P := fun (k : Cluster) => k.lines = []) rfl (by simpa using lines), fun a ha => ⟨?_, ?_⟩⟩
  · refine search_none _ fun q hq => ?_
    obtain e | e := (at_ q hq).2
    · simp [e]
    · simp [show ¬ (s.part q).cfg.dirbase ≤ a by omega]
  · refine search_none _ fun q hq => ?_
    obtain e | e := (at_ q hq).1
    · simp [e]
    · simp [show ¬ (s.part q).cfg.finbox + 8 ≤ a by omega]
theorem Quiet.clean {s : State} (h : Quiet s) : s.clean := fun c l hl => by
  rw [h.lines c] at hl
  cases hl
theorem Quiet.plain {s : State} (h : Quiet s) {a n : Nat} (ha : a + n ≤ 0xBFC0010000) : ∀ p ∈ runG a n, s.plainRun p := by
  intro p hp
  obtain rfl := List.mem_singleton.1 hp
  refine ⟨?_, fun j hj => ?_⟩
  · have hbm : regionOf a = .hbm := by
      rw [regionOf, if_neg (by omega), if_pos (by simp only [hbmSize]; omega)]
    rw [hbm]
    rfl
  · have b := h.below (a + j) (by simp only at hj; omega)
    exact ⟨by rw [h.home]; rfl, b.1, b.2, by simp [h.lines]⟩
theorem Quiet.homeByte {s : State} (h : Quiet s) {a : Nat} (ha : a < 0xBFC0010000) : s.homeByte a = s.mem.read a := by
  simp only [State.homeByte, (h.below a ha).1, (h.below a ha).2, hostBase]
  rw [if_neg (by omega), if_neg (by omega)]
theorem Quiet.points {s : State} (h : Quiet s) {a n v : Nat} (ha : a + n ≤ 0xBFC0010000) (hb : ∀ j, j < n → s.mem.read (a + j) = byteOf v j) :
    pointsHold s (runG a n) v := by
  intro p hp j hj
  obtain rfl := List.mem_singleton.1 hp
  have low : a + j < 0xBFC0010000 := by simp only at hj; omega
  refine Or.inr ⟨fun c ⟨l, hm, _⟩ => ?_, ?_⟩
  · rw [h.lines] at hm
    cases hm
  · simp only [State.foundByte, State.belowByte, h.home, h.copies, Table.get?]
    rw [h.homeByte low]
    simpa using (hb j hj).symm
/-- What a run of the page and one of the buffers cover. -/
theorem cover_runG {a n x : Nat} (h : coverPhys (runG a n) x) : a ≤ x ∧ x < a + n := by
  obtain ⟨p, hp, y, hy, lo, hi⟩ := h
  obtain rfl := List.mem_singleton.1 hp
  cases hy
  exact ⟨lo, hi⟩
theorem cover_runL {n c a : Nat} (h : coverBuf (runL n) c a) : 0xF800 ≤ a ∧ a < 0xF800 + n := by
  obtain ⟨p, hp, la, at_, lo, hi⟩ := h
  obtain rfl := List.mem_singleton.1 hp
  cases at_
  exact ⟨lo, hi⟩
/-- Runs of the page that lie apart. -/
theorem runG_apart {a n b m : Nat} (h : a + n ≤ b ∨ b + m ≤ a) (x : Nat) : ¬ (coverPhys (runG a n) x ∧ coverPhys (runG b m) x) := fun ⟨h1, h2⟩ => by
  have b1 := cover_runG h1
  have b2 := cover_runG h2
  omega
/-- A run of the buffers lies nowhere in memory. -/
theorem runL_nowhere (n x : Nat) : ¬ coverPhys (runL n) x := by
  rintro ⟨p, hp, y, hy, _⟩
  obtain rfl := List.mem_singleton.1 hp
  cases hy
theorem held_runL (s : State) (n : Nat) : ∀ p ∈ runL n, s.held p := by
  intro p hp x hx
  obtain rfl := List.mem_singleton.1 hp
  cases hx
theorem held_runG (s : State) (a n : Nat) (ha : a < 2 ^ 55)
    (h1 : (s.core (s.thr s.cur).core).utlb.any (fun e => TlbEntry.hits e (s.thr s.cur).part (s.thr s.cur).asid a) = true)
    (h2 : (s.cluster (s.thr s.cur).cluster).tlb.any (fun e => TlbEntry.hits e (s.thr s.cur).part (s.thr s.cur).asid a) = true) :
    ∀ p ∈ runG a n, s.held p := by
  intro p hp x hx
  simp only [runG, List.mem_singleton] at hp
  subst hp
  cases hx
  exact ⟨ha, h1, h2⟩
/-- A frame of which VALID alone is set (R285), where memory lists nothing else of it. -/
theorem frame_bytes {m : Memory} {a : Nat} (hm : m.all (fun e => decide (e.1 < a) || decide (a + 2432 ≤ e.1) || decide (e.1 = a + 2424)) = true)
    (hv : m.read (a + 2424) = 16) : ∀ j, j < 2432 → m.read (a + j) = byteOf (2 ^ 19396) j := by
  have unlisted (m : Memory) (x : Nat) (h : ∀ e ∈ m, e.1 ≠ x) : m.read x = 0 := by
    induction m with
    | nil => rfl
    | cons e r ih =>
      obtain ⟨k, b⟩ := e
      rw [Memory.read, if_neg (h (k, b) List.mem_cons_self)]
      split
      · rfl
      · exact ih fun y hy => h y (List.mem_cons_of_mem _ hy)
  intro j hj
  by_cases k : j = 2424
  · subst k
    rw [hv]
    decide +kernel
  · have out : ∀ e ∈ m, e.1 < a ∨ a + 2432 ≤ e.1 ∨ e.1 = a + 2424 := by simpa [or_assoc] using hm
    rw [unlisted m _ fun e he => by have := out e he; omega, byteOf, show (256 : Nat) ^ j = 2 ^ (8 * j) by rw [Nat.pow_mul]]
    obtain lo | hi : j < 2424 ∨ 2424 < j := by omega
    · rw [Nat.pow_div (by omega) (by decide), show 19396 - 8 * j = 8 + (19388 - 8 * j) by omega, Nat.pow_add]
      exact (BitVec.eq_of_toNat_eq (by simp)).symm
    · rw [Nat.div_eq_of_lt (Nat.pow_lt_pow_right (by decide) (by omega))]
      rfl
/-- A parked task's frame at 0x18000 of the page, where the slot's own goes to 0x10000. -/
theorem Quiet.frameReady {u : State} (h : Quiet u)
    (hm : u.mem.all (fun e => decide (e.1 < 0x18000) || decide (0x18000 + 2432 ≤ e.1) || decide (e.1 = 0x18000 + 2424)) = true) (hv : u.mem.read (0x18000 + 2424) = 16) :
    u.frameReady (runG 0x10000 2432) { copies := [], top := runG 0x18000 2432 } (2 ^ 19396) := by
  refine ⟨h.clean, h.plain (by decide), fun w hw => ?_, h.points (by decide) (frame_bytes hm hv), by decide +kernel, by decide +kernel⟩
  obtain rfl | ⟨c, hc, _⟩ := hw
  · exact runG_apart (by omega)
  · cases hc

theorem wit_laneConversion :
    validScale (((with45 0 0x00000001).u 5) % 2 ^ 32) ∧ validScale (((with45 0 0x7F7FFFFF).u 5) % 2 ^ 32) ∧ (ScaleMode.none = .none) := by
  refine ⟨⟨1, -149, ?_⟩, ⟨2 ^ 24 - 1, 104, ?_⟩, rfl⟩ <;> decide +kernel

/-- A NaN, one infinity, infinities of both signs, and finite products, each in lanes that are active; integer lanes at both ends of their type. -/
theorem wit_laneDotProduct :
    let q (s : State) (j : Nat) : List Machine.Num := decNum .f32 (s.lane .f32 6 j) ::
      (List.range 2).map fun i => (mulNum (decNum .f16 (s.lane .f16 4 (2 * j + i))) (decNum .f16 (s.lane .f16 5 (2 * j + i)))).1
    (Instr.vdot k8 .f16 0 0 3 4 5 6).wf = true ∧ (Instr.vdot k8 .s8 1 1 3 4 5 6).wf = true ∧ (st.getM 0).getLsbD 15 = true ∧ ((st.setM 1 1).getM 1).getLsbD 1 = false ∧
    (q (withV 0x7E00 0x3C00) 0).any Machine.Num.isNaN = true ∧ (.inf false) ∈ q (withV 0x7C00 0x3C00) 0 ∧ (q (withV 0x7C00 0x3C00) 0).any Machine.Num.isNaN = false ∧
    (.inf true) ∉ q (withV 0x7C00 0x3C00) 0 ∧ (.inf true) ∈ q (withV 0xFC007C00 0x3C003C00) 0 ∧ (.inf false) ∈ q (withV 0xFC007C00 0x3C003C00) 0 ∧
    (q (withV 0x7BFF0001 0xFBFF0001) 0).all Machine.Num.isFin = true ∧ (decNum .f16 ((withV 0x7E00 0).lane .f16 4 0)).isSig = false ∧
    (decNum .f16 ((withV 0x7D00 0).lane .f16 4 0)).isSig = true ∧ zeroTimesInf (decNum .f16 0) (decNum .f16 0x7C00) = true ∧
    zeroTimesInf (decNum .f16 0x7C00) (decNum .f16 0x3C00) = false := by decide +kernel

theorem wit_integerReductions :
    st.activeOf .s64 0 = [0, 1, 2, 3, 4, 5, 6, 7] ∧ (st.setM 1 0).activeOf .s64 1 = [] ∧ (st.setM 1 (2 ^ 63)).activeOf .z8 1 = [63] ∧ Elem.s64.isInt = true := by
  decide +kernel

theorem wit_floatReductions :
    let w (s : State) (i : Nat) : Nat := (convert .f32 .f16 .rne (s.lane .f16 4 i)).1
    (Instr.vredsum k8 .f16 3 1 3 4).wf = true ∧ (Instr.vredsum k8 .t6 0 0 3 4).wf = true ∧ Elem.t6.isInt = false ∧ (st.setM 1 0).activeOf .f16 1 = [] ∧
    ((withV 0x7E00 0).setM 1 1).activeOf .f16 1 = [0] ∧ (decNum .f32 (w (withV 0x7E00 0) 0)).isNaN = true ∧
    (decNum .f32 (w (withV 0x0001 0) 0)).isNaN = false := by decide +kernel

/-- A load of the last bytes of a row and one of the first bytes of the page, in both placements, and LDA at its widest scope of this package. -/
theorem wit_scalarLoads :
    st.memOk = true ∧ pg.memOk = true ∧ (Instr.ld k8 .s64 o2 3).wf = true ∧ (Instr.lda k8 .z8 .package g2 3).wf = true ∧ (Instr.ldq k8 o2 30).wf = true ∧
    st.checkScope .thread (.ld k8 .s64 o2 3) = .ok () ∧ pg.checkScope .package (.lda k8 .z8 .package g2 3) = .ok () ∧
    st.check (st.thr st.cur) .l .load false (st.getX 2 + 0) 8 8 0 = .ok (runL 8) ∧ pg.check (pg.thr pg.cur) .g .load false (pg.getX 2 + 0) 1 1 0 = .ok (runG 0x10000 1) ∧
    st.check (st.thr st.cur) .l .load false (st.getX 2 + 0) 16 16 0 = .ok (runL 16) ∧
    pg.check (pg.thr pg.cur) .g .load false (pg.getX 2 + 0) 16 16 0 = .ok (runG 0x10000 16) := by decide +kernel

theorem wit_scalarStores :
    storeForm st (.st k8 .s8 o2 2) = some (k8, o2, 1, st.u 2 % 2 ^ 8, .thread) ∧
    storeForm pg (.stl k8 .s64 .rel .unwritten g2 2) = some (k8, g2, 8, pg.u 2 % 2 ^ 64, .unwritten) ∧
    storeForm st (.stq k8 o2 2) = some (k8, o2, 16, st.u 2 + 2 ^ 64 * st.u 3, .thread) ∧ (Instr.st k8 .s8 o2 2).wf = true ∧ (Instr.stl k8 .s64 .rel .unwritten g2 2).wf = true ∧
    (Instr.stq k8 o2 2).wf = true ∧ st.checkScope .thread (.st k8 .s8 o2 2) = .ok () ∧ pg.checkScope .unwritten (.stl k8 .s64 .rel .unwritten g2 2) = .ok () ∧
    st.check (st.thr st.cur) .l .store false (st.getX 2 + 0) 1 1 0 = .ok (runL 1) ∧ pg.check (pg.thr pg.cur) .g .store false (pg.getX 2 + 0) 8 8 0 = .ok (runG 0x10000 8) ∧
    st.check (st.thr st.cur) .l .store false (st.getX 2 + 0) 16 16 0 = .ok (runL 16) := by
  refine ⟨rfl, rfl, rfl, ?_⟩
  decide +kernel

/-- A whole access, one of the highest lane alone, and one of no lane. -/
theorem wit_vectorLoads :
    st.checkVec .s64 .l .load (st.getM 0) (st.getX 2 + 0) = .ok (.whole (runL 64)) ∧ pg.checkVec .t6 .g .load (pg.getM 0) (pg.getX 2 + 0) = .ok (.whole (runG 0x10000 64)) ∧
    st.checkVec .s64 .l .load ((st.setM 1 0).getM 1) (st.getX 2 + 0) = .ok (.lanes []) ∧
    (st.checkVec .s64 .l .load ((st.setM 1 128).getM 1) (st.getX 2 + 0)).isOk = true ∧ (Instr.vld k8 .s64 o2 1 3).wf = true ∧
    (let s := (st.setM 1 1).setV 5 0
     s.indexed .s32 o2 1 5 = [(0, 0xF800)] ∧ s.strided .s8 o2 1 0 = [(0, 0xF800)] ∧
     s.checkEach (s.thr s.cur) .s32 .l .load [(0, 0xF800)] = .ok [(0, runL 4)] ∧ s.checkEach (s.thr s.cur) .s8 .l .load [(0, 0xF800)] = .ok [(0, runL 1)]) ∧
    (Instr.vgather k8 .s32 o2 1 3 5).wf = true ∧ (Instr.vlds k8 .s8 o2 1 3 0).wf = true := by
  decide +kernel

theorem wit_laneForms (s : State) :
    laneLoads s (.vgather k8 .s32 o2 1 3 5) = some (k8, .s32, .l, 3, s.indexed .s32 o2 1 5) ∧
    laneLoads s (.vlds k8 .s8 o2 1 3 0) = some (k8, .s8, .l, 3, s.strided .s8 o2 1 0) ∧
    laneStores s (.vscatter k8 .s32 o2 1 3 5) = some (k8, .s32, .l, 3, s.indexed .s32 o2 1 5) ∧
    laneStores s (.vsts k8 .s8 o2 1 3 0) = some (k8, .s8, .l, 3, s.strided .s8 o2 1 0) := ⟨rfl, rfl, rfl, rfl⟩

theorem no_lines_oneName (s : State) (ps : List Piece) (h : (s.cluster (s.thr s.cur).cluster).lines = []) : s.oneName ps ∧ s.linesAgree ps := by
  simp [State.oneName, State.linesAgree, h]
/-- Runs of the page and of the buffers in one view, and a lane that no later lane covers. -/
theorem wit_vectorStores_memory :
    pg.oneView (runG 0x10000 4 ++ runG 0x10002 2) ∧ (∀ p ∈ runG 0x10000 4, pg.plainRun p) ∧ ¬ coverPhys (runG 0x10002 2) 0x10001 ∧ ¬ coverBuf (runL 4) 0 0xF804 := by
  have h : Quiet pg := quiet_of _ (by decide +kernel)
  have place : ∀ p ∈ runG 0x10000 4 ++ runG 0x10002 2, ∀ x, p.place = .glob x → x.tag = 0 ∧ x.pte = 0x1015F ∧ x.va = x.pa := by
    intro p hp x hx
    obtain hp | hp := List.mem_append.1 hp
    all_goals
      obtain rfl := List.mem_singleton.1 hp
      cases hx
      exact ⟨rfl, rfl, rfl⟩
  refine ⟨⟨fun p hp q hq x y hx hy i j _ _ same => ?_, fun p _ x _ _ j _ l hl => by simp [h.lines] at hl⟩, h.plain (by decide), fun c => ?_, fun c => ?_⟩
  · have kx := place p hp x hx
    have ky := place q hq y hy
    exact ⟨kx.1.trans ky.1.symm, kx.2.1.trans ky.2.1.symm, by rw [kx.2.2, ky.2.2, same]⟩
  · have := cover_runG c
    omega
  · have := cover_runL c
    omega

theorem wit_vectorStores :
    (st.cluster (st.thr st.cur).cluster).lines = [] ∧ ((st.setM 1 3).cluster ((st.setM 1 3).thr (st.setM 1 3).cur).cluster).lines = [] ∧
    st.checkVec .s64 .l .store (st.getM 0) (st.getX 2 + 0) = .ok (.whole (runL 64)) ∧ (st.checkVec .s8 .l .store ((st.setM 1 (2 ^ 63)).getM 1) (st.getX 2 + 0)).isOk = true ∧
    (Instr.vst k8 .s8 o2 1 3).wf = true ∧
    (let s := (st.setM 1 3).setV 5 0
     s.indexed .s32 o2 1 5 = [(0, 0xF800), (1, 0xF800)] ∧ s.strided .s8 o2 1 0 = [(0, 0xF800), (1, 0xF800)] ∧
     s.checkEach (s.thr s.cur) .s32 .l .store [(0, 0xF800), (1, 0xF800)] = .ok [(0, runL 4), (1, runL 4)]) := by decide +kernel

/-- A row with the reads of multiplicity 1 left and no more. -/
theorem wit_consumingLoads :
    (counted 1).check ((counted 1).thr (counted 1).cur) .l .consume false ((counted 1).getX 2 + 0) 8 8 ((counted 1).ctx.mult).toNat = .ok (runL 8) ∧
    (Instr.ldC k8 .s64 o2 3).wf = true ∧ (counted 1).memOk = true ∧ (Instr.vldC k8 .s64 o2 0 3).wf = true ∧ (Instr.vldC k8 .t6 o2 0 3).wf = true ∧ localLayout .l ((counted 1).getX 2 + 0) 64 = .ok () ∧
    ((counted 1).getX 2 + 0).toNat % vecAlign .s64 = 0 ∧ portNarrow .l ((counted 1).getX 2 + 0) = false ∧
    (counted 1).checkRuns ((counted 1).thr (counted 1).cur) .l .consume true ((counted 1).getX 2 + 0) 64 ((counted 1).ctx.mult).toNat = .ok (runL 64) := by decide +kernel

/-- An empty region, a region of an uncounted row and one of a counted row, each in a buffer; a line of the page at both levels, with and without room. -/
theorem wit_arming :
    let u := (runL 64).flatMap Piece.units
    let w := (runG 0x10000 128).flatMap Piece.units
    (st.checkRegion .l .arm (st.getX 2 + 0) (st.u 0)).isOk = true ∧ (st.setX 5 64).checkRegion .l .arm (st.getX 2 + 0) ((st.setX 5 64).u 5) = .ok (runL 64) ∧
    (∀ x ∈ u, st.countAt false x = 0) ∧ (∃ x ∈ u, (counted 255).countAt false x ≠ 0) ∧ st.armRoom (st.thr st.cur) false u = true ∧
    (pg.setX 5 128).checkRegion .g .armH (pg.getX 2 + 0) ((pg.setX 5 128).u 5) = .ok (runG 0x10000 128) ∧ pg.armRoom (pg.thr pg.cur) true w = false ∧
    (pg.modPart 0 fun p => { p with cfg := { p.cfg with hcways := 1 } }).armRoom (pg.thr pg.cur) true w = true ∧ (∀ x ∈ w, pg.countAt true x = 0) := by
  decide +kernel

/-- A job of partition 0 that a cluster's queue holds, in a state, with claims. -/
def jobOf (kind : JobKind) (state : JobState) (claims : List Claim) : Job :=
  { gen := 1, part := 0, kind := kind, state := state, fin := 0, flags := 0, replays := 0, task := 1, core := 0, asid := 0, priv := 2, tidbase := 0, recA := 0, recB := 0,
    recC := 0, tids := 0, scope := .unwritten, rect := 0, bars := [], dup := false, members := [], order := 0, wasFrozen := false, leave := false, claims := claims,
    fill := [], elems := 0, arrived := 0, refused := false, loaded := false, packet := none }
/-- A state with one job in entry 0 of cluster 0. -/
def withJob (s : State) (j : Job) : State := s.modCluster 0 fun c => { c with jobs := [(0, j)] }
/-- The row at 0xF800 as a unit, and a claim on it. -/
def claimed : State := withJob st (jobOf .mxq .running [{ core := 0, row := rowOf 0xF800 }])

theorem wit_retiring :
    let u := (runL 64).flatMap Piece.units
    (st.setX 5 64).checkRegion .l .retire (st.getX 2 + 0) ((st.setX 5 64).u 5) = .ok (runL 64) ∧
    (st.setX 5 64).checkRegion .l .retireForce (st.getX 2 + 0) ((st.setX 5 64).u 5) = .ok (runL 64) ∧
    claimed.firstClaim u = some (0, rowOf 0xF800) ∧ st.firstClaim u = none ∧ (∀ x ∈ u, st.retireCounts x = (0, 0)) ∧ (counted 1).firstClaim u = none ∧
    u = [] ++ .row 0 (rowOf 0xF800) :: [] ∧ (counted 1).retireCounts (.row 0 (rowOf 0xF800)) ≠ (0, 0) ∧ (counted 1).rowCount 0 (rowOf 0xF800) ≠ 0 ∧
    (pg.setX 5 128).checkRegion .g .retireForce (pg.getX 2 + 0) ((pg.setX 5 128).u 5) = .ok (runG 0x10000 128) ∧
    (.line 0 512 512) ∈ (runG 0x10000 128).flatMap Piece.units := by decide +kernel

theorem wit_cacheControl :
    pg.checkScope .fabric (.cinv k8 .fabric g2 0) = .ok () ∧ localLayout .g (pg.getX 2 + 0) (pg.u 0) = .ok () ∧ pg.checkScope .core (.cwb k8 .core g2 2) = .ok () ∧
    localLayout .g (pg.getX 2 + 0) (pg.u 2) = .ok () ∧ pg.checkScope .package (.fence k8 .un .package) = .ok () ∧ pg.reachOf .core = .inside ∧ pg.reachOf .package = .package ∧
    pg.reachOf .fabric = .fabric := by decide +kernel

theorem wit_atomics :
    ([.amoadd k8 .s64 .none .unwritten o2 3 2, .amoand k8 .z32 .acq .cluster o2 3 2, .amoor k8 .z64 .rel .package o2 3 2, .amoxor k8 .s32 .un .fabric o2 3 2,
      .amomin k8 .s64 .none .unwritten o2 3 2, .amomax k8 .z64 .none .unwritten o2 3 2, .amoswap k8 .s64 .none .unwritten o2 3 2, .amoswapOnce k8 .s64 .none .unwritten o2 3 2,
      .amocas k8 .s64 .none .unwritten o2 3 2, .amocasOnce k8 .s64 .none .unwritten o2 3 2, .amofadd k8 .f32 .none .unwritten o2 3 2, .redAdd k8 .s64 .none .unwritten o2 2,
      .redAnd k8 .s64 .none .unwritten o2 2, .redOr k8 .s64 .none .unwritten o2 2, .redXor k8 .s64 .none .unwritten o2 2, .redMin k8 .s64 .none .unwritten o2 2,
      .redMax k8 .s64 .none .unwritten o2 2, .redFadd k8 .f32 .none .unwritten o2 2] : List Instr).all
      (fun i => i.wf && match atomicForm st i with
        | some (_, t, _, sc, o, _, _) =>
          (st.checkScope sc i).isOk && decide (st.check (st.thr st.cur) o.pl .atomic false (st.getX o.base + o.off) (t.width / 8) (t.width / 8) 0 = .ok (runL (t.width / 8)))
        | none => false) = true ∧ st.ctx.mult.toNat ≤ 1 ∧ (∀ p ∈ runL 8, st.plainRun p) :=
  ⟨by decide +kernel, by decide +kernel, plain_runL _ _⟩

/-- The same in memory: a word of the page, which no home slice counts. -/
theorem wit_atomics_memory :
    pg.check (pg.thr pg.cur) .g .atomic false (pg.getX 2 + 0) 8 8 0 = .ok (runG 0x10000 8) ∧ ∀ p ∈ runG 0x10000 8, pg.plainRun p :=
  ⟨by decide +kernel, (quiet_of _ (by decide +kernel)).plain (by decide)⟩

/-- The word's queue: empty, headed by the thread's task (1), and headed by another. -/
def queued (q : List TaskId) (granted broken : Bool) : State := { st with resv := [{ loc := firstLoc8 (runL 8), queue := q, granted := granted, broken := broken }] }

theorem wit_loadReserved :
    let i : Instr := .lrw k8 .s64 .none .unwritten o2 3
    i.wf = true ∧ st.memOk = true ∧ st.ctx.mult.toNat ≤ 1 ∧ st.checkScope .unwritten i = .ok () ∧
    st.checkS (st.thr st.cur) .l .load (st.getX 2 + 0) 8 8 = .ok (runL 8) ∧ st.resvAt (firstLoc8 (runL 8)) = none ∧ st.ctx.task = 1 ∧
    (queued [1, 2] true false).resvAt (firstLoc8 (runL 8)) = some { loc := firstLoc8 (runL 8), queue := [1, 2], granted := true, broken := false } ∧
    (queued [2] true false).resvAt (firstLoc8 (runL 8)) = some { loc := firstLoc8 (runL 8), queue := [2], granted := true, broken := false } := by decide +kernel

theorem wit_storeConditional :
    let held (s : State) := s.resv.find? fun r => r.loc == firstLoc8 (runL 8) && r.granted && r.queue.head? == some s.ctx.task
    (Instr.sch k8 .s64 .none .unwritten o2 3 2).wf = true ∧ (Instr.schDrop k8 .s64 .none .unwritten o2 3 2).wf = true ∧
    st.checkScope .unwritten (.sch k8 .s64 .none .unwritten o2 3 2) = .ok () ∧ st.check (st.thr st.cur) .l .atomic false (st.getX 2 + 0) 8 8 0 = .ok (runL 8) ∧
    (∀ l ∈ (st.cluster (st.thr st.cur).cluster).lines, l.dirty = 0) ∧ (held st).isNone = true ∧ (held (queued [1, 2] true false)).isSome = true ∧
    (held (queued [1] true true)).isSome = true ∧ (held (queued [1] false false)).isNone = true := by decide +kernel

theorem wit_barrierUpdates :
    (Instr.barexit k8 .un .fabric o2).wf = true ∧ st.checkScope .fabric (.barexit k8 .un .fabric o2) = .ok () ∧
    st.checkS (st.thr st.cur) .l .store (st.getX 2 + 0) 32 32 = .ok (runL 32) ∧ pg.checkS (pg.thr pg.cur) .g .store (pg.getX 2 + 0) 32 32 = .ok (runG 0x10000 32) ∧
    (∀ p ∈ runL 32, st.plainRun p) ∧ ∀ p ∈ runG 0x10000 32, pg.plainRun p :=
  ⟨by decide +kernel, by decide +kernel, by decide +kernel, by decide +kernel, plain_runL _ _,
    (quiet_of _ (by decide +kernel)).plain (by decide)⟩

/-- ECC has given up a row of core 0's buffers; the barrier word in a damaged row. -/
def poisoned (la : Nat) (s : State) : State := { s with poison := [.row 0 (rowOf la)] }
theorem wit_barrierUpdates_damage : st.undamaged (st.thr st.cur) (runL 32) = .ok () ∧
    (poisoned 0xF800 st).undamaged ((poisoned 0xF800 st).thr (poisoned 0xF800 st).cur) (runL 32) = .error (mkFault .ecc 1 0xF800 0) ∧
    st.cur < slotCount := by decide +kernel

theorem wit_barrierWaits :
    (Instr.barexit k8 .none .unwritten o2).wf = true ∧ st.checkScope .unwritten (.barexit k8 .none .unwritten o2) = .ok () ∧
    st.checkS (st.thr st.cur) .l .load (st.getX 2 + 0) 32 32 = .ok (runL 32) ∧ ((with45 0 (2 ^ 40)).u 5 % 2 ^ 40 = 0 ∧ (with45 0 1).u 5 % 2 ^ 40 ≠ 0) ∧
    ∀ p ∈ runL 32, st.plainRun p :=
  ⟨by decide +kernel, by decide +kernel, by decide +kernel, by decide +kernel, plain_runL _ _⟩

/-- The lock's word: free, a dead owner's, the thread's own; and a thread of multiplicity 1 whose task is 1. -/
theorem wit_locks :
    (Instr.lkacq k8 .unwritten o2 3).wf = true ∧ st.checkScope .unwritten (.lkacq k8 .unwritten o2 3) = .ok () ∧
    st.check (st.thr st.cur) .l .atomic false (st.getX 2 + 0) 8 8 0 = .ok (runL 8) ∧ st.bufRead 0 0xF800 8 = 0 ∧ (st.bufWrite 0 0xF800 8 7).bufRead 0 0xF800 8 = 7 ∧
    st.findTask 0 7 = none ∧ (st.bufWrite 0 0xF800 8 1).bufRead 0 0xF800 8 = 1 ∧ st.ctx.task = 1 ∧ st.ctx.mult.toNat ≤ 1 := by decide +kernel

/-- A lock's queue: no waiter, another task's that waits, and the thread's own that has been handed the lock. -/
def waiting (task : TaskId) (given : Bool) : LockWait := { loc := firstLoc (runL 8), task := task, pc := st.pc, given := given }
theorem wit_locks_queue : handedTo st.lockQ st.ctx.task st.pc = false ∧ handedTo [waiting 1 true] st.ctx.task st.pc = true ∧ st.memOk = true ∧
    ([waiting 5 false].find? fun e => e.loc == firstLoc (runL 8) && e.task != 1 && !e.given) = some (waiting 5 false) := by decide +kernel

/-- A directory entry of partition 0. -/
def taskOf (id : TaskId) (state : TaskState) : Task :=
  { id := id, state := state, pin := false, whereTo := 0, asid := 0, det := false, fplace := 0, future := 0, group := 0, dom := 0, parent := 1, attach := [], locks := [],
    entries := [], frames := none, children := 0, chain := [], meet := none, holdBack := none, late := none, lreq := 0, onCore := none, origin := 0, ended := 0 }
/-- A record of a task that starts at 0x40 with 7 in x2. -/
def recFor (id : TaskId) (dom : BitVec 2) : TaskRecord :=
  { lreq := 0, group := 0, det := false, pin := false, dom := dom, fplace := 0, future := 0, mult := 1, owner := 1, taskid := id, arg3 := 0, arg2 := 0, arg1 := 0, arg0 := 7,
    entry := 0x40 }
/-- x2 names the page and x4 the buffers' own range; a deque of four records with `n` of them lies at 0xFC00 of core `c`, the save area in the page. -/
def tk (c n : Nat) : State :=
  let s := (pg.setX 4 0xF800).modCore c fun k => { k with deqbase := [(0, 0xFC00)] }
  let s := s.bufWrite c 0xFC00 16 (n + 4 * 2 ^ 64)
  s.modSlot 15 fun v => v.modReg 0 fun r => { r with savebase := 0x10000 }
/-- The same with a record on the deque and its task in the directory. -/
def tkWith (c : Nat) (r : TaskRecord) (e : Task) : State :=
  let s := (tk c 1).bufWrite c 0xFC40 64 (recNat r)
  s.modPart 0 fun p => { p with tasks := p.tasks ++ [(9, e)] }

theorem wit_forks :
    let s := tk 0 0
    (s.part 0).tasks.length + 2 < 2 ^ 28 ∧ s.memOk = true ∧ s.checkS (s.thr s.cur) .l .store (s.getX 4) 16 16 = .ok (runL 16) ∧
    s.checkS (s.thr s.cur) .g .store (s.getX 2) 16 16 = .ok (runG 0x10000 16) ∧ (s.deque 0 0).map (fun d => (d.size, d.cap, d.addr)) = some (0, 4, 0xFC00) ∧
    s.dirRoom 0 = true ∧ (tk 0 4).dequeFull 0 0 = true ∧ (tk 0 3).dequeFull 0 0 = false ∧ st.dequeFull 0 0 = true ∧
    (s.checkFrame (s.thr s.cur) .store (s.frameAddr s.cur ((s.slot s.cur).levels.length - 1))).isOk = true := by decide +kernel
/-- The deque at 0xFC00 lies clear of the future at 0xF800, and both futures lie in plain memory. -/
theorem wit_forks_plain : (∀ p ∈ runL 16, (tk 0 0).plainRun p) ∧ (∀ p ∈ runG 0x10000 16, (tk 0 0).plainRun p) ∧
    ∀ d : Deque, d.addr = 0xFC00 → clearOf d (runL 16) := by
  refine ⟨plain_runL _ _, (quiet_of _ (by decide +kernel)).plain (by decide), fun d hd a h1 _ c => ?_⟩
  have := cover_runL c
  omega
/-- A deque whose header is sound and one whose header is damaged. -/
theorem wit_headerEcc : (tk 0 0).headerEcc 0 0 = none ∧ (poisoned 0xFC00 (tk 0 0)).headerEcc 0 0 = some (mkFault .ecc 1 0xFC00 0) ∧
    (poisoned 0xFC00 (tk 0 0)).memOk = true ∧ (poisoned 0xFC00 (tk 0 0)).cur < slotCount := by decide +kernel
/-- A group the thread's FORK.D joins, and none. -/
def grouped (n : Nat) : State :=
  let s := (tk 0 0).modCluster 0 fun c => { c with groups := [(0, { part := 0, count := n })] }
  s.modSlot 15 fun v => v.modCtx fun c => { c with fgroup := 0x8000, group := 0x8000 }
theorem wit_forks_group : ((grouped 2).groupOf 0 ((grouped 2).ctx.fgroup.setWidth 64)).isSome = true ∧ groupCluster (grouped 2).ctx.fgroup = ((grouped 2).thr (grouped 2).cur).cluster ∧
    ((tk 0 0).groupOf 0 ((tk 0 0).ctx.fgroup.setWidth 64)).isNone = true ∧ ((grouped 2).deque 0 0).isSome = true := by decide +kernel

/-- A core that takes the message, a core without an idle slot or inbox room, a core of another package, and a directory without room. -/
theorem wit_sentTasks :
    let s := tk 0 0
    s.target 0 (BitVec.ofNat 64 1151) = .ok (1151, false) ∧ (s.slot s.cur).run ≠ .idle ∧ (s.part 0).tasks.length + 2 < 2 ^ 28 ∧ s.dirRoom 0 = true ∧
    s.wouldTake 0 1 true 0 = true ∧ s.wouldTake 0 1 false 0 = true ∧ s.ctx.mult.toNat ≤ 1 ∧ s.wouldTake 1 1 true 0 = false ∧
    (s.modPart 0 fun p => { p with cfg := { p.cfg with dirsize := 0 } }).dirRoom 0 = false ∧
    (s.modPart 0 fun p => { p with cfg := { p.cfg with cores := 1 } }).wouldTake 0 1 true 0 = false ∧
    (s.modPart 0 fun p => { p with cfg := { p.cfg with cores := 1 } }).wouldTake 0 1 false 0 = false := by decide +kernel

theorem wit_sentTasks_clean : (tk 0 0).clean ∧ (tk 0 0).checkS ((tk 0 0).thr (tk 0 0).cur) .l .store ((tk 0 0).getX 4) 16 16 = .ok (runL 16) :=
  ⟨(quiet_of _ (by decide +kernel)).clean, by decide +kernel⟩

/-- Futures full, failed and empty with no owner; a base task with room on its deque, and a chain of two, a full deque and a held reservation. -/
theorem wit_joinAndYield :
    let s := tk 0 0
    s.checkS (s.thr s.cur) .l .load (s.getX 4) 16 16 = .ok (runL 16) ∧ (s.bufWrite 0 0xF800 16 0x21).bufRead 0 0xF800 16 = 0x21 ∧ s.bufRead 0 0xF800 16 = 0 ∧
    (s.ownerTask 0).isNone = true ∧ s.check (s.thr s.cur) .g .store false (s.getX 2) 2432 64 0 = .ok (runG 0x10000 2432) ∧ (s.slot s.cur).levels.length ≤ 1 ∧
    s.dequeFull 0 0 = false ∧ s.holdsResv s.ctx.task = false ∧ (s.findTask 0 s.ctx.task).isSome = true ∧ (tk 0 4).dequeFull 0 0 = true ∧
    (queued [1] true false).holdsResv 1 = true ∧ (s.modSlot 15 fun v => { v with levels := v.levels ++ v.levels }).slot 15 ≠ s.slot 15 := by decide +kernel
/-- Task 5 with its record on core 0's deque, and running in slot 31 of core 1, whose deque holds a record of a task's. -/
def owned (e : Task) : State := tkWith 0 (recFor 5 0) e
def ownedRuns (owner : TaskId) : State :=
  let s := (tkWith 1 { recFor 6 1 with owner := owner } (taskOf 6 .unstarted)).modSlot 31 fun _ => { supervisorSlot with
    priv := 0, levels := [{ task := 5, inline := false, adopted := false, status := none, fplace := 0, future := 0 }] }
  s.modPart 0 fun p => { p with tasks := p.tasks ++ [(10, { taskOf 5 .running with whereTo := 31 })] }
/-- A task parked with a valid frame at 0x18000, and a state with that frame. -/
def parkedTask : Task := { taskOf 5 .parked with whereTo := 0x18000 }
def framed (a : Nat) (s : State) : State := { s with mem := s.mem.writeN (a + 2424) 8 16 }
/-- A work queue of eight entries at 0x10000 with a tail, a head and the first entry's word. -/
def queueIn (s : State) (tail head w : Nat) : State :=
  { s with mem := (s.mem.writeN 0x10000 24 (tail + 2 ^ 64 * head + 2 ^ 128 * 8)).writeN 0x10040 8 w }
/-- The frames that an adoption above the base of slot 15 needs are checked. -/
def takes (a : State) (e : Task) : Bool :=
  decide (a.checkFrame (a.thr 15) .store (a.frameAddr 15 0) = .ok (runG 0x10000 2432)) &&
    decide (a.planRestore 15 e 1 = .ok { copies := [], top := if e.state = .parked then runG 0x18000 2432 else [] })
/-- How R240 goes on from each wait on task 5, which `word` writes and `ok` checks, in the state that `look` leaves: a live owner that may be adopted and one
that may not, one that runs with a record of its own topmost, with another's and with none, and one that has ended. -/
def helpCases (word look : State → State) (ok : State → Bool) : Bool :=
  let waits (e : Task) (may : Bool) : Bool :=
    let s := word (framed 0x18000 (owned e))
    let u := look s
    ok s && decide (u.ownerTask 5 = some e) && u.adoptable 15 e == may && (!may || takes u e) && (u.recordEcc 0 e).isNone
  let runs (s : State) (top : Option TaskRecord) (may : Bool) : Bool :=
    let u := look (word s)
    let w := u.trimT 0 1
    ok (word s) && (u.searchEcc 0 1 false).isNone && decide (u.ownerTask 5 = some { taskOf 5 .running with whereTo := 31 }) && !(u.slot 31).run.isFrozen && !(u.slot 31).restoring &&
      ((u.slot 31).levels.any fun l => l.task == 5) && decide ((u.slot 15).adoptions < ((u.slot 15).reg 0).adoptmax.toNat) && w.topRec 0 1 == top &&
      (top.isNone || decide (w.findTask 0 6 = some (taskOf 6 .unstarted)) && w.adoptable 15 (taskOf 6 .unstarted) &&
        (!may || takes (w.takeTop 0 1) (taskOf 6 .unstarted)))
  waits (taskOf 5 .unstarted) true && waits parkedTask true && waits { taskOf 5 .unstarted with pin := true } false && waits { parkedTask with pin := true } false &&
    runs (ownedRuns 5) (some { recFor 6 1 with owner := 5 }) true && runs (ownedRuns 7) (some { recFor 6 1 with owner := 7 }) false &&
    runs ((ownedRuns 5).bufWrite 1 0xFC00 16 (4 * 2 ^ 64)) none false && ((look (word (owned (taskOf 5 .done)))).ownerTask 5).all fun e => !e.state.live
/-- The state in which a JOIN of a future, a LKACQ of a lock and a QDEQ of an entry of task 5 helps. -/
def joins (s : State) : State := s.bufWrite 0 0xF800 16 (5 * 2 ^ 32)
def joined (s : State) : State := (s.atomicRead (s.thr 15) (runL 16)).1
def locks (s : State) : State := s.bufWrite 0 0xF800 16 5
def queuedFor (s : State) : State := { (s.atomicRead (s.thr 15) (runL 8)).1 with lockQ := s.lockQ ++ [{ loc := firstLoc (runL 8), task := s.ctx.task, pc := s.pc, given := false }] }
def reserves (s : State) : State := queueIn s 1 0 (5 * 2 ^ 32 + 1)
def claims (s : State) : State :=
  let r := (s.atomicRead (s.thr 15) (runG 0x10000 64)).1
  let c : State := ({ r with queueQ := r.queueQ.filter fun e => e != (0x10000, s.ctx.task) } : State).setHead { ps := runG 0x10000 64, addr := 0x10000, cap := 8, head := 0, tail := 1 } 1
  ({ c with claimQ := r.claimQ ++ [(0x10000, s.ctx.task, 0)] } : State).atomicRead (s.thr 15) (runG 0x10040 8) |>.1
theorem wit_join_helping : helpCases joins joined (fun s => s.memOk && decide (s.checkS (s.thr s.cur) .l .load (s.getX 4) 16 16 = .ok (runL 16)) && s.bufRead 0 0xF800 16 % 4 == 0 &&
    s.bufRead 0 0xF800 16 / 2 ^ 32 == 5) = true := by decide +kernel
theorem wit_locks_helping : helpCases locks queuedFor (fun s => s.memOk && decide (s.check (s.thr s.cur) .l .atomic false (s.getX 4) 8 8 0 = .ok (runL 8)) && s.bufRead 0 0xF800 8 == 5 &&
    s.ctx.task != 5 && s.ctx.mult.toNat ≤ 1) = true := by decide +kernel
theorem wit_workQueues_helping : helpCases reserves claims (fun s => s.memOk && (s.claimed 0x10000 s.ctx.task).isNone && s.queueQ.isEmpty &&
    decide (s.check (s.thr s.cur) .g .atomic false (s.getX 2) 64 64 0 = .ok (runG 0x10000 64)) && s.ctx.mult.toNat ≤ 1) = true := by decide +kernel
/-- A parked owner's frame where each of them helps. -/
theorem wit_join_parked : (joined (joins (framed 0x18000 (owned parkedTask)))).frameReady (runG 0x10000 2432) { copies := [], top := runG 0x18000 2432 } (2 ^ 19396) :=
  (quiet_of _ (by decide +kernel)).frameReady (by decide +kernel) (by decide +kernel)
theorem wit_locks_parked : (queuedFor (locks (framed 0x18000 (owned parkedTask)))).frameReady (runG 0x10000 2432) { copies := [], top := runG 0x18000 2432 } (2 ^ 19396) :=
  (quiet_of _ (by decide +kernel)).frameReady (by decide +kernel) (by decide +kernel)
theorem wit_workQueues_parked : (claims (reserves (framed 0x18000 (owned parkedTask)))).frameReady (runG 0x10000 2432) { copies := [], top := runG 0x18000 2432 } (2 ^ 19396) :=
  (quiet_of _ (by decide +kernel)).frameReady (by decide +kernel) (by decide +kernel)
theorem wit_yield_plain : ∀ p ∈ runG 0x10000 2432, (tk 0 0).plainRun p :=
  (quiet_of _ (by decide +kernel)).plain (by decide)

/-- The own deque's bottom record: none, one of a task pinned, one at the adoption limit, and one the slot adopts; and the same for the deque of core 1. -/
theorem wit_takenWork :
    let s := tkWith 0 (recFor 5 0) (taskOf 5 .unstarted)
    let v := (tkWith 1 (recFor 5 1) (taskOf 5 .unstarted)).setX 3 1
    s.memOk = true ∧ v.memOk = true ∧ ((tk 0 0).trimB 0 0).bottomRec 0 0 = none ∧ (s.trimB 0 0).bottomRec 0 0 = some (recFor 5 0) ∧
    (s.trimB 0 0).findTask 0 5 = some (taskOf 5 .unstarted) ∧ (s.slot s.cur).adoptions + 1 + chainAdopted (taskOf 5 .unstarted) ≤ ((s.slot s.cur).reg 0).adoptmax.toNat ∧
    groupNear 0 0 = true ∧ ((s.trimB 0 0).checkFrame (s.thr s.cur) .store (s.frameAddr s.cur ((s.slot s.cur).levels.length - 1))).isOk = true ∧
    v.target 0 (v.getX 3) = .ok (1, false) ∧ (v.getX 3).getLsbD 15 = false ∧ (v.trimT 0 1).topRec 0 1 = some (recFor 5 1) ∧ domReaches 1 1 0 = true ∧ domReaches 0 1 0 = false ∧
    (s.slot s.cur).adoptions + 1 + chainAdopted { taskOf 5 .parked with chain := (s.slot s.cur).levels } > 0 := by decide +kernel
/-- Both claims of an unstarted task and of a parked one; a core of another package, and a core outside the core set. -/
theorem wit_takenWork_taken :
    let own (e : Task) : State := ((framed 0x18000 (owned e)).trimB 0 0).takeBottom 0 0
    let far (e : Task) : State := (((framed 0x18000 (tkWith 1 (recFor 5 1) e)).trimT 0 1).noteRequest 0 1 0).takeTop 0 1
    ([taskOf 5 .unstarted, parkedTask].all fun e => takes (own e) e && takes (far e) e) = true ∧
    (let s := ({ tk 0 0 with mem := (tk 0 0).mem.writeN ((tk 0 0).part 0).cfg.ranktab 2 0x8001 } : State).setX 3 0x8001
     s.target 0 (s.getX 3) = .ok (1, true) ∧ (s.getX 3).getLsbD 15 = true) ∧
    (let s := ((tk 0 0).modPart 0 fun p => { p with cfg := { p.cfg with cores := 1 } }).setX 3 1
     s.target 0 (s.getX 3) = .ok (1, false) ∧ (s.getX 3).getLsbD 15 = false ∧ (s.part 0).cfg.cores.getLsbD 1 = false ∧ (st.part 0).cfg.cores.getLsbD 1 = true) := by decide +kernel
/-- The record at a deque's end, and the one that lies under a task, sound and damaged. -/
theorem wit_searchEcc :
    let s := tkWith 0 (recFor 5 0) (taskOf 5 .unstarted)
    let e : Task := { taskOf 5 .unstarted with whereTo := whereDeque 0 0 }
    (tkWith 1 (recFor 5 1) (taskOf 5 .unstarted)).searchEcc 0 1 false = none ∧ s.searchEcc 0 0 true = none ∧
    (poisoned 0xFC40 s).searchEcc 0 0 true = some (mkFault .ecc 1 0xFC40 0) ∧ (poisoned 0xFC40 s).searchEcc 0 0 false = some (mkFault .ecc 1 0xFC40 0) ∧
    s.recordEcc 0 e = none ∧ (poisoned 0xFC40 s).recordEcc 0 e = some (mkFault .ecc 1 0xFC40 0) := by decide +kernel
/-- R190, R281: an LKACQ that has been handed the lock completes with 0 and leaves the queue; POPB of a damaged record stops with ECC. -/
theorem test_handed_and_damaged :
    (match exec (.lkacq k8 .unwritten o2 3) { st with lockQ := [waiting 5 false, waiting 1 true] } with
      | .next t => (t.slot 15).pending == [resX 3 0] && t.pc == 8 && t.lockQ == [waiting 5 false] | _ => false) = true ∧
    (match exec (.popb k8 3) (poisoned 0xFC40 (tkWith 0 (recFor 5 0) (taskOf 5 .unstarted))) with
      | .next t => (t.slot 15).run.isFrozen && t.pc == 0 | _ => false) = true := by decide +kernel
theorem wit_takenWork_parked :
    (((framed 0x18000 (owned parkedTask)).trimB 0 0).takeBottom 0 0).frameReady (runG 0x10000 2432) { copies := [], top := runG 0x18000 2432 } (2 ^ 19396) ∧
    ((((framed 0x18000 (tkWith 1 (recFor 5 1) parkedTask)).trimT 0 1).noteRequest 0 1 0).takeTop 0 1).frameReady (runG 0x10000 2432)
      { copies := [], top := runG 0x18000 2432 } (2 ^ 19396) :=
  ⟨(quiet_of _ (by decide +kernel)).frameReady (by decide +kernel) (by decide +kernel), (quiet_of _ (by decide +kernel)).frameReady (by decide +kernel) (by decide +kernel)⟩

/-- No group, one group of the share's only, a group with and without tasks, and a register that names none. -/
theorem wit_groups :
    let s := (grouped 0).modPart 0 fun p => { p with cfg := { p.cfg with gshare := 2 } }
    (s.cluster 0).groups.get? 1 = none ∧ (s.cluster 0).groups.get? 0 ≠ none ∧ ((s.cluster 0).groups.filter fun e => e.2.part == 0).length < (s.part 0).cfg.gshare ∧
    (s.thr s.cur).cluster < 144 ∧ (s.cluster 0).groups.Pairwise (fun x y => x.1 < y.1) ∧ (st.part 0).cfg.gshare ≤ ((st.cluster 0).groups.filter fun e => e.2.part == 0).length ∧
    (st.groupOf 0 (st.getX 0)).isNone = true ∧ (s.groupOf 0 ((s.setX 6 0x8000).getX 6)).map Group.count = some 0 ∧
    ((grouped 3).groupOf 0 ((s.setX 6 0x8000).getX 6)).map Group.count = some 3 ∧ ((grouped 3).trimB 0 0).bottomRec 0 0 = none := by decide +kernel
/-- Every group of a cluster taken; and a group's bottom record that a GJOIN may adopt, and one of another group. -/
def allGroups : State := st.modCluster 0 fun c => { c with groups := (List.range 64).map fun i => (i, { part := 0, count := 0 }) }
def groupRec (g : BitVec 16) : State :=
  (tkWith 0 { recFor 5 1 with group := g } { taskOf 5 .unstarted with group := g }).modCluster 0 fun c => { c with groups := [(0, { part := 0, count := 1 })] }
theorem wit_groups_more :
    (∀ i, i < 64 → (allGroups.cluster 0).groups.get? i ≠ none) ∧ (allGroups.cluster 0).groups.Pairwise (fun x y => x.1 < y.1) ∧
    (let u := (groupRec 0x8000).trimB 0 0
     ((groupRec 0x8000).groupOf 0 0x8000).map Group.count = some 1 ∧ u.bottomRec 0 0 = some { recFor 5 1 with group := 0x8000 } ∧
     u.findTask 0 5 = some { taskOf 5 .unstarted with group := 0x8000 } ∧ u.adoptable 15 { taskOf 5 .unstarted with group := 0x8000 } = true ∧
     (u.checkFrame (u.thr 15) .store (u.frameAddr 15 ((u.slot 15).levels.length - 1))).isOk = true) ∧
    ((groupRec 0x8001).trimB 0 0).bottomRec 0 0 = some { recFor 5 1 with group := 0x8001 } := by decide +kernel
/-- A quiescent group of another cluster than the thread's, and a group's bottom record whose task is parked. -/
def groupParked : State :=
  let s := framed 0x18000 (tkWith 0 { recFor 5 1 with group := 0x8000 } { parkedTask with group := 0x8000 })
  s.modCluster 0 fun c => { c with groups := [(0, { part := 0, count := 1 })] }
theorem wit_groups_acquire :
    (let s := (pg.modCluster 1 fun c => { c with groups := [(0, { part := 0, count := 0 })] }).setX 6 0x8040
     (s.groupOf 0 (s.getX 6)).map Group.count = some 0 ∧ groupCluster ((s.getX 6).setWidth 16) ≠ (s.thr s.cur).cluster ∧ s.memOk = true) ∧
    (groupParked.trimB 0 0).bottomRec 0 0 = some { recFor 5 1 with group := 0x8000 } ∧ (groupParked.trimB 0 0).findTask 0 5 = some { parkedTask with group := 0x8000 } ∧
    (groupParked.trimB 0 0).adoptable 15 { parkedTask with group := 0x8000 } = true ∧
    takes ((groupParked.trimB 0 0).takeBottom 0 0) { parkedTask with group := 0x8000 } = true := by decide +kernel
theorem wit_groups_parked : ((groupParked.trimB 0 0).takeBottom 0 0).frameReady (runG 0x10000 2432) { copies := [], top := runG 0x18000 2432 } (2 ^ 19396) :=
  (quiet_of _ (by decide +kernel)).frameReady (by decide +kernel) (by decide +kernel)

def queue (tail head w : Nat) : State := queueIn pg tail head w

theorem wit_workQueues :
    let s := queue 0 0 0
    (s.ctx.mult.toNat ≤ 1 ∧ s.memOk = true ∧ s.check (s.thr s.cur) .g .atomic false (s.getX 2) 64 64 0 = .ok (runG 0x10000 64) ∧
    s.check (s.thr s.cur) .g .atomic false (s.getX 2 + BitVec.ofNat 64 (64 + 8 * (0 % 8))) 8 8 0 = .ok (runG 0x10040 8) ∧
    s.check (s.thr s.cur) .g .atomic false (s.getX 2 + BitVec.ofNat 64 (64 + 8 * 8 + 64 * (0 % 8))) 64 64 0 = .ok (runG 0x10080 64) ∧ (3 ≤ 3 ∧ 3 ≤ 24 ∧ 8 = 2 ^ 3)) ∧
    s.clean ∧ pointsHold s (runG 0x10000 64) (0 + 2 ^ 64 * 0 + 2 ^ 128 * 8) ∧ pointsHold s (runG 0x10040 8) 0 :=
  have h : Quiet (queue 0 0 0) := quiet_of _ (by decide +kernel)
  ⟨by decide +kernel, h.clean, h.points (by decide) (by decide +kernel), h.points (by decide) (by decide +kernel)⟩
/-- A queue without room (entry 8 has the word of entry 0), the task's reserved entry, and a full entry at the head with another behind it. -/
theorem wit_workQueues_words :
    pointsHold (queue 8 0 6) (runG 0x10000 64) (8 + 2 ^ 64 * 0 + 2 ^ 128 * 8) ∧ ¬ ((8 + 2 ^ 64 - 0) % 2 ^ 64 < 8 ∧ 6 % 4 = 0) ∧
    pointsHold (queue 1 0 (2 ^ 32 + 1)) (runG 0x10040 8) (st.ctx.task.toNat * 2 ^ 32 + 0 % 2 ^ 30 * 4 + 1) ∧
    pointsHold (queue 1 0 (2 ^ 32 + 2)) (runG 0x10000 64) (1 + 2 ^ 64 * 0 + 2 ^ 128 * 8) ∧ (2 ^ 32 + 2) % 4 = 2 ∧
    ((queue 1 0 2).claimed (locPa (firstLoc (runG 0x10000 64))) 1).isNone = true ∧ (queue 1 0 2).queueQ = [] :=
  ⟨(quiet_of _ (by decide +kernel)).points (by decide) (by decide +kernel), by decide, (quiet_of _ (by decide +kernel)).points (by decide) (by decide +kernel),
    (quiet_of _ (by decide +kernel)).points (by decide) (by decide +kernel), by decide, by decide +kernel, by decide +kernel⟩
/-- An empty queue, a queue that another waits for, an entry claimed before, and entries in every state at the head. -/
theorem wit_workQueues_head :
    (queue 0 0 0).ctx.task = 1 ∧ (queue 0 0 0).claimed 0x10000 1 = none ∧ locPa (firstLoc (runG 0x10000 64)) = 0x10000 ∧
    (({ queue 1 0 6 with queueQ := [(0x10000, 2)] } : State).queueQ.find? fun e => e.1 == 0x10000) = some (0x10000, 2) ∧
    ({ queue 1 1 2 with claimQ := [(0x10000, 1, 0)] } : State).claimed 0x10000 1 = some 0 ∧ (2 ^ 32 + 3) % 4 = 3 ∧ (2 ^ 32 + 0) % 4 = 0 ∧ (5 * 2 ^ 32 + 1) % 4 = 1 ∧
    (queue 1 0 2).queueQ = [] := by decide +kernel
theorem wit_workQueues_apart :
    (∀ q ∈ runG 0x10000 64 ++ runG 0x10040 8 ++ runG 0x10080 64, (queue 0 0 0).plainRun q ∧ (queue 0 0 0).held q) ∧
    apart [runG 0x10000 64, runG 0x10040 8, runG 0x10080 64] := by
  refine ⟨fun q hq => ?_, .cons (List.forall_mem_cons.2 ⟨runG_apart (by omega), List.forall_mem_singleton.2 (runG_apart (by omega))⟩)
    (.cons (List.forall_mem_singleton.2 (runG_apart (by omega))) (.cons (fun _ h => nomatch h) .nil))⟩
  have h : Quiet (queue 0 0 0) := quiet_of _ (by decide +kernel)
  obtain (k | k) | k := by simpa only [List.mem_append] using hq
  all_goals
    exact ⟨h.plain (by decide) q k, held_runG _ _ _ (by decide) (by decide +kernel) (by decide +kernel) q k⟩

/-- EXIT with no future, and with one in the page and one in the buffers. -/
def futured (fplace : BitVec 2) (future : BitVec 56) : State :=
  (tk 0 0).modPart 0 fun p => { p with tasks := p.tasks.map fun e => (e.1, { e.2 with fplace := fplace, future := future }) }
theorem wit_exit :
    (st.slot st.cur).levels = [{ task := 1, inline := false, adopted := false, status := none, fplace := 0, future := 0 }] ∧ (st.findTask 0 1).map Task.fplace = some 0 ∧
    st.abandoned [] = none ∧ hasFuture 0 = false ∧ hasFuture 3 = true ∧ hasFuture 1 = true ∧ ((futured 3 0x10000).findTask 0 1).map Task.future = some 0x10000 ∧
    (futured 3 0x10000).futureCheck ((futured 3 0x10000).thr 15) 3 0x10000 = .ok (runG 0x10000 16) ∧
    ((futured 1 0xF800).futureCheck ((futured 1 0xF800).thr 15) 1 0xF800) = .ok (runL 16) := by decide +kernel

/-- A task attached to a barrier word: in the generation it holds, in another one, and the word damaged. -/
def attachedAt (gen : BitVec 30) : Attach := { loc := firstLoc (runL 32), tag := 0, addr := 0xF800, space := .l, gen := gen }
theorem wit_exit_attached : st.attachEcc [] = none ∧ st.attachEcc [attachedAt 0] = none ∧ st.abandoned [attachedAt 0] = none ∧
    st.abandoned [attachedAt 1] = some (attachedAt 1, 0) ∧ (poisoned 0xF800 st).attachEcc [attachedAt 0] = some (mkFault .ecc 1 0xF800 0) := by decide +kernel

/-- A chain of two whose base's frame lies at 0x10000: above it an inline call, and an adopted task, each with a future in the buffers and without one. -/
def upper (l : Level) (fplace : BitVec 2) : State :=
  let s := (framed 0x10000 (tk 0 0)).modSlot 15 fun v => { v with levels := l :: v.levels }
  s.modPart 0 fun p => { p with tasks := p.tasks ++ [(9, { taskOf 5 .running with fplace := fplace, future := 0xF800 })] }
def inlineLevel (fplace : BitVec 2) : Level := { task := 1, inline := true, adopted := false, status := none, fplace := fplace, future := 0xF800 }
def adoptedLevel : Level := { task := 5, inline := false, adopted := true, status := some 3, fplace := 0, future := 0 }
theorem wit_exit_upper :
    ([upper (inlineLevel 1) 0, upper (inlineLevel 0) 0, upper adoptedLevel 1, upper adoptedLevel 0].all fun s =>
      decide (s.checkFrame (s.thr 15) .load (s.frameAddr 15 0) = .ok (runG 0x10000 2432)) && s.poison.isEmpty && s.memOk && (s.slot 15).levels.length == 2) = true ∧
    ((upper adoptedLevel 1).findTask 0 5).map (fun e => (e.fplace, e.future, e.attach.isEmpty)) = some (1, 0xF800, true) ∧ (upper adoptedLevel 1).abandoned [] = none ∧
    (upper adoptedLevel 1).futureCheck ((upper adoptedLevel 1).thr 15) 1 0xF800 = .ok (runL 16) ∧
    (upper (inlineLevel 1) 0).futureCheck ((upper (inlineLevel 1) 0).thr 15) 1 0xF800 = .ok (runL 16) ∧
    ((2 : Nat) ^ 19396 < 2 ^ 19456 ∧ (2 ^ 19396).testBit 19396 = true) ∧ (inlineLevel 1).inline = true ∧ adoptedLevel.inline = false := by decide +kernel
/-- The base's frame in plain memory, apart from the future, in a state that caches nothing. -/
theorem wit_exit_frame (l : Level) (f : BitVec 2) (h : upper l f = upper (inlineLevel 1) 0 ∨ upper l f = upper adoptedLevel 1) :
    (upper l f).clean ∧ (∀ q ∈ runG 0x10000 2432, (upper l f).plainRun q ∧ (upper l f).held q) ∧ pointsHold (upper l f) (runG 0x10000 2432) (2 ^ 19396) ∧
    (∀ q ∈ runL 16, (upper l f).plainRun q ∧ (upper l f).held q) ∧ apart [runL 16, runG 0x10000 2432] := by
  have far : apart [runL 16, runG 0x10000 2432] := by
    simpa [apart] using fun x h _ => runL_nowhere 16 x h
  have at_ : Quiet (upper l f) ∧ (∀ q ∈ runG 0x10000 2432, (upper l f).held q) ∧ ∀ j, j < 2432 → (upper l f).mem.read (0x10000 + j) = byteOf (2 ^ 19396) j := by
    obtain e | e := h <;> rw [e] <;>
      exact ⟨quiet_of _ (by decide +kernel), held_runG _ _ _ (by decide) (by decide +kernel) (by decide +kernel), frame_bytes (by decide +kernel) (by decide +kernel)⟩
  exact ⟨at_.1.clean, fun q hq => ⟨at_.1.plain (by decide) q hq, at_.2.1 q hq⟩, at_.1.points (by decide) at_.2.2, fun q hq => ⟨plain_runL _ _ q hq, held_runL _ _ q hq⟩, far⟩

/-- No group (outcome 6), an inline call (7), a held reservation (5); and a detached thread of a group, with and without an entry of its key. -/
def meeting (ms : List MeetEntry) : State :=
  let s := (grouped 2).modCluster 0 fun c => { c with meets := ms }
  let s := s.modPart 0 fun p => { p with cfg := { p.cfg with meetshare := 1 }, tasks := p.tasks.map fun e => (e.1, { e.2 with det := true }) }
  s.setX 6 0x8000
def entryOf (mult : Nat) : MeetEntry :=
  { part := 0, group := 0x8000, addr := 0, asid := 0, vals := [0x10000], survivor := 9, mult := mult, arrivals := 0, deadline := some 4 }
theorem wit_meet :
    passOutcome st 6 = some 6 ∧
    passOutcome (st.modSlot 15 fun v => { v with levels := [{ task := 1, inline := true, adopted := false, status := none, fplace := 1, future := 0 }] }) 6 = some 7 ∧
    passOutcome { meeting [] with resv := (queued [1] true false).resv } 6 = some 5 ∧ passOutcome (meeting []) 6 = none ∧ (meeting []).timeout (.imm 0) = some 0 ∧
    (meeting []).timeout (.imm 0xFFFFFF) = none ∧ ((meeting []).cluster 0).meets.length < 256 ∧ (((meeting []).cluster 0).meets.filter fun e => e.part == 0).length < ((meeting []).part 0).cfg.meetshare ∧
    (meeting []).slotOfTop (meeting []).ctx.task = some (meeting []).cur ∧ (meeting []).declared 4 = [0x10000] ∧
    (((meeting [entryOf 7]).cluster 0).meets.find? fun e => e.part == 0 && e.group == (meeting []).ctx.group && e.addr == (meeting []).ctx.pc && e.asid.toNat == 0 && e.vals == [0x10000]) =
      some (entryOf 7) ∧ (meeting []).cycle ≤ 4 ∧ 7 + (meeting []).ctx.mult.toNat < 2 ^ 32 ∧ 2 ^ 32 ≤ (entryOf (2 ^ 32 - 1)).mult + (meeting []).ctx.mult.toNat ∧
    groupCluster (meeting []).ctx.group = 0 ∧ ((meeting []).slot 15).deliverAll = (meeting []).slot 15 ∧
    ((st.part 0).cfg.meetshare ≤ 0 ∧ (List.replicate 256 (entryOf 1)).length ≥ 256) ∧ (((meeting []).slot 15).levels.drop 1 = [] ∧ ∀ l ∈ ((meeting []).slot 15).levels, l.task ≠ 9) ∧
    (let s := (meeting [entryOf 7]).modSlot 31 fun _ => { supervisorSlot with run := .sleeping (.meet 0), ctx := { Ctx.zero with task := 9 }
                                                                              levels := [{ task := 9, inline := false, adopted := false, status := none, fplace := 0, future := 0 }] }
     s.slotOfTop 9 = some 31 ∧ (s.slot 31).restoring = false ∧ (s.slot 31).run = .sleeping (.meet 0)) := by decide +kernel
theorem getD_default {α : Type} (t : Table α) (k : Nat) (d : α) (h : ∀ e ∈ t, e.1 ≠ k) : Table.getD t k d = d := by
  induction t with
  | nil => rfl
  | cons e r ih =>
    have : Table.getD (e :: r) k d = Table.getD r k d := by simp [Table.getD, Table.get?, h e List.mem_cons_self]
    rw [this, ih fun x hx => h x (List.mem_cons_of_mem _ hx)]
theorem wit_meet_survivor : ∀ q, ∀ x ∈ ((meeting [entryOf 7]).cluster q).meets, x.survivor = (entryOf 7).survivor → q = 0 ∧ x = entryOf 7 := by
  intro q x hx _
  by_cases h : q = 0
  · subst h
    exact ⟨rfl, List.mem_singleton.1 hx⟩
  · have k : ∀ e ∈ (meeting [entryOf 7]).clusters, e.1 = 0 := by decide +kernel
    have n : (meeting [entryOf 7]).cluster q = Cluster.empty := getD_default _ _ _ fun e he => by rw [k e he]; exact Ne.symm h
    rw [n] at hx
    cases hx

/-- Partition 0's inbox where `b` begins it, the directory begins behind it, and no other partition has either. -/
theorem plainInbox_of (s : State) (hr : (List.range 16).all (fun q => q == 0 || (s.part q).last.isNone && (s.part q).cfg.dirsize == 0) = true)
    (h0 : (s.part 0).cfg.dirbase = 0xBFC0020000 ∧ (s.part 0).cfg.finbox = 0xBFC0010000 ∧ (s.part 0).last.isSome = true) : s.plainInbox 0 := by
  have other : ∀ q, q < 16 → q ≠ 0 → (s.part q).last = none ∧ (s.part q).cfg.dirsize = 0 := by
    simpa [or_iff_not_imp_left] using hr
  intro j hj
  have out : s.dirOwner (0xBFC0010000 + j) = none := search_none _ fun q hq => by
    by_cases h : q = 0
    · have : ¬ (s.part 0).cfg.dirbase ≤ 0xBFC0010000 + j := by omega
      simp [h, this]
    · simp [(other q hq h).2]
  rw [h0.2.1]
  refine ⟨by simp only [hbmSize]; omega, out, ?_⟩
  split
  · refine search_none _ fun q hq => ?_
    by_cases h : q = 0
    · have : ¬ (s.part 0).cfg.finbox + 8 ≤ 0xBFC0010000 + j := by omega
      simp [h, this]
    · simp [(other q hq h).1]
  · have lo : (s.part 0).cfg.finbox + 8 ≤ 0xBFC0010000 + j := by omega
    have hi : 0xBFC0010000 + j < (s.part 0).cfg.finbox + inboxBytes := by simp only [inboxBytes]; omega
    rw [State.inboxOwner, List.range_succ_eq_map, List.find?_cons_of_pos (by simp [h0.2.2, lo, hi])]
theorem plainInbox_reset : st.plainInbox 0 := plainInbox_of st (by decide +kernel) (by decide +kernel)

/-- The same thread at task privilege, and merged. -/
def asTask : State := st.modSlot 15 fun v => { v with priv := 0 }
def merged (n : Nat) : State := st.modSlot 15 fun v => v.modCtx fun c => { c with mult := BitVec.ofNat 32 n }

theorem wit_stops :
    st.cur < slotCount ∧ st.memOk = true ∧
    ([.ctlw k8 4 .asid, .ctlw k8 4 .deqbase, .ctlw k8 4 .adoptmax, .ctlw k8 4 .savebase, .stest k8 3, .freeze k8 3 4, .resumeSKill k8 3 4 5, .resumeJReplay k8 3 4 5,
      .resumeHRelease k8 3 4 5, .resumePRelease k8 3 4 5, .vacate k8 3 4 5, .stopcut k8 3 4 5, .tlbinvAsid k8 3 4 5, .bbox k8 3 4 5] : List Instr).all
      (fun i => decide ((asTask.slot asTask.cur).priv.toNat < privNeed i)) = true ∧
    ([.amoswap k8 .s64 .none .unwritten o2 3 2, .amocas k8 .s64 .none .unwritten o2 3 2, .lrw k8 .s64 .none .unwritten o2 3, .sch k8 .s64 .none .unwritten o2 3 2,
      .schDrop k8 .s64 .none .unwritten o2 3 2, .lkacq k8 .unwritten o2 3, .qres k8 3 2, .qfil k8 3 2 4 5, .qenq k8 3 2 4, .qdeq k8 3 2 4] : List Instr).all onceOnly = true ∧
    1 < (merged 2).ctx.mult.toNat ∧ scopeOf (.fence k12 .none (.rect 3)) = some (.rect 3) ∧ rectOk ((st.setX 3 0x00000001).getX 3) = false ∧ st.ctx.mult.toNat ≤ 1 ∧
    plainForm (.ld k8 .s64 o2 3) = some (o2, 8) ∧ plainForm (.stq k8 o2 2) = some (o2, 16) ∧ localLayout .l ((st.setX 2 0xF801).getX 2 + 0) 8 = .ok () ∧
    ((st.setX 2 0xF801).getX 2 + 0).toNat % 8 ≠ 0 := by decide +kernel

/-- Values at the ends of what each register takes, and the two that MULT refuses. -/
theorem wit_controlRegisters :
    (([.mult, .fgroup, .stealdom, .fstat, .tidbase, .adoptmax, .savebase, .deqbase, .asid] : List CtlReg).all fun r =>
      (ctlWritten ((with45 (2 ^ 32 - 1) 0).u 4) r).isSome && decide (privNeed (.ctlw k8 4 r) ≤ (st.slot st.cur).priv.toNat)) = true ∧
    0 < (with45 (2 ^ 32 - 1) 0).u 4 ∧ (with45 (2 ^ 32 - 1) 0).u 4 < 2 ^ 32 ∧ 0 < (with45 1 0).u 4 ∧ (with45 0 0).u 4 = 0 ∧ 2 ^ 32 ≤ (with45 (2 ^ 32) 0).u 4 ∧
    ctlWritten 8 .adoptmax = some 1 ∧ ctlWritten 7 .adoptmax = some 7 := by decide +kernel

/-- Slot 31, of core 1, which partition 0 owns, with a thread of task 5 in a state; x4 and x5 as given. -/
def other (run : Run) (a b : Nat) : State :=
  let s := (with45 a b).modSlot 31 fun _ => { supervisorSlot with
    run := run, priv := 0, levels := [{ task := 5, inline := false, adopted := false, status := none, fplace := 0, future := 0 }] }
  s.modPart 0 fun p => { p with tasks := p.tasks ++ [(9, taskOf 5 .running)] }

theorem wit_commands_slots :
    1 ≤ (st.slot st.cur).priv.toNat ∧ slotCount ≤ (with45 18432 0).u 4 % 2 ^ 15 ∧ (with45 15 0).u 4 % 2 ^ 15 = (with45 15 0).cur ∧ (other .ready 31 0).u 4 % 2 ^ 15 = 31 ∧
    (other .ready 31 0).slotPart? 31 = some 0 ∧ ((other .ready 31 0).slot 31).run = .ready ∧ ((other .ready 31 0).slot 31).restoring = false ∧
    ((other (.frozen .fault .none) 31 0x201).slot 31).run = .frozen .fault .none ∧ (other .ready 31 0x1FF01).u 5 % 256 = 1 ∧ (other .ready 31 0x02).u 5 / 256 % 256 = 0 ∧
    (other .ready 31 4).u 5 % 256 = 4 ∧ (other .ready 31 0).owns 0 31 = true ∧ ((other .ready 31 0).slot 31).levels ≠ [] ∧ ((other .ready 31 0).part 0).cut = none ∧
    st.slotPart? 30 = none := by decide +kernel

/-- A frozen chain of two in slot 31, whose base's frame lies at 0x10000; a cut that holds a slot, open; and depths at and past the top. -/
def below (run : Run) (b : Nat) : State :=
  let e : TlbEntry := { part := 0, asid := 0, level := 0, vpage := 1, pte := 0x1015F }
  let s := (other run 31 b).modSlot 31 fun v => { (v.modReg 0 fun r => { r with savebase := 0x10000 }) with
    levels := [{ task := 6, inline := false, adopted := true, status := some 3, fplace := 0, future := 0 }] ++ v.levels }
  let s := (s.modCore 1 fun c => { c with utlb := [e] }).modCluster 0 fun c => { c with tlb := [e] }
  framed 0x10000 (s.modPart 0 fun p => { p with tasks := p.tasks ++ [(10, taskOf 6 .running)] })
theorem wit_commands_depths :
    let s := below (.frozen .fault .none) 0x102
    s.u 4 = 31 ∧ s.u 5 % 256 = 2 ∧ s.u 5 / 256 % 256 = 1 ∧ s.slotPart? 31 = some 0 ∧ (s.slot 31).stands = none ∧ (s.slot 31).levels.length = 2 ∧ (s.slot 31).restoring = false ∧
    s.owns 0 31 = true ∧ s.poison = [] ∧ (s.findTask 0 6).map (fun e => (hasFuture e.fplace, e.entries.isEmpty)) = some (false, true) ∧
    s.checkFrame (s.thr 31) .load (s.frameAddr 31 0) = .ok (runG 0x10000 2432) ∧ ((below (.frozen .fault .none) 0x202).slot 31).levels.length - 1 < 2 ∧
    (let c := (below (.frozen .cut .none) 1).modPart 0 fun p => { p with cut := some { cores := [1], issuer := 15 } }
     (c.slot 31).run = .frozen .cut .none ∧ (c.part 0).cut ≠ none ∧ c.u 5 % 256 = 1) := by decide +kernel
theorem wit_commands_frame :
    let w : State := { below (.frozen .fault .none) 0x102 with cur := 31 }
    w.clean ∧ (∀ q ∈ runG 0x10000 2432, w.plainRun q ∧ w.held q) ∧ pointsHold w (runG 0x10000 2432) (2 ^ 19396) := by
  have h : Quiet { below (.frozen .fault .none) 0x102 with cur := 31 } := quiet_of _ (by decide +kernel)
  exact ⟨h.clean, fun q hq => ⟨h.plain (by decide) q hq, held_runG _ _ _ (by decide) (by decide +kernel) (by decide +kernel) q hq⟩, h.points (by decide) (frame_bytes (by decide +kernel) (by decide +kernel))⟩

theorem wit_commands_jobs :
    let id : BitVec 32 := 1 * 2 ^ 16
    (withJob st (jobOf .mxq .frozen [])).findJob 0 id = .ok (0, 0, jobOf .mxq .frozen []) ∧ st.findJob 0 id = .error 0xE ∧
    (withJob st (jobOf .mxq .running [])).findJob 0 id = .ok (0, 0, jobOf .mxq .running []) ∧ (jobOf .mxq .frozen []).packet = none ∧
    (withJob st { jobOf .mxq .frozen [] with packet := some 0 }).findJob 0 id = .ok (0, 0, { jobOf .mxq .frozen [] with packet := some 0 }) ∧
    (withJob st (jobOf .mxq .frozen [])).findJob 0 (2 * 2 ^ 16) = .error 0xF := by decide +kernel

theorem wit_commands_units :
    2 ≤ (st.slot st.cur).priv.toNat ∧ (st.hostFn 15).frozen = false ∧ ((st.modHostFn 15 fun f => { f with frozen := true }).hostFn 15).frozen = true ∧
    (with45 (23 + 32 * 5) 0).u 4 % 32 = 23 ∧ (with45 (23 + 32 * 5) 0).u 4 / 32 % 2 ^ 11 = 5 ∧ (st.link 23).frozen = false ∧
    ((st.modLink 23 fun l => { l with frozen := true }).link 23).frozen = true ∧ (with45 24 0).u 4 % 32 = 24 := by decide +kernel

/-- One core beside the supervisor's, the supervisor's own, and every core. -/
theorem wit_vacatesAndCuts :
    rectOk 0x00010001 = true ∧ rectOk 0 = true ∧ rectOk 0x172F0000 = true ∧ (st.part 0).cfg.cores.getLsbD 1151 = true ∧ st.vacateRefusal 0 (st.coresIn 0 0x00010001) = 0 ∧
    (st.slot st.cur).run ≠ .idle ∧ coreOfSlot (st.part 0).cfg.supSlot = 0 ∧ coreOfSlot st.cur = 0 ∧ (st.slot st.cur).cont = .none ∧ (st.part 0).cut.isNone = true ∧
    (asTask.thr asTask.cur).part = 0 ∧ (asTask.slot asTask.cur).priv.toNat < 2 ∧ (st.modSlot 15 fun v => { v with cont := .cutSum 7 }).slot 15 ≠ st.slot 15 := by decide +kernel
theorem wit_vacates_named : named 0x00010001 1 ∧ ¬ named 0x00010001 0 ∧ named 0 0 ∧ ∀ c, ¬ (c < 1152 ∧ (st.part 1).cfg.cores.getLsbD c = true) := by
  refine ⟨by unfold named; decide, by unfold named; decide, by unfold named; decide, fun c h => ?_⟩
  have e : (st.part 1).cfg.cores = 0 := by decide +kernel
  simp [e] at h
theorem wit_vacates_all (c : Nat) (h : c < 1152) : named 0x172F0000 c :=
  ⟨Nat.zero_le _, show c % 48 ≤ 47 by omega, Nat.zero_le _, show c / 48 ≤ 23 by omega⟩
/-- Of partition 0 with cores 0 and 4, core 4 alone lies in its cluster (1), where a group has members and has none; slot 31's chain has no save area. -/
def two (n : Nat) : State :=
  (st.modPart 0 fun p => { p with cfg := { p.cfg with cores := 17 } }).modCluster 1 fun c => { c with groups := [(0, { part := 0, count := n })] }
theorem wit_vacates_refused :
    clusterOfCore 0 = 0 ∧ clusterOfCore 4 = 1 ∧ ((two 1).part 0).cfg.cores = 17 ∧ coreOfSlot ((two 1).part 0).cfg.supSlot = 0 ∧ rectOk 0x00040004 = true ∧
    (0, { part := 0, count := 1 }) ∈ ((two 1).cluster 1).groups ∧ (∀ g ∈ ((two 0).cluster 1).groups, g.2.count = 0) ∧
    (let s := other .ready 0 0
     31 ∈ s.slotsHeld 0 1 ∧ s.chainIn 0 31 ≠ [] ∧ (s.vacateFrame 0 31).isOk = false ∧ s.clusters.all (fun e => e.2.groups.isEmpty) = true) := by decide +kernel
theorem wit_vacates_cores : (named 0x00040004 4 ∧ ¬ named 0x00040004 0) ∧ ∀ c, c < 1152 → (17 : BitVec 1152).getLsbD c = true → c = 0 ∨ c = 4 :=
  ⟨by unfold named; decide, by decide +kernel⟩

theorem wit_systemServices :
    1 ≤ (st.slot st.cur).priv.toNat ∧ (st.part 0).cfg.asidFirst = 1 ∧ (st.part 0).cfg.asidLast = 15 ∧ (with45 0 15).u 5 % 2 ^ 11 = 15 ∧ (with45 0 2064).u 5 % 2 ^ 11 = 16 ∧
    st.inboxTail 0 = st.inboxHead 0 ∧
    (let s := st.modPart 0 fun p => { p with tail := 1 }
     s.inboxTail 0 ≠ s.inboxHead 0) ∧
    (with45 1 0).u 4 % 2 = 1 ∧ (with45 2 1).u 4 / 2 % 2 = 1 ∧ (with45 2 0).u 5 ≤ st.cycle ∧ ¬ ((with45 2 1).u 5 ≤ st.cycle) ∧ (asTask.slot asTask.cur).priv = 0 := by
  decide +kernel

/-! #### Jobs -/

/-- A record from its base, format, layout, extents and strides (R213), with a count and a sparsity. -/
def recBits (base fmt layout e0 e1 s0 s1 sparse count : Nat) : BitVec 512 :=
  BitVec.ofNat 512 (base + fmt * 2 ^ 66 + layout * 2 ^ 70 + sparse * 2 ^ 72 + count * 2 ^ 80 + 2 ^ 88 + e0 * 2 ^ 96 + e1 * 2 ^ 128 + s0 * 2 ^ 224 + s1 * 2 ^ 256 + 10 * 2 ^ 480)
/-- A thread that may use the buffers of its core, with cached records: A (1), B (2), C (3), a source (4), a destination (5), a sparse B (6) and a counted destination (7); x4 to x10
hold the numbers. -/
def jobs : State :=
  let s := st.modPart 0 fun p => { p with cfg := { p.cfg with ranges := [(0xF800, 0x10000), (0, 4096), (0, 4096), (0, 4096)] } }
  let r (tid : BitVec 16) (b : BitVec 512) : RecEntry := { part := 0, tidbase := 0, tid := tid, data := b }
  let s := s.modCluster 0 fun c => { c with records := [
    r 1 (recBits 0x20000 0 0 2 1 1 96 0 0), r 2 (recBits 0x40000 0 1 2 1 0 0 0 0), r 3 (recBits 0x60000 2 0 1 1 4 128 0 0), r 4 (recBits 0xF800 4 0 16 1 1 0 0 0),
    r 5 (recBits 0xF900 4 0 16 1 1 0 0 0), r 6 (recBits 0x40000 0 1 2 1 0 0 1 0), r 7 (recBits 0xF900 4 0 16 1 1 0 0 3)] }
  ((((((s.setX 4 1).setX 5 2).setX 6 3).setX 7 4).setX 8 5).setX 9 6).setX 10 7
def jd0 : JobDesc := { sc := .unwritten, breg := 0, bpl := .l }

/-- R213: SPLACE .I (0b10 in [425:424]) makes a record invalid, with SBLK 0 as well. -/
theorem test_splace_i : scaleFieldsOk (trec (recBits 0xF800 4 0 16 1 1 0 0 0)) .src = true ∧
    scaleFieldsOk (trec (recBits 0xF800 4 0 16 1 1 0 0 0 ||| BitVec.ofNat 512 (2 ^ 425))) .src = false := by decide +kernel

/-- Every hypothesis of a matrix job's enqueue. -/
def matrixReady (s : State) (gang : Bool) (sparse : Nat → Bool) (i : Instr) (a b c : Reg) : Bool :=
  match s.readRole a .a gang sparse with
  | .error _ => false
  | .ok x =>
    match x.1.readRole b .b gang sparse with
    | .error _ => false
    | .ok y =>
      match y.1.readRole c .c gang sparse with
      | .error _ => false
      | .ok z => matrixAgrees (trec x.2) (trec y.2) (trec z.2) && decide (s.jobBar jd0 = .ok []) && decide (s.checkScope .unwritten i = .ok ())
/-- Every hypothesis of a copy job's enqueue. -/
def copyReady (s : State) (fill : Bool) (i : Instr) (a b : Reg) : Bool :=
  match s.readRole a .src false (fun _ => true) with
  | .error _ => false
  | .ok x =>
    match x.1.readRole b .dst false (fun _ => true) with
    | .error _ => false
    | .ok y => copyAgrees (trec x.2) (trec y.2) fill && decide (s.jobBar jd0 = .ok []) && decide (s.checkScope .unwritten i = .ok ()) &&
        (footOf (s.thr s.cur) (trec x.2) false).all fun r => (footOf (s.thr s.cur) (trec y.2) true).all fun w => !y.1.meets r w
/-- A copy whose source and destination overlap. -/
def copyOverlaps (s : State) (a b : Reg) : Bool :=
  match s.readRole a .src false (fun _ => true) with
  | .error _ => false
  | .ok x =>
    match x.1.readRole b .dst false (fun _ => true) with
    | .error _ => false
    | .ok y => copyAgrees (trec x.2) (trec y.2) false &&
        (footOf (s.thr s.cur) (trec x.2) false).any fun r => (footOf (s.thr s.cur) (trec y.2) true).any fun w => y.1.meets r w

theorem wit_jobQueue :
    jobs.cur < slotCount ∧ jobs.memOk = true ∧ matrixReady jobs false (fun n => (n != 0) == false) (.mxq k12 jd0 true 3 4 5 6) 4 5 6 = true ∧
    matrixReady jobs false (fun n => (n != 0) == true) (.mxqs k12 jd0 false 3 4 9 6) 4 9 6 = true ∧ (jobs.readRole 5 .b false (fun _ => true)).isOk = true ∧
    copyReady jobs false (.cpq k12 jd0 3 7 8) 7 8 = true ∧ copyReady jobs true (.cpf k12 jd0 3 7 10) 7 10 = true ∧ copyOverlaps jobs 8 8 = true ∧ jobs.entryFor = some 0 ∧
    (jobs.modPart 0 fun p => { p with cfg := { p.cfg with qshare := 0 } }).entryFor = none := by decide +kernel
/-- A gang of cores 0 and 1 of the cluster: none yet, and one that only core 0's member is missing from. -/
def ganged : State :=
  (jobs.setX 11 3).modCluster 0 fun c => { c with gangs := [
    { part := 0, members := 3, tag := 0, entry := 2, dup := true, scope := .unwritten, rect := 0, greg := 11, recA := 0,
      recB := 0, recC := 0, tids := 1 + 2 * 2 ^ 16 + 3 * 2 ^ 32, joined := [(1, 31, none)] }] }
theorem wit_jobQueue_gang :
    matrixReady jobs true (fun _ => true) (.mxg k12 jd0 true 11 3 4 5 6) 4 5 6 = true ∧ matrixReady ganged true (fun _ => true) (.mxg k12 jd0 true 11 3 4 5 6) 4 5 6 = true ∧
    ganged.u 11 < 2 ^ 16 ∧ 2 ≤ ((List.range 8).filter (ganged.u 11).testBit).length ∧ (ganged.u 11).testBit (coreIndex 0) = true ∧ (jobs.cluster 0).gangs = [] ∧
    ((ganged.cluster 0).gangs.map fun q => (q.members.toNat, q.tag.toNat, q.tids.toNat, q.joined.map Prod.fst)) = [(3, 0, ganged.u 4 + 2 ^ 16 * ganged.u 5 + 2 ^ 32 * ganged.u 6, [1])] ∧
    (jobs.modPart 0 fun p => { p with cfg := { p.cfg with qshare := 0 } }).entryFor = none ∧ jobs.entryFor = some 0 ∧
    (let s := jobs.modSlot 31 fun _ => { supervisorSlot with priv := 0, run := .stalled (.jobEntry 0 (some 3)) }
     s.slotPart? 31 = some 0 ∧ clusterOfCore (coreOfSlot 31) = 0 ∧ (s.slot 31).run = .stalled (.jobEntry 0 (some 3))) ∧
    (jobs.slot jobs.cur).cont = .none ∧ ((jobs.modSlot 15 fun v => { v with cont := .gangJob 9 }).slot 15).cont = .gangJob 9 := by decide +kernel

/-- A cached record and one to be read from the page, jobs in the states that the clauses tell apart, an engine free and busy. -/
theorem wit_jobWatch :
    (jobs.cluster 0).records.length = 7 ∧ jobs.tidbase = 0 ∧ (pg.cluster 0).records = [] ∧
    (let s := pg.modSlot 15 fun v => v.modReg 0 fun r => { r with tidbase := 0x10000 }
     s.check (s.thr s.cur) .g .load false (s.tidbase + BitVec.ofNat 64 (64 * 1)) 64 64 0 = .ok (runG 0x10040 64)) ∧
    (([.queued, .awaitingLeave, .running, .frozen, .done, .cancelled] : List JobState).all fun x => decide ((withJob st (jobOf .mxq x [])).findJob 0 (2 ^ 16) = .ok (0, 0, jobOf .mxq x []))) = true ∧
    st.findJob 0 0xFFFFFFFF = .error 0xE ∧ (withJob st (jobOf .mxq .running [])).matrixRuns 0 = true ∧ st.matrixRuns 0 = false ∧ (st.cluster 0).fenced ≤ 18 ∧
    ((st.modSlot 31 fun v => { v with cont := .stest }).slot 31).cont = .stest ∧
    (let w : Away := { run := .sleeping (.engine 0), levels := [], cont := .stest, stepArmed := false, waitFrom := 0, packet := none, stands := none }
     ((st.modSlot 31 fun v => { v with away := [(1, w)] }).slot 31).away = [(1, w)] ∧ w.cont = .stest) ∧ 1 ≤ (st.slot st.cur).priv.toNat ∧ (asTask.slot 15).priv = 0 := by decide +kernel

/-! #### Events -/

/-- The thread's slot in a state of its own. -/
def inRun (run : Run) : State := st.modSlot 15 fun v => { v with run := run }

theorem wit_threadEvents_results :
    let s := st.modSlot 15 fun v => { v with run := .parked, pending := [resX 3 1, resV 4 2, resX 3 5] }
    ((s.slot 15).pending[2]?).map (fun r => (r.isVec, r.reg)) = some (false, 3) ∧ ((s.slot 15).pending[1]?).map (fun r => (r.isVec, r.reg)) = some (true, 4) ∧ (s.slot 15).pending.length ≤ 3 ∧
    (inRun (.sleeping (.barrier (.buf 0 0xF800) 0 0 (some 0)))).cycle = 0 ∧ (st.slot 15).run = .ready ∧ (inRun (.sleeping .released)).slot 15 ≠ st.slot 15 ∧ (st.slot 15).stepArmed = false ∧
    st.wouldTake (st.thr 15).part 1 false 0 = true ∧ (st.modPart 0 fun p => { p with cfg := { p.cfg with cores := 1 } }).wouldTake 0 1 false 0 = false ∧ (st.slot 15).restoring = false ∧ st.dirRoom 0 = true ∧
    (st.modPart 0 fun p => { p with cfg := { p.cfg with dirsize := 1 } }).dirRoom 0 = false := by decide +kernel
/-- Each wait that one reading decides, with a state where its condition holds and one where it does not; and a meet entry at and before its deadline. -/
theorem wit_threadEvents_waits :
    barGen (st.locRead (.buf 0 0xF800) 0 16) ≠ (1 : BitVec 30).toNat ∧ barGen (st.locRead (.buf 0 0xF800) 0 16) = (0 : BitVec 30).toNat ∧
    (st.resvAt (firstLoc8 (runL 8))).isNone = true ∧ ((queued [2] true false).resvAt (firstLoc8 (runL 8))).map (fun r => r.queue.head?) = some (some 2) ∧
    (st.groupOf 0 0x8000).isNone = true ∧ ((grouped 3).groupOf 0 0x8000).map Group.count = some 3 ∧ st.claimsOn 0 (rowOf 0xF800) = 0 ∧ claimed.claimsOn 0 (rowOf 0xF800) ≠ 0 ∧
    st.matrixRuns 0 = false ∧ claimed.matrixRuns 0 = true ∧ (st.part 0).cut.isNone = true ∧ (withJob st (jobOf .cpq .done [])).findJob 0 (2 ^ 16) = .ok (0, 0, jobOf .cpq .done []) ∧
    (let e := { entryOf 3 with survivor := 1, deadline := some 0 }
     let s := (meeting [e]).modSlot 15 fun v => { v with run := .sleeping (.meet 0) }
     (s.cluster 0).meets[0]? = some e ∧ s.slotOfTop 1 = some 15 ∧ s.cycle ≤ 0 ∧ 0 < ({ s with cycle := 1 } : State).cycle ∧ (s.slot 15).run = .sleeping (.meet 0)) ∧
    ({ st with cycle := 15 } : State).issues 0 15 = some 15 := by decide +kernel
def msgTo (core part : Nat) : Message := { target := core, part := part, record := recFor 0 0, hasId := false, colour := false, counted := true, source := .host 0 }
/-- A state whose core holds messages in its inbox. -/
def boxed (c : Nat) (l : List Message) : State := st.modCore c fun k => { k with inbox := l }
theorem wit_workEvents_arrival :
    st.ownsOn 0 1151 = true ∧ st.idleSlot 0 1151 = some 18431 ∧ st.idleSlot 0 0 = none ∧ ((boxed 0 []).core 0).inbox.length < st.inboxShare 0 0 ∧ st.inboxShare 0 0 = 4 ∧ (∀ e ∈ ((boxed 0 [msgTo 0 0]).core 0).inbox, e.part = 0 → e.source ≠ .core 3) ∧
    (((boxed 0 [msgTo 0 0, msgTo 0 0, msgTo 0 0, msgTo 0 0]).core 0).inbox.filter fun e => e.part == 0).length = 4 ∧ st.ownsOn 1 0 = false ∧ st.dirRoom 0 = true ∧
    (st.part 0).tasks.length + 2 < 2 ^ 28 := by decide +kernel
theorem wit_workEvents_dispatch :
    let s := boxed 1 [msgTo 1 0]
    (s.core 1).lastStart ≠ some s.cycle ∧ s.idleSlot 0 1 = some 31 ∧ (∀ q, q < 16 → q ≠ 0 → s.idleSlot q 1 = none) ∧ (s.deque 0 1).isNone = true ∧ 0 ∉ (s.core 1).draining ∧
    ((s.core 1).inbox.filter fun e => e.part == 0).head? = some (msgTo 1 0) ∧ (∀ q, q < 16 → st.idleSlot q 0 = none) ∧ st.slotPart? 31 = some 0 ∧ st.slotFree 0 31 = true ∧
    st.slotFree 0 15 = false ∧ (st.slot 31).waitFrom ≤ st.cycle ∧ (st.dispatchFor 0 1 31).isNone = true := by decide +kernel
/-- A damaged record that lies topmost on core 1, which serves its deque alone; and a core of a cut, which has flipped, and one that has not. -/
theorem wit_workEvents_damage :
    (let s : State := { tkWith 1 (recFor 5 1) (taskOf 5 .unstarted) with poison := [.row 1 (rowOf 0xFC40)] }
     s.searchEcc 0 1 true = some (mkFault .ecc 1 0x8FC40 0) ∧ s.idleSlot 0 1 = some 31 ∧ (s.core 1).inbox = [] ∧ (s.core 1).lastStart ≠ some s.cycle) ∧
    (boxed 1 [msgTo 1 0]).headerEcc 0 1 = none ∧ st.colourOf 0 1 = false ∧ (st.modCore 1 fun c => { c with colour := [0] }).colourOf 0 1 = true := by decide +kernel
theorem wit_workEvents_theft :
    (∀ x, st.deque 0 x = none ∧ st.headerEcc 0 x = none) ∧
    (let s := tkWith 0 (recFor 5 1) (taskOf 5 .unstarted)
     let victims := (List.range 8).filterMap fun i => if coreOfIndex (clusterOfCore 1) i = 1 then none else some (coreOfIndex (clusterOfCore 1) i)
     let b := s.catchUp 1
     let i := (b.core 1).ringPtr 1 0 % 7
     let u := (b.modCore 1 fun k => k.setRing 1 0 ((i + 1) % 7)).trimT 0 0
     victims[i]? = some 0 ∧ victims.length = 7 ∧ u.topRec 0 0 = some (recFor 5 1) ∧ u.findTask 0 5 = some (taskOf 5 .unstarted) ∧
     (b.modCore 1 fun k => k.setRing 1 0 ((i + 1) % 7)).searchEcc 0 0 false = none ∧ u.stealable 0 1 0 (recFor 5 1) (taskOf 5 .unstarted) = true ∧ s.slotFree 0 31 = true ∧ (s.dispatchFor 0 1 31).isNone = true ∧ (s.core 1).lastStart ≠ some s.cycle) ∧
    ((st.slot 31).waitFrom ≤ st.cycle ∧ (st.cycle - (st.slot 31).waitFrom) % 64 = 0 ∧ (({ st with cycle := 63 } : State).cycle - (st.slot 31).waitFrom) % 64 ≠ 0) ∧
    (st.slot 31).waitFrom = st.cycle ∧ ([1, 2, 3].all fun r => decide (0 < (st.ringCores 0 1 r).length)) = true :=
  ⟨fun x => by
      have h : st.core x = Core.empty := rfl
      have k : (!capOk ((Core.empty.buf.readN ((Core.empty.deqbase.getD 0 0).toNat) 64) / 2 ^ 64 % 2 ^ 16)) = true := by decide +kernel
      refine ⟨?_, ?_⟩
      · rw [State.deque, State.bufRead, h]
        exact if_pos (by simp only [k, Bool.or_true, Bool.true_or])
      · simp [State.headerEcc, State.rowEcc, show st.poison = [] from rfl],
    by decide +kernel⟩
/-- No other slot of core 1 may take a task. -/
theorem wit_workEvents_alone : ∀ m, coreOfSlot m = 1 → m ≠ 31 → ∀ q, st.slotFree q m = false := by
  intro m h n q
  have all : ∀ j, j < 15 → st.slotPart? (16 + j) = none := by decide +kernel
  have e : m = 16 + (m - 16) ∧ m - 16 < 15 := by simp only [coreOfSlot] at h; omega
  have k := all (m - 16) e.2
  rw [← e.1] at k
  simp [State.slotFree, k]
def lineOf (count : Nat) : CLine := { part := 0, asid := 0, vline := 512, pline := 512, data := 0xAB, dirty := 1, count := count, filled := 0, spill := none, bad := false }
theorem wit_workEvents_eviction :
    ((pg.modCluster 0 fun c => { c with lines := [lineOf 0] }).cluster 0).lines[0]? = some (lineOf 0) ∧ (pg.modCluster 0 fun c => { c with lines := [lineOf 0] }).memOk = true ∧
    ((pg.modCluster 0 fun c => { c with lines := [lineOf 1] }).cluster 0).lines[0]? = some (lineOf 1) ∧ (lineOf 0).dirty.getLsbD 0 = true := by decide +kernel

/-- Partitions 1 and 2 take turns on slot 0 of every core in slices of `len` cycles; `now` has its slice on core 0, whose slot 0 partition 1 holds; their
switch areas begin at 0. -/
def sliced (len now : Nat) : State :=
  let c : PartCfg := { PartCfg.none with running := true, sliced := true, ring := 0, sliceLen := len, slots := 1, cores := Config.coresEnabled }
  let s := (st.modPart 1 fun p => { p with cfg := c }).modPart 2 fun p => { p with cfg := c }
  (s.modCore 0 fun k => { k with sliceOf := [(0, now)] }).modSlot 0 fun v => { v with holder := some 1 }
theorem wit_sliceEvents :
    let s := sliced 0 2
    ((sliced 0 1).core 0).sliceOf.get? 0 = some 1 ∧ (sliced 0 1).nextInRing 1 0 = some 2 ∧ (st.core 0).sliceOf.get? 0 = none ∧
    ((sliced 0 1).core 0).sliceFrom.getD 0 0 + ((sliced 0 1).part 1).cfg.sliceLen ≤ (sliced 0 1).cycle ∧
    ¬ (((sliced 1 1).core 0).sliceFrom.getD 0 0 + ((sliced 1 1).part 1).cfg.sliceLen ≤ (sliced 1 1).cycle) ∧ (sliced 0 1).slotPart? 0 = some 1 ∧
    (sliced 0 1).inForce 1 (coreOfSlot 0) = some 1 ∧ s.slotPart? 0 = some 1 ∧ s.inForce 1 (coreOfSlot 0) = some 2 ∧ s.memOk = true ∧ (s.slot 0).restoring = false ∧
    (s.slot 0).pending = [] ∧ s.cycle % 16 = 0 % 16 ∧ s.switchAddr 1 0 + 2432 ≤ hbmSize ∧ (s.slot 0).away.get? 2 = none ∧
    (let far : State := s.modPart 1 fun p => { p with cfg := { p.cfg with switchbase := hbmSize - 2431 } }
     hbmSize < far.switchAddr 1 0 + 2432 ∧ far.inForce 1 0 = some 2 ∧ ((far.modSlot 0 fun v => { v with run := .frozen .fault .none }).slot 0).run = .frozen .fault .none) ∧
    (∀ l ∈ (s.cluster 0).lines, l.part = 1 → l.count = 0) := by decide +kernel
theorem wit_sliceEvents_inbox : (sliced 0 2).plainInbox 0 := plainInbox_of _ (by decide +kernel) (by decide +kernel)
/-- A slot that comes back: without a thread, and with a frame that is valid and one that is not. -/
def restored (levels : List Level) (flag : Nat) : State :=
  let s := (sliced 0 1).modSlot 0 fun v => { v with restoring := true, levels := levels }
  { s with mem := s.mem.writeN (s.switchAddr 1 0 + 2424) 8 flag }
theorem wit_sliceEvents_restore :
    ((restored [] 0).slot 0).restoring = true ∧ (restored [] 0).slotPart? 0 = some 1 ∧ (restored [] 0).switchAddr 1 0 = 0 ∧ (restored (st.slot 15).levels 16).switchAddr 1 0 = 0 ∧
    (st.slot 15).levels ≠ [] ∧ 0 + 2432 ≤ hbmSize ∧ (restored (st.slot 15).levels 16).areaEcc 0 = none ∧
    ({ restored (st.slot 15).levels 16 with poison := [.line 3 true] } : State).areaEcc 0 = some (mkFault .ecc 4 384 0) ∧
    ∀ f h, ((restored (st.slot 15).levels 16).slot 0).run ≠ .frozen f h := by
  refine ⟨by decide +kernel, by decide +kernel, by decide +kernel, by decide +kernel, by decide +kernel, by decide +kernel, by decide +kernel, by decide +kernel, fun f h e => ?_⟩
  have idle : ((restored (st.slot 15).levels 16).slot 0).run = .idle := by decide +kernel
  rw [idle] at e
  cases e
theorem wit_sliceEvents_frames :
    ((restored (st.slot 15).levels 16).homeRead 0 2432).testBit 19396 = true ∧ ((restored (st.slot 15).levels 0).homeRead 0 2432).testBit 19396 = false := by
  have h (flag : Nat) (q : quiet (restored (st.slot 15).levels flag) = true) {v : Nat}
      (hb : ∀ i, i < 2432 → (restored (st.slot 15).levels flag).mem.read (0 + i) = byteOf v i) :
      (restored (st.slot 15).levels flag).homeRead 0 2432 = v % 256 ^ 2432 :=
    State.homeRead_bytes 0 2432 v fun i hi => ((quiet_of _ q).homeByte (by omega)).trans (hb i hi)
  have empty : (restored (st.slot 15).levels 0).mem = [] := by decide +kernel
  rw [h 16 (by decide +kernel) (frame_bytes (by decide +kernel) (by decide +kernel)),
    h 0 (by decide +kernel) (v := 0) fun i _ => by simp [empty, Memory.read, Memory.unlisted, byteOf]]
  decide +kernel

/-! #### Engines, the outside, and steps -/

/-- A job that copies one zero byte of the buffers onto another leaves its state as it is, however far it goes. -/
def oneByte (base : Nat) : BitVec 512 := recBits base 4 0 1 1 1 0 0 0
def copyJob : Job := { jobOf .cpq .running [] with recA := oneByte 0xF800, recB := oneByte 0xF900 }
def copies : State := withJob (jobs.modCore 0 id) copyJob
theorem copyElem_copies (n : Nat) : copies.copyElem 0 copyJob n = .ok (copies, 0) := by
  have a0 : (trec copyJob.recA).e 0 = 1 ∧ (trec copyJob.recA).e 1 = 1 ∧ (trec copyJob.recA).e 2 = 1 ∧ (trec copyJob.recA).st 3 = 0 ∧ (trec copyJob.recB).st 3 = 0 := by decide +kernel
  have at_ : ∀ (r : TRec) (m : Nat), r.st 3 = 0 → r.at 0 0 0 m = r.at 0 0 0 0 := by
    intro r m h
    simp only [TRec.at, h, mul_zero]
  have h0 : copies.copyElem 0 copyJob 0 = .ok (copies, 0) := by decide +kernel
  rw [← h0]
  simp only [State.copyElem, TRec.index, destIndex, a0.1, a0.2.1, a0.2.2.1, Nat.mod_one, mul_one, Nat.div_one, Nat.zero_div]
  rw [at_ _ n a0.2.2.2.1]
  split <;> rw [at_ _ n a0.2.2.2.2]
theorem copyTo_copies (n : Nat) (u : State) (fl : Flags) (h : copies.copyTo 0 copyJob n = .ok (u, fl)) : u = copies := by
  let step (x : State × Flags) (n : Nat) : Except EngErr (State × Flags) := do
    let r ← x.1.copyElem 0 copyJob n
    .ok (r.1, x.2 ||| r.2)
  have stays (l : List Nat) : ∀ c, ∃ c', l.foldlM step (copies, c) = .ok (copies, c') := by
    induction l with
    | nil => exact fun c => ⟨c, rfl⟩
    | cons m _ ih =>
      intro c
      have e : step (copies, c) m = .ok (copies, c ||| 0) := by
        simp only [step, copyElem_copies m]
        rfl
      rw [List.foldlM_cons, e]
      exact ih _
  obtain ⟨c, e⟩ := stays ((List.range (n - copyJob.elems)).map (copyJob.elems + ·)) 0
  cases h.symm.trans e
  rfl
/-- What an engine reads at one byte is there and 0. -/
def zeroAt (s : State) (t : Thr) (sp : Space) (a : Word) : Bool := match s.engRuns t sp .load a 1 with | .ok ps => s.engPieces t ps == 0 | .error _ => false
theorem engView_zero {s : State} {t : Thr} {sp : Space} {a : Word} (h : zeroAt s t sp a = true) (i : Nat) :
    ∃ b, s.engView s t sp .load a b ∧ b.getLsbD (i % 8) = (0 : Nat).testBit i := by
  unfold zeroAt at h
  split at h
  · next ps e => exact ⟨0, ⟨ps, e, by simpa using h⟩, by simp⟩
  · contradiction
theorem wit_copyResults :
    copies.memOk = true ∧ copies.job? 0 0 = some copyJob ∧ copyJob.state = .running ∧ copyJob.kind.isMatrix = false ∧ copyJob.bars = [] ∧ copyJob.nextCut = none ∧
    copies.copyCheck 0 copyJob = .ok () ∧ (copies.copyTo 0 copyJob (trec copyJob.recB).elems).isOk = true ∧ copies.home = [] ∧ (trec copyJob.recB).elems = 1 ∧
    (let t := copyJob.thr 0 0
     (∀ i, i < 8 → ∀ k, k < 8 → (copies.engLoc t .l .store (0xF900 + BitVec.ofNat 64 (i / 8)), i % 8) = (copies.engLoc t .l .store (0xF900 + BitVec.ofNat 64 (k / 8)), k % 8) → i = k) ∧
     copies.engLoc t .l .store 0xF900 = some (.buf 0 0xF900) ∧ copies.engLoc t .l .load 0xF800 = some (.buf 0 0xF800) ∧
     (∀ b, b < 4 → copies.engLoc t .l .load (BitVec.ofNat 64 b) = none)) := by decide +kernel
theorem wit_copyResults_views :
    (∀ n u fl, copies.copyTo 0 copyJob n = .ok (u, fl) → ∀ sp k b m, u.engRuns (copyJob.thr 0 0) sp k b m = copies.engRuns (copyJob.thr 0 0) sp k b m) ∧
    (∀ c, (copies.cluster c).lines = []) ∧ copies.engElem copies (copyJob.thr 0 0) .l .load (0xF800, 0) 8 0 := by
  refine ⟨fun n u fl h _ _ _ _ => by rw [copyTo_copies n u fl h], (quiet_of copies (by decide +kernel)).lines, by decide, fun i hi => ?_⟩
  have e : (0 + i) / 8 = 0 := by omega
  rw [e]
  simpa using engView_zero (show zeroAt copies (copyJob.thr 0 0) .l (0xF800 + BitVec.ofNat 64 0) = true by decide +kernel) i

/-- The states of a job of the copy unit: queued, with and without leave to ask, granted, and the die's list of grants full and not. -/
theorem wit_engineEvents_start :
    let q := withJob st (jobOf .cpq .queued [])
    let l := withJob st { jobOf .cpq .queued [] with leave := true }
    let g := (withJob st (jobOf .cpq .awaitingLeave [])).modDie 0 fun d => { d with granted := [(jobOf .cpq .awaitingLeave []).id 0 0] }
    (q.cluster 0).jobs = [(0, jobOf .cpq .queued [])] ∧ q.eligible 0 false (jobOf .cpq .queued []) = true ∧ q.engineFree 0 false = true ∧ (q.grantedJob 0 false).isNone = true ∧
    l.eligible 0 false { jobOf .cpq .queued [] with leave := true } = true ∧ (l.grantedJob 0 false).isNone = true ∧ g.grantedJob 0 false = some 0 ∧ g.engineFree 0 false = true ∧
    (withJob st (jobOf .mxq .running [])).engineFree 0 true = false ∧ dieOfCluster 0 = 0 ∧
    ((st.modDie 0 fun d => { d with waiting := [5], thermal := 2, granted := [1, 2, 3] }).die 0).granted.length < 4 ∧
    ((st.modDie 0 fun d => { d with waiting := [5], thermal := 3 }).die 0).granted.length = 0 := by decide +kernel
/-- Running jobs: a product, a copy and a counted fill that no fault stops, one that a record outside the buffers stops, and a copy of more than 4,096 bytes. -/
def running (kind : JobKind) (a b c : BitVec 512) : Job := { jobOf kind .running [] with recA := a, recB := b, recC := c }
def jA : BitVec 512 := recBits 0x20000 0 0 2 1 1 96 0 0
def jB : BitVec 512 := recBits 0x40000 0 1 2 1 0 0 0 0
def jC : BitVec 512 := recBits 0x60000 2 0 1 1 4 128 0 0
def jS : BitVec 512 := recBits 0xF800 4 0 16 1 1 0 0 0
theorem wit_engineEvents_run :
    (jobs.product 0 (running .mxq jA jB jC)).isOk = true ∧ (running .cpq jS (recBits 0xF900 4 0 16 1 1 0 0 0) 0).nextCut = none ∧
    (jobs.copyTo 0 (running .cpq jS (recBits 0xF900 4 0 16 1 1 0 0 0) 0) 16).isOk = true ∧ (running .cpf jS (recBits 0xF800 4 0 128 1 1 0 0 3) 0).nextCut = none ∧
    jobs.fillCheck 0 (running .cpf (recBits 0xFA00 4 0 128 1 1 0 0 0) (recBits 0xF800 4 0 128 1 1 0 0 3) 0) = .ok () ∧
    (jobs.copyTo 0 (running .cpf (recBits 0xFA00 4 0 128 1 1 0 0 0) (recBits 0xF800 4 0 128 1 1 0 0 3) 0) 128).isOk = true ∧
    (jobs.jobFault 0 (running .cpq (recBits 0x100000 4 0 16 1 1 0 0 0) (recBits 0xF900 4 0 16 1 1 0 0 0) 0)).isSome = true ∧
    (jobs.jobFault 0 (running .mxq jA jB jC)).isNone = true ∧ (running .cpq 0 (recBits 0x40000 7 0 512 1 8 0 0 0) 0).nextCut = some 512 ∧
    (jobs.copyTo 0 (running .cpq (recBits 0xF800 7 0 512 1 0 0 0 0) (recBits 0x40000 7 0 512 1 8 0 0 0) 0) 512).isOk = true := by decide +kernel
/-- The hypotheses of a product: a job whose row of C lies where no other accumulator does. -/
theorem wit_matrixResults :
    let j := running .mxq jA jB jC
    let s := withJob jobs j
    s.memOk = true ∧ s.job? 0 0 = some j ∧ j.state = .running ∧ j.kind.isMatrix = true ∧ j.bars = [] ∧ (s.product 0 j).isOk = true ∧ j.kind ≠ .mxlb ∧
    matrixAgrees (trec jA) (trec jB) (trec jC) = true ∧ (trec jC).place ≠ .g ∧ (trec jA).sblk = 0 ∧ (trec jB).sblk = 0 ∧ (trec jA).e 1 = 1 ∧ (trec jC).e 0 = 1 ∧
    (∀ n, n < 4 → ∀ n', n' < 4 → localPlace (j.thr 0 0) (trec jC).place ((trec jC).base + BitVec.ofInt 64 (((0 : Nat) : Int) * (trec jC).st 1) + BitVec.ofNat 64 (0 + n)).toNat =
      localPlace (j.thr 0 0) (trec jC).place ((trec jC).base + BitVec.ofInt 64 (((0 : Nat) : Int) * (trec jC).st 1) + BitVec.ofNat 64 (0 + n')).toNat → n = n') ∧
    (s.cluster 0).panel = none ∧ (trec jB).stored = 1 ∧ (trec jB).sparse = 0 := by decide +kernel
/-- A K-row of B in that state is 96 bytes of zeros, and so is A's one segment. -/
theorem wit_matrixResults_rows :
    let j := running .mxq jA jB jC
    let s := withJob jobs j
    s.engElem s (j.thr 0 0) .l .load ((trec jB).base + BitVec.ofNat 64 0, 0) 768 0 ∧ s.engElem s (j.thr 0 0) .l .load ((trec jA).base, 0) 16 0 := by
  have h : ∀ base : Word, (∀ n, n < 96 → zeroAt (withJob jobs (running .mxq jA jB jC)) ((running .mxq jA jB jC).thr 0 0) .l (base + BitVec.ofNat 64 n) = true) → ∀ w, w ≤ 768 →
      (withJob jobs (running .mxq jA jB jC)).engElem (withJob jobs (running .mxq jA jB jC)) ((running .mxq jA jB jC).thr 0 0) .l .load (base, 0) w 0 := by
    intro base hz w hw
    refine ⟨Nat.two_pow_pos w, fun i hi => ?_⟩
    obtain ⟨b, hb⟩ := engView_zero (hz ((0 + i) / 8) (by omega)) (0 + i)
    exact ⟨b, hb.1, by simpa using hb.2⟩
  exact ⟨h _ (by decide +kernel) 768 (le_refl _), h _ (by decide +kernel) 16 (by omega)⟩
theorem wit_engineEvents_rest :
    ((st.modCluster 0 fun c => { c with testDue := true }).cluster 0).testDue = true ∧ ((st.modCluster 0 fun c => { c with testDue := true }).cluster 0).jobs = [] ∧
    (st.cluster 0).testDue = false ∧ (st.cluster 0).fenced ≤ 18 ∧ st.entryWaiters 0 0 = [] ∧ (inRun (.stalled (.jobEntry 0 none))).entryWaiters 0 0 = [15] ∧ st.shareRoom 0 0 = true ∧
    (st.modPart 0 fun p => { p with cfg := { p.cfg with qshare := 0 } }).shareRoom 0 0 = false ∧
    (let s := (st.modPart 0 fun p => { p with cut := some { cores := [0, 1], issuer := 15 } }).modCore 0 fun k => { k with sent := [(0, 2)] }
     (s.part 0).cut = some { cores := [0, 1], issuer := 15 } ∧ ([0, 1].map fun c => (s.core c).sent.getD 0 0).sum = 2 ∧ ([0, 1].map fun c => (s.core c).recv.getD 0 0).sum = 0 ∧
      ([0, 1].map fun c => ((s.modCore 1 fun k => { k with recv := [(0, 2)] }).core c).recv.getD 0 0).sum = 2 ∧ (s.cluster 0).jobs = []) ∧
    (let s := (st.modSlot 31 fun v => { v with packet := some 7 }).modPart 0 fun p => { p with waiting := [(.slot 31 0, 7)] }
     (s.part 0).waiting = [(.slot 31 0, 7)] ∧ s.holder? (.slot 31 0) = some 7 ∧ s.inboxFull 0 = false ∧
      (s.modPart 0 fun p => { p with tail := 64 }).inboxFull 0 = true) ∧
    (let w : List (Master × BitVec 512) := [(.slot 31 0, 8)]
     (w = [] ++ (.slot 31 0, 8) :: [] ∧ (∀ x ∈ ([] : List (Master × BitVec 512)), x.1 ≠ .slot 31 0)) ∧ jobs.copyCheck 0 (running .cpq 0 (recBits 0x40000 7 0 512 1 8 0 0 0) 0) = .ok ()) := by
  decide +kernel
theorem wit_inbox_waiting : ((st.modSlot 31 fun v => { v with packet := some 7 }).modPart 0 fun p => { p with waiting := [(.slot 31 0, 7)] }).plainInbox 0 :=
  plainInbox_of _ (by decide +kernel) (by decide +kernel)

/-- Links trained and not, keys that a running partition has and that none has, ports and functions. -/
theorem wit_outsideEvents_fabric :
    let t := st.modLink 23 fun l => { l with trained := true }
    (t.link 23).trained = true ∧ (t.link 23).frozen = false ∧ (st.link 23).trained = false ∧ (∀ p, p < 16 → ¬ ((t.part p).cfg.running = true ∧ (t.part p).cfg.key = 1)) ∧
    (t.part 0).cfg.running = true ∧ (t.part 0).cfg.key = 0 ∧ 8 + 8 ≤ hbmSize ∧ t.home = [] ∧ (∀ j, j < 8 → t.dirOwner (8 + j) = none) ∧ (Elem.s64.isInt = true ∧ 32 ≤ Elem.s64.width ∧ 8 % (Elem.s64.width / 8) = 0) ∧
    (msgTo 0 0).counted = true ∧ ({ msgTo 0 0 with counted := false }).counted = false ∧
    (8 : Nat).testBit 3 = true ∧ (∀ j, j < 3 → (8 : Nat).testBit j = false) ∧ 6 ≤ st.phase ∧ st.failed = false ∧ ({ st with phase := 5 }).phase < 6 := by decide +kernel
/-- A trained port whose function 0 may reach the page under partition 0's host ASID. -/
def hosted (frozen : Bool) : State :=
  let e : TlbEntry := { part := 0, asid := 1, level := 0, vpage := 1, pte := 0x1015F }
  let s := { pg with hostPort := .cxl4 }
  let s := (s.modCore 1152 fun c => { c with utlb := [e] }).modCluster 144 fun c => { c with tlb := [e] }
  s.modHostFn 0 fun f => { f with frozen := frozen }
theorem wit_outsideEvents_host :
    (hosted false).memOk = true ∧ (hosted false).hostPort ≠ .down ∧ (hosted false).hostPart 15 = none ∧ (hosted false).hostPart 0 = some 0 ∧ ((hosted true).hostFn 0).frozen = true ∧
    ((hosted false).hostFn 0).frozen = false ∧ ((hosted false).check ((hosted false).hostThr 0) .g .load false 0x10000 8 1 0).isOk = true ∧
    ((hosted false).check ((hosted false).hostThr 0) .g .store false 0x1FFFF 1 1 0).isOk = true ∧ ((hosted false).check ((hosted false).hostThr 0) .g .load false 0x20000 1 1 0).isOk = false ∧
    (0x7FF : Word).toNat < 2 ^ 11 ∧ 1151 < (1152 : Word).toNat ∧ (hosted false).startsIn 0 1151 false (.host 0) = some 18431 ∧ ((hosted false).part 0).tasks.length + 2 < 2 ^ 28 ∧
    ((hosted false).modPart 0 fun p => { p with cfg := { p.cfg with cores := 1 } }).ownsOn 0 1 = false ∧ (hosted true).hostPart 0 = some 0 ∧ (0xFF8 : Word).toNat < 4096 := by decide +kernel
/-- The page's first line counted at its home slice for three reads and spilled to the partition's first record; and a state that counts none. -/
def hostSpilled : State :=
  let h : HomeLine := { part := 0, asid := 1, data := 0, count := 0, spill := some 0 }
  let s := (hosted false).modPart 0 fun p => { p with cfg := { p.cfg with hways := 1, hcways := 1 } }
  { s with home := [(homeKey 1 512, h)], mem := s.mem.writeN (s.part 0).cfg.spillbase 16 (2 ^ 106 + 3 * 2 ^ 98 + 2 ^ 96 + 2 ^ 97 + 512 * 2 ^ 7) }
theorem wit_outsideEvents_spill :
    (∀ h ∈ (hosted false).home, h.2.spill = none) ∧ hostSpilled.memOk = true ∧ hostSpilled.hostPart 0 = some 0 ∧
    hostSpilled.check (hostSpilled.hostThr 0) .g .load false 0x10000 8 1 0 =
      .ok [{ off := 0, n := 8, addr := 0x10000, place := .glob { va := 0x10000, pa := 0x10000, tag := 1, level := 0, pte := 0x1015F } }] ∧
    (hostSpilled.home.get? (homeKey 1 512)).map (fun h => (h.spill, hostSpilled.homeLineCount h)) = some (some 0, 3) ∧
    hostSpilled.homeCountedIn 0 512 + hostSpilled.homeReservedIn 0 512 < (hostSpilled.part 0).cfg.hcways := by decide +kernel
theorem wit_outsideEvents_inbox : (hosted false).plainInbox 0 :=
  plainInbox_of _ (by decide +kernel) (by decide +kernel)
/-- A queue with and without room, and a core that takes no message. -/
def hostQueue (tail head : Nat) : State := { hosted false with mem := (queue tail head 0).mem }
theorem wit_outsideEvents_launch :
    (match (hostQueue 0 0).enqueue ((hostQueue 0 0).hostThr 0) 0x10000 0 0 with | .ok (_, some _) => true | _ => false) = true ∧
    (match (hostQueue 8 0).enqueue ((hostQueue 8 0).hostThr 0) 0x10000 0 0 with | .ok (_, none) => true | _ => false) = true ∧ (0x10000 : Word).toNat % 64 = 0 ∧
    ({ hosted false with cores := (boxed 0 [msgTo 0 0, msgTo 0 0, msgTo 0 0, msgTo 0 0]).cores }).inboxRoom 0 0 = false ∧ (hosted false).startsIn 0 0 false (.host 0) = none ∧ (hosted false).ownsOn 0 0 = true ∧
    ((other (.frozen .fault .none) 31 0).slot 31).run = .frozen .fault .none ∧ (other (.frozen .cut .none) 31 0).slotPart? 31 = some 0 := by decide +kernel

/-- The committed descriptor commits again; with a word that no field has it does not. A write beside the command registers, to a slot that runs and to a frozen one. -/
theorem wit_management :
    st.commitFails 0 (st.part 0).staged = [] ∧ (st.part 0).status.getLsbD 8 = false ∧ (({ st.part 0 with status := 256 } : Part).status.getLsbD 8) = true ∧ st.commitFails 0 ((st.part 0).staged.set 0xF00 1) = [0x0E] ∧ (st.slot 31).run = .idle ∧ (4088 : Nat) < 4096 ∧
    ((other (.frozen .fault .none) 31 0).slot 31).restoring = false ∧ (st.hostFn 0).frozen = false ∧ st.hostPart 0 = some 0 ∧ st.hostPart 1 = none ∧ st.memOk = true ∧
    (∀ p, p < 16 → ∀ e ∈ (st.part p).tasks, e.1 < (st.part p).cfg.dirsize) ∧ (∀ p, p < 16 → ¬ ((st.part p).cfg.dirbase ≤ 0x1000 ∧ 0x1000 < (st.part p).cfg.dirbase + 16 * (st.part p).cfg.dirsize)) ∧
    (st.die 0).head.toNat ≥ 3 ∧ ((st.die 0).box.get? 2).isSome = true ∧ (st.die 5).thermal = 0 ∧
    ((st.modDie 5 fun d => { d with thermal := 3 }).die 5).thermal = 3 ∧ (st.die 5).since + 30000000 > st.cycle ∧ ({ st with cycle := 30000000 }).cycle ≥ (st.die 5).since + 30000000 ∧
    (st.die 0).head.toNat < 2 ^ 31 ∧ (st.die 0).head.toNat < 1024 ∧ st.failed = false := by decide +kernel
theorem wit_management_fenced : ∀ c, (st.cluster c).fenced ≤ 18 := fun c =>
  Table.getD_all (P := fun (k : Cluster) => k.fenced ≤ 18) (by decide) (by decide +kernel)

/-- The decoding tests above give every constructor its word; these two stand for the hypotheses' two ends. -/
theorem wit_encodeDecode :
    (Instr.nop k16).wf = true ∧ (Instr.nop k16).isEvent = false ∧ (Instr.meet k12 31 (.reg 31) 0xFF000000).wf = true ∧ (Instr.meet k12 31 (.reg 31) 0xFF000000).isEvent = false ∧
    decode (encode (.nop k16)) = .ok (.nop k16) := by decide +kernel

/-- The first instruction after reset: on the agenda's word, by the default scheduler, and where its fetch fails. -/
def first : State := State.reset.withFetchWord 64 0x10
theorem wit_stepRuns :
    first.failed = false ∧ first.deadlineDue.isNone = true ∧ ({ first with agenda := [.issue 15], cycle := 15 } : State).issues 0 15 = some 15 ∧ first.due.isNone = true ∧ (match first.nextUp with | .issue n c => n == 15 && c == 15 | _ => false) = true ∧
    (match (first.begin 15 15).fetch ((first.begin 15 15).thr 15) (first.begin 15 15).pc with | .ok (_, bs) => decide (decode bs = .ok (.exit k8)) | .error _ => false) = true ∧
    (State.reset.begin 15 15).fetchDecode.isOk = false := by decide +kernel
theorem wit_memoryInvariant : State.reset.memOk = true ∧ (match step State.reset with | .next _ => true | _ => false) = true := by decide +kernel
theorem wit_turnRule :
    (st.core 0).lastIssue ≠ some 15 ∧ st.issues 0 15 = some 15 ∧ st.issues 0 14 = none ∧ st.slotPart? (16 * 0 + 15 % 16) = some 0 ∧
    (first.begin 15 15).issues 0 15 = none ∧ ((first.begin 15 15).core 0).lastIssue = some 15 := by decide +kernel
/-- The one fault: a device whose start-up has failed. -/
theorem test_nothing_refused_fault : step { State.reset with failed := true, phase := 3 } = .fault (.startUpFailed 3) := rfl

end Sys2Proof.Tests
end

section
/-! PROOFS. The turn rule (R20): the slot that issues is the first slot, in turn order from the turn's own, that is of the partition of the
turn's slot and may issue. -/

namespace Sys2Proof.Machine

variable {s : State} {core c n p : Nat}

/-- A slot's turn is not over (R262) just where no other member of the ring has the slice, and the partition's own slice, where it has it and
another member follows, lasts beyond the cycle. -/
theorem State.turnOver_eq_false_iff (hp : s.slotPart? n = some p) :
    s.turnOver n c = false ↔ ∀ q, s.inForce p (coreOfSlot n) = some q → q = p ∧
      (s.nextInRing p (coreOfSlot n) ≠ none →
        c < (s.core (coreOfSlot n)).sliceFrom.getD (s.part p).cfg.ring.toNat 0 + (s.part p).cfg.sliceLen) := by
  simp only [State.turnOver, State.sliceOver, hp, State.sliceEnds, Bool.or_eq_false_iff]
  cases s.inForce p (coreOfSlot n) with
  | none => simp
  | some q =>
    by_cases hq : q = p
    · cases s.nextInRing p (coreOfSlot n) <;> simp [hq]
    · simp [hq]

/-- The model's test of a slot that may issue decides what R17, R19, R20 and R262 ask of it. -/
theorem State.mayIssue_iff_readyIn : s.mayIssue c n = true ↔ s.readyIn c n := by
  cases hp : s.slotPart? n with
  | none => simp [State.mayIssue, State.readyIn, hp]
  | some p =>
    have hover := State.turnOver_eq_false_iff (c := c) hp
    cases hlast : (s.slot n).lastIssue <;>
      simp only [State.mayIssue, State.readyIn, hp, hlast, Bool.and_eq_true, Bool.not_eq_true', beq_iff_eq, decide_eq_true_eq,
        hover, Option.isSome_some, Option.some.injEq, exists_eq_left', reduceCtorEq, false_implies, implies_true, and_true,
        forall_eq'] <;>
      tauto

/-- A slot that may issue is held by a partition. -/
theorem State.readyIn.isSome_slotPart? (h : s.readyIn c n) : (s.slotPart? n).isSome = true := by
  obtain ⟨-, -, -, ⟨p, hp, -⟩, -⟩ := h
  simp [hp]

/-- The slot at place `i` of a core's search for an issuer, which begins at the turn's slot and wraps (R20). -/
def turnSlot (core c i : Nat) : Nat := 16 * core + (c % 16 + i) % 16

theorem coreOfSlot_turnSlot (core c i : Nat) : coreOfSlot (turnSlot core c i) = core := by
  simp only [coreOfSlot, turnSlot]; omega

/-- The search passes every slot of the core. -/
theorem exists_turnSlot_eq (core c : Nat) {i : Nat} (hi : i < 16) : ∃ k, k < 16 ∧ turnSlot core c k = 16 * core + i :=
  ⟨(i + 16 - c % 16) % 16, by omega, by simp only [turnSlot]; omega⟩

/-- A slot may take a core's turn in a cycle: it is of the partition of the turn's slot and may issue (R20). -/
def State.takesTurn (s : State) (core c n : Nat) : Prop :=
  s.slotPart? n = s.slotPart? (16 * core + c % 16) ∧ s.readyIn c n

/-- Where the turn's slot is held by a partition, the test of the model's search decides `takesTurn`. -/
theorem State.takesTurn_iff (hp : s.slotPart? (16 * core + c % 16) = some p) :
    s.takesTurn core c n ↔ (s.slotPart? n == some p && s.mayIssue c n) = true := by
  simp only [State.takesTurn, hp, Bool.and_eq_true, beq_iff_eq, State.mayIssue_iff_readyIn]

/-- Where no partition holds the turn's slot, no slot takes the turn (R20, R254). -/
theorem State.not_takesTurn_of_none (hp : s.slotPart? (16 * core + c % 16) = none) : ¬ s.takesTurn core c n := by
  rintro ⟨hpart, hready⟩
  simpa [hpart, hp] using hready.isSome_slotPart?

/-- The search finds the first slot in turn order that takes the turn. -/
theorem State.turn_eq_some (h : s.turn core c = some n) :
    ∃ j, n = turnSlot core c j ∧ s.takesTurn core c n ∧ ∀ i, i < j → ¬ s.takesTurn core c (turnSlot core c i) := by
  simp only [State.turn] at h
  split at h
  case h_1 => cases h
  case h_2 p hp =>
    rw [List.find?_map, Option.map_eq_some_iff] at h
    obtain ⟨j, hj, rfl⟩ := h
    obtain ⟨htakes, -, hfirst⟩ := List.find?_range_eq_some.1 hj
    exact ⟨j, rfl, (State.takesTurn_iff hp).2 htakes, fun i hi ht =>
      Bool.eq_false_iff.1 (Bool.eq_false_of_not_eq_true' (hfirst i hi)) ((State.takesTurn_iff hp).1 ht)⟩

/-- Where the search finds none, no slot of the core takes the turn. -/
theorem State.not_takesTurn_of_turn_eq_none (h : s.turn core c = none) {i : Nat} (hi : i < 16) :
    ¬ s.takesTurn core c (16 * core + i) := by
  simp only [State.turn] at h
  split at h
  case h_1 hp => exact State.not_takesTurn_of_none hp
  case h_2 p hp =>
    obtain ⟨k, hk, hslot⟩ := exists_turnSlot_eq core c hi
    rw [State.takesTurn_iff hp, ← hslot]
    exact List.find?_eq_none.1 h _ (List.mem_map.2 ⟨k, List.mem_range.2 hk, rfl⟩)

/-- A core that has not issued in the cycle issues by the turn. -/
theorem State.issues_eq_turn (h : (s.core core).lastIssue ≠ some c) : s.issues core c = s.turn core c := if_neg h

/-- A core issues no second instruction in a cycle (R17). -/
theorem State.issues_lastIssue {d : Nat} (h : (s.core core).lastIssue = some d) : s.issues core d = none := if_pos h

/-- Settles O60: the search that `State.turn` makes is read off as the first slot that takes the turn. -/
theorem turnRule : Obligations.TurnRule := by
  intro s c core hfresh
  rw [State.issues_eq_turn hfresh]
  refine ⟨fun n hn => ?_, fun hnone i hi p hown hpart hready => ?_, fun d => State.issues_lastIssue⟩
  · obtain ⟨j, hslot, ⟨hpart, hready⟩, hfirst⟩ := State.turn_eq_some hn
    refine ⟨hslot ▸ coreOfSlot_turnSlot core c j, hready, hpart, fun i _ ⟨hpart', hready'⟩ => ⟨j, ?_, hslot⟩⟩
    by_contra hlt
    exact hfirst i (Nat.lt_of_not_le hlt) ⟨hpart'.trans hpart, hready'⟩
  · exact State.not_takesTurn_of_turn_eq_none hnone hi ⟨hpart.trans hown.symm, hready⟩

end Sys2Proof.Machine
end

section
/-! PROOFS. The divisions (R88): the model's four results in whole numbers, and what an instruction that ends in one scalar result leaves. -/

namespace Sys2Proof.Machine

/-- An instruction that ends by writing a word to d completes, and d reads as any number the word is modulo 2^64 (R44, R86). -/
theorem exec_ends_of_retX {i : Instr} {s : State} {k : Enc} {d : Reg} {w : Word} {v : Int}
    (hexec : exec i s = s.retX k d w) (hw : w = BitVec.ofInt 64 v) :
    ∃ t, exec i s = .next t ∧ t.getX d = readBack d (BitVec.ofInt 64 v) ∧ Computed s t k (s.after k) 0 [d] [] [] := by
  subst hw
  rw [hexec]
  exact s.retX_ends k d _

theorem exec_div (k : Enc) (d a b : Reg) (s : State) : exec (.div k d a b) s = s.retX k d (divS (s.getX a) (s.getX b)) := rfl
theorem exec_divU (k : Enc) (d a b : Reg) (s : State) : exec (.divU k d a b) s = s.retX k d (divU (s.getX a) (s.getX b)) := rfl
theorem exec_rem (k : Enc) (d a b : Reg) (s : State) : exec (.rem k d a b) s = s.retX k d (remS (s.getX a) (s.getX b)) := rfl
theorem exec_remU (k : Enc) (d a b : Reg) (s : State) : exec (.remU k d a b) s = s.retX k d (remU (s.getX a) (s.getX b)) := rfl

theorem Word.eq_zero_iff (b : Word) : b = 0 ↔ b.toNat = 0 := BitVec.toNat_eq

/-- A word is its unsigned number modulo 2^64. -/
theorem Word.eq_ofInt_toNat (a : Word) : a = BitVec.ofInt 64 a.toNat := by
  rw [BitVec.ofInt_natCast, BitVec.ofNat_toNat, BitVec.setWidth_eq]

theorem divS_eq (a b : Word) :
    divS a b = BitVec.ofInt 64 (if b.toNat = 0 then -1 else if a.toInt = -2 ^ 63 ∧ b.toInt = -1 then -2 ^ 63 else a.toInt.tdiv b.toInt) := by
  simp only [divS, Word.eq_zero_iff]
  split
  · decide
  · split
    · -- the exact quotient 2^63 wraps to −2^63
      next hover =>
        rw [hover.1, hover.2]
        decide
    · rfl

theorem divU_eq (a b : Word) :
    divU a b = BitVec.ofInt 64 (if b.toNat = 0 then 2 ^ 64 - 1 else (a.toNat / b.toNat : Nat)) := by
  simp only [divU, Word.eq_zero_iff]
  split
  · decide
  · rw [BitVec.ofInt_natCast]

theorem remS_eq (a b : Word) :
    remS a b = BitVec.ofInt 64 (if b.toNat = 0 then a.toNat
      else if a.toInt = -2 ^ 63 ∧ b.toInt = -1 then 0 else a.toInt - b.toInt * a.toInt.tdiv b.toInt) := by
  simp only [remS, Word.eq_zero_iff]
  split
  · exact Word.eq_ofInt_toNat a
  · split
    · next hover =>
        rw [hover.1, hover.2]
        decide
    · rw [Int.tmod_def]

theorem remU_eq (a b : Word) :
    remU a b = BitVec.ofInt 64 (if b.toNat = 0 then a.toNat else (a.toNat : Int) - b.toNat * (a.toNat / b.toNat : Nat)) := by
  simp only [remU, Word.eq_zero_iff]
  split
  · exact Word.eq_ofInt_toNat a
  · rw [← BitVec.ofInt_natCast, Int.natCast_mod, Int.emod_def, Int.natCast_ediv]

/-- Every division completes with the quotient or remainder of R88. -/
theorem exec_ends_of_divResult {i : Instr} {s : State} {k : Enc} {d : Reg} {v : Int} (h : divResult s i = some (k, d, v)) :
    ∃ t, exec i s = .next t ∧ t.getX d = readBack d (BitVec.ofInt 64 v) ∧ Computed s t k (s.after k) 0 [d] [] [] := by
  unfold divResult at h
  split at h <;> cases h
  case h_1 => exact exec_ends_of_retX (exec_div ..) (divS_eq ..)
  case h_2 => exact exec_ends_of_retX (exec_divU ..) (divU_eq ..)
  case h_3 => exact exec_ends_of_retX (exec_rem ..) (remS_eq ..)
  case h_4 => exact exec_ends_of_retX (exec_remU ..) (remU_eq ..)

/-- Settles O2: each division ends in one scalar result, which is the number of R88; the word of SETC.LTU is decoded. -/
theorem division : Obligations.Division :=
  ⟨fun _ _ _ _ _ h => exec_ends_of_divResult h, rfl⟩

end Sys2Proof.Machine
end

section
/-! PROOFS. The class word (R94): the one class of a value, when each class holds in rational numbers, and the word read bit by bit. -/

namespace Sys2Proof.Machine

/-- The bit of [6:0] that a class word sets for a value of a format (R94). -/
def Num.classBit (t : Elem) : Num → Nat
  | .nan sig => if Elem.isTapered t then 6 else if sig then 5 else 4
  | .inf _ => 3
  | .fin _ m e => if m = 0 then 0 else if Elem.isTapered t then 2 else if e + Nat.log2 m < 1 - (Elem.bias t : Int) then 1 else 2

/-- A NaN sets one of bits 4 to 6. -/
@[simp] theorem Num.classBit_nan_ne (t : Elem) (sig : Bool) {j : Nat} (hj : j < 4) : (Num.nan sig).classBit t ≠ j := by
  rw [Num.classBit]; split_ifs <;> omega

/-- A finite value sets one of bits 0 to 2. -/
@[simp] theorem Num.classBit_fin_ne (t : Elem) (n : Bool) (m : Nat) (e : Int) {j : Nat} (hj : 2 < j) :
    (Num.fin n m e).classBit t ≠ j := by
  rw [Num.classBit]; split_ifs <;> omega

theorem Num.classBit_lt (t : Elem) (x : Num) : x.classBit t < 7 := by
  cases x with
  | nan sig => rw [Num.classBit]; split_ifs <;> omega
  | inf n => exact (by decide : 3 < 7)
  | fin n m e => rw [Num.classBit]; split_ifs <;> omega

/-- The sign bit `b` in bit 7, and class bit `c` (R94). -/
def classWordOf (b : Bool) (c : Nat) : Nat := (if b then 2 ^ 7 else 0) + 2 ^ c

/-- The model's class word is the sign in bit 7 beside the one class bit. -/
theorem classify_eq (t : Elem) (v : Nat) :
    classify t v = classWordOf (v.testBit (t.width - 1)) ((decNum t v).classBit t) := by
  rw [classify, classWordOf]
  congr 1
  cases decNum t v with
  | nan sig => simp only [Num.classBit]; split_ifs <;> rfl
  | inf n => rfl
  | fin n m e => simp only [Num.classBit]; split_ifs <;> rfl

/-! ### When each class holds -/

theorem Elem.isTapered_iff (t : Elem) : Elem.isTapered t = true ↔ t = .t8 ∨ t = .t6 := by
  cases t <;> decide

theorem Elem.not_isTapered_iff (t : Elem) : ¬ Elem.isTapered t = true ↔ t ≠ .t8 ∧ t ≠ .t6 := by
  rw [Elem.isTapered_iff, not_or]

/-- No tapered word is a signalling NaN (R72). -/
theorem decTapered_ne_signalling (t : Elem) (v : Nat) : decTapered t v ≠ .nan true := by
  simp only [decTapered]
  split_ifs <;> simp

theorem decNum_tapered_ne_signalling {t : Elem} (ht : Elem.isTapered t = true) (v : Nat) : decNum t v ≠ .nan true := by
  have hint : t.isInt = false := by
    rcases (Elem.isTapered_iff t).1 ht with rfl | rfl <;> rfl
  simpa [decNum, hint, ht] using decTapered_ne_signalling t v

theorem Num.abs_rat_fin (n : Bool) (m : Nat) (e : Int) : |(Num.fin n m e).rat| = m * (2 : ℚ) ^ e := by
  have hpos : (0 : ℚ) < 2 ^ e := zpow_pos (by norm_num) e
  cases n <;> simp [Num.rat, abs_mul, abs_of_pos hpos]

theorem Num.rat_fin_ne_zero_iff (n : Bool) (m : Nat) (e : Int) : (Num.fin n m e).rat ≠ 0 ↔ m ≠ 0 := by
  rw [← abs_ne_zero, Num.abs_rat_fin]
  simp [zpow_ne_zero]

/-- The leading bit of a finite value says which powers of two it lies below. -/
theorem Num.abs_rat_fin_lt_iff (n : Bool) {m : Nat} (e q : Int) (hm : m ≠ 0) :
    |(Num.fin n m e).rat| < (2 : ℚ) ^ q ↔ e + Nat.log2 m < q := by
  have hpos : (0 : ℚ) < 2 ^ e := zpow_pos (by norm_num) e
  rw [Num.abs_rat_fin, ← lt_div_iff₀ hpos, ← zpow_sub₀ (by norm_num)]
  have hlog := Int.lt_zpow_iff_log_lt (R := ℚ) (b := 2) (by norm_num) (x := q - e) (r := m) (by positivity)
  rw [Int.log_natCast, ← Nat.log2_eq_log_two] at hlog
  exact_mod_cast hlog.trans (by omega)

/-- The class of a nonzero finite value, by its magnitude. -/
theorem Num.classBit_fin_of_ne_zero (t : Elem) (n : Bool) {m : Nat} (e : Int) (hm : m ≠ 0) :
    (Num.fin n m e).classBit t =
      if Elem.isTapered t then 2 else if |(Num.fin n m e).rat| < (2 : ℚ) ^ (1 - (Elem.bias t : Int)) then 1 else 2 := by
  simp [Num.classBit, hm, Num.abs_rat_fin_lt_iff n e _ hm]

/-! ### The seven class bits of R94, each by the kinds of value -/

theorem Num.classBit_eq_nar_iff (t : Elem) (x : Num) : x.classBit t = 6 ↔ x.isNaN = true ∧ (t = .t8 ∨ t = .t6) := by
  rw [← Elem.isTapered_iff]
  cases x with
  | nan sig => cases sig <;> simp [Num.classBit, Num.isNaN]
  | inf n => simp [Num.classBit, Num.isNaN]
  | fin n m e => simp [Num.isNaN]

theorem Num.classBit_eq_snan_iff {t : Elem} {x : Num} (hx : Elem.isTapered t = true → x ≠ .nan true) :
    x.classBit t = 5 ↔ x = .nan true := by
  cases x with
  | nan sig => cases htap : Elem.isTapered t <;> cases sig <;> simp [Num.classBit, htap] at hx ⊢
  | inf n => simp [Num.classBit]
  | fin n m e => simp

theorem Num.classBit_eq_qnan_iff (t : Elem) (x : Num) : x.classBit t = 4 ↔ x = .nan false ∧ t ≠ .t8 ∧ t ≠ .t6 := by
  rw [← Elem.not_isTapered_iff]
  cases x with
  | nan sig => cases sig <;> cases htap : Elem.isTapered t <;> simp [Num.classBit, htap]
  | inf n => simp [Num.classBit]
  | fin n m e => simp

theorem Num.classBit_eq_inf_iff (t : Elem) (x : Num) : x.classBit t = 3 ↔ ∃ n, x = .inf n := by
  cases x with
  | nan sig => simp
  | inf n => simp [Num.classBit]
  | fin n m e => simp

theorem Num.classBit_eq_zero_iff (t : Elem) (x : Num) : x.classBit t = 0 ↔ ∃ n e, x = .fin n 0 e := by
  cases x with
  | nan sig => simp
  | inf n => simp [Num.classBit]
  | fin n m e => by_cases hm : m = 0 <;> simp [Num.classBit, hm]; split_ifs <;> simp

theorem Num.classBit_eq_subnormal_iff (t : Elem) (x : Num) :
    x.classBit t = 1 ↔ x.isFin = true ∧ x.rat ≠ 0 ∧ t ≠ .t8 ∧ t ≠ .t6 ∧ |x.rat| < (2 : ℚ) ^ (1 - (Elem.bias t : Int)) := by
  rw [← and_assoc (a := t ≠ .t8), ← Elem.not_isTapered_iff]
  cases x with
  | nan sig => simp [Num.isFin]
  | inf n => simp [Num.classBit, Num.isFin]
  | fin n m e =>
    rw [Num.rat_fin_ne_zero_iff]
    by_cases hm : m = 0
    · simp [Num.classBit, hm]
    · rw [Num.classBit_fin_of_ne_zero t n e hm]
      split_ifs <;> simp [Num.isFin, *]

theorem Num.classBit_eq_normal_iff (t : Elem) (x : Num) :
    x.classBit t = 2 ↔ x.isFin = true ∧ x.rat ≠ 0 ∧ (t = .t8 ∨ t = .t6 ∨ (2 : ℚ) ^ (1 - (Elem.bias t : Int)) ≤ |x.rat|) := by
  rw [← or_assoc, ← Elem.isTapered_iff]
  cases x with
  | nan sig => simp [Num.isFin]
  | inf n => simp [Num.classBit, Num.isFin]
  | fin n m e =>
    rw [Num.rat_fin_ne_zero_iff, ← not_lt]
    by_cases hm : m = 0
    · simp [Num.classBit, hm]
    · rw [Num.classBit_fin_of_ne_zero t n e hm]
      split_ifs <;> simp [Num.isFin, *]

/-! ### The word bit by bit -/

/-- Of bits 0 to 6, a class bit beside the sign is the one that is set. -/
theorem testBit_classWordOf (c : Nat) (b : Bool) {j : Nat} (hj : j < 7) :
    (classWordOf b c).testBit j = true ↔ c = j := by
  cases b with
  | false => simp [classWordOf, Nat.testBit_two_pow]
  | true => rw [classWordOf, if_pos rfl, Nat.testBit_two_pow_add_gt hj]; simp [Nat.testBit_two_pow]

theorem testBit_seven_classWordOf {c : Nat} (hc : c < 7) (b : Bool) : (classWordOf b c).testBit 7 = b := by
  have hne : c ≠ 7 := by omega
  cases b with
  | false => simp [classWordOf, hne]
  | true => rw [classWordOf, if_pos rfl, Nat.testBit_two_pow_add_eq]; simp [hne]

theorem classWordOf_lt {c : Nat} (hc : c < 7) (b : Bool) : classWordOf b c < 256 := by
  have hpow : 2 ^ c < 2 ^ 7 := Nat.pow_lt_pow_right (by decide) hc
  rw [classWordOf]
  split <;> omega

/-- Exactly one of bits 0 to 6 is set. -/
theorem length_filter_classWordOf {c : Nat} (hc : c < 7) (b : Bool) :
    ((List.range 7).filter (classWordOf b c).testBit).length = 1 := by
  have hbits : ∀ j ∈ List.range 7, (classWordOf b c).testBit j = (j == c) := fun j hj => by
    rw [Bool.eq_iff_iff, testBit_classWordOf c b (List.mem_range.1 hj), beq_iff_eq, eq_comm]
  rw [List.filter_congr hbits, ← List.countP_eq_length_filter]
  exact List.count_eq_one_of_mem List.nodup_range (List.mem_range.2 hc)

/-- The top bit of an element is set just where its number is in the upper half. -/
theorem testBit_width_pred_iff (t : Elem) {v : Nat} (hv : v < 2 ^ t.width) :
    v.testBit (t.width - 1) = true ↔ 2 ^ (t.width - 1) ≤ v := by
  have hw : t.width - 1 + 1 = t.width := by cases t <;> rfl
  refine ⟨Nat.ge_two_pow_of_testBit, fun hle => Nat.testBit_of_two_pow_le_and_two_pow_add_one_gt hle ?_⟩
  rwa [hw]

theorem exec_fclass (k : Enc) (t : Elem) (d a : Reg) (s : State) :
    exec (.fclass k t d a) s = s.retX k d (BitVec.ofNat 64 (classify t (s.u a % 2 ^ t.width))) := rfl

/-- Settles O8: the class word is a sign bit beside one class bit, and each class bit is a statement about the value. -/
theorem classWord : Obligations.ClassWord := by
  intro s k t d a _ v x
  have hc : x.classBit t < 7 := x.classBit_lt t
  have hv : v < 2 ^ t.width := Nat.mod_lt _ (Nat.two_pow_pos _)
  obtain ⟨s', hexec, hd, hcomp⟩ := s.retX_ends k d (BitVec.ofNat 64 (classify t v))
  refine ⟨s', classify t v, (exec_fclass ..).trans hexec, hd, hcomp, ?_⟩
  have hbit : ∀ j, j < 7 → ((classify t v).testBit j = true ↔ x.classBit t = j) := fun j hj => by
    rw [classify_eq, testBit_classWordOf _ _ hj]
  refine ⟨?_, ?_, ?_, ?_, ?_, ?_, ?_, ?_, ?_, ?_⟩
  · rw [classify_eq]; exact classWordOf_lt hc _
  · rw [classify_eq, testBit_seven_classWordOf hc, testBit_width_pred_iff t hv]
  · rw [classify_eq]; exact length_filter_classWordOf hc _
  · exact (hbit 6 (by decide)).trans (x.classBit_eq_nar_iff t)
  · exact (hbit 5 (by decide)).trans (Num.classBit_eq_snan_iff fun ht => decNum_tapered_ne_signalling ht v)
  · exact (hbit 4 (by decide)).trans (x.classBit_eq_qnan_iff t)
  · exact (hbit 3 (by decide)).trans (x.classBit_eq_inf_iff t)
  · exact (hbit 0 (by decide)).trans (x.classBit_eq_zero_iff t)
  · exact (hbit 1 (by decide)).trans (x.classBit_eq_subnormal_iff t)
  · exact (hbit 2 (by decide)).trans (x.classBit_eq_normal_iff t)

end Sys2Proof.Machine
end
